-- ==== Sys2Proof/Word.lean ====
section
/-! DEFINITION. The words of the part: bytes, status words, channel and slot indexes, and a table of eight like things. -/

namespace Sys2Proof

/-- A byte of a frame or of the configuration image. -/
abbrev Byte := BitVec 8

/-- A 16-bit status word (9.1). -/
abbrev Word := BitVec 16

/-- One of the eight channels; channel number `n` of the manual is the index `n - 1`. -/
abbrev Channel := Fin 8

/-- One of the eight source slots; slot number `n` of the manual is the index `n - 1` (R16). -/
abbrev SlotId := Fin 8

/-- The number 1 to 8 by which the manual, a frame or a status word names a channel. -/
def chanNumber (c : Channel) : Nat := c.val + 1

/-- The eight channels in ascending number. -/
def allChannels : List Channel := [0, 1, 2, 3, 4, 5, 6, 7]

/-- Eight like things, one for each channel or each slot. -/
structure Eight (α : Type) where
  e1 : α
  e2 : α
  e3 : α
  e4 : α
  e5 : α
  e6 : α
  e7 : α
  e8 : α
  deriving DecidableEq, Repr

/-- The thing held for index `c`. -/
def Eight.get {α : Type} (v : Eight α) (c : Fin 8) : α :=
  match c with
  | 0 => v.e1
  | 1 => v.e2
  | 2 => v.e3
  | 3 => v.e4
  | 4 => v.e5
  | 5 => v.e6
  | 6 => v.e7
  | 7 => v.e8

/-- The table with the thing for index `c` replaced. -/
def Eight.set {α : Type} (v : Eight α) (c : Fin 8) (x : α) : Eight α :=
  match c with
  | 0 => { v with e1 := x }
  | 1 => { v with e2 := x }
  | 2 => { v with e3 := x }
  | 3 => { v with e4 := x }
  | 4 => { v with e5 := x }
  | 5 => { v with e6 := x }
  | 6 => { v with e7 := x }
  | 7 => { v with e8 := x }

/-- Eight equal things. -/
def Eight.fill {α : Type} (x : α) : Eight α := ⟨x, x, x, x, x, x, x, x⟩

/-- A table worked out index by index. -/
def Eight.tabulate {α : Type} (f : Fin 8 → α) : Eight α :=
  ⟨f 0, f 1, f 2, f 3, f 4, f 5, f 6, f 7⟩

/-- Every member mapped by one function. -/
def Eight.map {α β : Type} (f : α → β) (v : Eight α) : Eight β :=
  ⟨f v.e1, f v.e2, f v.e3, f v.e4, f v.e5, f v.e6, f v.e7, f v.e8⟩

/-- The members in index order. -/
def Eight.toList {α : Type} (v : Eight α) : List α :=
  [v.e1, v.e2, v.e3, v.e4, v.e5, v.e6, v.e7, v.e8]

end Sys2Proof
end

