-- ==== Sys2Proof/Syntax.lean ====
section
/-! DEFINITION. The commands of the part: one constructor of `Instr` for each row of spec/opcode_table.json.
The table gives its rows no operands; each constructor carries what the governing rule needs from outside the part. -/

namespace Sys2Proof

/-- The three levels of the supervised rain input (1.4). -/
inductive RainLevel where
  | dry
  | wet
  | fault
  deriving DecidableEq, Repr

/-- The two limit inputs of a channel (6.5). -/
inductive Limit where
  | closed
  | opened
  deriving DecidableEq, Repr

/-- The two wall switches (8.9). -/
inductive SwitchId where
  | swClose
  | swOpen
  deriving DecidableEq, Repr

/-- The address bytes 1 to 3 of a frame heard on the line (R137); its kind is the command's and its length the payload's. -/
structure Header where
  source : Byte
  target : Byte
  groups : Byte
  deriving DecidableEq, Repr

/-- The kinds of request frame (R142). -/
inductive RequestKind where
  | cmd
  | read
  | take
  | clear
  | restart
  deriving DecidableEq, Repr

/-- The commands: one constructor per row of the opcode table, in the table's order. -/
inductive Instr where
  /-- COLD_START: power-on or release of the reset line. -/
  | coldStart
  /-- RESET_ASSERTED: the reset line becomes active. -/
  | resetAsserted
  /-- LOAD_COMPLETE: the load ends; `image` is what the serial memory answered, byte 0 first. -/
  | loadComplete (image : List Byte)
  /-- ANEMOMETER_PULSE. -/
  | anemometerPulse
  /-- SUB_WINDOW_EXPIRY; `vane` is the level of the lines V4 V3 V2 V1 at the expiry. -/
  | subWindowExpiry (vane : BitVec 4)
  /-- OBSERVATION_PERIOD_EXPIRY. -/
  | observationPeriodExpiry
  /-- RAIN_LEVEL_CHANGE; `level` is the new level. -/
  | rainLevelChange (level : RainLevel)
  /-- RAIN_CONFIRM_EXPIRY. -/
  | rainConfirmExpiry
  /-- SOURCE_STALE of one slot. -/
  | sourceStale (slot : SlotId)
  /-- SOURCE_LOST of one slot. -/
  | sourceLost (slot : SlotId)
  /-- STORM_RELEASE_EXPIRY. -/
  | stormReleaseExpiry
  /-- CALM_HOLD_EXPIRY of one channel. -/
  | calmHoldExpiry (c : Channel)
  /-- OWN_SETTLE_EXPIRY of the own entry of one channel. -/
  | ownSettleExpiry (c : Channel)
  /-- CLAIM_REFRESH_DUE of the own entry of one channel. -/
  | claimRefreshDue (c : Channel)
  /-- PEER_SETTLE_EXPIRY of the peer entry with this key. -/
  | peerSettleExpiry (station : Nat) (tag : Nat)
  /-- CLAIM_EXPIRED of the peer entry with this key. -/
  | claimExpired (station : Nat) (tag : Nat)
  /-- TABLE_FULL_EXPIRY. -/
  | tableFullExpiry
  /-- WARNING_TIMER_EXPIRY of one channel. -/
  | warningTimerExpiry (c : Channel)
  /-- BLANKING_EXPIRY of one channel; `current` is the sensed motor current then, in draw units. -/
  | blankingExpiry (c : Channel) (current : Nat)
  /-- OVERCURRENT of one channel; `current` is the level the sensed current has risen to, in draw units. -/
  | overcurrent (c : Channel) (current : Nat)
  /-- BACKOFF_EXPIRY of one channel. -/
  | backoffExpiry (c : Channel)
  /-- RETRY_TIMER_EXPIRY of one channel. -/
  | retryTimerExpiry (c : Channel)
  /-- BRAKE_EXPIRY of one channel. -/
  | brakeExpiry (c : Channel)
  /-- TRAVEL_TIMER_EXPIRY of one channel. -/
  | travelTimerExpiry (c : Channel)
  /-- LIMIT_ACTIVE of one limit input of one channel. -/
  | limitActive (c : Channel) (limit : Limit)
  /-- LIMIT_INACTIVE of one limit input of one channel. -/
  | limitInactive (c : Channel) (limit : Limit)
  /-- CHIRP_EXPIRY. -/
  | chirpExpiry
  /-- OBS_RECEIVED. -/
  | obsReceived (h : Header) (payload : List Byte)
  /-- PRES_RECEIVED. -/
  | presReceived (h : Header) (payload : List Byte)
  /-- CLAIM_RECEIVED. -/
  | claimReceived (h : Header) (payload : List Byte)
  /-- RELEASE_RECEIVED. -/
  | releaseReceived (h : Header) (payload : List Byte)
  /-- REPLY_RECEIVED. -/
  | replyReceived (h : Header) (payload : List Byte)
  /-- DUPLICATE_RECEIVED: a valid frame whose source byte is the own station number. -/
  | duplicateReceived
  /-- RX_FRAME_FAULT; `b` is the byte at which the frame being assembled is found faulty. -/
  | rxFrameFault (b : Byte)
  /-- RX_GAP_EXPIRY. -/
  | rxGapExpiry
  /-- CMD_CLOSE: a CMD frame whose verb byte is 1. -/
  | cmdClose (h : Header) (payload : List Byte)
  /-- CMD_OPEN: a CMD frame whose verb byte is 2. -/
  | cmdOpen (h : Header) (payload : List Byte)
  /-- CMD_STOP: a CMD frame whose verb byte is 3. -/
  | cmdStop (h : Header) (payload : List Byte)
  /-- CMD_HOLD: a CMD frame whose verb byte is 4. -/
  | cmdHold (h : Header) (payload : List Byte)
  /-- CMD_UNHOLD: a CMD frame whose verb byte is 5. -/
  | cmdUnhold (h : Header) (payload : List Byte)
  /-- CMD_BAD_VERB: a CMD frame whose verb byte is 0 or over 5. -/
  | cmdBadVerb (h : Header) (payload : List Byte)
  /-- READ. -/
  | read (h : Header) (payload : List Byte)
  /-- TAKE. -/
  | take (h : Header) (payload : List Byte)
  /-- CLEAR. -/
  | clear (h : Header) (payload : List Byte)
  /-- RESTART. -/
  | restart (h : Header) (payload : List Byte)
  /-- HOLD_EXPIRY. -/
  | holdExpiry
  /-- SWITCH_INPUT_CHANGE of one switch; `active` is the new level of its input. -/
  | switchInputChange (sw : SwitchId) (active : Bool)
  /-- SWITCH_RELEASE_DEBOUNCE of one switch. -/
  | switchReleaseDebounce (sw : SwitchId)
  /-- SW_CLOSE_PRESS. -/
  | swClosePress
  /-- SW_OPEN_PRESS. -/
  | swOpenPress
  /-- DEFERRAL_SLOT; `slot` is the number of the deferral slot the quiet line has reached. -/
  | deferralSlot (slot : Nat)
  /-- TRANSMIT_COMPLETE. -/
  | transmitComplete
  /-- ECHO_MISMATCH. -/
  | echoMismatch
  /-- JOIN_TIMER_EXPIRY. -/
  | joinTimerExpiry
  /-- ISOLATION_TIMER_EXPIRY. -/
  | isolationTimerExpiry
  /-- PRESENCE_TIMER_EXPIRY. -/
  | presenceTimerExpiry
  /-- FRAME_PASSED_OVER: a valid request frame that is not addressed to the station. -/
  | framePassedOver (kind : RequestKind) (h : Header) (payload : List Byte)
  /-- LINE_BYTE_ARRIVAL; `b` is the byte. -/
  | lineByteArrival (b : Byte)
  /-- RX_QUIET_RESYNC. -/
  | rxQuietResync
  deriving DecidableEq, Repr

end Sys2Proof
end

