-- ==== Sys2Proof/Config.lean ====
section
/-! DEFINITION. What a configuration load fixes until the next start (10.1): the settings of every block, with the
defaults of the image table, and the fixed times of the drivers and switches. -/

namespace Sys2Proof

/-- The channel classes (R108). -/
inductive ChannelClass where
  | unused
  | skylight
  | windowHigh
  | windowLow
  deriving DecidableEq, Repr

/-- A channel's facing: a sector 0 to 15, or ROOF (R108). -/
inductive Facing where
  | sector (n : Nat)
  | roof
  deriving DecidableEq, Repr

/-- The isolation policy (R52). -/
inductive Policy where
  | closeAll
  | holdPosition
  deriving DecidableEq, Repr

/-- A channel configuration record as taken at the load (R108). -/
structure ChannelCfg where
  cls : ChannelClass
  facing : Facing
  zone : Nat
  draw : Nat
  travelS : Nat
  threshold : Nat
  groups : Byte
  /-- Limit mode TIMED; SWITCHES otherwise. -/
  timed : Bool
  /-- Limit polarity "opening contacts"; "closing contacts" otherwise. -/
  openingContacts : Bool
  localSwitch : Bool
  deriving DecidableEq, Repr

/-- The record of a channel taken as UNUSED: its other fields are the defaults, which no rule reads (R109). -/
def ChannelCfg.unused : ChannelCfg :=
  { cls := .unused, facing := .sector 0, zone := 0, draw := 15, travelS := 60, threshold := 25
    groups := 0, timed := false, openingContacts := false, localSwitch := false }

/-- A channel is enabled when its class is not UNUSED (R108). -/
def ChannelCfg.enabled (r : ChannelCfg) : Bool := r.cls != .unused

/-- Positions of a channel (R110). -/
inductive Position where
  | closed
  | opened
  | part
  | unknown
  deriving DecidableEq, Repr, Inhabited

/-- The settings, as brought into range by the loader (R184 to R187). -/
structure Settings where
  station : Nat
  circuit : Nat
  budget : Nat
  isoShare : Nat
  rateCode : Nat
  presenceS : Nat
  isolationS : Nat
  lifetimeS : Nat
  settleMs : Nat
  txRetries : Nat
  obsPeriodS : Nat
  publishStep : Nat
  staleS : Nat
  anemK : Nat
  dirMinSpeed : Nat
  hasAnemometer : Bool
  hasVane : Bool
  hasRain : Bool
  wetConfirmS : Nat
  dryConfirmMin : Nat
  tWind : Nat
  tRain : Nat
  tStorm : Nat
  hyst : Nat
  calmHoldMin : Nat
  policy : Policy
  remoteRestart : Bool
  localOpen : Bool
  authority : List Nat
  sources : Eight Nat
  warningS : Nat
  blankingMs : Nat
  obstrRetries : Nat
  retryBaseS : Nat
  channels : Eight ChannelCfg
  deriving DecidableEq, Repr

/-- The settings of a DEFAULTED load: the default column of the image table (R188). -/
def Settings.defaults : Settings :=
  { station := 0, circuit := 0, budget := 100, isoShare := 0, rateCode := 0, presenceS := 5
    isolationS := 30, lifetimeS := 12, settleMs := 250, txRetries := 3, obsPeriodS := 10
    publishStep := 30, staleS := 30, anemK := 700, dirMinSpeed := 20, hasAnemometer := true
    hasVane := true, hasRain := true, wetConfirmS := 4, dryConfirmMin := 10, tWind := 110
    tRain := 40, tStorm := 200, hyst := 20, calmHoldMin := 15, policy := .closeAll
    remoteRestart := false, localOpen := false, authority := [0, 0, 0, 0]
    sources := Eight.fill 0, warningS := 3, blankingMs := 400, obstrRetries := 3
    retryBaseS := 20, channels := Eight.fill ChannelCfg.unused }

namespace Config

/-- FREE VALUE (log 32): the position held by a channel found with both limits active when it is set as at a cold start.
R135 makes it FAULTED(LIMIT) and states no position. -/
opaque freePosition : Nat → Position

/-- Brake time, 0.5 s (6.1). -/
def brakeMs : Nat := 500

/-- Backoff time, 1 s (6.1). -/
def backoffMs : Nat := 1000

/-- Chirp time, 0.5 s (6.1). -/
def chirpMs : Nat := 500

/-- Sub-window interval, 1 s (R1). -/
def subWindowMs : Nat := 1000

/-- Fault confirm, 2 s (1.4). -/
def faultConfirmMs : Nat := 2000

/-- Switch debounce, 50 ms (R173). -/
def debounceMs : Nat := 50

/-- Cap of the retry delay, 900 s (R118). -/
def retryCapS : Nat := 900

/-- Most entries of the claim table (R79). -/
def tableSize : Nat := 24

/-- Most frames of the transmit queue (R143). -/
def txSize : Nat := 8

/-- Drops in a row that mute the link (R155). -/
def dropLimit : Nat := 8

/-- Where a counter byte saturates (R178). -/
def counterMax : Nat := 255

/-- Where a frame count saturates (R159). -/
def countMax : Nat := 65535

/-- Where the pulse count saturates (R1). -/
def pulseMax : Nat := 1023

/-- Where a gust saturates (R3). -/
def gustMax : Nat := 999

/-- DESIGN CHOICE (log 2): the time one step of the idle part lets pass, which divides every timer of the part. -/
def tickMs : Nat := 10

end Config

end Sys2Proof
end

