-- ==== Sys2Proof/Machine/State.lean ====
section
/-! DEFINITION. The state of the part, block by block, as plain data; the reasons a step can stop; the state after reset.
Timers: `none` is stopped, `some n` is running with `n` milliseconds left. -/

namespace Sys2Proof.Machine

/-- Reasons for a fault. There are none: the manual gives every event an effect, or none, in every state (log 11).
Nobody raises one, which is safe. -/
inductive Fault where
  deriving DecidableEq, Repr

/-- Reasons for a refusal. -/
inductive Refusal where
  /-- Raised by an arm of `exec` for a command with no meaning yet. Every command has its meaning, so nobody raises it.
  It would be safe: the model would stop where the part goes on. -/
  | notModelled (mnemonic : String)
  deriving DecidableEq, Repr

/-! ### Start-up (chapter 10) -/

/-- Where the part stands in a start (R189, R190). -/
inductive Phase where
  /-- The reset line is active. -/
  | held
  /-- A cold start is loading its configuration. -/
  | coldLoad
  /-- A warm restart is reloading its configuration. -/
  | warmLoad
  /-- The load has completed. -/
  | running
  deriving DecidableEq, Repr

/-- The load result (10.1). -/
inductive LoadResult where
  | loaded
  | clamped
  | defaulted
  deriving DecidableEq, Repr

/-- The Configuration Loader's own state (10.1). -/
structure Loader where
  image : List Byte
  result : Option LoadResult
  clamps : Nat
  deriving DecidableEq, Repr

/-! ### Field lines -/

/-- The inputs of one channel as they stand: the two limit contacts (true: closed) and the sensed current. -/
structure ChannelPins where
  closedContact : Bool
  openContact : Bool
  current : Nat
  deriving DecidableEq, Repr

/-- The sensing and channel inputs as they stand. -/
structure Pins where
  rain : RainLevel
  vane : BitVec 4
  chans : Eight ChannelPins
  deriving DecidableEq, Repr

/-! ### Sensing Unit (chapter 1) -/

/-- The rain state (1.1). -/
inductive RainState where
  | dry
  | wet
  | fault
  | noSensor
  deriving DecidableEq, Repr

/-- A running rain confirm: its target and its timer (R5). -/
structure Confirm where
  target : RainState
  left : Nat
  deriving DecidableEq, Repr

/-- The Sensing Unit (1.1). The ring is oldest, middle, newest. -/
structure Sensing where
  running : Bool
  pulses : Nat
  ring1 : Nat
  ring2 : Nat
  ring3 : Nat
  gust : Option Nat
  peak : Option Nat
  published : Nat
  vane : Nat
  rain : RainState
  confirm : Option Confirm
  subWindow : Option Nat
  obsPeriod : Option Nat
  deriving DecidableEq, Repr

/-! ### Picture Unit (chapter 2) -/

/-- A rain report held in a source entry (2.1). -/
inductive RainReport where
  | dry
  | wet
  | fault
  deriving DecidableEq, Repr

/-- The fields of an observation taken into an entry (R17). -/
structure Obs where
  gust : Option Nat
  sector : Nat
  rain : Option RainReport
  deriving DecidableEq, Repr

/-- The state of a source entry with the fields it holds; the age is in milliseconds (R17, R22). -/
inductive SourceEntry where
  | absent
  | fresh (o : Obs) (ageMs : Nat)
  | stale (o : Obs) (ageMs : Nat)
  deriving DecidableEq, Repr

/-- A source slot; station 0 is an unused slot (R16). -/
structure Slot where
  station : Nat
  isSelf : Bool
  entry : SourceEntry
  deriving DecidableEq, Repr

/-- The fused rain state (2.1). -/
inductive RainPicture where
  | dry
  | wet
  | unknown
  deriving DecidableEq, Repr

/-- The fused picture; `none` is UNKNOWN. Wind quality is read off G (R29). -/
structure Picture where
  g : Option Nat
  w : Option Nat
  r : RainPicture
  deriving DecidableEq, Repr

/-- The Picture Unit (2.1). -/
structure PictureUnit where
  slots : Eight Slot
  fused : Picture
  deriving DecidableEq, Repr

/-! ### Demand Evaluator (chapter 3) -/

/-- Causes of demands, jobs and motions (R57, R110). -/
inductive Cause where
  | storm
  | rain
  | wind
  | isolation
  | command
  | wall
  | openCommand
  | openWall
  deriving DecidableEq, Repr

/-- A demand that is SET: its cause and class (3.1). -/
structure Demand where
  cause : Cause
  cls : Nat
  deriving DecidableEq, Repr

/-- What the Demand Evaluator holds for one channel; `demand = none` is CLEAR (3.1). -/
structure Exposed where
  exposure : Option Nat
  demand : Option Demand
  calm : Option Nat
  deriving DecidableEq, Repr

/-- The Demand Evaluator (3.1). -/
structure Evaluator where
  storm : Bool
  stormRelease : Option Nat
  chans : Eight Exposed
  deriving DecidableEq, Repr

/-! ### Motion Queue (chapter 4) -/

/-- Direction of a job or motion. -/
inductive Direction where
  | close
  | opening
  deriving DecidableEq, Repr

/-- Who asked: a station, a wall switch (LOCAL), or nobody (R57). -/
inductive Requester where
  | station (n : Nat)
  | wall
  | absent
  deriving DecidableEq, Repr

/-- Job states (R57). -/
inductive JobState where
  | waiting
  | announcing
  | settling
  deriving DecidableEq, Repr

/-- A motion job (R57). `heldBack` marks a job whose CLAIM was dropped from a full transmit queue (R86). -/
structure Job where
  chan : Channel
  dir : Direction
  cls : Nat
  zone : Nat
  exposure : Option Nat
  cause : Cause
  requester : Requester
  retry : Nat
  state : JobState
  heldBack : Bool
  deriving DecidableEq, Repr

/-! ### Supply Share Unit (chapter 5) -/

/-- Claim entry states (R79); a SETTLING entry runs its settle interval. -/
inductive ClaimState where
  | announcing
  | settling (left : Nat)
  | held
  | yielding
  deriving DecidableEq, Repr

/-- A claim table entry (R79). `refreshBarred` marks an entry whose CLAIM was dropped from a full transmit queue
while it was SETTLING or HELD: no refresh is queued for it once HELD until a frame has left the queue (R86). -/
structure Entry where
  station : Nat
  tag : Nat
  chan : Channel
  draw : Nat
  cls : Nat
  lifetimeS : Nat
  state : ClaimState
  ageMs : Nat
  own : Bool
  reasserted : Bool
  refreshBarred : Bool
  deriving DecidableEq, Repr

/-- The Supply Share Unit. The table-full flag is set exactly while its timer runs (R98). -/
structure Supply where
  entries : List Entry
  tagCounter : Nat
  tableFull : Option Nat
  heldExcess : Bool
  deriving DecidableEq, Repr

/-! ### Channel Drivers (chapter 6) -/

/-- Fault kinds (R131). -/
inductive FaultKind where
  | travel
  | limit
  | obstructed
  deriving DecidableEq, Repr

/-- The motion record (R110). -/
structure Motion where
  dir : Direction
  cls : Nat
  cause : Cause
  requester : Requester
  retry : Nat
  attempt : Option Nat
  stopAtEnd : Bool
  deriving DecidableEq, Repr

/-- A channel's state with what it holds in that state (R110). The position of CLOSING, OPENING, BRAKE, BACKOFF and
BLOCKED is PART. Timers that run throughout a state are plain numbers of milliseconds left. -/
inductive Driver where
  | disabled
  | idle (p : Position)
  | warning (p : Position) (m : Motion) (left : Nat)
  | closing (m : Motion) (travel : Nat) (blanking : Option Nat)
  | opening (m : Motion) (travel : Nat) (blanking : Option Nat)
  | brake (m : Motion) (left : Nat)
  | backoff (m : Motion) (driveOn : Bool) (left : Nat)
  | blocked (m : Motion) (left : Nat)
  | faulted (p : Position) (k : FaultKind)
  deriving DecidableEq, Repr

/-! ### Line Controller and Link Supervisor (chapter 7) -/

/-- Kinds of frame (R137). -/
inductive FrameKind where
  | obs
  | pres
  | claim
  | release
  | cmd
  | read
  | take
  | clear
  | restart
  | reply
  deriving DecidableEq, Repr

/-- A whole frame; its length and check byte are worked out from the rest (R137). -/
structure Frame where
  kind : FrameKind
  prio : Nat
  source : Byte
  target : Byte
  groups : Byte
  payload : List Byte
  deriving DecidableEq, Repr

/-- What the owner of a queued frame must be told its result by: a CLAIM's tag and NEW flag, and whether a REPLY answers
an accepted RESTART (R149, R172). -/
inductive FrameOwner where
  | obs
  | pres
  | claim (tag : Nat) (isNew : Bool)
  | release
  | reply (forRestart : Bool)
  deriving DecidableEq, Repr

/-- A frame of the transmit queue with its attempt count; `sending` while it is under transmission (R145, R148). -/
structure TxFrame where
  frame : Frame
  owner : FrameOwner
  attempts : Nat
  sending : Bool
  deriving DecidableEq, Repr

/-- The receive path (R139). -/
inductive Receiver where
  | idle
  | assembling (bytes : List Byte)
  | passingOver
  deriving DecidableEq, Repr

/-- The Line Controller: the receive path and the transmit queue, head first. -/
structure Line where
  rx : Receiver
  queue : List TxFrame
  deriving DecidableEq, Repr

/-- Link states (7.6). -/
inductive LinkState where
  | offline
  | listen
  | active
  | isolated
  | mute
  deriving DecidableEq, Repr

/-- The Link Supervisor (7.6). -/
structure Link where
  state : LinkState
  join : Option Nat
  isolation : Option Nat
  presence : Option Nat
  drops : Nat
  deriving DecidableEq, Repr

/-! ### Request Handler (chapter 8) -/

/-- One wall switch: its input, its debounced level, whether it was active when the handler started and has not yet
stood released (R173), and its running debounce. -/
structure Switch where
  input : Bool
  pressed : Bool
  mustRelease : Bool
  debounce : Option Nat
  deriving DecidableEq, Repr

/-- The Request Handler: the station hold with its remaining time, the pending restart, the switches (8.1). -/
structure Requests where
  hold : Option Nat
  pendingRestart : Bool
  swClose : Switch
  swOpen : Switch
  deriving DecidableEq, Repr

/-! ### Status Block (chapter 9) -/

/-- The sixteen kinds of event (9.2). -/
inductive Event where
  | obstruction
  | travelFault
  | limitFault
  | openBlocked
  | rainLineFault
  | sourceLost
  | isolated
  | duplicateStation
  | txDropped
  | txOverflow
  | rxError
  | claimExpired
  | overBudget
  | configClamped
  | requestRefused
  | storm
  deriving DecidableEq, Repr

/-- The error codes (R179). -/
inductive ErrorCode where
  | authority
  | held
  | stationHold
  | link
  | fault
  | busy
  | noChannel
  | range
  | badRequest
  | restartNotAllowed
  | txDropped
  | txOverflow
  | rxCheck
  | rxLength
  | rxGap
  | obstructedFinal
  | travel
  | limit
  | claimExpired
  | overBudget
  | duplicate
  | tableFull
  deriving DecidableEq, Repr

/-- The sixteen event counters (9.2), by name. -/
structure Counters where
  obstruction : Nat
  travelFault : Nat
  limitFault : Nat
  openBlocked : Nat
  rainLineFault : Nat
  sourceLost : Nat
  isolated : Nat
  duplicateStation : Nat
  txDropped : Nat
  txOverflow : Nat
  rxError : Nat
  claimExpired : Nat
  overBudget : Nat
  configClamped : Nat
  requestRefused : Nat
  storm : Nat
  deriving DecidableEq, Repr

/-- The Status Block's records and the Line Controller's four counts (R178, R179, R159). -/
structure Status where
  flags : Word
  counters : Counters
  errorCode : Option ErrorCode
  errorSource : Nat
  refusedWhat : Nat
  refusedBy : Requester
  received : Nat
  rejected : Nat
  sent : Nat
  retries : Nat
  deriving DecidableEq, Repr

/-! ### The whole part -/

/-- The model's own marks within one command: a scan (R68) and a warm restart (R172) to be made when the command's own
effect is complete. Both are clear between commands (log 12). -/
structure Work where
  scan : Bool
  restart : Bool
  deriving DecidableEq, Repr

/-- The state of the part, and the commands that wait for it, first in first out. `free` is the model's own count of the
free values taken so far (log 32). -/
structure State where
  pending : List Instr
  phase : Phase
  loader : Loader
  cfg : Settings
  pins : Pins
  sensing : Sensing
  picture : PictureUnit
  eval : Evaluator
  jobs : List Job
  supply : Supply
  drivers : Eight Driver
  chirp : Option Nat
  line : Line
  link : Link
  requests : Requests
  status : Status
  work : Work
  free : Nat
  deriving DecidableEq, Repr

/-! ### Start values -/

/-- Every counter at 0 (R182). -/
def Counters.zero : Counters :=
  ⟨0, 0, 0, 0, 0, 0, 0, 0, 0, 0, 0, 0, 0, 0, 0, 0⟩

/-- The Status Block after a cold start (R182, R158). -/
def Status.reset : Status :=
  { flags := 0, counters := Counters.zero, errorCode := none, errorSource := 0, refusedWhat := 0
    refusedBy := .absent, received := 0, rejected := 0, sent := 0, retries := 0 }

/-- The Sensing Unit while it is stopped (R14, R15). -/
def Sensing.stopped : Sensing :=
  { running := false, pulses := 0, ring1 := 0, ring2 := 0, ring3 := 0, gust := none, peak := none
    published := 0, vane := 16, rain := .dry, confirm := none, subWindow := none
    obsPeriod := none }

/-- The picture UNKNOWN in G, W and R (R32). -/
def Picture.unknown : Picture := { g := none, w := none, r := .unknown }

/-- A slot that names no source (R16). -/
def Slot.unused : Slot := { station := 0, isSelf := false, entry := .absent }

/-- The Picture Unit until the load completes (R32). -/
def PictureUnit.start : PictureUnit := { slots := Eight.fill Slot.unused, fused := Picture.unknown }

/-- The Demand Evaluator at a start (R56). -/
def Evaluator.start : Evaluator :=
  { storm := false, stormRelease := none
    chans := Eight.fill { exposure := none, demand := none, calm := none } }

/-- The Supply Share Unit at a start (R107). -/
def Supply.start : Supply := { entries := [], tagCounter := 0, tableFull := none, heldExcess := false }

/-- The Line Controller at a start (R158). -/
def Line.start : Line := { rx := .idle, queue := [] }

/-- The Link Supervisor at a start (R150, R158). -/
def Link.start : Link :=
  { state := .offline, join := none, isolation := none, presence := none, drops := 0 }

/-- A switch released with no debounce running, its input not active (R175). -/
def Switch.released : Switch :=
  { input := false, pressed := false, mustRelease := false, debounce := none }

/-- The Request Handler at a start (R175). -/
def Requests.start : Requests :=
  { hold := none, pendingRestart := false, swClose := Switch.released, swOpen := Switch.released }

/-- DESIGN CHOICE (log 6): the field lines at power-on: a dry rain line, no vane line active, every contact open, no
motor current. -/
def Pins.reset : Pins :=
  { rain := .dry, vane := 0
    chans := Eight.fill { closedContact := false, openContact := false, current := 0 } }

/-- The loader before the first load: no load result (R189); DESIGN CHOICE (log 7): an image copy of zeros. -/
def Loader.reset : Loader := { image := List.replicate 128 0, result := none, clamps := 0 }

/-- The part right after reset: the cold-start values of every block, with the configuration load under way (R189). -/
def State.reset : State :=
  { pending := [], phase := .coldLoad, loader := Loader.reset, cfg := Settings.defaults
    pins := Pins.reset, sensing := Sensing.stopped, picture := PictureUnit.start
    eval := Evaluator.start, jobs := [], supply := Supply.start, drivers := Eight.fill .disabled
    chirp := none, line := Line.start, link := Link.start, requests := Requests.start
    status := Status.reset, work := { scan := false, restart := false }
    free := 0 }

end Sys2Proof.Machine
end

