-- ==== Sys2Proof/Machine/Flags.lean ====
section
/-! DEFINITION. The Status Block's records and the outputs that follow the state: events, counters, the error and refusal
records, frame counts (chapter 9, R159), drives, sounder and lamps (R111, R133, R181). -/

namespace Sys2Proof.Machine

/-- The number of an event in the flag word (9.2). -/
def eventNumber : Event → Nat
  | .obstruction => 0
  | .travelFault => 1
  | .limitFault => 2
  | .openBlocked => 3
  | .rainLineFault => 4
  | .sourceLost => 5
  | .isolated => 6
  | .duplicateStation => 7
  | .txDropped => 8
  | .txOverflow => 9
  | .rxError => 10
  | .claimExpired => 11
  | .overBudget => 12
  | .configClamped => 13
  | .requestRefused => 14
  | .storm => 15

/-- The code of an error (R179). -/
def errorNumber : ErrorCode → Nat
  | .authority => 1
  | .held => 2
  | .stationHold => 3
  | .link => 4
  | .fault => 5
  | .busy => 6
  | .noChannel => 7
  | .range => 8
  | .badRequest => 9
  | .restartNotAllowed => 10
  | .txDropped => 16
  | .txOverflow => 17
  | .rxCheck => 18
  | .rxLength => 19
  | .rxGap => 20
  | .obstructedFinal => 21
  | .travel => 22
  | .limit => 23
  | .claimExpired => 24
  | .overBudget => 25
  | .duplicate => 26
  | .tableFull => 27

/-- The counter of an event. -/
def counterOf (k : Counters) : Event → Nat
  | .obstruction => k.obstruction
  | .travelFault => k.travelFault
  | .limitFault => k.limitFault
  | .openBlocked => k.openBlocked
  | .rainLineFault => k.rainLineFault
  | .sourceLost => k.sourceLost
  | .isolated => k.isolated
  | .duplicateStation => k.duplicateStation
  | .txDropped => k.txDropped
  | .txOverflow => k.txOverflow
  | .rxError => k.rxError
  | .claimExpired => k.claimExpired
  | .overBudget => k.overBudget
  | .configClamped => k.configClamped
  | .requestRefused => k.requestRefused
  | .storm => k.storm

/-- One more, held at a limit (R178, R159). -/
def satSucc (limit n : Nat) : Nat := if n < limit then n + 1 else n

/-- R178: the event's counter advances by one and saturates at 255; the others stand. -/
def bumpCounter (k : Counters) : Event → Counters
  | .obstruction => { k with obstruction := satSucc Config.counterMax k.obstruction }
  | .travelFault => { k with travelFault := satSucc Config.counterMax k.travelFault }
  | .limitFault => { k with limitFault := satSucc Config.counterMax k.limitFault }
  | .openBlocked => { k with openBlocked := satSucc Config.counterMax k.openBlocked }
  | .rainLineFault => { k with rainLineFault := satSucc Config.counterMax k.rainLineFault }
  | .sourceLost => { k with sourceLost := satSucc Config.counterMax k.sourceLost }
  | .isolated => { k with isolated := satSucc Config.counterMax k.isolated }
  | .duplicateStation => { k with duplicateStation := satSucc Config.counterMax k.duplicateStation }
  | .txDropped => { k with txDropped := satSucc Config.counterMax k.txDropped }
  | .txOverflow => { k with txOverflow := satSucc Config.counterMax k.txOverflow }
  | .rxError => { k with rxError := satSucc Config.counterMax k.rxError }
  | .claimExpired => { k with claimExpired := satSucc Config.counterMax k.claimExpired }
  | .overBudget => { k with overBudget := satSucc Config.counterMax k.overBudget }
  | .configClamped => { k with configClamped := satSucc Config.counterMax k.configClamped }
  | .requestRefused => { k with requestRefused := satSucc Config.counterMax k.requestRefused }
  | .storm => { k with storm := satSucc Config.counterMax k.storm }

/-- The member of the flag word for an event: weight 2 to the power of its number (9.1). -/
def eventFlag (e : Event) : Word := BitVec.ofNat 16 (2 ^ eventNumber e)

/-- R178: an event is raised: its flag is set and its counter advances. -/
def raiseEvent (e : Event) (s : State) : State :=
  { s with status := { s.status with flags := s.status.flags ||| eventFlag e
                                     counters := bumpCounter s.status.counters e } }

/-- R179: the error record is replaced whole. -/
def recordError (code : ErrorCode) (source : Nat) (s : State) : State :=
  { s with status := { s.status with errorCode := some code, errorSource := source } }

/-- An event raised with its error code and source (R178, R179). -/
def raiseError (e : Event) (code : ErrorCode) (source : Nat) (s : State) : State :=
  recordError code source (raiseEvent e s)

/-- An event raised `n` times (R186). -/
def raiseTimes (e : Event) : Nat → State → State
  | 0, s => s
  | n + 1, s => raiseTimes e n (raiseEvent e s)

/-- The source station that goes with a requester: 0 where LOCAL or absent (R131, R162). -/
def requesterSource : Requester → Nat
  | .station n => n
  | .wall => 0
  | .absent => 0

/-- R162: a refusal of verb or kind `what` asked by `who`, with result `code`. -/
def recordRefusal (what : Nat) (who : Requester) (code : ErrorCode) (s : State) : State :=
  let s := raiseError .requestRefused code (requesterSource who) s
  { s with status := { s.status with refusedWhat := what, refusedBy := who } }

/-- R141, R159: frames received advances. -/
def countReceived (s : State) : State :=
  { s with status := { s.status with received := satSucc Config.countMax s.status.received } }

/-- R140, R159: frames rejected advances. -/
def countRejected (s : State) : State :=
  { s with status := { s.status with rejected := satSucc Config.countMax s.status.rejected } }

/-- R148, R159: frames sent advances. -/
def countSent (s : State) : State :=
  { s with status := { s.status with sent := satSucc Config.countMax s.status.sent } }

/-- R148, R159: transmit retries advances. -/
def countRetry (s : State) : State :=
  { s with status := { s.status with retries := satSucc Config.countMax s.status.retries } }

/-- R171: the records of status words 28 to 41 set to 0; the flags stand. -/
def clearRecords (s : State) : State :=
  { s with status := { Status.reset with flags := s.status.flags } }

/-- R170: the flags taken are cleared. -/
def clearFlags (s : State) : State := { s with status := { s.status with flags := 0 } }

/-! ### Outputs -/

/-- R111: the open drive is active in OPENING, and in BACKOFF until the open limit cuts it off. -/
def openDrive : Driver → Bool
  | .opening _ _ _ => true
  | .backoff _ on _ => on
  | .disabled | .idle _ | .warning _ _ _ | .closing _ _ _ | .brake _ _ | .blocked _ _
  | .faulted _ _ => false

/-- R111: the close drive is active in CLOSING alone. -/
def closeDrive : Driver → Bool
  | .closing _ _ _ => true
  | .disabled | .idle _ | .warning _ _ _ | .opening _ _ _ | .brake _ _ | .backoff _ _ _
  | .blocked _ _ | .faulted _ _ => false

/-- The channel is in WARNING. -/
def isWarning : Driver → Bool
  | .warning _ _ _ => true
  | .disabled | .idle _ | .closing _ _ _ | .opening _ _ _ | .brake _ _ | .backoff _ _ _
  | .blocked _ _ | .faulted _ _ => false

/-- The channel is FAULTED. -/
def isFaulted : Driver → Bool
  | .faulted _ _ => true
  | .disabled | .idle _ | .warning _ _ _ | .closing _ _ _ | .opening _ _ _ | .brake _ _
  | .backoff _ _ _ | .blocked _ _ => false

/-- The channel is in OPENING. -/
def isOpening : Driver → Bool
  | .opening _ _ _ => true
  | .disabled | .idle _ | .warning _ _ _ | .closing _ _ _ | .brake _ _ | .backoff _ _ _
  | .blocked _ _ | .faulted _ _ => false

/-- The channel is in motion: WARNING, CLOSING, OPENING, BRAKE or BACKOFF (R110). -/
def inMotion : Driver → Bool
  | .warning _ _ _ | .closing _ _ _ | .opening _ _ _ | .brake _ _ | .backoff _ _ _ => true
  | .disabled | .idle _ | .blocked _ _ | .faulted _ _ => false

/-- The channel is at rest in CLOSED. -/
def restsClosed (d : Driver) : Bool := d == .idle .closed

/-- The channel is at rest in OPEN. -/
def restsOpen (d : Driver) : Bool := d == .idle .opened

/-- The motion record a channel holds (R110). -/
def motionOf : Driver → Option Motion
  | .warning _ m _ => some m
  | .closing m _ _ => some m
  | .opening m _ _ => some m
  | .brake m _ => some m
  | .backoff m _ _ => some m
  | .blocked m _ => some m
  | .disabled | .idle _ | .faulted _ _ => none

/-- R133: the sounder is on while any channel is in WARNING and while the chirp timer runs. -/
def sounder (s : State) : Bool := s.drivers.toList.any isWarning || s.chirp.isSome

/-- R181: LAMP_FAULT. -/
def lampFault (s : State) : Bool :=
  s.drivers.toList.any isFaulted || s.link.state == .mute || s.loader.result == some .defaulted

/-- The channel's demand is SET. -/
def demandSet (c : Channel) (s : State) : Bool := (s.eval.chans.get c).demand.isSome

/-- R181: LAMP_HOLD. -/
def lampHold (s : State) : Bool :=
  s.eval.storm || s.eval.chans.toList.any (fun x => x.demand.isSome) || s.requests.hold.isSome

end Sys2Proof.Machine
end

