-- ==== Sys2Proof/Machine/Operands.lean ====
section
/-! DEFINITION. The byte layouts of chapters 7 and 9: masks, frames and their check byte, and the payloads of each
kind of frame, composed and taken apart. -/

namespace Sys2Proof.Machine

/-- A number as a byte. -/
def toByte (n : Nat) : Byte := BitVec.ofNat 8 n

/-- The two bytes of a two-byte quantity, most significant first (R137). -/
def twoBytes (n : Nat) : List Byte := [toByte (n / 256), toByte n]

/-- A two-byte quantity from its bytes, most significant first (R137). -/
def wordOf (hi lo : Byte) : Nat := hi.toNat * 256 + lo.toNat

/-- The mask of the channels (or groups) that satisfy `p`: channel n at weight 2 to the power n - 1 (R137). -/
def maskOf (p : Channel → Bool) : Byte :=
  toByte ((allChannels.map (fun c => if p c then 2 ^ c.val else 0)).sum)

/-- Channel `c` is a member of the mask (R137). -/
def inMask (m : Byte) (c : Channel) : Bool := m.getLsbD c.val

/-- The channel with this number, 1 to 8 (R92). -/
def channelOfNumber (n : Nat) : Option Channel :=
  if h : 1 ≤ n ∧ n ≤ 8 then some ⟨n - 1, by omega⟩ else none

/-! ### Frames (R137, R138) -/

/-- The code of a frame kind (R137). -/
def kindCode : FrameKind → Nat
  | .obs => 1
  | .pres => 2
  | .claim => 3
  | .release => 4
  | .cmd => 5
  | .read => 6
  | .take => 7
  | .clear => 8
  | .restart => 9
  | .reply => 10

/-- The frame kind with this code (R137). -/
def kindOfCode : Nat → Option FrameKind
  | 1 => some .obs
  | 2 => some .pres
  | 3 => some .claim
  | 4 => some .release
  | 5 => some .cmd
  | 6 => some .read
  | 7 => some .take
  | 8 => some .clear
  | 9 => some .restart
  | 10 => some .reply
  | _ => none

/-- The check byte: exclusive-OR of the bytes before it (R137). -/
def checkByte (bytes : List Byte) : Byte := bytes.foldl (· ^^^ ·) 0

/-- The bytes of a frame before its check byte (R137). -/
def frameBody (f : Frame) : List Byte :=
  [toByte (kindCode f.kind * 16 + f.prio), f.source, f.target, f.groups, toByte f.payload.length]
    ++ f.payload

/-- The bytes of a frame on the line (R137). -/
def frameBytes (f : Frame) : List Byte := frameBody f ++ [checkByte (frameBody f)]

/-- The frame kind of a request. -/
def requestFrameKind : RequestKind → FrameKind
  | .cmd => .cmd
  | .read => .read
  | .take => .take
  | .clear => .clear
  | .restart => .restart

/-- A frame heard whole, from its kind, address bytes and payload; its priority is not looked at once it is valid
(R140). -/
def heard (k : FrameKind) (h : Header) (payload : List Byte) : Frame :=
  { kind := k, prio := 0, source := h.source, target := h.target, groups := h.groups, payload := payload }

/-- Why a frame is faulty (R140). -/
inductive RxVerdict where
  /-- The bytes begin a frame that is not yet complete. -/
  | more
  /-- The last byte shows a fault before the frame's end. -/
  | early (code : ErrorCode)
  /-- The check byte is wrong. -/
  | badCheck
  /-- The frame is complete and valid. -/
  | whole (f : Frame)
  deriving DecidableEq, Repr

/-- The frame a complete run of bytes holds (R137). -/
def parseFrame (kind : FrameKind) (bytes : List Byte) : Frame :=
  { kind := kind, prio := (bytes.getD 0 0).toNat % 16, source := bytes.getD 1 0
    target := bytes.getD 2 0, groups := bytes.getD 3 0
    payload := (bytes.drop 5).take (bytes.length - 6) }

/-- R140: byte 0 holds a kind 1 to 10 and a priority 0 to 3. -/
def goodByte0 (b : Byte) : Bool :=
  (kindOfCode (b.toNat / 16)).isSome && decide (b.toNat % 16 ≤ 3)

/-- R140: a source station of 1 to 63. -/
def goodSource (b : Byte) : Bool := decide (1 ≤ b.toNat) && decide (b.toNat ≤ 63)

/-- R139, R140: what the bytes received so far, the newest last, show at the newest byte. -/
def judgeBytes (bytes : List Byte) : RxVerdict :=
  let n := bytes.length
  let last := bytes.getD (n - 1) 0
  if n ≤ 1 then
    if goodByte0 last then .more else .early .rxLength
  else if n = 2 then
    if goodSource last then .more else .early .rxLength
  else if n ≤ 4 then .more
  else if n = 5 then
    if last.toNat ≤ 24 then .more else .early .rxLength
  else if n < 6 + (bytes.getD 4 0).toNat then .more
  else if last = checkByte (bytes.take (n - 1)) then
    match kindOfCode ((bytes.getD 0 0).toNat / 16) with
    | some k => .whole (parseFrame k bytes)
    | none => .early .rxLength
  else .badCheck

/-- R140: the source that goes with a receive error: byte 1 where it was received and lies in 1 to 63, and 0 otherwise. -/
def rxSource (bytes : List Byte) : Nat :=
  match bytes[1]? with
  | some b => if goodSource b then b.toNat else 0
  | none => 0

/-! ### OBS payloads -/

/-- The rain byte of an OBS (R11). -/
def rainCode : RainState → Nat
  | .dry => 0
  | .wet => 1
  | .fault => 2
  | .noSensor => 3

/-- R11: the payload of an OBS. -/
def obsPayload (gust : Option Nat) (sector : Nat) (rain : RainState) (trigger : Nat) : List Byte :=
  twoBytes (gust.getD 0xFFFF) ++ [toByte sector, toByte (rainCode rain), toByte trigger]

/-- R19: the fields of an OBS payload; none where its length is not 5. -/
def decodeObs : List Byte → Option Obs
  | [hi, lo, sector, rain, _] =>
    let g := wordOf hi lo
    some
      { gust := if g = 0xFFFF then none else some (min g Config.gustMax)
        sector := if sector.toNat ≤ 17 then sector.toNat else 16
        rain := match rain.toNat with
          | 0 => some .dry
          | 1 => some .wet
          | 2 => some .fault
          | 3 => none
          | _ => some .fault }
  | _ => none

/-! ### CLAIM and RELEASE payloads -/

/-- The fields of a CLAIM as decoded (R92). -/
structure ClaimFields where
  tag : Nat
  chan : Channel
  draw : Nat
  cls : Nat
  lifetimeS : Nat
  isNew : Bool
  deriving DecidableEq, Repr

/-- What a CLAIM or RELEASE payload turns out to be (R92). -/
inductive ClaimVerdict (α : Type) where
  /-- The frame names another circuit. -/
  | otherCircuit
  /-- The frame is not taken. -/
  | malformed
  /-- The fields, brought into range. -/
  | fields (x : α)
  deriving DecidableEq, Repr

/-- The payload of an own CLAIM (R84). -/
def claimPayload (circuit tag : Nat) (c : Channel) (draw cls lifetimeS : Nat) (isNew : Bool) : List Byte :=
  [toByte circuit, toByte tag, toByte (chanNumber c), toByte draw, toByte cls, toByte lifetimeS,
    if isNew then 1 else 2]

/-- The payload of a RELEASE (R137). -/
def releasePayload (circuit tag : Nat) : List Byte := [toByte circuit, toByte tag]

/-- A value brought into a range (R92, R184). -/
def clampTo (lo hi v : Nat) : Nat := min hi (max lo v)

/-- R92: a CLAIM payload checked and decoded. A frame on another circuit is ignored before its other fields are
checked; a payload that holds no circuit byte is malformed (log 24). -/
def decodeClaim (circuit : Nat) (payload : List Byte) : ClaimVerdict ClaimFields :=
  match payload with
  | [] => .malformed
  | b :: rest =>
    if b.toNat ≠ circuit then .otherCircuit
    else
      match rest with
      | [tag, chan, draw, cls, life, flag] =>
        match channelOfNumber chan.toNat with
        | none => .malformed
        | some c =>
          if 15 < tag.toNat then .malformed
          else if flag ≠ 1 ∧ flag ≠ 2 then .malformed
          else
            .fields
              { tag := tag.toNat, chan := c, draw := clampTo 1 50 draw.toNat
                cls := min 3 cls.toNat, lifetimeS := clampTo 4 60 life.toNat, isNew := flag == 1 }
      | _ => .malformed

/-- R92: a RELEASE payload checked and decoded to its tag. -/
def decodeRelease (circuit : Nat) (payload : List Byte) : ClaimVerdict Nat :=
  match payload with
  | [] => .malformed
  | b :: rest =>
    if b.toNat ≠ circuit then .otherCircuit
    else
      match rest with
      | [tag] => if 15 < tag.toNat then .malformed else .fields tag.toNat
      | _ => .malformed

/-! ### Codes of the status map (9.1) -/

/-- Link state code. -/
def linkCode : LinkState → Nat
  | .offline => 0
  | .listen => 1
  | .active => 2
  | .isolated => 3
  | .mute => 4

/-- Load result code; there is none to show before the first load completes, and no frame can then ask for it. -/
def loadCode : Option LoadResult → Nat
  | some .loaded => 0
  | some .clamped => 1
  | some .defaulted => 2
  | none => 0

/-- R code. -/
def rainPictureCode : RainPicture → Nat
  | .dry => 0
  | .wet => 1
  | .unknown => 2

/-- Position code. -/
def positionCode : Position → Nat
  | .closed => 0
  | .opened => 1
  | .part => 2
  | .unknown => 3

/-- Cause code. -/
def causeCode : Cause → Nat
  | .storm => 1
  | .rain => 2
  | .wind => 3
  | .isolation => 4
  | .command => 5
  | .wall => 6
  | .openCommand => 7
  | .openWall => 8

/-- Fault kind code. -/
def faultCode : FaultKind → Nat
  | .travel => 1
  | .limit => 2
  | .obstructed => 3

/-- Source entry state code. -/
def entryCode : SourceEntry → Nat
  | .absent => 0
  | .fresh _ _ => 1
  | .stale _ _ => 2

/-- Last refused requester. -/
def requesterCode : Requester → Nat
  | .station n => n
  | .wall => 255
  | .absent => 0

end Sys2Proof.Machine
end

