-- ==== Sys2Proof/Machine/Ops.lean ====
section
/-! DEFINITION. The shared operations: views of the settings, the marks of a command, the jobs in key order, the claim
table and its totals, the transmit queue, and the own claims (chapters 4, 5, 7). -/

namespace Sys2Proof.Machine

/-! ### Views of the settings -/

/-- The configuration record of a channel (R108). -/
def chanCfg (c : Channel) (s : State) : ChannelCfg := s.cfg.channels.get c

/-- A channel's configured draw (R57). -/
def drawOf (c : Channel) (s : State) : Nat := (chanCfg c s).draw

/-- The part has loaded its configuration and takes its inputs (R189). -/
def isRunning (s : State) : Bool := s.phase == .running

/-- R37: the wind release level. -/
def windRelease (k : Settings) : Nat := k.tWind - k.hyst

/-- R37: the rain release level. -/
def rainRelease (k : Settings) : Nat := k.tRain - k.hyst

/-- R37: the storm release level. -/
def stormReleaseLevel (k : Settings) : Nat := k.tStorm - k.hyst

/-- The calm hold in milliseconds (3.2). -/
def calmMs (k : Settings) : Nat := k.calmHoldMin * 60000

/-- A station number of 1 to 63 is valid (R187). -/
def validStation (k : Settings) : Bool := decide (1 ≤ k.station) && decide (k.station ≤ 63)

/-- R12: at least one sensor is configured present. -/
def anySensor (k : Settings) : Bool := k.hasAnemometer || k.hasVane || k.hasRain

/-- The channels enabled by the settings, in ascending number (R108). -/
def enabledChannels (s : State) : List Channel := allChannels.filter (fun c => (chanCfg c s).enabled)

/-- R142: the station's group mask, the union of the group masks of its enabled channels. -/
def stationGroups (s : State) : Byte :=
  (enabledChannels s).foldl (fun m c => m ||| (chanCfg c s).groups) 0

/-! ### Small updates -/

/-- The state of a channel replaced. -/
def setDriver (c : Channel) (d : Driver) (s : State) : State := { s with drivers := s.drivers.set c d }

/-- What the Demand Evaluator holds for a channel replaced. -/
def setExposed (c : Channel) (x : Exposed) (s : State) : State :=
  { s with eval := { s.eval with chans := s.eval.chans.set c x } }

/-- The queue of jobs replaced. -/
def setJobs (js : List Job) (s : State) : State := { s with jobs := js }

/-- The claim table replaced. -/
def setEntries (es : List Entry) (s : State) : State := { s with supply := { s.supply with entries := es } }

/-- The transmit queue replaced. -/
def setQueue (q : List TxFrame) (s : State) : State := { s with line := { s.line with queue := q } }

/-- The receive path replaced. -/
def setRx (r : Receiver) (s : State) : State := { s with line := { s.line with rx := r } }

/-- R68: an admission scan is to follow when the command's own effect is complete. -/
def wantScan (s : State) : State := { s with work := { s.work with scan := true } }

/-- R172: where a restart is pending, the warm restart is to follow when the command's own effect is complete. -/
def wantRestart (s : State) : State :=
  if s.requests.pendingRestart then { s with work := { s.work with restart := true } } else s

/-! ### Jobs (R57 to R60) -/

/-- R59: an exposure as the key ranks it: UNKNOWN as 999. -/
def exposureRank (e : Option Nat) : Nat := e.getD 999

/-- R59: `a` stands ahead of `b`: higher class, then higher zone priority, then higher exposure, then lower channel. -/
def jobAhead (a b : Job) : Bool :=
  if a.cls ≠ b.cls then decide (b.cls < a.cls)
  else if a.zone ≠ b.zone then decide (b.zone < a.zone)
  else if exposureRank a.exposure ≠ exposureRank b.exposure then
    decide (exposureRank b.exposure < exposureRank a.exposure)
  else decide (a.chan < b.chan)

/-- A job put at its place in a list kept in key order. -/
def placeJob (j : Job) : List Job → List Job
  | [] => [j]
  | k :: ks => if jobAhead j k then j :: k :: ks else k :: placeJob j ks

/-- The jobs put into key order (R60). -/
def sortJobs (js : List Job) : List Job := js.foldr placeJob []

/-- The job of a channel (R58: at most one). -/
def jobOf (c : Channel) (s : State) : Option Job := s.jobs.find? (fun j => decide (j.chan = c))

/-- The channel's job leaves the queue. -/
def dropJob (c : Channel) (s : State) : State :=
  setJobs (s.jobs.filter (fun j => decide (j.chan ≠ c))) s

/-- The channel's job changed, with the queue put into key order anew (R60). -/
def changeJob (c : Channel) (f : Job → Job) (s : State) : State :=
  setJobs (sortJobs (s.jobs.map (fun j => if j.chan = c then f j else j))) s

/-- A new job enters the queue at its place, and a scan follows (R61, R64, R68). -/
def enterJob (j : Job) (s : State) : State := wantScan (setJobs (placeJob j s.jobs) s)

/-- A CLOSE job stands WAITING in the queue (R69). -/
def closeWaiting (s : State) : Bool :=
  s.jobs.any (fun j => j.dir == .close && j.state == .waiting)

/-! ### The claim table (R79, R80, R99) -/

/-- An entry that counts in T (R80). -/
def counts (e : Entry) : Bool := e.state != .yielding

/-- The sum of the draws of the entries that satisfy `p`. -/
def drawSum (p : Entry → Bool) (es : List Entry) : Nat := ((es.filter p).map Entry.draw).sum

/-- R80: the counted total T. -/
def totalT (s : State) : Nat := drawSum counts s.supply.entries

/-- R80: the own total. -/
def ownTotal (s : State) : Nat := drawSum Entry.own s.supply.entries

/-- An entry is HELD. -/
def isHeld (e : Entry) : Bool := e.state == .held

/-- An entry is SETTLING. -/
def isSettling (e : Entry) : Bool :=
  match e.state with
  | .settling _ => true
  | .announcing | .held | .yielding => false

/-- R80: the HELD total. -/
def heldTotal (s : State) : Nat := drawSum isHeld s.supply.entries

/-- The own entry of a channel. -/
def isOwnOf (c : Channel) (e : Entry) : Bool := e.own && decide (e.chan = c)

/-- The own entry of a channel, where it has one (R79). -/
def ownEntry (c : Channel) (s : State) : Option Entry := s.supply.entries.find? (isOwnOf c)

/-- The own entry of a tag, where there is one. -/
def ownTagged (tag : Nat) (s : State) : Option Entry :=
  s.supply.entries.find? (fun e => e.own && decide (e.tag = tag))

/-- An entry is the peer entry of a key (R79). -/
def isPeerKey (station tag : Nat) (e : Entry) : Bool :=
  !e.own && decide (e.station = station) && decide (e.tag = tag)

/-- The peer entry of a key, where there is one. -/
def peerEntry (station tag : Nat) (s : State) : Option Entry :=
  s.supply.entries.find? (isPeerKey station tag)

/-- The entries that satisfy `p` changed. -/
def changeEntries (p : Entry → Bool) (f : Entry → Entry) (s : State) : State :=
  setEntries (s.supply.entries.map (fun e => if p e then f e else e)) s

/-- The entries that satisfy `p` removed. -/
def removeEntries (p : Entry → Bool) (s : State) : State :=
  setEntries (s.supply.entries.filter (fun e => !p e)) s

/-- R99: `a` ranks higher than `b` in precedence. -/
def outranks (a b : Entry) : Bool :=
  if a.cls ≠ b.cls then decide (b.cls < a.cls)
  else if a.station ≠ b.station then decide (a.station < b.station)
  else decide (a.tag < b.tag)

/-- An entry put at its place in a list of ascending precedence. -/
def placeEntry (e : Entry) : List Entry → List Entry
  | [] => [e]
  | x :: xs => if outranks x e then e :: x :: xs else x :: placeEntry e xs

/-- The entries in ascending precedence, the lowest first (R102, R104). -/
def ascending (es : List Entry) : List Entry := es.foldr placeEntry []

/-- R83: the first value from `t` on, modulo 16, that no tag of `used` takes; `n` tries. -/
def freeTag (used : List Nat) : Nat → Nat → Nat
  | 0, t => t
  | n + 1, t => if t ∈ used then freeTag used n ((t + 1) % 16) else t

/-- R83: the tag of the next own entry. -/
def nextTag (s : State) : Nat :=
  freeTag ((s.supply.entries.filter Entry.own).map Entry.tag) 9 ((s.supply.tagCounter + 1) % 16)

/-! ### The transmit queue (R143 to R145) -/

/-- A frame placed in order of priority as the newest arrival of its priority (R143). -/
def placeFrame (f : TxFrame) : List TxFrame → List TxFrame
  | [] => [f]
  | g :: gs => if f.frame.prio ≤ g.frame.prio then g :: placeFrame f gs else f :: g :: gs

/-- A frame is waiting: queued and not under transmission (R84, R143). -/
def isWaiting (f : TxFrame) : Bool := !f.sending

/-- A waiting frame that a new frame of owner `o` takes the place of: the waiting OBS or the waiting PRES (R143). -/
def replacedBy (o : FrameOwner) (f : TxFrame) : Bool :=
  match o, f.owner with
  | .obs, .obs => isWaiting f
  | .pres, .pres => isWaiting f
  | _, _ => false

/-- R144: the lowest priority among the waiting frames; 4 where none waits. -/
def lowestPriority (q : List TxFrame) : Nat :=
  q.foldl (fun p f => if isWaiting f then min p f.frame.prio else p) 4

/-- R144: the frame to drop for a new frame of priority `p`: the oldest waiting frame of the lowest priority, where
that is below `p`. -/
def victim (p : Nat) (q : List TxFrame) : Option TxFrame :=
  if lowestPriority q < p then
    q.find? (fun f => isWaiting f && decide (f.frame.prio = lowestPriority q))
  else none

/-- The queue without the victim of R144. -/
def withoutVictim (q : List TxFrame) : List TxFrame :=
  q.eraseP (fun f => isWaiting f && decide (f.frame.prio = lowestPriority q))

/-- R86, R68: a frame has left the transmit queue: refreshes are no longer barred, and where a job is held back a scan
follows. DEDUCED (log 36): sent, dropped, cancelled or replaced, a frame that no longer stands in the queue has left it. -/
def frameLeft (s : State) : State :=
  let s := changeEntries Entry.refreshBarred (fun e => { e with refreshBarred := false }) s
  if s.jobs.any Job.heldBack then wantScan s else s

/-- A frame is the waiting CLAIM of an own tag (R84). -/
def isWaitingClaim (tag : Nat) (f : TxFrame) : Bool :=
  match f.owner with
  | .claim t _ => isWaiting f && decide (t = tag)
  | .obs | .pres | .release | .reply _ => false

/-- R145: the waiting CLAIM of a tag, if any, is cancelled without result. -/
def cancelClaim (tag : Nat) (s : State) : State :=
  if s.line.queue.any (isWaitingClaim tag) then
    frameLeft (setQueue (s.line.queue.filter (fun f => !isWaitingClaim tag f)) s)
  else s

/-- R72, R84, R86: the own ANNOUNCING entry `e` is withdrawn: it leaves the table with its waiting CLAIM cancelled, its
job returns to WAITING, and a scan follows. -/
def withdrawOwn (e : Entry) (heldBack : Bool) (s : State) : State :=
  let s := cancelClaim e.tag (removeEntries (isOwnOf e.chan) s)
  wantScan
    (setJobs
      (s.jobs.map (fun j =>
        if j.chan = e.chan then { j with state := .waiting, heldBack := heldBack } else j)) s)

/-- R86: an own CLAIM was dropped, from a full transmit queue or after its retries. The bar on refreshes that a drop from
a full queue puts on a SETTLING entry bites once it is HELD (R88). -/
def claimDropped (tag : Nat) (overflow : Bool) (s : State) : State :=
  match ownTagged tag s with
  | none => s
  | some e =>
    match e.state with
    | .announcing => withdrawOwn e overflow s
    | .settling _ | .held =>
      if overflow then changeEntries (isOwnOf e.chan) (fun x => { x with refreshBarred := true }) s
      else s
    | .yielding => s

/-- R149: the owner of a dropped frame is told. -/
def tellDropped (o : FrameOwner) (overflow : Bool) (s : State) : State :=
  match o with
  | .claim tag _ => claimDropped tag overflow s
  | .reply true => wantRestart s
  | .reply false | .obs | .pres | .release => s

/-- R143, R144: a frame handed to the transmit queue by its owner. The OBS or PRES it replaces, or the frame it drops,
has left the queue (log 36); a frame dropped at its arrival never stood in it. -/
def enqueue (f : TxFrame) (s : State) : State :=
  let q := s.line.queue
  if q.any (replacedBy f.owner) then
    frameLeft (setQueue (placeFrame f (q.filter (fun g => !replacedBy f.owner g))) s)
  else if q.length < Config.txSize then setQueue (placeFrame f q) s
  else
    match victim f.frame.prio q with
    | some v =>
      tellDropped v.owner true
        (raiseError .txOverflow .txOverflow 0
          (frameLeft (setQueue (placeFrame f (withoutVictim q)) s)))
    | none => tellDropped f.owner true (raiseError .txOverflow .txOverflow 0 s)

/-- A frame of the station's own, built whole (R138). -/
def ownFrame (kind : FrameKind) (prio : Nat) (target : Byte) (payload : List Byte)
    (owner : FrameOwner) (s : State) : TxFrame :=
  { frame := { kind := kind, prio := prio, source := toByte s.cfg.station, target := target, groups := 0
               payload := payload }
    owner := owner, attempts := 0, sending := false }

/-- A frame carries the NEW flag (R84). -/
def carriesNew (f : TxFrame) : Bool :=
  match f.owner with
  | .claim _ n => n
  | .obs | .pres | .release | .reply _ => false

/-! ### Own claims (R84, R67, R89, R90) -/

/-- R84: a CLAIM is queued for an own entry at its class's priority, one still waiting being cancelled; it carries NEW
if either carried NEW. -/
def queueClaim (e : Entry) (isNew : Bool) (s : State) : State :=
  let flag := isNew || s.line.queue.any (fun f => isWaitingClaim e.tag f && carriesNew f)
  let s := cancelClaim e.tag s
  enqueue
    (ownFrame .claim e.cls 0
      (claimPayload s.cfg.circuit e.tag e.chan e.draw e.cls e.lifetimeS flag)
      (.claim e.tag flag) s) s

/-- R90: a RELEASE of a tag is queued at priority 3, or no frame in MUTE. -/
def queueRelease (tag : Nat) (s : State) : State :=
  if s.link.state = .mute then s
  else enqueue (ownFrame .release 3 0 (releasePayload s.cfg.circuit tag) .release s) s

/-- The own entry of a channel removed, with its waiting CLAIM cancelled and a scan to follow; `release` queues its
RELEASE (R67, R84, R90). -/
def removeOwn (c : Channel) (release : Bool) (s : State) : State :=
  match ownEntry c s with
  | none => s
  | some e =>
    let s := wantScan (cancelClaim e.tag (removeEntries (isOwnOf c) s))
    if release then queueRelease e.tag s else s

/-- R67: a job's claim is given up as its job state has it. -/
def giveUpClaim (j : Job) (s : State) : State :=
  match j.state with
  | .waiting => s
  | .announcing => removeOwn j.chan false s
  | .settling => removeOwn j.chan true s

/-- R71, R84: an admitted job gets its own entry: ANNOUNCING with a NEW CLAIM queued, or in MUTE SETTLING at once. -/
def admitJob (j : Job) (s : State) : State :=
  let tag := nextTag s
  let muted := s.link.state == .mute
  let e : Entry :=
    { station := s.cfg.station, tag := tag, chan := j.chan, draw := drawOf j.chan s, cls := j.cls
      lifetimeS := s.cfg.lifetimeS
      state := if muted then .settling s.cfg.settleMs else .announcing
      ageMs := 0, own := true, reasserted := false, refreshBarred := false }
  let s := { s with supply := { s.supply with entries := s.supply.entries ++ [e], tagCounter := tag } }
  let s := setJobs
    (s.jobs.map (fun k =>
      if k.chan = j.chan then
        { k with state := if muted then .settling else .announcing, heldBack := false }
      else k)) s
  if muted then s else queueClaim e true s

/-- R89: the class of the own entry of a channel rises to `cls`; `announce` says whether a HELD entry's raise is made
known (the channel is not in BACKOFF). Nothing is done where the entry has that class already. -/
def raiseEntry (c : Channel) (cls : Nat) (announce : Bool) (s : State) : State :=
  match ownEntry c s with
  | none => s
  | some e =>
    if cls ≤ e.cls then s
    else
      let s := changeEntries (isOwnOf c) (fun x => { x with cls := cls }) s
      if s.link.state = .mute ∨ (isHeld e = true ∧ announce = false) then s
      else queueClaim { e with cls := cls } true s

end Sys2Proof.Machine
end

