-- ==== Sys2Proof/Machine/Motion.lean ====
section
/-! DEFINITION. What happens to one channel: its limits, the start and the end of its motion, faults, reversal, class
raise, halt and stop (chapter 6); opening allowed (3.7); the requests that put its job into the queue (4.2) and the
restore request (R49). -/

namespace Sys2Proof.Machine

/-! ### Limits (R108, R124) -/

/-- R108: a contact read under the channel's limit polarity. -/
def reads (r : ChannelCfg) (contactClosed : Bool) : Bool := contactClosed != r.openingContacts

/-- The contact that makes a limit read `active` under the channel's polarity. -/
def contactFor (r : ChannelCfg) (active : Bool) : Bool := active != r.openingContacts

/-- A limit input of a channel reads active. -/
def limitOn (c : Channel) (l : Limit) (s : State) : Bool :=
  match l with
  | .closed => reads (chanCfg c s) (s.pins.chans.get c).closedContact
  | .opened => reads (chanCfg c s) (s.pins.chans.get c).openContact

/-- SWITCHES mode with both limits active (R122). -/
def bothLimits (c : Channel) (s : State) : Bool :=
  !(chanCfg c s).timed && limitOn c .closed s && limitOn c .opened s

/-- R124: the position in which a channel comes to rest: the end whose limit alone is active, or else `p`. -/
def settled (c : Channel) (p : Position) (s : State) : Position :=
  if (chanCfg c s).timed then p
  else
    match limitOn c .closed s, limitOn c .opened s with
    | true, false => .closed
    | false, true => .opened
    | true, true => p
    | false, false => p

/-- R132, R135: the position read afresh in SWITCHES mode; PART in TIMED mode. -/
def freshPosition (c : Channel) (s : State) : Position :=
  if (chanCfg c s).timed then .part else settled c .unknown s

/-- The position a channel holds in each state (R110). -/
def heldPosition : Driver → Position
  | .idle p => p
  | .warning p _ _ => p
  | .faulted p _ => p
  | .closing _ _ _ | .opening _ _ _ | .brake _ _ | .backoff _ _ _ | .blocked _ _ => .part
  | .disabled => .unknown

/-! ### Opening allowed (R50) -/

/-- R50: opening is allowed for a channel. -/
def openingAllowed (c : Channel) (s : State) : Bool :=
  (chanCfg c s).enabled && !isFaulted (s.drivers.get c) && (s.drivers.get c != .disabled)
    && !demandSet c s && !s.eval.storm && !s.requests.hold.isSome && (s.link.state == .active)
    && s.picture.fused.g.isSome && (s.picture.fused.r != .unknown)

/-! ### Ends of a motion (R112) -/

/-- R112: a channel leaves motion for `d`: the drives follow the state, its own entry is given up with a RELEASE, and
a scan follows. -/
def endMotion (c : Channel) (d : Driver) (s : State) : State :=
  wantScan (removeOwn c true (setDriver c d s))

/-- R112, R124: a motion ends at rest, its position settled from the limits. -/
def endAtRest (c : Channel) (p : Position) (s : State) : State :=
  endMotion c (.idle (settled c p s)) s

/-- R129: a halt: an opening motion ends at PART; no effect in another state. -/
def halt (c : Channel) (s : State) : State :=
  if isOpening (s.drivers.get c) then endAtRest c .part s else s

/-! ### Class raise and reversal (R125, R127) -/

/-- R127: a motion takes a higher class with the raise's cause, and its requester where it has one. A motion that no
longer has the cause of a person loses its stop-at-end marker. -/
def raisedMotion (cls : Nat) (cause : Cause) (who : Requester) (m : Motion) : Motion :=
  { m with
    cls := cls
    cause := cause
    requester := if who = .absent then m.requester else who
    stopAtEnd := m.stopAtEnd && (cause == .command || cause == .wall) }

/-- R127, R89: a class raise asked of a channel in WARNING, CLOSING, BRAKE, BACKOFF or BLOCKED. -/
def raiseMotion (c : Channel) (cls : Nat) (cause : Cause) (who : Requester) (s : State) : State :=
  match s.drivers.get c with
  | .warning p m t =>
    if m.cls < cls then
      raiseEntry c cls true (setDriver c (.warning p (raisedMotion cls cause who m) t) s)
    else s
  | .closing m t b =>
    if m.cls < cls then
      raiseEntry c cls true (setDriver c (.closing (raisedMotion cls cause who m) t b) s)
    else s
  | .brake m t =>
    if m.cls < cls then
      raiseEntry c cls true (setDriver c (.brake (raisedMotion cls cause who m) t) s)
    else s
  | .backoff m on t =>
    if m.cls < cls then
      raiseEntry c cls false (setDriver c (.backoff (raisedMotion cls cause who m) on t) s)
    else s
  | .blocked m t =>
    if m.cls < cls then setDriver c (.blocked (raisedMotion cls cause who m) t) s else s
  | .disabled | .idle _ | .opening _ _ _ | .faulted _ _ => s

/-- R125: a reversal asked of a channel in OPENING; in another state it is not a reversal. -/
def reverse (c : Channel) (cls : Nat) (cause : Cause) (who : Requester) (s : State) : State :=
  match s.drivers.get c with
  | .opening m _ _ =>
    let m' : Motion :=
      { m with dir := .close, cls := cls, cause := cause, requester := who, retry := 0, attempt := none }
    raiseEntry c cls true (setDriver c (.brake m' Config.brakeMs) s)
  | .disabled | .idle _ | .warning _ _ _ | .closing _ _ _ | .brake _ _ | .backoff _ _ _
  | .blocked _ _ | .faulted _ _ => s

/-! ### Re-judging opening (R51, R65) -/

/-- R65: a channel's queued OPEN job is removed with its claim given up. -/
def removeOpenJob (c : Channel) (s : State) : State :=
  match jobOf c s with
  | none => s
  | some j => if j.dir = .opening then dropJob c (giveUpClaim j s) else s

/-- R51: where opening is not allowed for a channel, its OPEN job is removed, and an OPENING channel is reversed where
its demand is SET and halted otherwise. -/
def rejudge (c : Channel) (s : State) : State :=
  if openingAllowed c s then s
  else
    let s := removeOpenJob c s
    match (s.eval.chans.get c).demand with
    | some d => reverse c d.cls d.cause .absent s
    | none => halt c s

/-- R50: opening re-judged for every channel. -/
def rejudgeAll (s : State) : State := allChannels.foldl (fun s c => rejudge c s) s

/-! ### Requests to the queue (R58, R61 to R64) -/

/-- A close request (4.2): class, cause, requester, retry count, and whether it clears a fault. -/
structure CloseReq where
  cls : Nat
  cause : Cause
  who : Requester
  retry : Nat
  clears : Bool
  deriving DecidableEq, Repr

/-- A new job for a channel (R57, R61, R64). -/
def newJob (c : Channel) (dir : Direction) (cls : Nat) (cause : Cause) (who : Requester) (retry : Nat)
    (s : State) : Job :=
  { chan := c, dir := dir, cls := cls, zone := (chanCfg c s).zone
    exposure := (s.eval.chans.get c).exposure, cause := cause, requester := who, retry := retry
    state := .waiting, heldBack := false }

/-- R63: a CLOSE job after a close request has merged into it. -/
def mergedJob (r : CloseReq) (j : Job) : Job :=
  { j with
    cls := max j.cls r.cls
    cause := if j.cls < r.cls then r.cause else j.cause
    requester := if j.requester = .absent then r.who else j.requester
    retry := if r.clears then 0 else max j.retry r.retry }

/-- R61 to R63: a close request taken into the queue. -/
def queueClose (c : Channel) (r : CloseReq) (s : State) : State :=
  match jobOf c s with
  | none => enterJob (newJob c .close r.cls r.cause r.who r.retry s) s
  | some j =>
    match j.dir with
    | .opening =>
      let s := dropJob c (giveUpClaim j s)
      enterJob (newJob c .close r.cls r.cause r.who r.retry s) s
    | .close =>
      let s := changeJob c (mergedJob r) s
      if j.state ≠ .waiting then raiseEntry c (max j.cls r.cls) true s else s

/-- R58: a close request for a channel, dealt with by the state the channel stands in. -/
def closeRequest (c : Channel) (r : CloseReq) (s : State) : State :=
  match s.drivers.get c with
  | .disabled => s
  | .idle _ | .faulted _ _ => queueClose c r s
  | .opening _ _ _ => reverse c r.cls r.cause r.who s
  | .warning _ _ _ | .closing _ _ _ | .brake _ _ | .backoff _ _ _ | .blocked _ _ =>
    raiseMotion c r.cls r.cause r.who s

/-- The close request of a demand (R47). -/
def demandReq (d : Demand) : CloseReq :=
  { cls := d.cls, cause := d.cause, who := .absent, retry := 0, clears := false }

/-- R64: an open request that has passed the Request Handler's checks. -/
def openRequest (c : Channel) (cause : Cause) (who : Requester) (retry : Nat) (s : State) : State :=
  match jobOf c s with
  | none => enterJob (newJob c .opening 0 cause who retry s) s
  | some _ => s

/-- R49: the restore request of a channel with demand SET that is at rest not CLOSED with no job. -/
def restore (c : Channel) (s : State) : State :=
  match (s.eval.chans.get c).demand, s.drivers.get c, jobOf c s with
  | some d, .idle p, none => if p = .closed then s else queueClose c (demandReq d) s
  | _, _, _ => s

/-! ### Faults (R131, R122) -/

/-- R131: the event and the error code of an entry to FAULTED, with its source. -/
def faultRaised (k : FaultKind) (source : Nat) (s : State) : State :=
  match k with
  | .travel => raiseError .travelFault .travel source s
  | .limit => raiseError .limitFault .limit source s
  | .obstructed => recordError .obstructedFinal source s

/-- R131: the source that goes with a channel fault: the requester of a motion in progress, 0 where there is none. -/
def faultSource (d : Driver) : Nat :=
  if inMotion d then
    match motionOf d with
    | some m => requesterSource m.requester
    | none => 0
  else 0

/-- R131: a channel becomes FAULTED; a motion in progress ends, and opening is re-judged. -/
def becomeFaulted (c : Channel) (k : FaultKind) (s : State) : State :=
  let d := s.drivers.get c
  let f : Driver := .faulted (heldPosition d) k
  let s := if inMotion d then endMotion c f s else setDriver c f s
  rejudge c (faultRaised k (faultSource d) s)

/-- R122: both limits active: FAULTED(LIMIT) in every state of an enabled channel. -/
def limitFault (c : Channel) (s : State) : State :=
  match s.drivers.get c with
  | .disabled => s
  | .faulted p k =>
    if k = .limit then s
    else faultRaised .limit 0 (setDriver c (.faulted p .limit) s)
  | .idle _ | .warning _ _ _ | .closing _ _ _ | .opening _ _ _ | .brake _ _ | .backoff _ _ _
  | .blocked _ _ => becomeFaulted c .limit s

/-! ### Start and course of a motion (R113 to R120) -/

/-- R115: the close drive starts: position PART, travel and blanking timers started. -/
def startClosing (c : Channel) (m : Motion) (s : State) : State :=
  setDriver c (.closing m ((chanCfg c s).travelS * 1000) (some s.cfg.blankingMs)) s

/-- R115: the open drive starts. -/
def startOpening (c : Channel) (m : Motion) (s : State) : State :=
  setDriver c (.opening m ((chanCfg c s).travelS * 1000) (some s.cfg.blankingMs)) s

/-- R114: a channel enters WARNING, holding position `p`. -/
def startWarning (c : Channel) (p : Position) (m : Motion) (s : State) : State :=
  setDriver c (.warning p m (s.cfg.warningS * 1000)) s

/-- R75, R113: a job is handed over: it leaves the queue and its motion starts. -/
def handOver (j : Job) (s : State) : State :=
  let m : Motion :=
    { dir := j.dir, cls := j.cls, cause := j.cause, requester := j.requester, retry := j.retry
      attempt := none, stopAtEnd := false }
  let p := heldPosition (s.drivers.get j.chan)
  let s := dropJob j.chan s
  match j.dir with
  | .opening => startOpening j.chan m s
  | .close =>
    if (chanCfg j.chan s).cls = .windowLow then startWarning j.chan p m s
    else startClosing j.chan m s

/-- R117: the number of an obstruction. -/
def attemptOf (m : Motion) : Nat := m.attempt.getD (m.retry + 1)

/-- R117, R120: an overcurrent is taken in CLOSING or OPENING. -/
def takeOvercurrent (c : Channel) (s : State) : State :=
  match s.drivers.get c with
  | .closing m _ _ =>
    raiseEvent .obstruction
      (setDriver c (.backoff { m with attempt := some (m.retry + 1) } true Config.backoffMs) s)
  | .opening _ _ _ => restore c (raiseEvent .openBlocked (endAtRest c .part s))
  | .disabled | .idle _ | .warning _ _ _ | .brake _ _ | .backoff _ _ _ | .blocked _ _
  | .faulted _ _ => s

/-- R118: the retry delay after obstruction `n`, in milliseconds. -/
def retryDelayMs (k : Settings) (n : Nat) : Nat :=
  min (k.retryBaseS * 2 ^ (n - 1)) Config.retryCapS * 1000

/-- R118: what a channel in BACKOFF becomes at the end of its backoff. -/
def afterBackoff (c : Channel) (m : Motion) (s : State) : Driver :=
  if s.cfg.obstrRetries < attemptOf m then .faulted .part .obstructed
  else if m.stopAtEnd then .idle (settled c .part s)
  else .blocked m (retryDelayMs s.cfg (attemptOf m))

/-- R118, R131: the error record of a backoff that ends in a fault. -/
def backoffError (m : Motion) (s : State) : State :=
  if s.cfg.obstrRetries < attemptOf m then
    faultRaised .obstructed (requesterSource m.requester) s
  else s

/-- R118: the backoff of a channel ends, its claim given up. -/
def endBackoff (c : Channel) (m : Motion) (s : State) : State :=
  restore c (rejudge c (backoffError m (endMotion c (afterBackoff c m s) s)))

/-! ### Stop (R66, R128) -/

/-- The cause of a person: COMMAND, LOCAL, OPEN_COMMAND or OPEN_LOCAL (R66, R128). -/
def personal : Cause → Bool
  | .command | .wall | .openCommand | .openWall => true
  | .storm | .rain | .wind | .isolation => false

/-- A weather cause: STORM, RAIN or WIND (R53). -/
def weather : Cause → Bool
  | .storm | .rain | .wind => true
  | .isolation | .command | .wall | .openCommand | .openWall => false

/-- R128: a STOP reaches the driver of a channel whose motion has the cause of a person. -/
def stopMotion (c : Channel) (s : State) : State :=
  match s.drivers.get c with
  | .warning p _ _ => restore c (endAtRest c p s)
  | .closing _ _ _ | .opening _ _ _ | .brake _ _ => restore c (endAtRest c .part s)
  | .backoff m on t => setDriver c (.backoff { m with stopAtEnd := true } on t) s
  | .blocked _ _ => restore c (setDriver c (.idle (settled c .part s)) s)
  | .disabled | .idle _ | .faulted _ _ => s

/-- R66: a STOP removes a queued job, its claim given up; a restore request follows where R49 calls for one. -/
def stopJob (c : Channel) (s : State) : State :=
  match jobOf c s with
  | none => s
  | some j => restore c (dropJob c (giveUpClaim j s))

end Sys2Proof.Machine
end

