-- ==== Sys2Proof/Machine/Admission.lean ====
section
/-! DEFINITION. The admission limit and the admission scan (R69, R70, R82), the warm restart's first step (R190), and
the end of a command: the scan and the restart its effect has called for. -/

namespace Sys2Proof.Machine

/-- R82: a draw passes the admission limit of the link state in force. -/
def admits (draw : Nat) (s : State) : Bool :=
  match s.link.state with
  | .offline | .listen => false
  | .active =>
    decide (totalT s + draw ≤ s.cfg.budget) && s.supply.tableFull.isNone
      && decide (s.supply.entries.length < Config.tableSize)
  | .isolated =>
    decide (totalT s + draw ≤ s.cfg.isoShare)
      && decide (s.supply.entries.length < Config.tableSize)
  | .mute =>
    decide (totalT s + draw ≤ s.cfg.budget) && decide (ownTotal s + draw ≤ s.cfg.isoShare)
      && decide (s.supply.entries.length < Config.tableSize)

/-- R70: a WAITING job that would find nothing to do. -/
def idleJob (j : Job) (d : Driver) : Bool :=
  isFaulted d
    || match j.dir with
       | .close => restsClosed d
       | .opening => restsOpen d

/-- R69, R86: a job is passed over because it is held back and the transmit queue is full. -/
def passedOver (j : Job) (s : State) : Bool :=
  j.heldBack && decide (Config.txSize ≤ s.line.queue.length)

/-- R69: one job of the scan. -/
def scanJob (s : State) (c : Channel) : State :=
  match jobOf c s with
  | none => s
  | some j =>
    if j.state ≠ .waiting ∨ passedOver j s = true then s
    else if idleJob j (s.drivers.get c) then dropJob c s
    else
      let s := setJobs (s.jobs.map (fun k => if k.chan = c then { k with heldBack := false } else k)) s
      if j.dir = .opening ∧ closeWaiting s = true then s
      else if admits (drawOf c s) s then admitJob j s
      else s

/-- R69: one admission scan, over the jobs in the key order it finds. -/
def scan (s : State) : State := (s.jobs.map Job.chan).foldl scanJob s

/-- R68: the scans a command has called for; a CLAIM that finds the transmit queue full during a scan calls for another
(log 12). -/
def runScans : Nat → State → State
  | 0, s => { s with work := { s.work with scan := false } }
  | n + 1, s =>
    if s.work.scan then runScans n (scan { s with work := { s.work with scan := false } })
    else s

/-- R136: a channel at a warm restart: its drives off, its motion record discarded. -/
def restarted : Driver → Driver
  | .idle p => .idle p
  | .warning p _ _ => .idle p
  | .closing _ _ _ | .opening _ _ _ | .brake _ _ | .backoff _ _ _ | .blocked _ _ => .idle .part
  | .faulted p k => .faulted p k
  | .disabled => .disabled

/-- R175: the Request Handler at a start; the inputs of the switches stand as they are. -/
def requestsAtStart (r : Requests) : Requests :=
  { Requests.start with
    swClose := { Switch.released with input := r.swClose.input }
    swOpen := { Switch.released with input := r.swOpen.input } }

/-- R190, step 1: a warm restart begins: every block takes its start values, the channels keep R136's, and the Status
Block keeps its records. -/
def warmRestart (s : State) : State :=
  { s with
    phase := .warmLoad
    sensing := Sensing.stopped
    picture := PictureUnit.start
    eval := Evaluator.start
    jobs := []
    supply := Supply.start
    drivers := s.drivers.map restarted
    chirp := none
    line := Line.start
    link := Link.start
    requests := requestsAtStart s.requests
    work := { scan := false, restart := false } }

/-- The end of a command: the admission scan its effect has called for (R68), then the warm restart (R172). -/
def finish (s : State) : State :=
  let s := runScans 16 s
  if s.work.restart then warmRestart s else s

/-- A command's effect on a running part, followed by the scan and the restart it calls for; a part that is held in
reset or loading takes nothing (R189). -/
def whileRunning (f : State → State) (s : State) : State :=
  if isRunning s then finish (f s) else s

end Sys2Proof.Machine
end

