-- ==== Sys2Proof/Machine/Drivers.lean ====
section
/-! DEFINITION. The Channel Drivers' own events: timers, motor current, limits and the chirp (chapter 6), with their ten
commands. -/

namespace Sys2Proof.Machine

/-! ### Timers -/

/-- R114: the warning time of a WARNING channel runs out. -/
def warningExpired (c : Channel) (s : State) : State :=
  match s.drivers.get c with
  | .warning _ m _ => startClosing c m s
  | .disabled | .idle _ | .closing _ _ _ | .opening _ _ _ | .brake _ _ | .backoff _ _ _
  | .blocked _ _ | .faulted _ _ => s

/-- WARNING_TIMER_EXPIRY (R114). -/
def execWarningTimerExpiry (c : Channel) (s : State) : Host.Outcome State Fault Refusal :=
  .next (whileRunning (warningExpired c) s)

/-- R126: the brake of a reversed channel ends. -/
def brakeExpired (c : Channel) (s : State) : State :=
  match s.drivers.get c with
  | .brake m _ =>
    if (chanCfg c s).cls = .windowLow then startWarning c .part m s else startClosing c m s
  | .disabled | .idle _ | .warning _ _ _ | .closing _ _ _ | .opening _ _ _ | .backoff _ _ _
  | .blocked _ _ | .faulted _ _ => s

/-- BRAKE_EXPIRY (R126). -/
def execBrakeExpiry (c : Channel) (s : State) : Host.Outcome State Fault Refusal :=
  .next (whileRunning (brakeExpired c) s)

/-- R118: the backoff timer expires. -/
def backoffExpired (c : Channel) (s : State) : State :=
  match s.drivers.get c with
  | .backoff m _ _ => endBackoff c m s
  | .disabled | .idle _ | .warning _ _ _ | .closing _ _ _ | .opening _ _ _ | .brake _ _
  | .blocked _ _ | .faulted _ _ => s

/-- BACKOFF_EXPIRY (R118). -/
def execBackoffExpiry (c : Channel) (s : State) : Host.Outcome State Fault Refusal :=
  .next (whileRunning (backoffExpired c) s)

/-- R119: the retry goes on whatever the demand: cause COMMAND, LOCAL or ISOLATION. -/
def retriesAnyway : Cause → Bool
  | .command | .wall | .isolation => true
  | .storm | .rain | .wind | .openCommand | .openWall => false

/-- R119, R76: the retry delay of a BLOCKED channel expires. -/
def retryExpired (c : Channel) (s : State) : State :=
  match s.drivers.get c with
  | .blocked m _ =>
    let s := setDriver c (.idle (settled c .part s)) s
    let s :=
      if demandSet c s || retriesAnyway m.cause then
        queueClose c
          { cls := m.cls, cause := m.cause, who := m.requester, retry := attemptOf m, clears := false } s
      else s
    restore c s
  | .disabled | .idle _ | .warning _ _ _ | .closing _ _ _ | .opening _ _ _ | .brake _ _
  | .backoff _ _ _ | .faulted _ _ => s

/-- RETRY_TIMER_EXPIRY (R119). -/
def execRetryTimerExpiry (c : Channel) (s : State) : Host.Outcome State Fault Refusal :=
  .next (whileRunning (retryExpired c) s)

/-- R123: the travel timer expires: the end position in TIMED mode, FAULTED(TRAVEL) in SWITCHES mode. -/
def travelExpired (c : Channel) (s : State) : State :=
  match s.drivers.get c with
  | .closing _ _ _ =>
    if (chanCfg c s).timed then endAtRest c .closed s else becomeFaulted c .travel s
  | .opening _ _ _ =>
    if (chanCfg c s).timed then restore c (endAtRest c .opened s) else becomeFaulted c .travel s
  | .disabled | .idle _ | .warning _ _ _ | .brake _ _ | .backoff _ _ _ | .blocked _ _
  | .faulted _ _ => s

/-- TRAVEL_TIMER_EXPIRY (R123). -/
def execTravelTimerExpiry (c : Channel) (s : State) : Host.Outcome State Fault Refusal :=
  .next (whileRunning (travelExpired c) s)

/-- CHIRP_EXPIRY (R133): the chirp timer stops; the sounder follows. -/
def execChirpExpiry (s : State) : Host.Outcome State Fault Refusal :=
  .next (whileRunning (fun s => { s with chirp := none }) s)

/-! ### Motor current (R116) -/

/-- The sensed current of a channel takes a new level. -/
def setCurrent (c : Channel) (current : Nat) (s : State) : State :=
  { s with
    pins := { s.pins with
      chans := s.pins.chans.set c { s.pins.chans.get c with current := current } } }

/-- R116: the current stands at or above the channel's overcurrent threshold. -/
def overThreshold (c : Channel) (s : State) : Bool :=
  decide ((chanCfg c s).threshold ≤ (s.pins.chans.get c).current)

/-- R116: current comparison is open: a drive runs in CLOSING or OPENING and its blanking has expired. -/
def compares : Driver → Bool
  | .closing _ _ b => b.isNone
  | .opening _ _ b => b.isNone
  | .disabled | .idle _ | .warning _ _ _ | .brake _ _ | .backoff _ _ _ | .blocked _ _
  | .faulted _ _ => false

/-- R116: the sensed current has risen to a level. -/
def currentRisen (c : Channel) (current : Nat) (s : State) : State :=
  let s := setCurrent c current s
  if compares (s.drivers.get c) && overThreshold c s then takeOvercurrent c s else s

/-- OVERCURRENT (R116). -/
def execOvercurrent (c : Channel) (current : Nat) (s : State) : Host.Outcome State Fault Refusal :=
  .next (whileRunning (currentRisen c current) s)

/-- R116: the drive with its blanking expired, where blanking runs. -/
def unblanked : Driver → Option Driver
  | .closing m t (some _) => some (.closing m t none)
  | .opening m t (some _) => some (.opening m t none)
  | _ => none

/-- R116: the blanking timer expires: comparison opens, and an overcurrent is taken at once where the current stands
at the threshold. -/
def blankingExpired (c : Channel) (current : Nat) (s : State) : State :=
  let s := setCurrent c current s
  match unblanked (s.drivers.get c) with
  | some d =>
    let s := setDriver c d s
    if overThreshold c s then takeOvercurrent c s else s
  | none => s

/-- BLANKING_EXPIRY (R116). -/
def execBlankingExpiry (c : Channel) (current : Nat) (s : State) : Host.Outcome State Fault Refusal :=
  .next (whileRunning (blankingExpired c current) s)

/-! ### Limits (R121, R122, R124) -/

/-- The contact of a limit set so that the limit reads `active` under the channel's polarity (R108). DESIGN CHOICE
(log 38): before and during a load, the polarity is that of the settings then held. -/
def setLimit (c : Channel) (l : Limit) (active : Bool) (s : State) : State :=
  let k := contactFor (chanCfg c s) active
  let x := s.pins.chans.get c
  { s with
    pins := { s.pins with
      chans := s.pins.chans.set c
        (match l with
         | .closed => { x with closedContact := k }
         | .opened => { x with openContact := k }) } }

/-- R121, R124: the closed limit of a channel has become active, the open limit being inactive. -/
def closedLimitActive (c : Channel) (s : State) : State :=
  match s.drivers.get c with
  | .idle _ => setDriver c (.idle .closed) s
  | .warning _ _ _ | .closing _ _ _ => endAtRest c .closed s
  | .opening _ _ _ | .brake _ _ => becomeFaulted c .limit s
  | .blocked _ _ => setDriver c (.idle .closed) s
  | .disabled | .backoff _ _ _ | .faulted _ _ => s

/-- R121, R124: the open limit of a channel has become active, the closed limit being inactive. -/
def openLimitActive (c : Channel) (s : State) : State :=
  match s.drivers.get c with
  | .idle _ => restore c (setDriver c (.idle .opened) s)
  | .closing _ _ _ => becomeFaulted c .limit s
  | .opening _ _ _ => restore c (endAtRest c .opened s)
  | .backoff m _ t => setDriver c (.backoff m false t) s
  | .disabled | .warning _ _ _ | .brake _ _ | .blocked _ _ | .faulted _ _ => s

/-- R121, R122: a limit of a channel in SWITCHES mode has become active. -/
def limitActivated (c : Channel) (l : Limit) (s : State) : State :=
  if bothLimits c s then limitFault c s
  else
    match l with
    | .closed => closedLimitActive c s
    | .opened => openLimitActive c s

/-- R124: a limit of a channel in SWITCHES mode has become inactive: creep off an end at rest. -/
def limitDeactivated (c : Channel) (l : Limit) (s : State) : State :=
  match l, s.drivers.get c with
  | .closed, .idle .closed => restore c (setDriver c (.idle .part) s)
  | .opened, .idle .opened => restore c (setDriver c (.idle .part) s)
  | _, _ => s

/-- R109: the driver takes a channel's limits: the channel is enabled and its mode is SWITCHES. -/
def takesLimits (c : Channel) (s : State) : Bool :=
  s.drivers.get c != .disabled && !(chanCfg c s).timed

/-- LIMIT_ACTIVE (R121): the input becomes active; where that is a change and the driver takes it, it has its effect. -/
def execLimitActive (c : Channel) (l : Limit) (s : State) : Host.Outcome State Fault Refusal :=
  .next
    (if limitOn c l s then s
     else
      whileRunning (fun s => if takesLimits c s then limitActivated c l s else s)
        (setLimit c l true s))

/-- LIMIT_INACTIVE (R124). -/
def execLimitInactive (c : Channel) (l : Limit) (s : State) : Host.Outcome State Fault Refusal :=
  .next
    (if limitOn c l s then
      whileRunning (fun s => if takesLimits c s then limitDeactivated c l s else s)
        (setLimit c l false s)
     else s)

end Sys2Proof.Machine
end

