-- ==== Sys2Proof/Machine/Demand.lean ====
section
/-! DEFINITION. The Demand Evaluator: exposure, the full evaluation, the storm flag, demands and their release, and the
isolation policy (chapter 3); the commands STORM_RELEASE_EXPIRY and CALM_HOLD_EXPIRY. -/

namespace Sys2Proof.Machine

/-! ### Exposure (R34, R35) -/

/-- R34: the circular distance of two sectors. -/
def sectorDistance (w f : Nat) : Nat :=
  let a := if w ≤ f then f - w else w - f
  min a (16 - a)

/-- R34: the facing factor of a distance, in sixteenths. -/
def factorOf : Nat → Nat
  | 0 => 16
  | 1 => 15
  | 2 => 12
  | 3 => 7
  | 4 => 3
  | _ => 0

/-- R34: the facing factor of a channel's facing under the wind sector W. -/
def facingFactor (facing : Facing) (w : Option Nat) : Nat :=
  match facing, w with
  | .roof, _ => 16
  | .sector _, none => 16
  | .sector f, some w => factorOf (sectorDistance w f)

/-- R35: the exposure of a facing under a picture. -/
def exposureOf (facing : Facing) (p : Picture) : Option Nat :=
  p.g.map (fun g => g * facingFactor facing p.w / 16)

/-! ### Tests (R42, R44, R46) -/

/-- R46: a known value at or above a threshold. -/
def atLeast (x : Option Nat) (limit : Nat) : Bool :=
  match x with
  | some v => decide (limit ≤ v)
  | none => false

/-- R46: a known value below a level. -/
def below (x : Option Nat) (level : Nat) : Bool :=
  match x with
  | some v => decide (v < level)
  | none => false

/-- A WINDOW_HIGH or WINDOW_LOW channel. -/
def isWindow (k : ChannelClass) : Bool := k == .windowHigh || k == .windowLow

/-- R42: the closing condition of highest class that holds, the earlier in the table where classes are equal. -/
def closingCondition (k : Settings) (cls : ChannelClass) (storm : Bool) (r : RainPicture)
    (e : Option Nat) : Option Demand :=
  if storm then some ⟨.storm, 3⟩
  else if r = .wet ∧ cls = .skylight then some ⟨.rain, 2⟩
  else if atLeast e k.tWind then some ⟨.wind, 1⟩
  else if r = .wet ∧ isWindow cls = true ∧ atLeast e k.tRain = true then some ⟨.rain, 1⟩
  else none

/-- R44: the release condition of a channel. -/
def releaseCondition (k : Settings) (cls : ChannelClass) (storm : Bool) (r : RainPicture)
    (e : Option Nat) : Bool :=
  !storm
    && (r == .dry || (isWindow cls && below e (rainRelease k)))
    && below e (windRelease k)

/-! ### The stages of a full evaluation (R38) -/

/-- Stage 1 for one channel: E recomputed where the channel is enabled (R36). -/
def reexpose (s : State) (c : Channel) : State :=
  if (chanCfg c s).enabled then
    setExposed c
      { s.eval.chans.get c with exposure := exposureOf (chanCfg c s).facing s.picture.fused } s
  else s

/-- R36, R60: the queued jobs take their channels' exposures and are placed anew. -/
def reorderJobs (s : State) : State :=
  setJobs
    (sortJobs (s.jobs.map (fun j => { j with exposure := (s.eval.chans.get j.chan).exposure }))) s

/-- Stage 2: the storm flag and its release timer judged against G (R39, R40). -/
def judgeStorm (s : State) : State :=
  let g := s.picture.fused.g
  if s.eval.storm then
    if below g (stormReleaseLevel s.cfg) then
      { s with
        eval := { s.eval with stormRelease := some (s.eval.stormRelease.getD (calmMs s.cfg)) } }
    else { s with eval := { s.eval with stormRelease := none } }
  else if atLeast g s.cfg.tStorm then
    raiseEvent .storm { s with eval := { s.eval with storm := true, stormRelease := none } }
  else { s with eval := { s.eval with stormRelease := none } }

/-- Stage 3 for what is held of one channel: the demand by R42 and R43, the calm-hold timer by R45. -/
def judgedChannel (k : Settings) (cls : ChannelClass) (storm : Bool) (r : RainPicture) (x : Exposed) :
    Exposed :=
  let d := match closingCondition k cls storm r x.exposure with
    | some c => some c
    | none => x.demand
  { x with
    demand := d
    calm :=
      if d.isSome && releaseCondition k cls storm r x.exposure then
        some (x.calm.getD (calmMs k))
      else none }

/-- Stage 3 for one channel. -/
def judgeChannel (s : State) (c : Channel) : State :=
  if (chanCfg c s).enabled then
    setExposed c
      (judgedChannel s.cfg (chanCfg c s).cls s.eval.storm s.picture.fused.r (s.eval.chans.get c)) s
  else s

/-- R47: the demand has become SET, or its class has risen. -/
def risen (before after : Option Demand) : Bool :=
  match before, after with
  | none, some _ => true
  | some b, some a => decide (b.cls < a.cls)
  | _, none => false

/-- R47: what a demand that is newly set or has risen asks, by the state of its channel. -/
def askDemand (c : Channel) (d : Demand) (s : State) : State :=
  match s.drivers.get c with
  | .disabled | .faulted _ _ => s
  | .idle p => if p = .closed then s else closeRequest c (demandReq d) s
  | .warning _ _ _ | .closing _ _ _ | .opening _ _ _ | .brake _ _ | .backoff _ _ _ | .blocked _ _ =>
    closeRequest c (demandReq d) s

/-- Stage 4 for one channel, given what was held of the channels before the evaluation. -/
def askChannel (before : Eight Exposed) (s : State) (c : Channel) : State :=
  let after := (s.eval.chans.get c).demand
  if risen (before.get c).demand after then
    match after with
    | some d => askDemand c d s
    | none => s
  else s

/-- Stages 3 and 4: opening is re-judged before the close requests are handed on (R65). -/
def judgeAll (s : State) : State :=
  let before := s.eval.chans
  let s := allChannels.foldl judgeChannel s
  allChannels.foldl (askChannel before) (rejudgeAll s)

/-- R38: the full evaluation that follows a picture change. -/
def evaluatePicture (s : State) : State :=
  judgeAll (judgeStorm (reorderJobs (allChannels.foldl reexpose s)))

/-- R41: the storm flag clears and a full evaluation is made on the picture held. -/
def stormReleased (s : State) : State :=
  judgeAll { s with eval := { s.eval with storm := false, stormRelease := none } }

/-! ### The isolation policy (R52 to R54) -/

/-- R53: a motion whose cause the policy changes. -/
def isolatedMotion (m : Motion) : Motion :=
  if weather m.cause then { m with cause := .isolation } else m

/-- R53: CLOSE_ALL dealt to one channel. -/
def closeForIsolation (s : State) (c : Channel) : State :=
  let r : CloseReq := { cls := 1, cause := .isolation, who := .absent, retry := 0, clears := false }
  match s.drivers.get c with
  | .opening _ _ _ => closeRequest c r s
  | .idle p => if p = .closed then s else closeRequest c r s
  | .backoff m on t => setDriver c (.backoff (isolatedMotion m) on t) s
  | .blocked m t => setDriver c (.blocked (isolatedMotion m) t) s
  | .disabled | .warning _ _ _ | .closing _ _ _ | .brake _ _ | .faulted _ _ => s

/-- R52: the isolation policy applied at an entry into ISOLATED or MUTE. -/
def applyPolicy (s : State) : State :=
  match s.cfg.policy with
  | .closeAll => allChannels.foldl closeForIsolation s
  | .holdPosition => allChannels.foldl (fun s c => halt c s) s

/-! ### Commands -/

/-- STORM_RELEASE_EXPIRY (R41). -/
def execStormReleaseExpiry (s : State) : Host.Outcome State Fault Refusal :=
  .next (whileRunning (fun s => if s.eval.stormRelease.isSome then stormReleased s else s) s)

/-- R45: a channel's calm hold has run out: its demand is CLEAR, and opening is re-judged for it alone. -/
def calmExpired (c : Channel) (s : State) : State :=
  if (s.eval.chans.get c).calm.isSome then
    rejudge c (setExposed c { s.eval.chans.get c with demand := none, calm := none } s)
  else s

/-- CALM_HOLD_EXPIRY (R45, R48). -/
def execCalmHoldExpiry (c : Channel) (s : State) : Host.Outcome State Fault Refusal :=
  .next (whileRunning (calmExpired c) s)

end Sys2Proof.Machine
end

