-- ==== Sys2Proof/Machine/Supply.lean ====
section
/-! DEFINITION. The Supply Share Unit: own claims settled, refreshed and sent, peer claims, contention and pauses
(chapter 5), with its five commands. -/

namespace Sys2Proof.Machine

/-! ### Own claims (R75, R85, R87, R88) -/

/-- R75: a job is dropped at its settle expiry. -/
def dropsAtHandover (j : Job) (s : State) : Bool :=
  isFaulted (s.drivers.get j.chan) || s.drivers.get j.chan == .disabled
    || match j.dir with
       | .close => restsClosed (s.drivers.get j.chan)
       | .opening => restsOpen (s.drivers.get j.chan) || !openingAllowed j.chan s

/-- R75, R87: the settle interval of an own entry has expired. -/
def ownSettled (c : Channel) (s : State) : State :=
  match ownEntry c s with
  | none => s
  | some e =>
    if isSettling e then
      let s := changeEntries (isOwnOf c) (fun x => { x with state := .held }) s
      match jobOf c s with
      | none => s
      | some j =>
        if dropsAtHandover j s then removeOwn c true (dropJob c s) else handOver j s
    else s

/-- OWN_SETTLE_EXPIRY (R87). -/
def execOwnSettleExpiry (c : Channel) (s : State) : Host.Outcome State Fault Refusal :=
  .next (whileRunning (ownSettled c) s)

/-- R88: link states in which refreshes are queued. -/
def refreshes : LinkState → Bool
  | .active | .isolated | .listen => true
  | .offline | .mute => false

/-- R88: half the claim lifetime has passed since the last send of a channel's own entry. -/
def claimRefresh (c : Channel) (s : State) : State :=
  match ownEntry c s with
  | none => s
  | some e =>
    if isHeld e then
      let half := s.cfg.lifetimeS * 500
      let s := changeEntries (isOwnOf c) (fun x => { x with ageMs := max x.ageMs half }) s
      if refreshes s.link.state && !s.line.queue.any (isWaitingClaim e.tag) && !e.refreshBarred then
        queueClaim { e with ageMs := max e.ageMs half } false s
      else s
    else s

/-- CLAIM_REFRESH_DUE (R88). -/
def execClaimRefreshDue (c : Channel) (s : State) : Host.Outcome State Fault Refusal :=
  .next (whileRunning (claimRefresh c) s)

/-- R85: the echo check of an own CLAIM has completed. -/
def claimSent (tag : Nat) (s : State) : State :=
  match ownTagged tag s with
  | none => s
  | some e =>
    match e.state with
    | .announcing =>
      let s := changeEntries (isOwnOf e.chan)
        (fun x => { x with state := .settling s.cfg.settleMs, ageMs := 0 }) s
      setJobs (s.jobs.map (fun j => if j.chan = e.chan then { j with state := .settling } else j)) s
    | .settling _ | .held | .yielding =>
      changeEntries (isOwnOf e.chan) (fun x => { x with ageMs := 0 }) s

/-! ### Withdrawals (R73, R101) -/

/-- An own entry is withdrawn and its job returns to WAITING; `release` queues a RELEASE (R102) and none is owed for an
ANNOUNCING entry (R101). -/
def withdrawClaim (c : Channel) (release : Bool) (s : State) : State :=
  let s := removeOwn c release s
  setJobs (s.jobs.map (fun j => if j.chan = c then { j with state := .waiting, heldBack := false } else j)) s

/-- R73: the entry of an ANNOUNCING job is withdrawn at an entry into LISTEN, ISOLATED or MUTE. -/
def withdrawAnnouncing (s : State) (c : Channel) : State :=
  match jobOf c s with
  | none => s
  | some j => if j.state = .announcing then withdrawClaim c false s else s

/-- R73: every ANNOUNCING job returns to WAITING. -/
def withdrawAll (s : State) : State := allChannels.foldl withdrawAnnouncing s

/-! ### Pauses (R105, R130) -/

/-- R130: what a channel becomes when its motion is paused. -/
def pausedDriver (c : Channel) (s : State) : Driver → Driver
  | .warning p _ _ => .idle (settled c p s)
  | .closing _ _ _ | .opening _ _ _ | .brake _ _ => .idle (settled c .part s)
  | .backoff m _ _ => afterBackoff c m s
  | .disabled => .disabled
  | .idle p => .idle p
  | .blocked m t => .blocked m t
  | .faulted p k => .faulted p k

/-- R105, R76: the paused motion is put back into the queue. A pause in BACKOFF makes no job, and no pause a restore
request (R130); opening is re-judged there, since the channel may have become FAULTED (R50). -/
def requeue (c : Channel) (d : Driver) (s : State) : State :=
  match d with
  | .warning _ m _ | .closing m _ _ | .brake m _ =>
    queueClose c { cls := m.cls, cause := m.cause, who := m.requester, retry := m.retry, clears := false } s
  | .opening m _ _ =>
    if openingAllowed c s then openRequest c m.cause m.requester m.retry s else s
  | .backoff _ _ _ => rejudge c s
  | .disabled | .idle _ | .blocked _ _ | .faulted _ _ => s

/-- R105, R130: the motion of a channel is paused; the CLAIM that started the check came from `source`. -/
def pauseMotion (c : Channel) (source : Nat) (s : State) : State :=
  let d := s.drivers.get c
  let s := match d with
    | .backoff m _ _ => backoffError m s
    | .disabled | .idle _ | .warning _ _ _ | .closing _ _ _ | .opening _ _ _ | .brake _ _
    | .blocked _ _ | .faulted _ _ => s
  let s := setDriver c (pausedDriver c s d) s
  let s := raiseError .overBudget .overBudget source (removeOwn c true s)
  requeue c d s

/-! ### The contention check (R100 to R104) -/

/-- R101: one own ANNOUNCING job of the first stage. -/
def firstStage (s : State) (c : Channel) : State :=
  if s.cfg.budget < totalT s then withdrawClaim c false s else s

/-- R101: the channels of the ANNOUNCING jobs, the last in key order first. -/
def announcingChannels (s : State) : List Channel :=
  ((s.jobs.filter (fun j => j.state == .announcing)).map Job.chan).reverse

/-- R102: one SETTLING entry of the second stage: a peer's becomes YIELDING, an own one is withdrawn. -/
def secondStage (s : State) (e : Entry) : State :=
  if s.cfg.budget < totalT s then
    if e.own then withdrawClaim e.chan true s
    else
      wantScan (changeEntries (isPeerKey e.station e.tag) (fun x => { x with state := .yielding }) s)
  else s

/-- The number of peer entries that are YIELDING. -/
def yieldingCount (s : State) : Nat :=
  (s.supply.entries.filter (fun e => e.state == .yielding)).length

/-- R103: one own SETTLING entry that has survived is reasserted, once in its life. -/
def reassertOne (s : State) (e : Entry) : State :=
  if e.own && isSettling e && !e.reasserted then
    let s := changeEntries (isOwnOf e.chan) (fun x => { x with reasserted := true }) s
    if s.link.state = .mute then s else queueClaim { e with reasserted := true } true s
  else s

/-- R103: the surviving own SETTLING entries are reasserted. -/
def reassert (s : State) : State := s.supply.entries.foldl reassertOne s

/-- R104: the third stage over the HELD entries in ascending precedence: own motions are paused until the HELD total is
within B; it stops at a peer's entry, with the held-excess marker set. -/
def thirdStage (source : Nat) : List Entry → State → State
  | [], s => s
  | e :: es, s =>
    if s.cfg.budget < heldTotal s then
      if e.own then thirdStage source es (pauseMotion e.chan source s)
      else if s.supply.heldExcess then s
      else raiseEvent .overBudget { s with supply := { s.supply with heldExcess := true } }
    else s

/-- R104: the held-excess marker is clear after a check that ends with the HELD total within B. -/
def clearExcess (s : State) : State :=
  if heldTotal s ≤ s.cfg.budget then { s with supply := { s.supply with heldExcess := false } } else s

/-- R100: the contention check that follows a CLAIM from `source`. -/
def contention (source : Nat) (s : State) : State :=
  let s := (announcingChannels s).foldl firstStage s
  let before := yieldingCount s
  let s := (ascending (s.supply.entries.filter isSettling)).foldl secondStage s
  let s := if before < yieldingCount s then reassert s else s
  clearExcess (thirdStage source (ascending (s.supply.entries.filter isHeld)) s)

/-! ### Peer claims (R93, R94, R98) -/

/-- R93, R94: the state of a peer entry after a CLAIM of its key. -/
def stateAfterClaim (isNew : Bool) (settleMs : Nat) (st : ClaimState) : ClaimState :=
  if isNew then
    match st with
    | .yielding => .settling settleMs
    | .settling n => .settling n
    | .held => .held
    | .announcing => .announcing
  else .held

/-- R93, R94: a peer entry takes the fields of a CLAIM of its key. -/
def refreshedEntry (k : ClaimFields) (settleMs : Nat) (e : Entry) : Entry :=
  { e with
    chan := k.chan, draw := k.draw, cls := k.cls, lifetimeS := k.lifetimeS
    state := stateAfterClaim k.isNew settleMs e.state, ageMs := 0 }

/-- R93: a peer entry of the same station that names the same channel under another tag. -/
def superseded (station : Nat) (k : ClaimFields) (e : Entry) : Bool :=
  !e.own && decide (e.station = station) && decide (e.chan = k.chan) && decide (e.tag ≠ k.tag)

/-- R93: the superseded entries are removed, and a scan follows where there is one. -/
def supersede (station : Nat) (k : ClaimFields) (s : State) : State :=
  if s.supply.entries.any (superseded station k) then
    wantScan (removeEntries (superseded station k) s)
  else s

/-- R98: a CLAIM of unknown key finds the table full. -/
def refuseClaim (station : Nat) (s : State) : State :=
  raiseError .overBudget .tableFull station
    { s with supply := { s.supply with tableFull := some (s.cfg.lifetimeS * 1000) } }

/-- R93, R94: a new peer entry: SETTLING for a NEW, HELD for a REFRESH. -/
def newPeerEntry (station : Nat) (k : ClaimFields) (settleMs : Nat) : Entry :=
  { station := station, tag := k.tag, chan := k.chan, draw := k.draw, cls := k.cls
    lifetimeS := k.lifetimeS
    state := if k.isNew then .settling settleMs else .held
    ageMs := 0, own := false, reasserted := false, refreshBarred := false }

/-- R93, R94, R98: a CLAIM taken is applied to the table by its key. -/
def applyClaim (station : Nat) (k : ClaimFields) (s : State) : State :=
  match peerEntry station k.tag s with
  | some _ => changeEntries (isPeerKey station k.tag) (refreshedEntry k s.cfg.settleMs) s
  | none =>
    let s := supersede station k s
    if s.supply.entries.length < Config.tableSize then
      setEntries (s.supply.entries ++ [newPeerEntry station k s.cfg.settleMs]) s
    else refuseClaim station s

/-- R92: a CLAIM handed to the Supply Share Unit. -/
def takeClaim (station : Nat) (payload : List Byte) (s : State) : State :=
  match decodeClaim s.cfg.circuit payload with
  | .otherCircuit => s
  | .malformed => raiseError .rxError .rxLength station s
  | .fields k => contention station (applyClaim station k s)

/-- R96: a RELEASE handed to the Supply Share Unit. -/
def takeRelease (station : Nat) (payload : List Byte) (s : State) : State :=
  match decodeRelease s.cfg.circuit payload with
  | .otherCircuit => s
  | .malformed => raiseError .rxError .rxLength station s
  | .fields tag =>
    match peerEntry station tag s with
    | none => s
    | some _ => wantScan (removeEntries (isPeerKey station tag) s)

/-! ### Peer timers (R95, R97, R98) -/

/-- R95: the settle interval of a peer entry has expired. -/
def peerSettled (station tag : Nat) (s : State) : State :=
  changeEntries (fun e => isPeerKey station tag e && isSettling e) (fun e => { e with state := .held }) s

/-- PEER_SETTLE_EXPIRY (R95). -/
def execPeerSettleExpiry (station tag : Nat) (s : State) : Host.Outcome State Fault Refusal :=
  .next (whileRunning (peerSettled station tag) s)

/-- R97: the age of a peer entry has reached its lifetime. -/
def claimLapsed (station tag : Nat) (s : State) : State :=
  match peerEntry station tag s with
  | none => s
  | some _ =>
    wantScan
      (raiseError .claimExpired .claimExpired station (removeEntries (isPeerKey station tag) s))

/-- CLAIM_EXPIRED (R97). -/
def execClaimExpired (station tag : Nat) (s : State) : Host.Outcome State Fault Refusal :=
  .next (whileRunning (claimLapsed station tag) s)

/-- R98: the table-full timer has expired: the flag clears and a scan starts. -/
def tableFullExpired (s : State) : State :=
  if s.supply.tableFull.isSome then
    wantScan { s with supply := { s.supply with tableFull := none } }
  else s

/-- TABLE_FULL_EXPIRY (R98). -/
def execTableFullExpiry (s : State) : Host.Outcome State Fault Refusal :=
  .next (whileRunning tableFullExpired s)

end Sys2Proof.Machine
end

