-- ==== Sys2Proof/Machine/LinkStates.lean ====
section
/-! DEFINITION. The Link Supervisor: presence frames, changes of link state and how they are handed on, duplicates
(7.6, 7.7), with the commands JOIN_TIMER_EXPIRY, ISOLATION_TIMER_EXPIRY and PRESENCE_TIMER_EXPIRY. -/

namespace Sys2Proof.Machine

/-- R137: the PRES status byte: link state code, storm flag in bit 4, station hold in bit 5, LAMP_FAULT in bit 6. -/
def presStatus (s : State) : Byte :=
  toByte (linkCode s.link.state + s.eval.storm.toNat * 16 + s.requests.hold.isSome.toNat * 32
    + (lampFault s).toNat * 64)

/-- R157: the PRES payload, composed from the state then held. -/
def presPayload (s : State) : List Byte :=
  [presStatus s,
    maskOf (fun c => demandSet c s),
    maskOf (fun c => restsClosed (s.drivers.get c)),
    maskOf (fun c => isFaulted (s.drivers.get c))]

/-- R157: a PRES is queued at priority 0. -/
def queuePres (s : State) : State := enqueue (ownFrame .pres 0 0 (presPayload s) .pres s) s

/-- The timers of a link state as it is entered: R151, R152, R153, R157. -/
def linkEntered (k : Settings) (new : LinkState) (l : Link) : Link :=
  match new with
  | .offline => { l with state := .offline, join := none, isolation := none, presence := none }
  | .listen =>
    { l with state := .listen, join := some (k.lifetimeS * 1000), isolation := none, presence := none }
  | .active =>
    { l with
      state := .active, join := none, isolation := some (k.isolationS * 1000)
      presence := some (k.presenceS * 1000) }
  | .isolated => { l with state := .isolated, join := none, isolation := none }
  | .mute => { l with state := .mute, join := none, isolation := none, presence := none }

/-- R153, R152, R172: what the entry itself brings: event ISOLATED, the PRES of ACTIVE, a pending restart in MUTE. -/
def entryEffect (new : LinkState) (s : State) : State :=
  match new with
  | .isolated => raiseEvent .isolated s
  | .active => queuePres s
  | .mute => wantRestart s
  | .offline | .listen => s

/-- R156, steps 1 and 2. -/
def handOn (new : LinkState) (s : State) : State :=
  match new with
  | .isolated | .mute => applyPolicy (withdrawAll s)
  | .listen => withdrawAll s
  | .active | .offline => s

/-- R156, step 4. -/
def scanOnEntry (new : LinkState) (s : State) : State :=
  match new with
  | .active | .isolated | .mute => wantScan s
  | .listen | .offline => s

/-- R150 to R156: the link enters a state, and the change is handed on in order. -/
def enterLink (new : LinkState) (s : State) : State :=
  let s := { s with link := linkEntered s.cfg new s.link }
  scanOnEntry new (rejudgeAll (handOn new (entryEffect new s)))

/-- R154: a duplicate: the link enters MUTE from LISTEN, ACTIVE or ISOLATED. -/
def duplicateHeard (s : State) : State :=
  match s.link.state with
  | .listen | .active | .isolated =>
    enterLink .mute (raiseError .duplicateStation .duplicate s.cfg.station s)
  | .offline | .mute => s

/-- R155: one more frame dropped after its retries; the eighth mutes the link. -/
def countDrop (s : State) : State :=
  let n := satSucc Config.dropLimit s.link.drops
  let s := { s with link := { s.link with drops := n } }
  if n = Config.dropLimit then
    match s.link.state with
    | .listen | .active | .isolated => enterLink .mute s
    | .offline | .mute => s
  else s

/-- R155: a completion returns the drop count to 0, but a count that has reached its limit stays until the next start. -/
def resetDrops (s : State) : State :=
  if s.link.drops < Config.dropLimit then { s with link := { s.link with drops := 0 } } else s

/-- R151: the join timer has expired. -/
def joined (s : State) : State := if s.link.join.isSome then enterLink .active s else s

/-- JOIN_TIMER_EXPIRY (R151). -/
def execJoinTimerExpiry (s : State) : Host.Outcome State Fault Refusal :=
  .next (whileRunning joined s)

/-- R152: the isolation timer has expired. -/
def isolationExpired (s : State) : State :=
  if s.link.isolation.isSome then enterLink .isolated s else s

/-- ISOLATION_TIMER_EXPIRY (R152). -/
def execIsolationTimerExpiry (s : State) : Host.Outcome State Fault Refusal :=
  .next (whileRunning isolationExpired s)

/-- R157: the presence timer expires and restarts, and a PRES is queued. -/
def presenceExpired (s : State) : State :=
  if s.link.presence.isSome then
    queuePres { s with link := { s.link with presence := some (s.cfg.presenceS * 1000) } }
  else s

/-- PRESENCE_TIMER_EXPIRY (R157). -/
def execPresenceTimerExpiry (s : State) : Host.Outcome State Fault Refusal :=
  .next (whileRunning presenceExpired s)

end Sys2Proof.Machine
end

