-- ==== Sys2Proof/Machine/Report.lean ====
section
/-! DEFINITION. The fifty status words of the status map (9.1, R176, R177). -/

namespace Sys2Proof.Machine

/-- A number as a 16-bit word. -/
def toWord (n : Nat) : Word := BitVec.ofNat 16 n

/-- A word of two quantities, the first in the high byte (9.1). -/
def pairWord (hi lo : Nat) : Word := toWord (hi % 256 * 256 + lo % 256)

/-- A gust or exposure as a word: 0xFFFF while UNKNOWN (R31, R36). -/
def knownWord (x : Option Nat) : Word := toWord (x.getD 0xFFFF)

/-- Channel state code (9.1). -/
def driverCode : Driver → Nat
  | .disabled => 0
  | .idle _ => 1
  | .warning _ _ _ => 2
  | .closing _ _ _ => 3
  | .opening _ _ _ => 4
  | .brake _ _ => 5
  | .backoff _ _ _ => 6
  | .blocked _ _ => 7
  | .faulted _ _ => 8

/-- R177: the position code of a channel's word. -/
def shownPosition : Driver → Nat
  | .disabled => 15
  | .idle p => positionCode p
  | .warning p _ _ => positionCode p
  | .closing _ _ _ | .opening _ _ _ | .brake _ _ | .backoff _ _ _ | .blocked _ _ => 2
  | .faulted p _ => positionCode p

/-- R177: the low byte of a channel's word. -/
def shownCause (demand : Option Demand) : Driver → Nat
  | .disabled => 0
  | .idle _ =>
    match demand with
    | some d => causeCode d.cause
    | none => 0
  | .warning _ m _ => causeCode m.cause
  | .closing m _ _ => causeCode m.cause
  | .opening m _ _ => causeCode m.cause
  | .brake m _ => causeCode m.cause
  | .backoff m _ _ => causeCode m.cause
  | .blocked m _ => causeCode m.cause
  | .faulted _ k => faultCode k

/-- R177: the word of a channel. -/
def channelWord (c : Channel) (s : State) : Word :=
  let d := s.drivers.get c
  pairWord (driverCode d * 16 + shownPosition d) (shownCause (s.eval.chans.get c).demand d)

/-- R168: the hold's remaining time in whole minutes, rounded up; 0 while inactive. -/
def holdMinutes (s : State) : Nat :=
  match s.requests.hold with
  | some ms => (ms + 59999) / 60000
  | none => 0

/-- R77: the head channel; 0 when the queue is empty. -/
def headChannel (s : State) : Nat :=
  match s.jobs with
  | j :: _ => chanNumber j.chan
  | [] => 0

/-- The two counters that share word 28 + k (9.1). -/
def counterWord (k : Counters) : Nat → Word
  | 0 => pairWord k.obstruction k.travelFault
  | 1 => pairWord k.limitFault k.openBlocked
  | 2 => pairWord k.rainLineFault k.sourceLost
  | 3 => pairWord k.isolated k.duplicateStation
  | 4 => pairWord k.txDropped k.txOverflow
  | 5 => pairWord k.rxError k.claimExpired
  | 6 => pairWord k.overBudget k.configClamped
  | _ => pairWord k.requestRefused k.storm

/-- R31, R17: the word of a source slot. DESIGN CHOICE (log 34): an unused slot, which has no state, shows the code of ABSENT
in its low byte. -/
def slotWord (x : Slot) : Word := pairWord x.station (entryCode x.entry)

/-- Index `n` as a channel or slot index, taken modulo 8. -/
def eighth (n : Nat) : Fin 8 := ⟨n % 8, by omega⟩

/-- R176: status word `i`, composed from the state it shows. -/
def statusWord (s : State) (i : Nat) : Word :=
  if i = 0 then 0x0B41
  else if i = 1 then pairWord s.cfg.station s.cfg.circuit
  else if i = 2 then pairWord (linkCode s.link.state) (loadCode s.loader.result)
  else if i = 3 then toWord s.cfg.budget
  else if i = 4 then toWord (ownTotal s)
  else if i = 5 then toWord (totalT s)
  else if i = 6 then
    pairWord s.supply.entries.length (s.supply.entries.filter Entry.own).length
  else if i = 7 then pairWord s.jobs.length (headChannel s)
  else if i = 8 then knownWord s.picture.fused.g
  else if i = 9 then pairWord (s.picture.fused.w.getD 16) (rainPictureCode s.picture.fused.r)
  else if i = 10 then pairWord s.eval.storm.toNat (holdMinutes s)
  else if i ≤ 18 then channelWord (eighth (i - 11)) s
  else if i ≤ 26 then knownWord (s.eval.chans.get (eighth (i - 19))).exposure
  else if i = 27 then s.status.flags
  else if i ≤ 35 then counterWord s.status.counters (i - 28)
  else if i = 36 then
    pairWord ((s.status.errorCode.map errorNumber).getD 0) s.status.errorSource
  else if i = 37 then pairWord s.status.refusedWhat (requesterCode s.status.refusedBy)
  else if i = 38 then toWord s.status.received
  else if i = 39 then toWord s.status.rejected
  else if i = 40 then toWord s.status.sent
  else if i = 41 then toWord s.status.retries
  else slotWord (s.picture.slots.get (eighth (i - 42)))

/-- R169: `n` status words from index `i`, two bytes each, most significant first. -/
def statusBytes (s : State) (i : Nat) : Nat → List Byte
  | 0 => []
  | n + 1 => twoBytes (statusWord s i).toNat ++ statusBytes s (i + 1) n

end Sys2Proof.Machine
end

