-- ==== Sys2Proof/Machine/Requests.lean ====
section
/-! DEFINITION. The Request Handler: the judgement of each channel by CLOSE, OPEN and STOP, the station hold, READ, TAKE,
CLEAR and RESTART, replies and refusals (8.1 to 8.8), and the command HOLD_EXPIRY. -/

namespace Sys2Proof.Machine

/-! ### Channels judged (R164 to R166) -/

/-- The outcome of one channel. -/
inductive Verdict where
  | accepted
  | refused (code : ErrorCode)
  deriving DecidableEq, Repr

/-- R132: a fault is cleared: the position read afresh, a close request of class 1 handed in, and the demand's with it
where the demand is SET. -/
def clearFault (c : Channel) (cause : Cause) (who : Requester) (s : State) : State :=
  let s := setDriver c (.idle (freshPosition c s)) s
  let s := queueClose c { cls := 1, cause := cause, who := who, retry := 0, clears := true } s
  match (s.eval.chans.get c).demand with
  | some d => queueClose c { demandReq d with clears := true } s
  | none => s

/-- The channel has an OPEN job queued. -/
def hasOpenJob (c : Channel) (s : State) : Bool :=
  match jobOf c s with
  | some j => j.dir == .opening
  | none => false

/-- The channel has a CLOSE job queued. -/
def hasCloseJob (c : Channel) (s : State) : Bool :=
  match jobOf c s with
  | some j => j.dir == .close
  | none => false

/-- R164: CLOSE judged for one channel, with the cause and requester of its sender. -/
def closeChannel (cause : Cause) (who : Requester) (c : Channel) (s : State) : Verdict × State :=
  let r : CloseReq := { cls := 1, cause := cause, who := who, retry := 0, clears := false }
  match s.drivers.get c with
  | .disabled => (.refused .noChannel, s)
  | .faulted _ _ =>
    if bothLimits c s then (.refused .fault, s) else (.accepted, clearFault c cause who s)
  | .idle p =>
    if p = .closed ∧ hasOpenJob c s = false then (.accepted, s)
    else (.accepted, closeRequest c r s)
  | .opening _ _ _ => (.accepted, closeRequest c r s)
  | .warning _ _ _ | .closing _ _ _ => (.accepted, s)
  | .brake _ _ | .backoff _ _ _ | .blocked _ _ => (.accepted, closeRequest c r s)

/-- R165, check 6: a CLOSE job is queued, or the channel is in WARNING, CLOSING, BRAKE, BACKOFF or BLOCKED. -/
def busyClosing (c : Channel) (s : State) : Bool :=
  hasCloseJob c s
    || match s.drivers.get c with
       | .warning _ _ _ | .closing _ _ _ | .brake _ _ | .backoff _ _ _ | .blocked _ _ => true
       | .disabled | .idle _ | .opening _ _ _ | .faulted _ _ => false

/-- R165, check 7: the channel is IDLE(OPEN) or in OPENING, or an OPEN job is queued for it. -/
def opensAlready (c : Channel) (s : State) : Bool :=
  restsOpen (s.drivers.get c) || isOpening (s.drivers.get c) || hasOpenJob c s

/-- R165: OPEN judged for one channel by the eight checks in order. -/
def openChannel (cause : Cause) (who : Requester) (c : Channel) (s : State) : Verdict × State :=
  if s.drivers.get c = .disabled then (.refused .noChannel, s)
  else if isFaulted (s.drivers.get c) then (.refused .fault, s)
  else if s.link.state ≠ .active then (.refused .link, s)
  else if s.requests.hold.isSome then (.refused .stationHold, s)
  else if demandSet c s = true ∨ s.eval.storm = true ∨ s.picture.fused.g = none
      ∨ s.picture.fused.r = .unknown then (.refused .held, s)
  else if busyClosing c s then (.refused .busy, s)
  else if opensAlready c s then (.accepted, s)
  else (.accepted, openRequest c cause who 0 s)

/-- R166: STOP judged for one channel. -/
def stopChannel (c : Channel) (s : State) : Verdict × State :=
  if s.drivers.get c = .disabled then (.refused .noChannel, s)
  else
    match motionOf (s.drivers.get c) with
    | some m => if personal m.cause then (.accepted, stopMotion c s) else (.refused .held, s)
    | none =>
      match jobOf c s with
      | some j => if personal j.cause then (.accepted, stopJob c s) else (.refused .held, s)
      | none => (.accepted, s)

/-- What a request has come to so far: the channels accepted and refused, in ascending number, and the first refusal. -/
structure Tally where
  accepted : List Channel
  refused : List Channel
  code : Option ErrorCode
  deriving DecidableEq, Repr

/-- Nothing judged yet. -/
def Tally.none : Tally := { accepted := [], refused := [], code := Option.none }

/-- One more channel's outcome. -/
def tallied (c : Channel) (v : Verdict) (t : Tally) : Tally :=
  match v with
  | .accepted => { t with accepted := t.accepted ++ [c] }
  | .refused e =>
    { t with
      refused := t.refused ++ [c]
      code := match t.code with
        | some e0 => some e0
        | Option.none => some e }

/-- R160: the channels judged in ascending number, each on the state it stands in when reached. -/
def judgeEach (f : Channel → State → Verdict × State) : List Channel → Tally → State → Tally × State
  | [], t, s => (t, s)
  | c :: cs, t, s =>
    judgeEach f cs (tallied c (f c s).1 t) (f c s).2

/-- The mask of a list of channels. -/
def listMask (cs : List Channel) : Byte := maskOf (fun c => decide (c ∈ cs))

/-- R164: the channels a channel mask names: its members, or every enabled channel where it is 0. -/
def namedChannels (mask : Byte) (s : State) : List Channel :=
  if mask = 0 then enabledChannels s else allChannels.filter (inMask mask)

/-! ### Replies and refusals (R161, R162) -/

/-- A request frame as the handler takes it: whether it is addressed to the station alone, and its sender. -/
structure Asked where
  source : Byte
  single : Bool
  deriving DecidableEq, Repr

/-- The answer to a request: request number, verb or kind answered, result, masks and data (R161). -/
structure Answer where
  number : Byte
  what : Nat
  code : Option ErrorCode
  accepted : Byte
  refused : Byte
  data : List Byte
  deriving DecidableEq, Repr

/-- R161: the payload of a REPLY. -/
def replyPayload (a : Answer) : List Byte :=
  [a.number, toByte a.what, toByte ((a.code.map errorNumber).getD 0), a.accepted, a.refused] ++ a.data

/-- R161: a REPLY is queued for a request addressed to the station alone. -/
def reply (q : Asked) (a : Answer) (forRestart : Bool) (s : State) : State :=
  if q.single then enqueue (ownFrame .reply 1 q.source (replyPayload a) (.reply forRestart) s) s else s

/-- R161, R162: the REPLY is composed where one is due, and a refusal is recorded. -/
def answer (q : Asked) (a : Answer) (s : State) : State :=
  let s := reply q a false s
  match a.code with
  | some e => recordRefusal a.what (.station q.source.toNat) e s
  | none => s

/-- A request refused as a whole with no channel named. -/
def refuseWhole (q : Asked) (number : Byte) (what : Nat) (e : ErrorCode) (s : State) : State :=
  answer q { number := number, what := what, code := some e, accepted := 0, refused := 0, data := [] } s

/-- R160: a request with an empty payload is not taken. -/
def emptyRequest (q : Asked) (s : State) : State :=
  raiseError .rxError .rxLength q.source.toNat s

/-- R163: a requester has authority when it stands in the list, or when all four slots are empty. -/
def hasAuthority (station : Nat) (k : Settings) : Bool :=
  k.authority.all (· == 0) || (station != 0 && k.authority.any (· == station))

/-! ### CMD (R164 to R168) -/

/-- R161: the answer of a verb that judged channels. -/
def tallyAnswer (number : Byte) (verb : Nat) (t : Tally) : Answer :=
  { number := number, what := verb, code := t.code, accepted := listMask t.accepted
    refused := listMask t.refused, data := [] }

/-- A verb that judges the channels its mask names (R164 to R166). -/
def channelVerb (q : Asked) (number : Byte) (verb : Nat) (mask : Byte)
    (f : Channel → State → Verdict × State) (s : State) : State :=
  let r := judgeEach f (namedChannels mask s) Tally.none s
  answer q (tallyAnswer number verb r.1) r.2

/-- R161, R163: a verb that names channels is refused as a whole with AUTHORITY. -/
def refuseVerb (q : Asked) (number : Byte) (verb : Nat) (mask : Byte) (s : State) : State :=
  answer q
    { number := number, what := verb, code := some .authority, accepted := 0
      refused := listMask (namedChannels mask s), data := [] } s

/-- R167: the mask of every enabled channel. -/
def enabledMask (s : State) : Byte := listMask (enabledChannels s)

/-- R164: verb CLOSE. -/
def verbClose (q : Asked) (number mask : Byte) (s : State) : State :=
  channelVerb q number 1 mask (closeChannel .command (.station q.source.toNat)) s

/-- R165: verb OPEN. -/
def verbOpen (q : Asked) (number mask : Byte) (s : State) : State :=
  if hasAuthority q.source.toNat s.cfg then
    channelVerb q number 2 mask (openChannel .openCommand (.station q.source.toNat)) s
  else refuseVerb q number 2 mask s

/-- R166: verb STOP. -/
def verbStop (q : Asked) (number mask : Byte) (s : State) : State :=
  if hasAuthority q.source.toNat s.cfg then channelVerb q number 3 mask stopChannel s
  else refuseVerb q number 3 mask s

/-- R167: the minutes of a HOLD, taken into 1 to 240, in milliseconds. -/
def holdMs (minutes : Byte) : Nat := clampTo 1 240 minutes.toNat * 60000

/-- R167: a HOLD sets or lengthens the station hold. -/
def setHold (ms : Nat) (s : State) : State :=
  match s.requests.hold with
  | some left => { s with requests := { s.requests with hold := some (max left ms) } }
  | none => rejudgeAll { s with requests := { s.requests with hold := some ms } }

/-- R168: an active hold ends, and opening is re-judged. -/
def endHold (s : State) : State :=
  match s.requests.hold with
  | some _ => rejudgeAll { s with requests := { s.requests with hold := none } }
  | none => s

/-- R167: verb HOLD. -/
def verbHold (q : Asked) (number minutes : Byte) (s : State) : State :=
  let s := setHold (holdMs minutes) s
  answer q
    { number := number, what := 4, code := none, accepted := enabledMask s, refused := 0, data := [] } s

/-- R168: verb UNHOLD. DEDUCED (log 22): one that finds no hold active is answered with the same accepted mask of every
enabled channel. -/
def verbUnhold (q : Asked) (number : Byte) (s : State) : State :=
  if hasAuthority q.source.toNat s.cfg then
    let s := endHold s
    answer q
      { number := number, what := 5, code := none, accepted := enabledMask s, refused := 0, data := [] } s
  else refuseWhole q number 5 .authority s

/-- R161: the verb byte of the REPLY to a CMD refused with BAD_REQUEST. -/
def shownVerb (payload : List Byte) : Nat :=
  match payload[1]? with
  | some v => if 1 ≤ v.toNat ∧ v.toNat ≤ 5 then v.toNat else 0
  | none => 0

/-- R160: a CMD handed to the Request Handler: its payload is checked, then its verb acts. -/
def takeCmd (q : Asked) (payload : List Byte) (s : State) : State :=
  match payload with
  | [] => emptyRequest q s
  | [number, verb, mask, minutes] =>
    match verb.toNat with
    | 1 => verbClose q number mask s
    | 2 => verbOpen q number mask s
    | 3 => verbStop q number mask s
    | 4 => verbHold q number minutes s
    | 5 => verbUnhold q number s
    | _ => refuseWhole q number 0 .badRequest s
  | number :: _ => refuseWhole q number (shownVerb payload) .badRequest s

/-! ### READ, TAKE, CLEAR, RESTART (R169 to R172) -/

/-- R169: a READ. -/
def takeRead (q : Asked) (payload : List Byte) (s : State) : State :=
  match payload with
  | [] => emptyRequest q s
  | [number, start, count] =>
    if count.toNat = 0 ∨ 9 < count.toNat then refuseWhole q number 6 .badRequest s
    else if 49 < start.toNat + count.toNat - 1 then refuseWhole q number 6 .range s
    else
      answer q
        { number := number, what := 6, code := none, accepted := 0, refused := 0
          data := statusBytes s start.toNat count.toNat } s
  | number :: _ => refuseWhole q number 6 .badRequest s

/-- R170: a TAKE. -/
def takeTake (q : Asked) (payload : List Byte) (s : State) : State :=
  match payload with
  | [] => emptyRequest q s
  | [number] =>
    if s.link.state = .mute then refuseWhole q number 7 .link s
    else
      answer q
        { number := number, what := 7, code := none, accepted := 0, refused := 0
          data := twoBytes s.status.flags.toNat } (clearFlags s)
  | number :: _ => refuseWhole q number 7 .badRequest s

/-- R171: a CLEAR. -/
def takeClear (q : Asked) (payload : List Byte) (s : State) : State :=
  match payload with
  | [] => emptyRequest q s
  | [number] =>
    if hasAuthority q.source.toNat s.cfg then
      answer q { number := number, what := 8, code := none, accepted := 0, refused := 0, data := [] }
        (clearRecords s)
    else refuseWhole q number 8 .authority s
  | number :: _ => refuseWhole q number 8 .badRequest s

/-- R172: an accepted RESTART: the restart is pending, its REPLY is queued, and in MUTE the restart begins at once. -/
def acceptRestart (q : Asked) (number : Byte) (s : State) : State :=
  let s := { s with requests := { s.requests with pendingRestart := true } }
  let s := reply q
    { number := number, what := 9, code := none, accepted := 0, refused := 0, data := [] } true s
  if s.link.state = .mute then wantRestart s else s

/-- R172: a RESTART. -/
def takeRestart (q : Asked) (payload : List Byte) (s : State) : State :=
  match payload with
  | [] => emptyRequest q s
  | [number] =>
    if !hasAuthority q.source.toNat s.cfg then refuseWhole q number 9 .authority s
    else if !s.cfg.remoteRestart then refuseWhole q number 9 .restartNotAllowed s
    else acceptRestart q number s
  | number :: _ => refuseWhole q number 9 .badRequest s

/-! ### Commands -/

/-- HOLD_EXPIRY (R168). -/
def execHoldExpiry (s : State) : Host.Outcome State Fault Refusal := .next (whileRunning endHold s)

end Sys2Proof.Machine
end

