-- ==== Sys2Proof/Machine/Sources.lean ====
section
/-! DEFINITION. The Picture Unit: the source table, the fusion, observations taken and entries aged (chapter 2); the
commands SOURCE_STALE and SOURCE_LOST. -/

namespace Sys2Proof.Machine

/-! ### Fusion (R26 to R28) -/

/-- The observation a FRESH entry holds. -/
def freshObs : SourceEntry → Option Obs
  | .fresh o _ => some o
  | .absent | .stale _ _ => none

/-- The observation a FRESH or STALE entry holds. -/
def heldObs : SourceEntry → Option Obs
  | .fresh o _ => some o
  | .stale o _ => some o
  | .absent => none

/-- R26, R27: the largest gust seen so far, with its sector, after one more slot; an equal gust of a later slot does
not displace it. -/
def bestGust (best : Option (Nat × Nat)) (x : Slot) : Option (Nat × Nat) :=
  match freshObs x.entry with
  | none => best
  | some o =>
    match o.gust, best with
    | none, b => b
    | some g, none => some (g, o.sector)
    | some g, some (g0, w0) => if g0 < g then some (g, o.sector) else some (g0, w0)

/-- R26, R27: the entry that gives G and W. -/
def strongest (slots : Eight Slot) : Option (Nat × Nat) := slots.toList.foldl bestGust none

/-- The rain report of a FRESH or STALE entry. -/
def rainOf (x : Slot) : Option RainReport := (heldObs x.entry).bind Obs.rain

/-- R28: R over the FRESH and STALE entries; a FAULT report counts as WET. -/
def fuseRain (slots : Eight Slot) : RainPicture :=
  let rains := slots.toList.filterMap rainOf
  if rains.any (fun r => r == .wet || r == .fault) then .wet
  else if rains.isEmpty then .unknown
  else .dry

/-- R26 to R28: the picture of a table. -/
def fuse (slots : Eight Slot) : Picture :=
  { g := (strongest slots).map Prod.fst
    w := (strongest slots).bind (fun b => if b.2 ≤ 15 then some b.2 else none)
    r := fuseRain slots }

/-- R25, R30: the table has changed to `slots`: the picture is recomputed, and a picture change is offered to the
Demand Evaluator. -/
def tableChanged (slots : Eight Slot) (s : State) : State :=
  let p := fuse slots
  let t := { s with picture := { slots := slots, fused := p } }
  if p = s.picture.fused then t else evaluatePicture t

/-- One slot's entry replaced. -/
def setEntry (k : SlotId) (e : SourceEntry) (s : State) : Eight Slot :=
  s.picture.slots.set k { s.picture.slots.get k with entry := e }

/-! ### Observations (R18 to R21) -/

/-- The first slot that satisfies `p`. -/
def slotWhere (p : Slot → Bool) (s : State) : Option SlotId :=
  allChannels.find? (fun k => p (s.picture.slots.get k))

/-- R18, R20: the slot that takes the observations of a peer station. -/
def peerSlot (station : Nat) (s : State) : Option SlotId :=
  slotWhere (fun x => x.station != 0 && decide (x.station = station) && !x.isSelf) s

/-- R18 to R20: an OBS handed to the Picture Unit. -/
def takeObs (station : Nat) (payload : List Byte) (s : State) : State :=
  match peerSlot station s with
  | none => s
  | some k =>
    match decodeObs payload with
    | some o => tableChanged (setEntry k (.fresh o 0) s) s
    | none => raiseError .rxError .rxLength station s

/-- R21: a refresh handed to the SELF entry, where a slot carries the marker. -/
def refreshSelf (o : Obs) (s : State) : State :=
  match slotWhere (fun x => x.isSelf) s with
  | none => s
  | some k => tableChanged (setEntry k (.fresh o 0) s) s

/-! ### Ageing (R22 to R24) -/

/-- The stale time in milliseconds. -/
def staleMs (k : Settings) : Nat := k.staleS * 1000

/-- R23: the age of a FRESH entry has reached the stale time. -/
def sourceStale (k : SlotId) (s : State) : State :=
  match (s.picture.slots.get k).entry with
  | .fresh o age => tableChanged (setEntry k (.stale o (max age (staleMs s.cfg))) s) s
  | .absent | .stale _ _ => s

/-- R24: the age of a STALE entry has reached four times the stale time. -/
def sourceLost (k : SlotId) (s : State) : State :=
  match (s.picture.slots.get k).entry with
  | .stale _ _ => tableChanged (setEntry k .absent s) (raiseEvent .sourceLost s)
  | .absent | .fresh _ _ => s

/-- SOURCE_STALE (R23). -/
def execSourceStale (k : SlotId) (s : State) : Host.Outcome State Fault Refusal :=
  .next (whileRunning (sourceStale k) s)

/-- SOURCE_LOST (R24). -/
def execSourceLost (k : SlotId) (s : State) : Host.Outcome State Fault Refusal :=
  .next (whileRunning (sourceLost k) s)

end Sys2Proof.Machine
end

