-- ==== Sys2Proof/Machine/Transmit.lean ====
section
/-! DEFINITION. The transmit path of the Line Controller: access to the line, echo check, retries and results (7.4,
7.5), with the commands DEFERRAL_SLOT, TRANSMIT_COMPLETE and ECHO_MISMATCH. -/

namespace Sys2Proof.Machine

/-- R146: the deferral index of a frame priority. -/
def deferralIndex (prio station : Nat) : Nat := (3 - prio) * 64 + station

/-- R147: the transmit gate. -/
def transmits : LinkState → Bool
  | .active | .isolated => true
  | .offline | .listen | .mute => false

/-- A frame is under transmission (R145). -/
def transmitting (s : State) : Bool := s.line.queue.any TxFrame.sending

/-- R146, R139: the quiet line has reached deferral slot `slot`: where it is the index of the head frame, its
transmission begins, and a frame being assembled is abandoned. -/
def slotReached (slot : Nat) (s : State) : State :=
  match s.line.queue with
  | [] => s
  | f :: fs =>
    if transmits s.link.state && !transmitting s
        && decide (slot = deferralIndex f.frame.prio s.cfg.station) then
      let s := setQueue ({ f with sending := true } :: fs) s
      match s.line.rx with
      | .assembling _ => setRx .idle s
      | .idle | .passingOver => s
    else s

/-- DEFERRAL_SLOT (R146). -/
def execDeferralSlot (slot : Nat) (s : State) : Host.Outcome State Fault Refusal :=
  .next (whileRunning (slotReached slot) s)

/-- The frame under transmission. -/
def sendingFrame (s : State) : Option TxFrame := s.line.queue.find? TxFrame.sending

/-- The frame under transmission leaves the queue. -/
def leaveQueue (s : State) : State :=
  frameLeft (setQueue (s.line.queue.filter (fun f => !f.sending)) s)

/-- R149: the owner is told of a success. -/
def tellSent (o : FrameOwner) (s : State) : State :=
  match o with
  | .claim tag _ => claimSent tag s
  | .reply true => wantRestart s
  | .reply false | .obs | .pres | .release => s

/-- R148: every byte has read back as sent. -/
def transmitted (s : State) : State :=
  match sendingFrame s with
  | none => s
  | some f => tellSent f.owner (resetDrops (countSent (leaveQueue s)))

/-- TRANSMIT_COMPLETE (R148). -/
def execTransmitComplete (s : State) : Host.Outcome State Fault Refusal :=
  .next (whileRunning transmitted s)

/-- R148: a newer frame for the same place is waiting: an OBS, a PRES, or a CLAIM of the same own entry. -/
def hasNewer (f : TxFrame) (q : List TxFrame) : Bool :=
  match f.owner with
  | .claim tag _ => q.any (isWaitingClaim tag)
  | .obs | .pres => q.any (replacedBy f.owner)
  | .release | .reply _ => false

/-- R148, R84: the CLAIM waiting behind an attempt that has failed is replaced, so that it carries NEW if either did. -/
def mergeClaim (f : TxFrame) (s : State) : State :=
  match f.owner with
  | .claim tag n =>
    match ownTagged tag s with
    | some e => queueClaim e n s
    | none => s
  | .obs | .pres | .release | .reply _ => s

/-- R148: the frame under transmission is dropped after its retries. -/
def dropSending (f : TxFrame) (s : State) : State :=
  countDrop (tellDropped f.owner false (raiseError .txDropped .txDropped 0 (leaveQueue s)))

/-- R148: the frame under transmission goes back to waiting with one more attempt counted. -/
def backToWaiting (s : State) : State :=
  setQueue
    (s.line.queue.map (fun f =>
      if f.sending then { f with sending := false, attempts := f.attempts + 1 } else f)) s

/-- R148: a byte has read back other than it was sent. DEDUCED (log 35): a CLAIM whose entry left the table during the
attempt goes back to waiting like any other frame and is tried again: its cancel came while the attempt ran, where R145
has it ignored, and no other comes. -/
def mismatched (s : State) : State :=
  match sendingFrame s with
  | none => s
  | some f =>
    let s := countRetry s
    if s.cfg.txRetries < f.attempts + 1 then dropSending f s
    else if hasNewer f s.line.queue then mergeClaim f (leaveQueue s)
    else backToWaiting s

/-- ECHO_MISMATCH (R148). -/
def execEchoMismatch (s : State) : Host.Outcome State Fault Refusal :=
  .next (whileRunning mismatched s)

end Sys2Proof.Machine
end

