-- ==== Sys2Proof/Machine/Receive.lean ====
section
/-! DEFINITION. The receive path: frames found faulty, valid frames judged and dispatched, and bytes assembled into
frames (7.2), with the commands of the received frames and of the receive path. -/

namespace Sys2Proof.Machine

/-! ### Faulty frames (R140) -/

/-- R140: a frame is discarded. -/
def rejectFrame (code : ErrorCode) (source : Nat) (s : State) : State :=
  raiseError .rxError code source (countRejected s)

/-! ### Dispatch (R141, R142) -/

/-- R142: a group-addressed frame that shares a group with the station. -/
def sharesGroup (f : Frame) (s : State) : Bool := f.target == 0 && (f.groups &&& stationGroups s) != 0

/-- R142: a frame addressed to the station alone; none is where the own number is invalid. -/
def addressed (f : Frame) (s : State) : Bool :=
  validStation s.cfg && decide (f.target.toNat = s.cfg.station)

/-- The request as the handler sees its sender and address. -/
def askedBy (f : Frame) (s : State) : Asked := { source := f.source, single := addressed f s }

/-- R142: a valid frame from another station, dispatched by its kind. -/
def dispatch (f : Frame) (s : State) : State :=
  match f.kind with
  | .obs => takeObs f.source.toNat f.payload s
  | .claim => takeClaim f.source.toNat f.payload s
  | .release => takeRelease f.source.toNat f.payload s
  | .cmd =>
    if addressed f s || sharesGroup f s then takeCmd (askedBy f s) f.payload s else s
  | .read => if addressed f s then takeRead (askedBy f s) f.payload s else s
  | .take => if addressed f s then takeTake (askedBy f s) f.payload s else s
  | .clear => if addressed f s then takeClear (askedBy f s) f.payload s else s
  | .restart => if addressed f s then takeRestart (askedBy f s) f.payload s else s
  | .pres | .reply => s

/-- R141, R152, R153: a valid frame from another station restarts the isolation timer where it runs, and takes an
ISOLATED link to LISTEN. -/
def heardPeer (s : State) : State :=
  match s.link.state with
  | .isolated => enterLink .listen s
  | .active => { s with link := { s.link with isolation := some (s.cfg.isolationS * 1000) } }
  | .offline | .listen | .mute => s

/-- R141: a frame carries the own number; none does where the own number is invalid. -/
def isDuplicate (source : Byte) (s : State) : Bool :=
  validStation s.cfg && decide (source.toNat = s.cfg.station)

/-- R141: a valid frame, counted, judged by its source and dispatched. -/
def validFrame (f : Frame) (s : State) : State :=
  let s := countReceived s
  if isDuplicate f.source s then duplicateHeard s else dispatch f (heardPeer s)

/-- R139, R140, R141: a frame has been heard whole, in a link state that receives. A source or a length that no valid
frame has makes it faulty at that byte. -/
def frameHeard (f : Frame) (s : State) : State :=
  if s.link.state = .offline then s
  else if !goodSource f.source then setRx .passingOver (rejectFrame .rxLength 0 s)
  else if 24 < f.payload.length then setRx .passingOver (rejectFrame .rxLength f.source.toNat s)
  else validFrame f (setRx .idle s)

/-! ### Bytes (R139) -/

/-- The bytes of the frame being assembled. -/
def assembled (r : Receiver) : List Byte :=
  match r with
  | .assembling bs => bs
  | .idle | .passingOver => []

/-- R139, R140: what a byte makes of the frame being assembled. -/
def byteJudged (bytes : List Byte) (s : State) : State :=
  match judgeBytes bytes with
  | .more => setRx (.assembling bytes) s
  | .early code => setRx .passingOver (rejectFrame code (rxSource bytes) s)
  | .badCheck => setRx .idle (rejectFrame .rxCheck (rxSource bytes) s)
  | .whole f => validFrame f (setRx .idle s)

/-- R139: a byte arrives on the line. It is not assembled in OFFLINE, while the station's own frame is on the line, or
while bytes are passed over. -/
def byteHeard (b : Byte) (s : State) : State :=
  if s.link.state = .offline ∨ transmitting s = true ∨ s.line.rx = .passingOver then s
  else byteJudged (assembled s.line.rx ++ [b]) s

/-- R139, R140: more than 3 byte times have passed within a frame being assembled. -/
def gapExpired (s : State) : State :=
  match s.line.rx with
  | .assembling bytes => setRx .idle (rejectFrame .rxGap (rxSource bytes) s)
  | .idle | .passingOver => s

/-- R139: the line has been quiet for more than 3 byte times after an early fault. -/
def quietResync (s : State) : State :=
  match s.line.rx with
  | .passingOver => setRx .idle s
  | .idle | .assembling _ => s

/-! ### Commands -/

/-- OBS_RECEIVED (R18). -/
def execObsReceived (h : Header) (p : List Byte) (s : State) : Host.Outcome State Fault Refusal :=
  .next (whileRunning (frameHeard (heard .obs h p)) s)

/-- PRES_RECEIVED (R142). -/
def execPresReceived (h : Header) (p : List Byte) (s : State) : Host.Outcome State Fault Refusal :=
  .next (whileRunning (frameHeard (heard .pres h p)) s)

/-- CLAIM_RECEIVED (R92). -/
def execClaimReceived (h : Header) (p : List Byte) (s : State) : Host.Outcome State Fault Refusal :=
  .next (whileRunning (frameHeard (heard .claim h p)) s)

/-- RELEASE_RECEIVED (R96). -/
def execReleaseReceived (h : Header) (p : List Byte) (s : State) : Host.Outcome State Fault Refusal :=
  .next (whileRunning (frameHeard (heard .release h p)) s)

/-- REPLY_RECEIVED (R142). -/
def execReplyReceived (h : Header) (p : List Byte) (s : State) : Host.Outcome State Fault Refusal :=
  .next (whileRunning (frameHeard (heard .reply h p)) s)

/-- CMD_CLOSE (R164): the frame is a CMD, and its verb byte is read from the payload. -/
def execCmdClose (h : Header) (p : List Byte) (s : State) : Host.Outcome State Fault Refusal :=
  .next (whileRunning (frameHeard (heard .cmd h p)) s)

/-- CMD_OPEN (R165). -/
def execCmdOpen (h : Header) (p : List Byte) (s : State) : Host.Outcome State Fault Refusal :=
  .next (whileRunning (frameHeard (heard .cmd h p)) s)

/-- CMD_STOP (R166). -/
def execCmdStop (h : Header) (p : List Byte) (s : State) : Host.Outcome State Fault Refusal :=
  .next (whileRunning (frameHeard (heard .cmd h p)) s)

/-- CMD_HOLD (R167). -/
def execCmdHold (h : Header) (p : List Byte) (s : State) : Host.Outcome State Fault Refusal :=
  .next (whileRunning (frameHeard (heard .cmd h p)) s)

/-- CMD_UNHOLD (R168). -/
def execCmdUnhold (h : Header) (p : List Byte) (s : State) : Host.Outcome State Fault Refusal :=
  .next (whileRunning (frameHeard (heard .cmd h p)) s)

/-- CMD_BAD_VERB (R160). -/
def execCmdBadVerb (h : Header) (p : List Byte) (s : State) : Host.Outcome State Fault Refusal :=
  .next (whileRunning (frameHeard (heard .cmd h p)) s)

/-- READ (R169). -/
def execRead (h : Header) (p : List Byte) (s : State) : Host.Outcome State Fault Refusal :=
  .next (whileRunning (frameHeard (heard .read h p)) s)

/-- TAKE (R170). -/
def execTake (h : Header) (p : List Byte) (s : State) : Host.Outcome State Fault Refusal :=
  .next (whileRunning (frameHeard (heard .take h p)) s)

/-- CLEAR (R171). -/
def execClear (h : Header) (p : List Byte) (s : State) : Host.Outcome State Fault Refusal :=
  .next (whileRunning (frameHeard (heard .clear h p)) s)

/-- RESTART (R172). -/
def execRestart (h : Header) (p : List Byte) (s : State) : Host.Outcome State Fault Refusal :=
  .next (whileRunning (frameHeard (heard .restart h p)) s)

/-- FRAME_PASSED_OVER (R142): a request frame, passed over because its address does not name the station. -/
def execFramePassedOver (k : RequestKind) (h : Header) (p : List Byte) (s : State) :
    Host.Outcome State Fault Refusal :=
  .next (whileRunning (frameHeard (heard (requestFrameKind k) h p)) s)

/-- R141, R154: a frame with the own number has been heard. -/
def duplicateFrame (s : State) : State :=
  if s.link.state = .offline ∨ validStation s.cfg = false then s
  else duplicateHeard (countReceived (setRx .idle s))

/-- DUPLICATE_RECEIVED (R154). -/
def execDuplicateReceived (s : State) : Host.Outcome State Fault Refusal :=
  .next (whileRunning duplicateFrame s)

/-- LINE_BYTE_ARRIVAL (R139). -/
def execLineByteArrival (b : Byte) (s : State) : Host.Outcome State Fault Refusal :=
  .next (whileRunning (byteHeard b) s)

/-- RX_FRAME_FAULT (R140): the byte that shows the fault arrives. -/
def execRxFrameFault (b : Byte) (s : State) : Host.Outcome State Fault Refusal :=
  .next (whileRunning (byteHeard b) s)

/-- RX_GAP_EXPIRY (R139). -/
def execRxGapExpiry (s : State) : Host.Outcome State Fault Refusal := .next (whileRunning gapExpired s)

/-- RX_QUIET_RESYNC (R139). -/
def execRxQuietResync (s : State) : Host.Outcome State Fault Refusal :=
  .next (whileRunning quietResync s)

end Sys2Proof.Machine
end

