-- ==== Sys2Proof/Machine/Loader.lean ====
section
/-! DEFINITION. The Configuration Loader: the image judged, its fields brought into range, and the clamps counted (10.1
to 10.3). -/

namespace Sys2Proof.Machine

/-! ### The image (R183) -/

/-- R183: the 128 bytes read; a byte the memory does not answer reads as 0xFF (log 9). -/
def imageCopy (answered : List Byte) : List Byte := (answered ++ List.replicate 128 0xFF).take 128

/-- Byte `i` of the image, as a number. -/
def imageByte (im : List Byte) (i : Nat) : Nat := (im.getD i 0).toNat

/-- The two-byte field at byte `i`, most significant byte first (10.1). -/
def imageWord (im : List Byte) (i : Nat) : Nat := imageByte im i * 256 + imageByte im (i + 1)

/-- A flag of a flags byte, by its bit number (10.1). -/
def imageFlag (im : List Byte) (i bit : Nat) : Bool := (im.getD i 0).getLsbD bit

/-- R183: the format code and the check byte are right. -/
def imageValid (im : List Byte) : Bool :=
  (im.getD 0 0 == 0xB8) && ((im.take 127).foldl (· ^^^ ·) 0 == im.getD 127 0)

/-! ### Ranges (R184) -/

/-- One clamp where a value lies outside its range. -/
def outside (lo hi v : Nat) : Nat := if v < lo ∨ hi < v then 1 else 0

/-- R184: a numeric field: its place, whether it has two bytes, and its range. -/
structure NumField where
  pos : Nat
  wide : Bool
  lo : Nat
  hi : Nat
  deriving DecidableEq, Repr

/-- The numeric fields of the image that no later step settles (10.1). -/
def numFields : List NumField :=
  [⟨2, false, 0, 7⟩, ⟨3, true, 10, 2000⟩, ⟨7, false, 0, 3⟩, ⟨8, false, 2, 30⟩, ⟨9, false, 5, 250⟩,
    ⟨10, false, 4, 60⟩, ⟨11, false, 10, 100⟩, ⟨12, false, 0, 5⟩, ⟨13, false, 5, 60⟩,
    ⟨14, false, 10, 200⟩, ⟨15, false, 10, 250⟩, ⟨16, true, 100, 2000⟩, ⟨18, false, 0, 100⟩,
    ⟨20, false, 1, 30⟩, ⟨21, false, 1, 60⟩, ⟨22, true, 50, 600⟩, ⟨24, true, 0, 300⟩,
    ⟨28, false, 0, 100⟩, ⟨29, false, 1, 60⟩, ⟨44, false, 1, 10⟩, ⟨45, false, 10, 200⟩,
    ⟨46, false, 0, 5⟩, ⟨47, false, 5, 120⟩]

/-- The value a numeric field holds. -/
def rawNum (im : List Byte) (f : NumField) : Nat :=
  if f.wide then imageWord im f.pos else imageByte im f.pos

/-- R184: a one-byte field at `i` brought into its range. -/
def byteIn (im : List Byte) (i lo hi : Nat) : Nat := clampTo lo hi (imageByte im i)

/-- R184: a two-byte field at `i` brought into its range. -/
def wordIn (im : List Byte) (i lo hi : Nat) : Nat := clampTo lo hi (imageWord im i)

/-- R184: a station byte of a list: 64 to 255 is taken as 0. -/
def stationIn (im : List Byte) (i : Nat) : Nat := if imageByte im i ≤ 63 then imageByte im i else 0

/-! ### Fields that depend on one another (R186) -/

/-- R184, R186: T_storm brought into its range and raised to T_wind. -/
def stormIn (im : List Byte) : Nat := max (wordIn im 26 100 999) (wordIn im 22 50 600)

/-- R186: the clamp of T_storm, counted once. -/
def stormClamp (im : List Byte) : Nat :=
  if outside 100 999 (imageWord im 26) = 1 ∨ wordIn im 26 100 999 < wordIn im 22 50 600 then 1 else 0

/-- The budget B (R81). -/
def budgetIn (im : List Byte) : Nat := wordIn im 3 10 2000

/-- The first byte of a channel's record (10.1). -/
def recordAt (c : Channel) : Nat := 48 + 8 * c.val

/-- R185: the class a class code is taken as. -/
def classOf : Nat → ChannelClass
  | 1 => .skylight
  | 2 => .windowHigh
  | 3 => .windowLow
  | _ => .unused

/-- R185: the facing a facing code is taken as. -/
def facingOf (n : Nat) : Facing := if n ≤ 15 then .sector n else .roof

/-- R185, R186: a channel record, its draw lowered to B; the record of an UNUSED channel is not read. -/
def recordIn (im : List Byte) (c : Channel) : ChannelCfg :=
  let i := recordAt c
  let k := classOf (imageByte im i)
  if k = .unused then ChannelCfg.unused
  else
    { cls := k, facing := facingOf (imageByte im (i + 1)), zone := min 3 (imageByte im (i + 2))
      draw := min (byteIn im (i + 3) 1 50) (budgetIn im)
      travelS := byteIn im (i + 4) 5 250, threshold := byteIn im (i + 5) 2 60
      groups := im.getD (i + 6) 0, timed := imageFlag im (i + 7) 0
      openingContacts := imageFlag im (i + 7) 1, localSwitch := imageFlag im (i + 7) 2 }

/-- R185, R186: the clamps of a channel record. -/
def recordClamps (im : List Byte) (c : Channel) : Nat :=
  let i := recordAt c
  if 3 < imageByte im i then 1
  else if classOf (imageByte im i) = .unused then 0
  else
    outside 0 16 (imageByte im (i + 1)) + outside 0 3 (imageByte im (i + 2))
      + (if outside 1 50 (imageByte im (i + 3)) = 1 ∨ budgetIn im < byteIn im (i + 3) 1 50 then 1
         else 0)
      + outside 5 250 (imageByte im (i + 4)) + outside 2 60 (imageByte im (i + 5))

/-- The eight channel records. -/
def recordsIn (im : List Byte) : Eight ChannelCfg := Eight.tabulate (recordIn im)

/-- R81: the largest draw among the enabled channels, or 0 where none is enabled. -/
def largestDraw (rs : Eight ChannelCfg) : Nat :=
  rs.toList.foldl (fun m r => if r.enabled then max m r.draw else m) 0

/-- R81: the configured B_iso in its range, a value of 0 resolved. -/
def resolvedIso (im : List Byte) : Nat :=
  if wordIn im 5 0 2000 = 0 then largestDraw (recordsIn im) else wordIn im 5 0 2000

/-- R186: B_iso, lowered to B. -/
def isoIn (im : List Byte) : Nat := min (resolvedIso im) (budgetIn im)

/-- R186: the clamp of B_iso, counted once. -/
def isoClamp (im : List Byte) : Nat :=
  if outside 0 2000 (imageWord im 5) = 1 ∨ budgetIn im < resolvedIso im then 1 else 0

/-- R16, R186: a source byte in its range repeats a station of an earlier slot. -/
def repeatsSource (im : List Byte) (k : SlotId) : Bool :=
  stationIn im (36 + k.val) != 0
    && (allChannels.filter (fun j => decide (j < k))).any
        (fun j => stationIn im (36 + j.val) == stationIn im (36 + k.val))

/-- R16: the station of a source slot. -/
def sourceIn (im : List Byte) (k : SlotId) : Nat :=
  if repeatsSource im k then 0 else stationIn im (36 + k.val)

/-- R184, R186: the clamp of a source slot. -/
def sourceClamp (im : List Byte) (k : SlotId) : Nat :=
  if 63 < imageByte im (36 + k.val) ∨ repeatsSource im k = true then 1 else 0

/-! ### The load (R183 to R188) -/

/-- R184 to R187: the settings an image gives. -/
def settingsIn (im : List Byte) : Settings :=
  { station := imageByte im 1
    circuit := byteIn im 2 0 7
    budget := budgetIn im
    isoShare := isoIn im
    rateCode := byteIn im 7 0 3
    presenceS := byteIn im 8 2 30
    isolationS := byteIn im 9 5 250
    lifetimeS := byteIn im 10 4 60
    settleMs := byteIn im 11 10 100 * 10
    txRetries := byteIn im 12 0 5
    obsPeriodS := byteIn im 13 5 60
    publishStep := byteIn im 14 10 200
    staleS := byteIn im 15 10 250
    anemK := wordIn im 16 100 2000
    dirMinSpeed := byteIn im 18 0 100
    hasAnemometer := imageFlag im 19 0
    hasVane := imageFlag im 19 1
    hasRain := imageFlag im 19 2
    wetConfirmS := byteIn im 20 1 30
    dryConfirmMin := byteIn im 21 1 60
    tWind := wordIn im 22 50 600
    tRain := wordIn im 24 0 300
    tStorm := stormIn im
    hyst := byteIn im 28 0 100
    calmHoldMin := byteIn im 29 1 60
    policy := if imageByte im 30 = 1 then .holdPosition else .closeAll
    remoteRestart := imageFlag im 31 0
    localOpen := imageFlag im 31 1
    authority := [stationIn im 32, stationIn im 33, stationIn im 34, stationIn im 35]
    sources := Eight.tabulate (sourceIn im)
    warningS := byteIn im 44 1 10
    blankingMs := byteIn im 45 10 200 * 10
    obstrRetries := byteIn im 46 0 5
    retryBaseS := byteIn im 47 5 120
    channels := recordsIn im }

/-- R184 to R186: the number of fields counted as clamps. -/
def clampCount (im : List Byte) : Nat :=
  (numFields.map (fun f => outside f.lo f.hi (rawNum im f))).sum
    + outside 0 1 (imageByte im 30)
    + ([32, 33, 34, 35].map (fun i => outside 0 63 (imageByte im i))).sum
    + stormClamp im + isoClamp im
    + (allChannels.map (recordClamps im)).sum
    + (allChannels.map (sourceClamp im)).sum

/-- The outcome of a load: its result, clamp count, CONFIG_CLAMPED events and settings. -/
structure Loaded where
  result : LoadResult
  clamps : Nat
  events : Nat
  settings : Settings
  deriving DecidableEq, Repr

/-- R183 to R188: an image judged. -/
def judgeImage (im : List Byte) : Loaded :=
  if imageValid im then
    { result := if clampCount im = 0 then .loaded else .clamped
      clamps := min Config.counterMax (clampCount im)
      events := clampCount im
      settings := settingsIn im }
  else { result := .defaulted, clamps := 0, events := 1, settings := Settings.defaults }

end Sys2Proof.Machine
end

