-- ==== Sys2Proof/Machine/Sensing.lean ====
section
/-! DEFINITION. The Sensing Unit: pulses and gust, vane, rain confirms, OBS publication, the SELF refresh and the start of
sensing (chapter 1), with its five commands. -/

namespace Sys2Proof.Machine

/-- The Sensing Unit's state replaced. -/
def setSensing (x : Sensing) (s : State) : State := { s with sensing := x }

/-! ### Publication (R8 to R12) -/

/-- R11, R12: an OBS is built and queued with its priority and trigger; the last published gust and the peak follow. -/
def queueObs (prio trigger : Nat) (s : State) : State :=
  if anySensor s.cfg then
    let x := s.sensing
    let carried := if s.cfg.hasAnemometer then x.peak else none
    let f := ownFrame .obs prio 0 (obsPayload carried x.vane x.rain trigger) .obs s
    let x' :=
      if s.cfg.hasAnemometer then { x with published := carried.getD 0, peak := x.gust } else x
    enqueue f (setSensing x' s)
  else s

/-! ### Anemometer and vane (R1 to R4, R7) -/

/-- R1: a pulse on the anemometer line. -/
def pulse (s : State) : State :=
  if s.sensing.running && s.cfg.hasAnemometer then
    setSensing { s.sensing with pulses := satSucc Config.pulseMax s.sensing.pulses } s
  else s

/-- R3: the gust of three sub-counts. -/
def gustOf (anemK a b c : Nat) : Nat := min Config.gustMax ((a + b + c) * anemK / 300)

/-- R4, 1.3: the sector of a Gray-coded reading V4 V3 V2 V1. -/
def graySector (v : BitVec 4) : Nat :=
  let b3 := v.getLsbD 3
  let b2 := v.getLsbD 2 ^^ b3
  let b1 := v.getLsbD 1 ^^ b2
  let b0 := v.getLsbD 0 ^^ b1
  b3.toNat * 8 + b2.toNat * 4 + b1.toNat * 2 + b0.toNat

/-- R4: the vane sector at an expiry with current gust `gust`. -/
def vaneSector (k : Settings) (gust : Option Nat) (v : BitVec 4) : Nat :=
  if !k.hasVane then 17
  else
    match gust with
    | some g => if g < k.dirMinSpeed then 16 else graySector v
    | none => graySector v

/-- R2, R3, R4, R7: what a sub-window expiry makes of the local weather record. -/
def windowed (k : Settings) (v : BitVec 4) (x : Sensing) : Sensing :=
  if k.hasAnemometer then
    let g := gustOf k.anemK x.ring2 x.ring3 x.pulses
    { x with
      pulses := 0, ring1 := x.ring2, ring2 := x.ring3, ring3 := x.pulses
      gust := some g, peak := some (max (x.peak.getD 0) g)
      vane := vaneSector k (some g) v, subWindow := some Config.subWindowMs }
  else
    { x with
      pulses := 0, gust := none, peak := none
      vane := vaneSector k none v, subWindow := some Config.subWindowMs }

/-- R10: the current gust stands at or above the last published gust plus the publish step. -/
def gustStep (s : State) : Bool :=
  match s.sensing.gust with
  | some g => s.cfg.hasAnemometer && decide (s.sensing.published + s.cfg.publishStep ≤ g)
  | none => false

/-- R13: the rain a SELF refresh carries. -/
def selfRain : RainState → Option RainReport
  | .dry => some .dry
  | .wet => some .wet
  | .fault => some .fault
  | .noSensor => none

/-- R13: the SELF refresh of a sub-window expiry. -/
def selfRefresh (s : State) : State :=
  if anySensor s.cfg then
    refreshSelf
      { gust := s.sensing.gust, sector := s.sensing.vane, rain := selfRain s.sensing.rain } s
  else s

/-- SUB_WINDOW_EXPIRY's effect: R1 to R4, R7, then R10, then R13. -/
def subWindow (v : BitVec 4) (s : State) : State :=
  let s := { s with pins := { s.pins with vane := v } }
  if s.sensing.subWindow.isSome then
    let s := setSensing (windowed s.cfg v s.sensing) s
    selfRefresh (if gustStep s then queueObs 2 2 s else s)
  else s

/-- R8: the observation period expires and restarts, and a periodic OBS is queued. -/
def obsPeriod (s : State) : State :=
  if s.sensing.obsPeriod.isSome then
    queueObs 0 0 (setSensing { s.sensing with obsPeriod := some (s.cfg.obsPeriodS * 1000) } s)
  else s

/-! ### Rain (R5, R6, R9) -/

/-- R5: the state a rain level belongs to. -/
def rainTarget : RainLevel → RainState
  | .dry => .dry
  | .wet => .wet
  | .fault => .fault

/-- 1.4: the confirm time of a level, in milliseconds. -/
def confirmMs (k : Settings) : RainLevel → Nat
  | .wet => k.wetConfirmS * 1000
  | .dry => k.dryConfirmMin * 60000
  | .fault => Config.faultConfirmMs

/-- R5: a level judged against the rain state: the confirm it starts, if any. -/
def confirmFor (k : Settings) (level : RainLevel) (state : RainState) : Option Confirm :=
  if rainTarget level = state then none else some ⟨rainTarget level, confirmMs k level⟩

/-- R5: the rain input stands at a level that is new to it. -/
def rainLevel (level : RainLevel) (s : State) : State :=
  if s.sensing.running && s.cfg.hasRain then
    setSensing { s.sensing with confirm := confirmFor s.cfg level s.sensing.rain } s
  else s

/-- R5, R6, R9: a rain confirm expires. -/
def rainConfirmed (s : State) : State :=
  match s.sensing.confirm with
  | none => s
  | some k =>
    let s := setSensing { s.sensing with rain := k.target, confirm := none } s
    queueObs 2 1 (if k.target = .fault then raiseEvent .rainLineFault s else s)

/-! ### Start of sensing (R14) -/

/-- R14: the Sensing Unit as it starts, with the level standing on the rain input judged as a change against DRY. -/
def sensingAtStart (k : Settings) (level : RainLevel) : Sensing :=
  { running := true, pulses := 0, ring1 := 0, ring2 := 0, ring3 := 0
    gust := if k.hasAnemometer then some 0 else none
    peak := if k.hasAnemometer then some 0 else none
    published := 0
    vane := if k.hasVane then 16 else 17
    rain := if k.hasRain then .dry else .noSensor
    confirm := if k.hasRain then confirmFor k level .dry else none
    subWindow := some Config.subWindowMs
    obsPeriod := if anySensor k then some (k.obsPeriodS * 1000) else none }

/-! ### Commands -/

/-- ANEMOMETER_PULSE (R1). -/
def execAnemometerPulse (s : State) : Host.Outcome State Fault Refusal :=
  .next (whileRunning pulse s)

/-- SUB_WINDOW_EXPIRY (R1). -/
def execSubWindowExpiry (v : BitVec 4) (s : State) : Host.Outcome State Fault Refusal :=
  .next (whileRunning (subWindow v) s)

/-- OBSERVATION_PERIOD_EXPIRY (R8). -/
def execObservationPeriodExpiry (s : State) : Host.Outcome State Fault Refusal :=
  .next (whileRunning obsPeriod s)

/-- RAIN_LEVEL_CHANGE (R5): the input takes the level; where that is a change and sensing runs, it is judged. -/
def execRainLevelChange (level : RainLevel) (s : State) : Host.Outcome State Fault Refusal :=
  .next
    (if s.pins.rain = level then s
     else whileRunning (rainLevel level) { s with pins := { s.pins with rain := level } })

/-- RAIN_CONFIRM_EXPIRY (R5). -/
def execRainConfirmExpiry (s : State) : Host.Outcome State Fault Refusal :=
  .next (whileRunning rainConfirmed s)

end Sys2Proof.Machine
end

