-- ==== Sys2Proof/Machine/Start.lean ====
section
/-! DEFINITION. Cold start, reset and the completion of a load (10.4, 10.5), with the commands COLD_START,
RESET_ASSERTED and LOAD_COMPLETE. -/

namespace Sys2Proof.Machine

/-- R189, step 1: every block takes its cold-start values; the field lines stand as they are. -/
def coldStart (phase : Phase) (s : State) : State :=
  { State.reset with
    pending := s.pending, phase := phase, pins := s.pins, requests := requestsAtStart s.requests
    free := s.free }

/-- COLD_START (R189): the start values are taken and the load begins. -/
def execColdStart (s : State) : Host.Outcome State Fault Refusal := .next (coldStart .coldLoad s)

/-- RESET_ASSERTED (R189): the part is held at its start values. -/
def execResetAsserted (s : State) : Host.Outcome State Fault Refusal := .next (coldStart .held s)

/-! ### Completion (R189, step 3) -/

/-- The settings reach every block together (R183). -/
def settle (im : List Byte) (l : Loaded) (s : State) : State :=
  { s with
    phase := .running, cfg := l.settings
    loader := { image := im, result := some l.result, clamps := l.clamps } }

/-- R16, R32: the source slots filled from the settings. -/
def filledSlots (k : Settings) : Eight Slot :=
  k.sources.map (fun st =>
    { station := st, isSelf := st != 0 && decide (st = k.station), entry := .absent })

/-- R135: a channel set from its record and its limits at a cold start. The position held by a channel found with both
limits active is a free value (log 32). -/
def coldChannel (s : State) (c : Channel) : State :=
  if !(chanCfg c s).enabled then setDriver c .disabled s
  else if bothLimits c s then
    faultRaised .limit 0
      (setDriver c (.faulted (Config.freePosition s.free) .limit) { s with free := s.free + 1 })
  else setDriver c (.idle (freshPosition c s)) s

/-- R136: a channel at the completion of a reload: DISABLED where it is now UNUSED, set as at a cold start where it is
newly enabled, and otherwise kept, with both limits judged and the position at rest settled. -/
def warmChannel (s : State) (c : Channel) : State :=
  if !(chanCfg c s).enabled then setDriver c .disabled s
  else
    match s.drivers.get c with
    | .disabled => coldChannel s c
    | .idle p => if bothLimits c s then limitFault c s else setDriver c (.idle (settled c p s)) s
    | .warning _ _ _ | .closing _ _ _ | .opening _ _ _ | .brake _ _ | .backoff _ _ _
    | .blocked _ _ | .faulted _ _ => if bothLimits c s then limitFault c s else s

/-- R173: a switch as the handler starts: one already active must first stand released. -/
def switchAtLoad (x : Switch) : Switch :=
  { input := x.input, pressed := false, mustRelease := x.input, debounce := none }

/-- R150: the link state at the completion of a load. -/
def linkAtLoad (s : State) : LinkState :=
  if s.loader.result = some .defaulted ∨ validStation s.cfg = false then .mute else .listen

/-- R189, R190: the completion of a load with the image the memory answered. -/
def completeLoad (warm : Bool) (answered : List Byte) (s : State) : State :=
  let im := imageCopy answered
  let l := judgeImage im
  let s := raiseTimes .configClamped l.events (settle im l s)
  let s := { s with
    sensing := sensingAtStart s.cfg s.pins.rain
    picture := { slots := filledSlots s.cfg, fused := Picture.unknown } }
  let s := allChannels.foldl (if warm then warmChannel else coldChannel) s
  let s := { s with
    requests := { s.requests with
      swClose := switchAtLoad s.requests.swClose, swOpen := switchAtLoad s.requests.swOpen } }
  enterLink (linkAtLoad s) s

/-- LOAD_COMPLETE (R183): the load under way completes; no load completes in a part that is held or running. -/
def execLoadComplete (image : List Byte) (s : State) : Host.Outcome State Fault Refusal :=
  .next
    (match s.phase with
     | .coldLoad => finish (completeLoad false image s)
     | .warmLoad => finish (completeLoad true image s)
     | .held | .running => s)

end Sys2Proof.Machine
end

