-- ==== Sys2Proof/Machine/Switches.lean ====
section
/-! DEFINITION. The wall switches: debounce and presses (8.9), with the commands SWITCH_INPUT_CHANGE,
SWITCH_RELEASE_DEBOUNCE, SW_CLOSE_PRESS and SW_OPEN_PRESS. -/

namespace Sys2Proof.Machine

/-- The state of one switch. -/
def switchOf (w : SwitchId) (s : State) : Switch :=
  match w with
  | .swClose => s.requests.swClose
  | .swOpen => s.requests.swOpen

/-- The state of one switch replaced. -/
def setSwitch (w : SwitchId) (x : Switch) (s : State) : State :=
  match w with
  | .swClose => { s with requests := { s.requests with swClose := x } }
  | .swOpen => { s with requests := { s.requests with swOpen := x } }

/-! ### Debounce (R173) -/

/-- R173: the debounce a switch runs after its input has changed: towards a press where it has stood released, towards
release where it has not. -/
def debounced (x : Switch) : Switch :=
  let waits := if x.input then !x.pressed && !x.mustRelease else x.pressed || x.mustRelease
  { x with debounce := if waits then some Config.debounceMs else none }

/-- SWITCH_INPUT_CHANGE (R173): the input takes its new level; where that is a change, the running debounce is cancelled
and the one it calls for starts. -/
def execSwitchInputChange (w : SwitchId) (active : Bool) (s : State) :
    Host.Outcome State Fault Refusal :=
  .next
    (if (switchOf w s).input = active then s
     else
      whileRunning (fun s => setSwitch w (debounced (switchOf w s)) s)
        (setSwitch w { switchOf w s with input := active } s))

/-- R173: the switch has stood released for 50 ms. -/
def released (w : SwitchId) (s : State) : State :=
  let x := switchOf w s
  if x.debounce.isSome && !x.input then
    setSwitch w { x with pressed := false, mustRelease := false, debounce := none } s
  else s

/-- SWITCH_RELEASE_DEBOUNCE (R173). -/
def execSwitchReleaseDebounce (w : SwitchId) (s : State) : Host.Outcome State Fault Refusal :=
  .next (whileRunning (released w) s)

/-! ### Presses (R174) -/

/-- 8.9: the local channels. -/
def localChannels (s : State) : List Channel := allChannels.filter (fun c => (chanCfg c s).localSwitch)

/-- R174: a channel has a motion or a job that a person began. -/
def begunByPerson (c : Channel) (s : State) : Bool :=
  match motionOf (s.drivers.get c) with
  | some m => personal m.cause
  | none =>
    match jobOf c s with
    | some j => personal j.cause
    | none => false

/-- R174: a stop press stops the local channels that a person began; the others are left as they are. -/
def stopPress (s : State) : State :=
  (localChannels s).foldl (fun s c => if begunByPerson c s then (stopChannel c s).2 else s) s

/-- R174, R162: the refusal of a press, with verb `verb`. -/
def recordPress (verb : Nat) (t : Tally) (s : State) : State :=
  match t.code with
  | some e => recordRefusal verb .wall e s
  | none => s

/-- R133, R174: a refused SW_OPEN press starts the chirp, or starts it anew. -/
def chirpIf (t : Tally) (s : State) : State :=
  if t.code.isSome then { s with chirp := some Config.chirpMs } else s

/-- R174: SW_CLOSE as a CLOSE on the local channels. -/
def pressClose (s : State) : State :=
  let r := judgeEach (closeChannel .wall .wall) (localChannels s) Tally.none s
  recordPress 1 r.1 r.2

/-- R174: SW_OPEN judged for one local channel: refused with AUTHORITY where local opening is not enabled. -/
def pressOpenChannel (c : Channel) (s : State) : Verdict × State :=
  if s.cfg.localOpen then openChannel .openWall .wall c s else (.refused .authority, s)

/-- R174: SW_OPEN on the local channels. -/
def pressOpen (s : State) : State :=
  let r := judgeEach pressOpenChannel (localChannels s) Tally.none s
  chirpIf r.1 (recordPress 2 r.1 r.2)

/-- R174: the effect of a press: a stop press, or else the switch's own. -/
def pressEffect (w : SwitchId) (s : State) : State :=
  if (localChannels s).any (fun c => begunByPerson c s) then stopPress s
  else
    match w with
    | .swClose => pressClose s
    | .swOpen => pressOpen s

/-- R173: a press is taken when the input has stayed active for its debounce. -/
def press (w : SwitchId) (s : State) : State :=
  let x := switchOf w s
  if x.debounce.isSome && x.input then
    pressEffect w (setSwitch w { x with pressed := true, debounce := none } s)
  else s

/-- SW_CLOSE_PRESS (R174). -/
def execSwClosePress (s : State) : Host.Outcome State Fault Refusal :=
  .next (whileRunning (press .swClose) s)

/-- SW_OPEN_PRESS (R174). -/
def execSwOpenPress (s : State) : Host.Outcome State Fault Refusal :=
  .next (whileRunning (press .swOpen) s)

end Sys2Proof.Machine
end

