-- ==== Sys2Proof/Machine/Time.lean ====
section
/-! DEFINITION. The part's own timers: which expiry is due, and what a tick of time does to every timer and age. DESIGN
CHOICE (log 2): on an empty queue a step takes an expiry that is due, in the fixed order below, or lets one tick pass. -/

namespace Sys2Proof.Machine

/-! ### Due expiries -/

/-- A timer that has run out. -/
def isDue (t : Option Nat) : Bool := t == some 0

/-- A command where its timer has run out. -/
def dueIf (b : Bool) (i : Instr) : List Instr := if b then [i] else []

/-- The expiry of the state a channel is in (R114, R115, R118, R119, R126). DESIGN CHOICE (log 37): a blanking expiry of
the idle part compares the last level of the motor current that a command has brought (R116). -/
def driverDue (c : Channel) (current : Nat) : Driver → List Instr
  | .warning _ _ t => dueIf (t == 0) (.warningTimerExpiry c)
  | .closing _ t b => dueIf (isDue b) (.blankingExpiry c current) ++ dueIf (t == 0) (.travelTimerExpiry c)
  | .opening _ t b => dueIf (isDue b) (.blankingExpiry c current) ++ dueIf (t == 0) (.travelTimerExpiry c)
  | .brake _ t => dueIf (t == 0) (.brakeExpiry c)
  | .backoff _ _ t => dueIf (t == 0) (.backoffExpiry c)
  | .blocked _ t => dueIf (t == 0) (.retryTimerExpiry c)
  | .disabled | .idle _ | .faulted _ _ => []

/-- R23, R24: the ageing due of a slot. -/
def sourceDue (k : SlotId) (stale : Nat) : SourceEntry → List Instr
  | .fresh _ age => dueIf (decide (stale ≤ age)) (.sourceStale k)
  | .stale _ age => dueIf (decide (4 * stale ≤ age)) (.sourceLost k)
  | .absent => []

/-- R88, R84: a refresh is due for an own entry: half its lifetime has passed, none of its CLAIMs is waiting, one under
transmission not counted, and the link state refreshes. -/
def refreshDue (s : State) (e : Entry) : Bool :=
  isHeld e && refreshes s.link.state && !e.refreshBarred
    && decide (s.cfg.lifetimeS * 500 ≤ e.ageMs)
    && !s.line.queue.any (isWaitingClaim e.tag)

/-- R87, R88, R95, R97: the expiry due of a claim table entry. -/
def entryDue (s : State) (e : Entry) : List Instr :=
  if e.own then
    dueIf (e.state == .settling 0) (.ownSettleExpiry e.chan)
      ++ dueIf (refreshDue s e) (.claimRefreshDue e.chan)
  else
    dueIf (e.state == .settling 0) (.peerSettleExpiry e.station e.tag)
      ++ dueIf (decide (e.lifetimeS * 1000 ≤ e.ageMs)) (.claimExpired e.station e.tag)

/-- R173: the debounce of a switch has run out: towards a press, or towards release. -/
def switchDue (w : SwitchId) (x : Switch) : List Instr :=
  if isDue x.debounce then
    if x.input then
      match w with
      | .swClose => [.swClosePress]
      | .swOpen => [.swOpenPress]
    else [.switchReleaseDebounce w]
  else []

/-- Every expiry that is due, in the order in which the idle part takes them. -/
def dueEvents (s : State) : List Instr :=
  dueIf (isDue s.sensing.subWindow) (.subWindowExpiry s.pins.vane)
    ++ dueIf (isDue s.sensing.obsPeriod) .observationPeriodExpiry
    ++ dueIf (isDue (s.sensing.confirm.map Confirm.left)) .rainConfirmExpiry
    ++ allChannels.flatMap (fun k => sourceDue k (staleMs s.cfg) (s.picture.slots.get k).entry)
    ++ dueIf (isDue s.eval.stormRelease) .stormReleaseExpiry
    ++ allChannels.flatMap (fun c => dueIf (isDue (s.eval.chans.get c).calm) (.calmHoldExpiry c))
    ++ s.supply.entries.flatMap (entryDue s)
    ++ dueIf (isDue s.supply.tableFull) .tableFullExpiry
    ++ allChannels.flatMap (fun c => driverDue c (s.pins.chans.get c).current (s.drivers.get c))
    ++ dueIf (isDue s.chirp) .chirpExpiry
    ++ dueIf (isDue s.link.join) .joinTimerExpiry
    ++ dueIf (isDue s.link.isolation) .isolationTimerExpiry
    ++ dueIf (isDue s.link.presence) .presenceTimerExpiry
    ++ dueIf (isDue s.requests.hold) .holdExpiry
    ++ switchDue .swClose s.requests.swClose
    ++ switchDue .swOpen s.requests.swOpen

/-! ### A tick -/

/-- A running timer after one tick. -/
def ticked (t : Option Nat) : Option Nat := t.map (· - Config.tickMs)

/-- R22: an entry one tick older. -/
def agedSource : SourceEntry → SourceEntry
  | .absent => .absent
  | .fresh o age => .fresh o (age + Config.tickMs)
  | .stale o age => .stale o (age + Config.tickMs)

/-- A claim entry one tick on: its settle interval runs, and its age grows to its lifetime at most (R79). -/
def tickedEntry (e : Entry) : Entry :=
  { e with
    state := match e.state with
      | .settling n => .settling (n - Config.tickMs)
      | .announcing => .announcing
      | .held => .held
      | .yielding => .yielding
    ageMs := min (e.lifetimeS * 1000) (e.ageMs + Config.tickMs) }

/-- A channel's timers after one tick. -/
def tickedDriver : Driver → Driver
  | .warning p m t => .warning p m (t - Config.tickMs)
  | .closing m t b => .closing m (t - Config.tickMs) (ticked b)
  | .opening m t b => .opening m (t - Config.tickMs) (ticked b)
  | .brake m t => .brake m (t - Config.tickMs)
  | .backoff m on t => .backoff m on (t - Config.tickMs)
  | .blocked m t => .blocked m (t - Config.tickMs)
  | .disabled => .disabled
  | .idle p => .idle p
  | .faulted p k => .faulted p k

/-- Every timer and age of the part after one tick. -/
def elapse (s : State) : State :=
  { s with
    sensing := { s.sensing with
      confirm := s.sensing.confirm.map (fun k => { k with left := k.left - Config.tickMs })
      subWindow := ticked s.sensing.subWindow
      obsPeriod := ticked s.sensing.obsPeriod }
    picture := { s.picture with
      slots := s.picture.slots.map (fun x => { x with entry := agedSource x.entry }) }
    eval := { s.eval with
      stormRelease := ticked s.eval.stormRelease
      chans := s.eval.chans.map (fun x => { x with calm := ticked x.calm }) }
    supply := { s.supply with
      entries := s.supply.entries.map tickedEntry, tableFull := ticked s.supply.tableFull }
    drivers := s.drivers.map tickedDriver
    chirp := ticked s.chirp
    link := { s.link with
      join := ticked s.link.join, isolation := ticked s.link.isolation
      presence := ticked s.link.presence }
    requests := { s.requests with
      hold := ticked s.requests.hold
      swClose := { s.requests.swClose with debounce := ticked s.requests.swClose.debounce }
      swOpen := { s.requests.swOpen with debounce := ticked s.requests.swOpen.debounce } } }

end Sys2Proof.Machine
end

