-- ==== Sys2Proof/Machine/Dispatch.lean ====
section
/-! DEFINITION. One arm per row of the opcode table: the meaning of each command. -/

namespace Sys2Proof.Machine

def exec (i : Instr) (s : State) : Host.Outcome State Fault Refusal :=
  match i with
  | .coldStart => Sys2Proof.Machine.execColdStart s
  | .resetAsserted => Sys2Proof.Machine.execResetAsserted s
  | .loadComplete im => Sys2Proof.Machine.execLoadComplete im s
  | .anemometerPulse => Sys2Proof.Machine.execAnemometerPulse s
  | .subWindowExpiry vane => Sys2Proof.Machine.execSubWindowExpiry vane s
  | .observationPeriodExpiry => Sys2Proof.Machine.execObservationPeriodExpiry s
  | .rainLevelChange level => Sys2Proof.Machine.execRainLevelChange level s
  | .rainConfirmExpiry => Sys2Proof.Machine.execRainConfirmExpiry s
  | .sourceStale slot => Sys2Proof.Machine.execSourceStale slot s
  | .sourceLost slot => Sys2Proof.Machine.execSourceLost slot s
  | .stormReleaseExpiry => Sys2Proof.Machine.execStormReleaseExpiry s
  | .calmHoldExpiry c => Sys2Proof.Machine.execCalmHoldExpiry c s
  | .ownSettleExpiry c => Sys2Proof.Machine.execOwnSettleExpiry c s
  | .claimRefreshDue c => Sys2Proof.Machine.execClaimRefreshDue c s
  | .peerSettleExpiry station tag => Sys2Proof.Machine.execPeerSettleExpiry station tag s
  | .claimExpired station tag => Sys2Proof.Machine.execClaimExpired station tag s
  | .tableFullExpiry => Sys2Proof.Machine.execTableFullExpiry s
  | .warningTimerExpiry c => Sys2Proof.Machine.execWarningTimerExpiry c s
  | .blankingExpiry c current => Sys2Proof.Machine.execBlankingExpiry c current s
  | .overcurrent c current => Sys2Proof.Machine.execOvercurrent c current s
  | .backoffExpiry c => Sys2Proof.Machine.execBackoffExpiry c s
  | .retryTimerExpiry c => Sys2Proof.Machine.execRetryTimerExpiry c s
  | .brakeExpiry c => Sys2Proof.Machine.execBrakeExpiry c s
  | .travelTimerExpiry c => Sys2Proof.Machine.execTravelTimerExpiry c s
  | .limitActive c limit => Sys2Proof.Machine.execLimitActive c limit s
  | .limitInactive c limit => Sys2Proof.Machine.execLimitInactive c limit s
  | .chirpExpiry => Sys2Proof.Machine.execChirpExpiry s
  | .obsReceived h p => Sys2Proof.Machine.execObsReceived h p s
  | .presReceived h p => Sys2Proof.Machine.execPresReceived h p s
  | .claimReceived h p => Sys2Proof.Machine.execClaimReceived h p s
  | .releaseReceived h p => Sys2Proof.Machine.execReleaseReceived h p s
  | .replyReceived h p => Sys2Proof.Machine.execReplyReceived h p s
  | .duplicateReceived => Sys2Proof.Machine.execDuplicateReceived s
  | .rxFrameFault b => Sys2Proof.Machine.execRxFrameFault b s
  | .rxGapExpiry => Sys2Proof.Machine.execRxGapExpiry s
  | .cmdClose h p => Sys2Proof.Machine.execCmdClose h p s
  | .cmdOpen h p => Sys2Proof.Machine.execCmdOpen h p s
  | .cmdStop h p => Sys2Proof.Machine.execCmdStop h p s
  | .cmdHold h p => Sys2Proof.Machine.execCmdHold h p s
  | .cmdUnhold h p => Sys2Proof.Machine.execCmdUnhold h p s
  | .cmdBadVerb h p => Sys2Proof.Machine.execCmdBadVerb h p s
  | .read h p => Sys2Proof.Machine.execRead h p s
  | .take h p => Sys2Proof.Machine.execTake h p s
  | .clear h p => Sys2Proof.Machine.execClear h p s
  | .restart h p => Sys2Proof.Machine.execRestart h p s
  | .holdExpiry => Sys2Proof.Machine.execHoldExpiry s
  | .switchInputChange sw active => Sys2Proof.Machine.execSwitchInputChange sw active s
  | .switchReleaseDebounce sw => Sys2Proof.Machine.execSwitchReleaseDebounce sw s
  | .swClosePress => Sys2Proof.Machine.execSwClosePress s
  | .swOpenPress => Sys2Proof.Machine.execSwOpenPress s
  | .deferralSlot slot => Sys2Proof.Machine.execDeferralSlot slot s
  | .transmitComplete => Sys2Proof.Machine.execTransmitComplete s
  | .echoMismatch => Sys2Proof.Machine.execEchoMismatch s
  | .joinTimerExpiry => Sys2Proof.Machine.execJoinTimerExpiry s
  | .isolationTimerExpiry => Sys2Proof.Machine.execIsolationTimerExpiry s
  | .presenceTimerExpiry => Sys2Proof.Machine.execPresenceTimerExpiry s
  | .framePassedOver kind h p => Sys2Proof.Machine.execFramePassedOver kind h p s
  | .lineByteArrival b => Sys2Proof.Machine.execLineByteArrival b s
  | .rxQuietResync => Sys2Proof.Machine.execRxQuietResync s

end Sys2Proof.Machine
end

