-- ==== Sys2Proof/Machine/Idle.lean ====
section
/-! DEFINITION. What a step does on an empty queue (log 2). -/

namespace Sys2Proof.Machine

/-- DESIGN CHOICE (log 2): on an empty queue, the first expiry that is due happens, or a tick passes where none is. -/
def idleStep (s : State) : Host.Outcome State Fault Refusal :=
  match dueEvents s with
  | i :: _ => exec i s
  | [] => .next (elapse s)

end Sys2Proof.Machine
end

