-- ==== Sys2Proof/Safety.lean ====
section
/-! DEFINITION. What claims speak of: when a part is ready for a command, and the properties a sound part keeps. -/

namespace Sys2Proof.Machine

/-! ### When a command is taken (R189, log 12) -/

/-- Between commands on a running part: no scan and no restart is called for. -/
abbrev Settled (s : State) : Prop :=
  s.phase = .running ∧ s.work.scan = false ∧ s.work.restart = false

/-- A settled part with no restart pending (R172). -/
abbrev Ready (s : State) : Prop := Settled s ∧ s.requests.pendingRestart = false

/-- No mark is left between commands, whatever the stage of a start (log 12). -/
def MarksClear (s : State) : Prop := s.work.scan = false ∧ s.work.restart = false

/-! ### Frames heard (R140 to R142) -/

/-- A link state in which a frame of another station is taken without a change of link state (R139, R153). -/
abbrev Takes (s : State) : Prop :=
  s.link.state = .listen ∨ s.link.state = .active ∨ s.link.state = .mute

/-- R140, R141: a settled part hears a valid frame of another station. -/
abbrev PeerFrame (h : Header) (p : List Byte) (s : State) : Prop :=
  Settled s ∧ Takes s ∧ 1 ≤ h.source.toNat ∧ h.source.toNat ≤ 63
    ∧ h.source.toNat ≠ s.cfg.station ∧ p.length ≤ 24

/-- R142: the frame's target is the station alone, whose own number is valid. -/
abbrev ToStation (h : Header) (s : State) : Prop :=
  1 ≤ s.cfg.station ∧ s.cfg.station ≤ 63 ∧ h.target.toNat = s.cfg.station

/-- R142: the frame is group-addressed and shares a group with the station. -/
abbrev ToGroup (h : Header) (s : State) : Prop :=
  h.target = 0 ∧ h.groups &&& stationGroups s ≠ 0

/-- R139, R141, R152: the state in which a valid frame of another station is acted on: the frame is complete and counted,
and the isolation timer restarts where it runs. -/
def counted (s : State) : State :=
  { s with
    line := { s.line with rx := .idle }
    status := { s.status with
      received := if s.status.received < 65535 then s.status.received + 1 else s.status.received }
    link := { s.link with
      isolation :=
        if s.link.state = .active then some (s.cfg.isolationS * 1000) else s.link.isolation } }

/-- R161: how a request is answered: to its sender, where it is addressed to the station alone. -/
def askedOf (h : Header) (s : State) : Asked := { source := h.source, single := decide (ToStation h s) }

/-- The status of a part at which an event is raised and, with it, an error code is recorded (R178, R179). -/
def withError (e : Event) (code : ErrorCode) (source : Nat) (r : Status) : Status :=
  { r with
    flags := r.flags ||| eventFlag e, counters := bumpCounter r.counters e
    errorCode := some code, errorSource := source }

/-! ### The loader (R184) -/

/-- R184: what a field is taken as: its value where that lies in its range, and otherwise the limit it passes. -/
def Taken (lo hi value taken : Nat) : Prop :=
  (lo ≤ value → value ≤ hi → taken = value) ∧ (value < lo → taken = lo) ∧ (hi < value → taken = hi)

/-! ### The motion queue (R58, R59) -/

/-- R58, R59: at most one job for a channel, and no job behind one that it ranks ahead of. -/
def JobsOrdered (js : List Job) : Prop :=
  (js.map Job.chan).Nodup ∧ js.Pairwise (fun a b => jobAhead b a = false)

/-! ### The claim table (R79, R82) -/

/-- R79: at most 24 entries. -/
def TableBounded (s : State) : Prop := s.supply.entries.length ≤ Config.tableSize

/-- R79: an own entry carries the own number, its channel's draw and the configured lifetime, and is never YIELDING. -/
def OwnEntriesCarry (s : State) : Prop :=
  ∀ e ∈ s.supply.entries, e.own = true →
    e.station = s.cfg.station ∧ e.draw = drawOf e.chan s ∧ e.lifetimeS = s.cfg.lifetimeS
      ∧ e.state ≠ .yielding

/-- R82: the own total is within the budget, as the isolated share is (R81). -/
def WithinBudget (s : State) : Prop :=
  ownTotal s ≤ s.cfg.budget ∧ s.cfg.isoShare ≤ s.cfg.budget
    ∧ ∀ e ∈ s.supply.entries, e.own = true → e.state ≠ .yielding

/-- R78, R107: before a load has completed there is no job and no claim. -/
def EmptyUntilLoaded (s : State) : Prop :=
  s.phase ≠ .running → s.jobs = [] ∧ s.supply.entries = []

/-- The jobs of a channel. -/
def jobsOf (c : Channel) (s : State) : List Job := s.jobs.filter (fun j => decide (j.chan = c))

/-- The own entries of a channel. -/
def ownOf (c : Channel) (s : State) : List Entry := s.supply.entries.filter (isOwnOf c)

/-- R79: a channel in motion has no job and one own entry, HELD; a channel at rest has at most one job, and an own entry
exactly while the job is ANNOUNCING or SETTLING, in that same state. -/
def ClaimFits (c : Channel) (s : State) : Prop :=
  if inMotion (s.drivers.get c) then
    jobsOf c s = [] ∧ ∃ e, ownOf c s = [e] ∧ e.state = .held
  else
    (ownOf c s = [] ∧ (jobsOf c s = [] ∨ ∃ j, jobsOf c s = [j] ∧ j.state = .waiting))
      ∨ ∃ j e, jobsOf c s = [j] ∧ ownOf c s = [e]
          ∧ ((j.state = .announcing ∧ e.state = .announcing)
              ∨ (j.state = .settling ∧ isSettling e = true))

/-! ### The transmit queue (R143) -/

/-- R143: at most 8 frames, by priority, at most one under transmission and at most one waiting OBS and PRES each. -/
def TxOrdered (q : List TxFrame) : Prop :=
  q.length ≤ Config.txSize ∧ q.Pairwise (fun f g => g.frame.prio ≤ f.frame.prio)
    ∧ q.countP TxFrame.sending ≤ 1
    ∧ q.countP (replacedBy .obs) ≤ 1 ∧ q.countP (replacedBy .pres) ≤ 1

/-! ### Records (R178, R159) -/

/-- R178, R159: the counters within 255 and the frame counts within 65,535. -/
def RecordsBounded (r : Status) : Prop :=
  (∀ e, counterOf r.counters e ≤ Config.counterMax)
    ∧ r.received ≤ Config.countMax ∧ r.rejected ≤ Config.countMax ∧ r.sent ≤ Config.countMax
    ∧ r.retries ≤ Config.countMax

/-! ### The link (R151, R152, R157) -/

/-- The join timer runs exactly in LISTEN, the isolation timer in ACTIVE, the presence timer in ACTIVE and ISOLATED. -/
def LinkTimersFit (l : Link) : Prop :=
  (l.join.isSome = true ↔ l.state = .listen) ∧ (l.isolation.isSome = true ↔ l.state = .active)
    ∧ (l.presence.isSome = true ↔ l.state = .active ∨ l.state = .isolated)

/-! ### Opening (R50, R51, R65) -/

/-- A channel has an OPEN job, or is OPENING. -/
def Opens (c : Channel) (s : State) : Prop :=
  isOpening (s.drivers.get c) = true ∨ ∃ j ∈ s.jobs, j.chan = c ∧ j.dir = .opening

/-- R51, R65: a channel has an OPEN job or is OPENING only while opening is allowed for it. -/
def OpeningGuarded (c : Channel) (s : State) : Prop := Opens c s → openingAllowed c s = true

/-- R109, R135: a channel that is not DISABLED is enabled by the settings, once they are loaded. -/
def EnabledByLoad (s : State) : Prop :=
  s.phase = .running → ∀ c, s.drivers.get c ≠ .disabled → (chanCfg c s).enabled = true

/-! ### The picture (R25) -/

/-- R25: the picture is a function of the table alone. -/
def PictureFollows (s : State) : Prop :=
  s.phase = .running → s.picture.fused = fuse s.picture.slots

end Sys2Proof.Machine
end

