-- ==== Sys2Proof/Certificates/Slice0/Obligations.lean ====
section
/-! DEFINITION. The statements for the provers. `finish u` is the end of a command whose own effect has left the part at
`u`: the admission scan and the warm restart that the effect has called for, and nothing where it has called for neither
(Obligations.CommandEndsWithItsScan). -/

section

open Sys2Proof Sys2Proof.Machine

/-! ### Commands and steps -/

/-- A step takes the command at the front of the queue and runs it on the queue's rest. -/
def Obligations.StepTakesFrontCommand : Prop :=
  ∀ (i : Instr) (rest : List Instr) (s : State), s.pending = i :: rest →
    step s = exec i { s with pending := rest }

/-- Every command answers a next state in every state, and none touches the commands that wait. That no command stops is
the model's reading of the manual (log 11), not a rule of it. -/
def Obligations.CommandsNeverStopOrTouchQueue : Prop :=
  ∀ (i : Instr) (s : State), ∃ t, exec i s = .next t ∧ t.pending = s.pending

/-- A part that is held in reset or loading takes no command but those of its start, LOAD_COMPLETE in a held part being
none (the model's reading of R14, R32, R135, R175 and R189, log 10); its rain line, its limit contacts and its switch
inputs follow their lines (log 6), a limit under the polarity of the settings then held (the model's choice, log 38). -/
def Obligations.NothingTakenBeforeLoad : Prop :=
  ∀ (i : Instr) (s : State), s.phase ≠ .running →
    (i ≠ .coldStart → i ≠ .resetAsserted → (∀ im, i = .loadComplete im → s.phase = .held) →
      (∀ level, i ≠ .rainLevelChange level) → (∀ c l, i ≠ .limitActive c l ∧ i ≠ .limitInactive c l) →
      (∀ w on, i ≠ .switchInputChange w on) →
      exec i s = .next s)
    ∧ (∀ level, i = .rainLevelChange level →
        exec i s = .next { s with pins := { s.pins with rain := level } })
    ∧ (∀ (c : Channel) (l : Limit) (on contact : Bool),
        (on = true ∧ i = .limitActive c l ∨ on = false ∧ i = .limitInactive c l) →
        contact = (on != (s.cfg.channels.get c).openingContacts) →
        exec i s = .next
          { s with
            pins := { s.pins with
              chans := s.pins.chans.set c
                (match l with
                 | .closed => { s.pins.chans.get c with closedContact := contact }
                 | .opened => { s.pins.chans.get c with openContact := contact }) } })
    ∧ ∀ (w : SwitchId) (on : Bool), i = .switchInputChange w on →
        exec i s = .next
          { s with
            requests :=
              (match w with
               | .swClose =>
                 { s.requests with swClose := { s.requests.swClose with input := on } }
               | .swOpen => { s.requests with swOpen := { s.requests.swOpen with input := on } }) }

/-- R68, R172, R190: the end of a command (the marks that call for a scan or a restart, and the 16 scans one command
makes at the most: log 12): its scans, and then, where the restart is marked, by the command or in its scans, the warm
restart of the scanned state (Obligations.WarmRestartKeepsRecordsAndChannels). Where no restart comes to be pending,
it touches jobs, claims, queued frames and records alone, and where no job is WAITING it changes nothing. -/
def Obligations.CommandEndsWithItsScan : Prop :=
  (∀ s : State, s.requests.pendingRestart = false → s.work.restart = false →
    ((finish s).pending = s.pending ∧ (finish s).phase = s.phase ∧ (finish s).loader = s.loader
      ∧ (finish s).cfg = s.cfg ∧ (finish s).pins = s.pins ∧ (finish s).sensing = s.sensing
      ∧ (finish s).picture = s.picture ∧ (finish s).eval = s.eval ∧ (finish s).drivers = s.drivers
      ∧ (finish s).chirp = s.chirp ∧ (finish s).line.rx = s.line.rx ∧ (finish s).link = s.link
      ∧ (finish s).requests = s.requests ∧ (finish s).free = s.free ∧ MarksClear (finish s))
    ∧ ((∀ j ∈ s.jobs, j.state ≠ .waiting) → finish s = { s with work := { s.work with scan := false } })
    ∧ (s.work.scan = false → finish s = s))
  ∧ (∀ s u : State, u = runScans 16 s →
    (u.work.restart = true → finish s = warmRestart u) ∧ (u.work.restart = false → finish s = u)
    ∧ (s.work.restart = true → finish s = warmRestart u))
  ∧ ∀ (n : Nat) (s : State),
    runScans 0 s = { s with work := { s.work with scan := false } }
    ∧ (s.work.scan = false → runScans (n + 1) s = s)
    ∧ (s.work.scan = true →
        runScans (n + 1) s = runScans n (scan { s with work := { s.work with scan := false } }))
    ∧ wantScan s = { s with work := { s.work with scan := true } }

/-- R69, R70, R86: an admission scan takes the jobs in key order. A WAITING job that is not held back, or is held back
and finds room in the transmit queue, is admitted where its draw passes, unless it is an OPEN job behind a WAITING CLOSE
job; where it would find nothing to do it leaves the queue; any other job stays as it is. -/
def Obligations.ScanTreatsOneJob : Prop :=
  (∀ s : State, JobsOrdered s.jobs →
    ∃ cs : List Channel, scan s = cs.foldl scanJob s ∧ cs.Nodup ∧ (∀ c, c ∈ cs ↔ jobOf c s ≠ none)
      ∧ ∀ a b ja jb, jobOf a s = some ja → jobOf b s = some jb → jobAhead ja jb = true →
          [a, b].Sublist cs)
  ∧ ∀ (c : Channel) (j : Job) (s u : State), jobOf c s = some j →
    u = { s with
          jobs := s.jobs.map (fun k => if k.chan = c then { k with heldBack := false } else k) } →
    (j.state ≠ .waiting → scanJob s c = s)
    ∧ (j.state = .waiting → j.heldBack = true → 8 ≤ s.line.queue.length → scanJob s c = s)
    ∧ (j.state = .waiting → (j.heldBack = false ∨ s.line.queue.length < 8) →
        ((isFaulted (s.drivers.get c) = true
            ∨ (j.dir = .close ∧ s.drivers.get c = .idle .closed)
            ∨ (j.dir = .opening ∧ s.drivers.get c = .idle .opened)) →
          scanJob s c = { s with jobs := s.jobs.filter (fun k => decide (k.chan ≠ c)) })
        ∧ (isFaulted (s.drivers.get c) = false →
            (j.dir = .close → s.drivers.get c ≠ .idle .closed) →
            (j.dir = .opening → s.drivers.get c ≠ .idle .opened) →
            ((j.dir = .opening ∧ ∃ k ∈ s.jobs, k.dir = .close ∧ k.state = .waiting) → scanJob s c = u)
            ∧ ((j.dir = .close ∨ ∀ k ∈ s.jobs, k.dir = .close → k.state ≠ .waiting) →
                scanJob s c = if admits (drawOf c s) s then admitJob j u else u)))

/-- What a step does on an empty queue (the model's choice, log 2). With no expiry due a tick of 10 ms passes: every
running timer falls by it, to 0 at the least, every age grows by it, a claim's to its lifetime at the most (log 19),
and nothing else changes. Otherwise the first of the expiries that are due happens: each timer's is due where it
stands at 0, each ageing where its age has come (a blanking expiry compares the last level of the current: log 37). -/
def Obligations.IdleTickMovesOnlyTime : Prop :=
  (∀ s : State, s.pending = [] → dueEvents s = [] →
    ∃ t, step s = .next t
      ∧ t = { s with
          sensing := { s.sensing with
            subWindow := s.sensing.subWindow.map (fun n => n - 10)
            obsPeriod := s.sensing.obsPeriod.map (fun n => n - 10)
            confirm := s.sensing.confirm.map (fun k => { k with left := k.left - 10 }) }
          picture := { s.picture with
            slots := s.picture.slots.map (fun x =>
              { x with
                entry := match x.entry with
                  | .absent => .absent
                  | .fresh o age => .fresh o (age + 10)
                  | .stale o age => .stale o (age + 10) }) }
          eval := { s.eval with
            stormRelease := s.eval.stormRelease.map (fun n => n - 10)
            chans := s.eval.chans.map (fun x => { x with calm := x.calm.map (fun n => n - 10) }) }
          supply := { s.supply with
            entries := s.supply.entries.map (fun e =>
              { e with
                state := match e.state with
                  | .settling n => .settling (n - 10)
                  | .announcing => .announcing
                  | .held => .held
                  | .yielding => .yielding
                ageMs := min (e.lifetimeS * 1000) (e.ageMs + 10) })
            tableFull := s.supply.tableFull.map (fun n => n - 10) }
          drivers := s.drivers.map (fun d => match d with
            | .warning p m n => .warning p m (n - 10)
            | .closing m n b => .closing m (n - 10) (b.map (fun k => k - 10))
            | .opening m n b => .opening m (n - 10) (b.map (fun k => k - 10))
            | .brake m n => .brake m (n - 10)
            | .backoff m on n => .backoff m on (n - 10)
            | .blocked m n => .blocked m (n - 10)
            | .disabled => .disabled
            | .idle p => .idle p
            | .faulted p k => .faulted p k)
          chirp := s.chirp.map (fun n => n - 10)
          link := { s.link with
            join := s.link.join.map (fun n => n - 10)
            isolation := s.link.isolation.map (fun n => n - 10)
            presence := s.link.presence.map (fun n => n - 10) }
          requests := { s.requests with
            hold := s.requests.hold.map (fun n => n - 10)
            swClose := { s.requests.swClose with
              debounce := s.requests.swClose.debounce.map (fun n => n - 10) }
            swOpen := { s.requests.swOpen with
              debounce := s.requests.swOpen.debounce.map (fun n => n - 10) } } }
      ∧ totalT t = totalT s ∧ ownTotal t = ownTotal s ∧ heldTotal t = heldTotal s
      ∧ ∀ c, openDrive (t.drivers.get c) = openDrive (s.drivers.get c)
          ∧ closeDrive (t.drivers.get c) = closeDrive (s.drivers.get c)
          ∧ (t.eval.chans.get c).demand = (s.eval.chans.get c).demand)
  ∧ (∀ (s : State) (i : Instr) (es : List Instr), s.pending = [] → dueEvents s = i :: es →
      step s = exec i s)
  ∧ ∀ (s : State) (i : Instr), i ∈ dueEvents s ↔
    s.sensing.subWindow = some 0 ∧ i = .subWindowExpiry s.pins.vane
    ∨ s.sensing.obsPeriod = some 0 ∧ i = .observationPeriodExpiry
    ∨ (∃ k, s.sensing.confirm = some k ∧ k.left = 0 ∧ i = .rainConfirmExpiry)
    ∨ (∃ k o age, (s.picture.slots.get k).entry = .fresh o age ∧ s.cfg.staleS * 1000 ≤ age
        ∧ i = .sourceStale k)
    ∨ (∃ k o age, (s.picture.slots.get k).entry = .stale o age ∧ 4 * (s.cfg.staleS * 1000) ≤ age
        ∧ i = .sourceLost k)
    ∨ s.eval.stormRelease = some 0 ∧ i = .stormReleaseExpiry
    ∨ (∃ c, (s.eval.chans.get c).calm = some 0 ∧ i = .calmHoldExpiry c)
    ∨ (∃ e ∈ s.supply.entries,
        e.own = true ∧ e.state = .settling 0 ∧ i = .ownSettleExpiry e.chan
        ∨ e.own = true ∧ e.state = .held ∧ e.refreshBarred = false ∧ s.cfg.lifetimeS * 500 ≤ e.ageMs
          ∧ (s.link.state = .active ∨ s.link.state = .isolated ∨ s.link.state = .listen)
          ∧ (∀ f ∈ s.line.queue, ∀ n, f.owner = .claim e.tag n → f.sending = true)
          ∧ i = .claimRefreshDue e.chan
        ∨ e.own = false ∧ e.state = .settling 0 ∧ i = .peerSettleExpiry e.station e.tag
        ∨ e.own = false ∧ e.lifetimeS * 1000 ≤ e.ageMs ∧ i = .claimExpired e.station e.tag)
    ∨ s.supply.tableFull = some 0 ∧ i = .tableFullExpiry
    ∨ (∃ c,
        (∃ p m, s.drivers.get c = .warning p m 0) ∧ i = .warningTimerExpiry c
        ∨ (∃ m t, s.drivers.get c = .closing m t (some 0) ∨ s.drivers.get c = .opening m t (some 0))
          ∧ i = .blankingExpiry c (s.pins.chans.get c).current
        ∨ (∃ m b, s.drivers.get c = .closing m 0 b ∨ s.drivers.get c = .opening m 0 b)
          ∧ i = .travelTimerExpiry c
        ∨ (∃ m, s.drivers.get c = .brake m 0) ∧ i = .brakeExpiry c
        ∨ (∃ m on, s.drivers.get c = .backoff m on 0) ∧ i = .backoffExpiry c
        ∨ (∃ m, s.drivers.get c = .blocked m 0) ∧ i = .retryTimerExpiry c)
    ∨ s.chirp = some 0 ∧ i = .chirpExpiry
    ∨ s.link.join = some 0 ∧ i = .joinTimerExpiry
    ∨ s.link.isolation = some 0 ∧ i = .isolationTimerExpiry
    ∨ s.link.presence = some 0 ∧ i = .presenceTimerExpiry
    ∨ s.requests.hold = some 0 ∧ i = .holdExpiry
    ∨ s.requests.swClose.debounce = some 0
      ∧ i = (if s.requests.swClose.input then .swClosePress else .switchReleaseDebounce .swClose)
    ∨ s.requests.swOpen.debounce = some 0
      ∧ i = (if s.requests.swOpen.input then .swOpenPress else .switchReleaseDebounce .swOpen)

/-! ### Starts (chapter 10) -/

/-- R189, step 1, and R182: COLD_START and RESET_ASSERTED give every block its cold-start values; the field lines stand. -/
def Obligations.ColdStartTakesStartValues : Prop :=
  ∀ (i : Instr) (ph : Phase) (s : State),
    (i = .coldStart ∧ ph = .coldLoad) ∨ (i = .resetAsserted ∧ ph = .held) →
    ∃ t, exec i s = .next t ∧ t.phase = ph ∧ t.pending = s.pending ∧ t.pins = s.pins
      ∧ t.loader.result = none ∧ (∀ c, t.drivers.get c = .disabled) ∧ t.chirp = none
      ∧ t.sensing.running = false ∧ t.sensing.subWindow = none ∧ t.sensing.obsPeriod = none
      ∧ t.sensing.confirm = none
      ∧ (∀ k, t.picture.slots.get k = { station := 0, isSelf := false, entry := .absent })
      ∧ t.picture.fused = { g := none, w := none, r := .unknown }
      ∧ t.eval.storm = false ∧ t.eval.stormRelease = none
      ∧ (∀ c, t.eval.chans.get c = { exposure := none, demand := none, calm := none })
      ∧ t.jobs = []
      ∧ t.supply = { entries := [], tagCounter := 0, tableFull := none, heldExcess := false }
      ∧ t.line = { rx := .idle, queue := [] }
      ∧ t.link = { state := .offline, join := none, isolation := none, presence := none, drops := 0 }
      ∧ t.requests.hold = none ∧ t.requests.pendingRestart = false
      ∧ (∀ w, (switchOf w t).pressed = false ∧ (switchOf w t).debounce = none
          ∧ (switchOf w t).input = (switchOf w s).input)
      ∧ t.status.flags = 0 ∧ (∀ e, counterOf t.status.counters e = 0)
      ∧ t.status.errorCode = none ∧ t.status.errorSource = 0
      ∧ t.status.refusedWhat = 0 ∧ t.status.refusedBy = .absent
      ∧ t.status.received = 0 ∧ t.status.rejected = 0 ∧ t.status.sent = 0 ∧ t.status.retries = 0

/-- R183, R186, R188: an image is taken where its format code and check byte are right; the load is then CLAMPED where
a field was clamped and LOADED where none was, its clamp count held at 255, and DEFAULTED with the defaults otherwise;
a memory that does not answer defaults (a byte it does not answer reads as 0xFF: log 9). -/
def Obligations.ImageJudgedByFormatAndCheck : Prop :=
  (∀ im : List Byte,
    ((im.getD 0 0 = 0xB8 ∧ (im.take 127).foldl (· ^^^ ·) 0 = im.getD 127 0) →
      (judgeImage im).settings = settingsIn im
      ∧ ((judgeImage im).result = .loaded ↔ clampCount im = 0)
      ∧ ((judgeImage im).result = .clamped ↔ 1 ≤ clampCount im)
      ∧ (judgeImage im).events = clampCount im
      ∧ (judgeImage im).clamps = min 255 (clampCount im))
    ∧ (¬ (im.getD 0 0 = 0xB8 ∧ (im.take 127).foldl (· ^^^ ·) 0 = im.getD 127 0) →
      (judgeImage im).settings = Settings.defaults ∧ (judgeImage im).result = .defaulted
      ∧ (judgeImage im).clamps = 0 ∧ (judgeImage im).events = 1))
  ∧ (judgeImage (imageCopy [])).result = .defaulted
  ∧ Settings.defaults =
      { station := 0, circuit := 0, budget := 100, isoShare := 0, rateCode := 0, presenceS := 5
        isolationS := 30, lifetimeS := 12, settleMs := 250, txRetries := 3, obsPeriodS := 10
        publishStep := 30, staleS := 30, anemK := 700, dirMinSpeed := 20, hasAnemometer := true
        hasVane := true, hasRain := true, wetConfirmS := 4, dryConfirmMin := 10, tWind := 110
        tRain := 40, tStorm := 200, hyst := 20, calmHoldMin := 15, policy := .closeAll
        remoteRestart := false, localOpen := false, authority := [0, 0, 0, 0]
        sources := Settings.defaults.sources, warningS := 3, blankingMs := 400, obstrRetries := 3
        retryBaseS := 20, channels := Settings.defaults.channels }
  ∧ (∀ k, Settings.defaults.sources.get k = 0)
  ∧ (∀ c, (Settings.defaults.channels.get c).cls = .unused)
  ∧ ∀ answered : List Byte, (imageCopy answered).length = 128
      ∧ ∀ n, n < 128 → (imageCopy answered).getD n 0 = answered.getD n 0xFF

/-- R16, R81, R183 to R187: whatever the image, the settings lie in their ranges, T_storm is at least T_wind, the isolated
share and every draw are within B, and no station fills two source slots. Of an image taken, a field in its range is taken
as it stands and one out of it as the limit it passes; T_storm, the draws and the isolated share are then settled against
T_wind and B. The clamp count is the number of fields so changed. -/
def Obligations.SettingsSettledInRange : Prop :=
  (∀ (im : List Byte) (k : Settings), k = (judgeImage im).settings →
    k.circuit ≤ 7 ∧ (10 ≤ k.budget ∧ k.budget ≤ 2000) ∧ k.isoShare ≤ k.budget ∧ k.rateCode ≤ 3
    ∧ (2 ≤ k.presenceS ∧ k.presenceS ≤ 30) ∧ (5 ≤ k.isolationS ∧ k.isolationS ≤ 250)
    ∧ (4 ≤ k.lifetimeS ∧ k.lifetimeS ≤ 60) ∧ (100 ≤ k.settleMs ∧ k.settleMs ≤ 1000)
    ∧ k.txRetries ≤ 5 ∧ (5 ≤ k.obsPeriodS ∧ k.obsPeriodS ≤ 60)
    ∧ (10 ≤ k.publishStep ∧ k.publishStep ≤ 200) ∧ (10 ≤ k.staleS ∧ k.staleS ≤ 250)
    ∧ (100 ≤ k.anemK ∧ k.anemK ≤ 2000) ∧ k.dirMinSpeed ≤ 100
    ∧ (50 ≤ k.tWind ∧ k.tWind ≤ 600) ∧ k.tRain ≤ 300
    ∧ (100 ≤ k.tStorm ∧ k.tStorm ≤ 999) ∧ k.tWind ≤ k.tStorm ∧ k.hyst ≤ 100
    ∧ (1 ≤ k.wetConfirmS ∧ k.wetConfirmS ≤ 30) ∧ (1 ≤ k.dryConfirmMin ∧ k.dryConfirmMin ≤ 60)
    ∧ (1 ≤ k.calmHoldMin ∧ k.calmHoldMin ≤ 60) ∧ (1 ≤ k.warningS ∧ k.warningS ≤ 10)
    ∧ (100 ≤ k.blankingMs ∧ k.blankingMs ≤ 2000) ∧ k.obstrRetries ≤ 5
    ∧ (5 ≤ k.retryBaseS ∧ k.retryBaseS ≤ 120)
    ∧ (∀ a ∈ k.authority, a ≤ 63) ∧ (∀ n, k.sources.get n ≤ 63)
    ∧ (∀ n m, n ≠ m → k.sources.get n = k.sources.get m → k.sources.get n = 0)
    ∧ ∀ c, (k.channels.get c).enabled = true →
        (1 ≤ (k.channels.get c).draw ∧ (k.channels.get c).draw ≤ 50)
        ∧ (k.channels.get c).draw ≤ k.budget ∧ (k.channels.get c).zone ≤ 3
        ∧ (5 ≤ (k.channels.get c).travelS ∧ (k.channels.get c).travelS ≤ 250)
        ∧ (2 ≤ (k.channels.get c).threshold ∧ (k.channels.get c).threshold ≤ 60)
        ∧ ∀ n, (k.channels.get c).facing = .sector n → n ≤ 15)
  ∧ (∀ (im : List Byte) (k : Settings) (b w : Nat → Nat), k = settingsIn im →
    (∀ n, b n = (im.getD n 0).toNat) → (∀ n, w n = b n * 256 + b (n + 1)) →
    k.station = b 1 ∧ Taken 0 7 (b 2) k.circuit ∧ Taken 10 2000 (w 3) k.budget ∧ Taken 0 3 (b 7) k.rateCode
    ∧ Taken 2 30 (b 8) k.presenceS ∧ Taken 5 250 (b 9) k.isolationS ∧ Taken 4 60 (b 10) k.lifetimeS
    ∧ Taken 100 1000 (b 11 * 10) k.settleMs ∧ Taken 0 5 (b 12) k.txRetries ∧ Taken 5 60 (b 13) k.obsPeriodS
    ∧ Taken 10 200 (b 14) k.publishStep ∧ Taken 10 250 (b 15) k.staleS ∧ Taken 100 2000 (w 16) k.anemK
    ∧ Taken 0 100 (b 18) k.dirMinSpeed ∧ k.hasAnemometer = (im.getD 19 0).getLsbD 0
    ∧ k.hasVane = (im.getD 19 0).getLsbD 1 ∧ k.hasRain = (im.getD 19 0).getLsbD 2
    ∧ Taken 1 30 (b 20) k.wetConfirmS ∧ Taken 1 60 (b 21) k.dryConfirmMin ∧ Taken 50 600 (w 22) k.tWind
    ∧ Taken 0 300 (w 24) k.tRain ∧ (∃ x, Taken 100 999 (w 26) x ∧ k.tStorm = max x k.tWind)
    ∧ Taken 0 100 (b 28) k.hyst ∧ Taken 1 60 (b 29) k.calmHoldMin
    ∧ k.policy = (if b 30 = 1 then .holdPosition else .closeAll)
    ∧ k.remoteRestart = (im.getD 31 0).getLsbD 0 ∧ k.localOpen = (im.getD 31 0).getLsbD 1
    ∧ k.authority = [32, 33, 34, 35].map (fun n => if b n ≤ 63 then b n else 0)
    ∧ Taken 1 10 (b 44) k.warningS ∧ Taken 100 2000 (b 45 * 10) k.blankingMs ∧ Taken 0 5 (b 46) k.obstrRetries
    ∧ Taken 5 120 (b 47) k.retryBaseS
    ∧ (∀ n : SlotId, k.sources.get n =
        if b (36 + n.val) ≤ 63 ∧ ∀ m < n, b (36 + m.val) ≠ b (36 + n.val) then b (36 + n.val) else 0)
    ∧ (∃ x, Taken 0 2000 (w 5) x ∧ (x ≠ 0 → k.isoShare = min x k.budget)
        ∧ (x = 0 →
            (∀ c, (k.channels.get c).enabled = true → (k.channels.get c).draw ≤ k.isoShare)
            ∧ (k.isoShare = 0
              ∨ ∃ c, (k.channels.get c).enabled = true ∧ (k.channels.get c).draw = k.isoShare)))
    ∧ ∀ (c : Channel) (n : Nat) (r : ChannelCfg), n = 48 + 8 * c.val → r = k.channels.get c →
        r.cls = (if b n = 1 then .skylight else if b n = 2 then .windowHigh else if b n = 3 then .windowLow
          else .unused)
        ∧ (r.cls ≠ .unused →
            r.facing = (if b (n + 1) ≤ 15 then .sector (b (n + 1)) else .roof)
            ∧ Taken 0 3 (b (n + 2)) r.zone
            ∧ (∃ x, Taken 1 50 (b (n + 3)) x ∧ r.draw = min x k.budget)
            ∧ Taken 5 250 (b (n + 4)) r.travelS ∧ Taken 2 60 (b (n + 5)) r.threshold
            ∧ r.groups = im.getD (n + 6) 0 ∧ r.timed = (im.getD (n + 7) 0).getLsbD 0
            ∧ r.openingContacts = (im.getD (n + 7) 0).getLsbD 1
            ∧ r.localSwitch = (im.getD (n + 7) 0).getLsbD 2))
  ∧ ∀ (im : List Byte) (k : Settings) (b w : Nat → Nat) (out : Nat → Nat → Nat → Bool), k = settingsIn im →
    (∀ n, b n = (im.getD n 0).toNat) → (∀ n, w n = b n * 256 + b (n + 1)) →
    (∀ lo hi v, out lo hi v = (decide (v < lo) || decide (hi < v))) →
    clampCount im =
      ([out 0 7 (b 2), out 10 2000 (w 3), out 0 3 (b 7), out 2 30 (b 8), out 5 250 (b 9), out 4 60 (b 10),
        out 10 100 (b 11), out 0 5 (b 12), out 5 60 (b 13), out 10 200 (b 14), out 10 250 (b 15),
        out 100 2000 (w 16), out 0 100 (b 18), out 1 30 (b 20), out 1 60 (b 21), out 50 600 (w 22),
        out 0 300 (w 24), out 0 100 (b 28), out 1 60 (b 29), out 0 1 (b 30), out 0 63 (b 32),
        out 0 63 (b 33), out 0 63 (b 34), out 0 63 (b 35), out 1 10 (b 44), out 10 200 (b 45),
        out 0 5 (b 46), out 5 120 (b 47),
        out 100 999 (w 26) || decide (min 999 (max 100 (w 26)) < k.tWind),
        out 0 2000 (w 5) || decide (w 5 ≠ 0 ∧ k.budget < w 5)].map Bool.toNat).sum
      + (allChannels.map (fun n => Bool.toNat (decide (63 < b (36 + n.val)
          ∨ b (36 + n.val) ≠ 0 ∧ ∃ m < n, b (36 + m.val) = b (36 + n.val))))).sum
      + (allChannels.map (fun c =>
          if 3 < b (48 + 8 * c.val) then 1
          else if b (48 + 8 * c.val) = 0 then 0
          else
            ([out 0 16 (b (49 + 8 * c.val)), out 0 3 (b (50 + 8 * c.val)),
              out 1 50 (b (51 + 8 * c.val)) || decide (k.budget < b (51 + 8 * c.val)),
              out 5 250 (b (52 + 8 * c.val)), out 2 60 (b (53 + 8 * c.val))].map Bool.toNat).sum)).sum

/-- R189, step 3, R5, R14, R16, R135, R150, R173, R186: the load of a cold start completes: the settings stand with
the clamp count, CONFIG_CLAMPED is raised as often as the image calls for, sensing starts with the standing rain level
judged, the slots are filled, every channel is set from its record and its limits (in ascending number, the model's
choice: log 14), with LIMIT_FAULT where both are active (its position there is a free value: log 32), the switches are
taken, and the link leaves OFFLINE. `completeLoad` is that completion, of a warm restart too, whose channels
Obligations.WarmRestartKeepsRecordsAndChannels sets; what follows is the entry of the link
(Obligations.LinkTimersChangeLinkState) and the end of the command. -/
def Obligations.ColdLoadSetsThePart : Prop :=
  (∀ (im : List Byte) (s : State), s.phase = .coldLoad → MarksClear s →
    s.requests.pendingRestart = false →
    ∃ t, exec (.loadComplete im) s = .next t ∧ t = finish (completeLoad false im s)
      ∧ t.phase = .running ∧ t.pending = s.pending
      ∧ t.cfg = (judgeImage (imageCopy im)).settings ∧ t.pins = s.pins
      ∧ t.loader = { image := imageCopy im, result := some (judgeImage (imageCopy im)).result
                     clamps := (judgeImage (imageCopy im)).clamps }
      ∧ t.link.state =
          (if t.loader.result = some .defaulted ∨ t.cfg.station = 0 ∨ 63 < t.cfg.station then .mute
           else .listen)
      ∧ (t.link.state = .listen → t.link.join = some (t.cfg.lifetimeS * 1000))
      ∧ t.sensing.running = true ∧ t.sensing.subWindow = some 1000 ∧ t.sensing.published = 0
      ∧ t.sensing.pulses = 0
      ∧ t.sensing.gust = (if t.cfg.hasAnemometer then some 0 else none)
      ∧ t.sensing.peak = (if t.cfg.hasAnemometer then some 0 else none)
      ∧ t.sensing.vane = (if t.cfg.hasVane then 16 else 17)
      ∧ t.sensing.rain = (if t.cfg.hasRain then .dry else .noSensor)
      ∧ t.sensing.confirm =
          (if t.cfg.hasRain then
            (match s.pins.rain with
             | .dry => none
             | .wet => some { target := .wet, left := t.cfg.wetConfirmS * 1000 }
             | .fault => some { target := .fault, left := 2000 })
           else none)
      ∧ t.sensing.obsPeriod =
          (if t.cfg.hasAnemometer = true ∨ t.cfg.hasVane = true ∨ t.cfg.hasRain = true then
            some (t.cfg.obsPeriodS * 1000) else none)
      ∧ t.picture.fused = { g := none, w := none, r := .unknown }
      ∧ (∀ k, (t.picture.slots.get k).station = t.cfg.sources.get k
          ∧ (t.picture.slots.get k).entry = .absent
          ∧ ((t.picture.slots.get k).isSelf = true ↔
              t.cfg.sources.get k ≠ 0 ∧ t.cfg.sources.get k = t.cfg.station))
      ∧ ∀ (c : Channel) (r : ChannelCfg) (closedOn openOn : Bool) (both : Channel → Bool),
          r = t.cfg.channels.get c →
          closedOn = ((s.pins.chans.get c).closedContact != r.openingContacts) →
          openOn = ((s.pins.chans.get c).openContact != r.openingContacts) →
          (∀ x, both x = true ↔ (t.cfg.channels.get x).cls ≠ .unused ∧ bothLimits x t = true) →
          (r.cls = .unused → t.drivers.get c = .disabled)
          ∧ (r.cls ≠ .unused → r.timed = true → t.drivers.get c = .idle .part)
          ∧ (r.cls ≠ .unused → r.timed = false →
              (closedOn = true → openOn = false → t.drivers.get c = .idle .closed)
              ∧ (closedOn = false → openOn = true → t.drivers.get c = .idle .opened)
              ∧ (closedOn = false → openOn = false → t.drivers.get c = .idle .unknown)
              ∧ (closedOn = true → openOn = true →
                  t.drivers.get c = .faulted
                    (Config.freePosition
                      (s.free + (allChannels.filter (fun x => decide (x < c) && both x)).length)) .limit)))
  ∧ (∀ (warm : Bool) (im : List Byte) (s k u : State) (l : Loaded) (start : Switch → Switch),
    l = judgeImage (imageCopy im) →
    k = { s with
          phase := .running, cfg := l.settings
          loader := { image := imageCopy im, result := some l.result, clamps := l.clamps }
          status := (raiseTimes .configClamped l.events s).status
          sensing := sensingAtStart l.settings s.pins.rain
          picture :=
            { slots := l.settings.sources.map (fun n =>
                { station := n, isSelf := decide (n ≠ 0 ∧ n = l.settings.station), entry := .absent })
              fused := { g := none, w := none, r := .unknown } } } →
    u = allChannels.foldl (if warm then warmChannel else coldChannel) k →
    start = (fun x => { input := x.input, pressed := false, mustRelease := x.input, debounce := none }) →
    completeLoad warm im s =
      enterLink
        (if l.result = .defaulted ∨ l.settings.station = 0 ∨ 63 < l.settings.station then .mute else .listen)
        { u with
          requests := { u.requests with
            swClose := start u.requests.swClose, swOpen := start u.requests.swOpen } })
  ∧ (∀ (e : Event) (n : Nat) (s t : State), t = raiseTimes e n s →
    t = { s with status := { s.status with flags := t.status.flags, counters := t.status.counters } }
    ∧ (∀ b, b < 16 →
        t.status.flags.getLsbD b = (s.status.flags.getLsbD b || decide (0 < n ∧ b = eventNumber e)))
    ∧ (∀ a, a ≠ e → counterOf t.status.counters a = counterOf s.status.counters a)
    ∧ (counterOf s.status.counters e ≤ 255 →
        counterOf t.status.counters e = min 255 (counterOf s.status.counters e + n)))
  ∧ (∀ (k : Settings) (level : RainLevel),
    sensingAtStart k level =
      { running := true, pulses := 0, ring1 := 0, ring2 := 0, ring3 := 0
        gust := if k.hasAnemometer then some 0 else none
        peak := if k.hasAnemometer then some 0 else none
        published := 0, vane := if k.hasVane then 16 else 17
        rain := if k.hasRain then .dry else .noSensor
        confirm :=
          if k.hasRain then
            (match level with
             | .dry => none
             | .wet => some { target := .wet, left := k.wetConfirmS * 1000 }
             | .fault => some { target := .fault, left := 2000 })
          else none
        subWindow := some 1000
        obsPeriod :=
          if k.hasAnemometer = true ∨ k.hasVane = true ∨ k.hasRain = true then
            some (k.obsPeriodS * 1000) else none })
  ∧ ∀ (c : Channel) (s : State) (r : ChannelCfg), r = s.cfg.channels.get c →
    (r.cls = .unused → coldChannel s c = { s with drivers := s.drivers.set c .disabled })
    ∧ (r.cls ≠ .unused → bothLimits c s = true →
        coldChannel s c =
          { s with
            drivers := s.drivers.set c (.faulted (Config.freePosition s.free) .limit)
            free := s.free + 1
            status := withError .limitFault .limit 0 s.status })
    ∧ (r.cls ≠ .unused → bothLimits c s = false →
        coldChannel s c =
          { s with
            drivers := s.drivers.set c (.idle
              (if r.timed then .part else if limitOn c .closed s then .closed
               else if limitOn c .opened s then .opened else .unknown)) })

/-- R136, R158, R175, R182, R190: a warm restart stops every channel where it stands, empties queue, table and line
and keeps the records; at the completion of the reload (completeLoad: Obligations.ColdLoadSetsThePart, whose
CONFIG_CLAMPED events are added to the kept records) a channel that is kept enabled keeps its state, with both limits
judged and LIMIT_FAULT raised, and its position at rest settled from its limits (kept where neither limit is active:
log 33), a channel newly enabled is set as at a cold start, and a channel now UNUSED is DISABLED; the ascending number
in which they are set is the model's choice (log 14). `warmChannel` is that of one channel as a restart leaves it. -/
def Obligations.WarmRestartKeepsRecordsAndChannels : Prop :=
  (∀ s : State,
    (warmRestart s).phase = .warmLoad ∧ (warmRestart s).pending = s.pending
    ∧ (warmRestart s).status = s.status ∧ (warmRestart s).pins = s.pins
    ∧ (warmRestart s).jobs = [] ∧ (warmRestart s).supply.entries = []
    ∧ (warmRestart s).supply.tagCounter = 0 ∧ (warmRestart s).supply.tableFull = none
    ∧ (warmRestart s).line.queue = [] ∧ (warmRestart s).link.state = .offline
    ∧ (warmRestart s).link.drops = 0 ∧ (warmRestart s).requests.hold = none
    ∧ (warmRestart s).requests.pendingRestart = false ∧ (warmRestart s).sensing.running = false
    ∧ (warmRestart s).picture.fused = { g := none, w := none, r := .unknown }
    ∧ (warmRestart s).eval.storm = false ∧ sounder (warmRestart s) = false
    ∧ (∀ c, (warmRestart s).eval.chans.get c = { exposure := none, demand := none, calm := none })
    ∧ ∀ c,
        (∀ p, s.drivers.get c = .idle p → (warmRestart s).drivers.get c = .idle p)
        ∧ (∀ p m l, s.drivers.get c = .warning p m l → (warmRestart s).drivers.get c = .idle p)
        ∧ (isOpening (s.drivers.get c) = true ∨ closeDrive (s.drivers.get c) = true
            ∨ (∃ m l, s.drivers.get c = .brake m l) ∨ (∃ m o l, s.drivers.get c = .backoff m o l)
            ∨ (∃ m l, s.drivers.get c = .blocked m l) →
            (warmRestart s).drivers.get c = .idle .part)
        ∧ (∀ p k, s.drivers.get c = .faulted p k → (warmRestart s).drivers.get c = .faulted p k))
  ∧ (∀ s : State, warmRestart s =
      { s with
        phase := .warmLoad, sensing := (warmRestart s).sensing, picture := (warmRestart s).picture
        eval := (warmRestart s).eval, jobs := []
        supply := { entries := [], tagCounter := 0, tableFull := none, heldExcess := false }
        drivers := (warmRestart s).drivers, chirp := none, line := { rx := .idle, queue := [] }
        link := { state := .offline, join := none, isolation := none, presence := none, drops := 0 }
        requests :=
          { hold := none, pendingRestart := false
            swClose :=
              { input := s.requests.swClose.input, pressed := false, mustRelease := false, debounce := none }
            swOpen :=
              { input := s.requests.swOpen.input, pressed := false, mustRelease := false, debounce := none } }
        work := { scan := false, restart := false } }
    ∧ (warmRestart s).sensing.subWindow = none ∧ (warmRestart s).sensing.obsPeriod = none
    ∧ (warmRestart s).sensing.confirm = none ∧ (warmRestart s).eval.stormRelease = none
    ∧ (∀ k, (warmRestart s).picture.slots.get k = { station := 0, isSelf := false, entry := .absent })
    ∧ ∀ c, s.drivers.get c = .disabled → (warmRestart s).drivers.get c = .disabled)
  ∧ (∀ (c : Channel) (s : State) (r : ChannelCfg), r = s.cfg.channels.get c →
    (r.cls = .unused → warmChannel s c = { s with drivers := s.drivers.set c .disabled })
    ∧ (r.cls ≠ .unused → s.drivers.get c = .disabled → warmChannel s c = coldChannel s c)
    ∧ (r.cls ≠ .unused → ∀ p, s.drivers.get c = .idle p →
        (bothLimits c s = false →
          warmChannel s c = { s with drivers := s.drivers.set c (.idle (settled c p s)) })
        ∧ (bothLimits c s = true →
            warmChannel s c = rejudge c
              { s with
                drivers := s.drivers.set c (.faulted p .limit)
                status := withError .limitFault .limit 0 s.status }))
    ∧ (r.cls ≠ .unused → ∀ p k, s.drivers.get c = .faulted p k →
        ((bothLimits c s = false ∨ k = .limit) → warmChannel s c = s)
        ∧ (bothLimits c s = true → k ≠ .limit →
            warmChannel s c =
              { s with
                drivers := s.drivers.set c (.faulted p .limit)
                status := withError .limitFault .limit 0 s.status })))
  ∧ ∀ (im : List Byte) (s : State), s.phase = .warmLoad → MarksClear s →
    s.requests.pendingRestart = false →
    ∃ t, exec (.loadComplete im) s = .next t ∧ t = finish (completeLoad true im s)
      ∧ t.phase = .running
      ∧ t.loader = { image := imageCopy im, result := some (judgeImage (imageCopy im)).result
                     clamps := (judgeImage (imageCopy im)).clamps }
      ∧ t.cfg = (judgeImage (imageCopy im)).settings
      ∧ ∀ (c : Channel) (r : ChannelCfg) (closedOn openOn : Bool) (both : Channel → Bool),
          r = t.cfg.channels.get c →
          closedOn = ((s.pins.chans.get c).closedContact != r.openingContacts) →
          openOn = ((s.pins.chans.get c).openContact != r.openingContacts) →
          (∀ x, both x = true ↔ (t.cfg.channels.get x).cls ≠ .unused ∧ s.drivers.get x = .disabled
            ∧ bothLimits x t = true) →
          (r.cls = .unused → t.drivers.get c = .disabled)
          ∧ (r.cls ≠ .unused → ∀ p, s.drivers.get c = .idle p →
              (r.timed = true → t.drivers.get c = .idle p)
              ∧ (r.timed = false →
                  (closedOn = true → openOn = false → t.drivers.get c = .idle .closed)
                  ∧ (closedOn = false → openOn = true → t.drivers.get c = .idle .opened)
                  ∧ (closedOn = false → openOn = false → t.drivers.get c = .idle p)
                  ∧ (closedOn = true → openOn = true → t.drivers.get c = .faulted p .limit)))
          ∧ (r.cls ≠ .unused → ∀ p k, s.drivers.get c = .faulted p k →
              t.drivers.get c =
                .faulted p (if r.timed = false ∧ closedOn = true ∧ openOn = true then .limit else k))
          ∧ (r.cls ≠ .unused → s.drivers.get c = .disabled →
              (r.timed = true → t.drivers.get c = .idle .part)
              ∧ (r.timed = false →
                  (closedOn = true → openOn = false → t.drivers.get c = .idle .closed)
                  ∧ (closedOn = false → openOn = true → t.drivers.get c = .idle .opened)
                  ∧ (closedOn = false → openOn = false → t.drivers.get c = .idle .unknown)
                  ∧ (closedOn = true → openOn = true →
                      t.drivers.get c = .faulted
                        (Config.freePosition
                          (s.free + (allChannels.filter (fun x => decide (x < c) && both x)).length))
                        .limit)))

/-! ### Local sensing (chapter 1) -/

/-- R1: a pulse is counted where the anemometer is present, up to 1023. -/
def Obligations.PulseCountedUpTo1023 : Prop :=
  ∀ s : State, Settled s → s.sensing.running = true →
    exec .anemometerPulse s = .next
      (if s.cfg.hasAnemometer then
        { s with
          sensing := { s.sensing with
            pulses := if s.sensing.pulses < 1023 then s.sensing.pulses + 1 else s.sensing.pulses } }
       else s)

/-- R2: the completed pulse count enters the ring of three, which starts at zeros. -/
def Obligations.SubCountEntersRing : Prop :=
  (∀ (s : State) (v : BitVec 4), Ready s → s.sensing.subWindow.isSome = true →
    ∃ t, exec (.subWindowExpiry v) s = .next t
      ∧ (s.cfg.hasAnemometer = true →
          t.sensing.ring1 = s.sensing.ring2 ∧ t.sensing.ring2 = s.sensing.ring3
            ∧ t.sensing.ring3 = s.sensing.pulses)
      ∧ (s.cfg.hasAnemometer = false →
          t.sensing.ring1 = s.sensing.ring1 ∧ t.sensing.ring2 = s.sensing.ring2
            ∧ t.sensing.ring3 = s.sensing.ring3))
  ∧ ∀ (k : Settings) (level : RainLevel),
      (sensingAtStart k level).ring1 = 0 ∧ (sensingAtStart k level).ring2 = 0
        ∧ (sensingAtStart k level).ring3 = 0

/-- R1, R3, R4, R7, R10, R13: a sub-window expiry works out gust, peak and vane sector, then queues a gust-step OBS
where the gust has risen by the publish step, then refreshes the SELF entry; the Gray code of the vane lines V4 V3 V2
V1 by the table of 1.3, and the rain the SELF entry takes. -/
def Obligations.SubWindowMeasuresAndPublishes : Prop :=
  (∀ (s : State) (v : BitVec 4) (g sector : Nat) (x : Sensing) (u u' : State),
    Settled s → s.sensing.subWindow.isSome = true →
    g = min 999 ((s.sensing.ring2 + s.sensing.ring3 + s.sensing.pulses) * s.cfg.anemK / 300) →
    sector = (if s.cfg.hasVane = false then 17
      else if s.cfg.hasAnemometer = true ∧ g < s.cfg.dirMinSpeed then 16 else graySector v) →
    x = (if s.cfg.hasAnemometer then
          { s.sensing with
            pulses := 0, ring1 := s.sensing.ring2, ring2 := s.sensing.ring3, ring3 := s.sensing.pulses
            gust := some g, peak := some (max (s.sensing.peak.getD 0) g), vane := sector
            subWindow := some 1000 }
        else
          { s.sensing with
            pulses := 0, gust := none, peak := none, vane := sector, subWindow := some 1000 }) →
    u = { s with pins := { s.pins with vane := v }, sensing := x } →
    u' = (if s.cfg.hasAnemometer = true ∧ s.sensing.published + s.cfg.publishStep ≤ g then
            queueObs 2 2 u else u) →
    exec (.subWindowExpiry v) s = .next (finish
      (if s.cfg.hasAnemometer = false ∧ s.cfg.hasVane = false ∧ s.cfg.hasRain = false then u'
       else refreshSelf { gust := u'.sensing.gust, sector := sector, rain := selfRain s.sensing.rain } u')))
  ∧ ([0b0000#4, 0b0001#4, 0b0011#4, 0b0010#4, 0b0110#4, 0b0111#4, 0b0101#4, 0b0100#4, 0b1100#4, 0b1101#4,
      0b1111#4, 0b1110#4, 0b1010#4, 0b1011#4, 0b1001#4, 0b1000#4].map graySector = List.range 16)
  ∧ [RainState.dry, .wet, .fault, .noSensor].map selfRain = [some .dry, some .wet, some .fault, none]

/-- R8, R9, R11, R12: what queuing an OBS does, and the periodic OBS; the rain codes of its payload. -/
def Obligations.ObsQueuedAsBuilt : Prop :=
  (∀ (prio trigger : Nat) (s : State),
    (s.cfg.hasAnemometer = false → s.cfg.hasVane = false → s.cfg.hasRain = false →
      queueObs prio trigger s = s)
    ∧ (∀ (carried : Option Nat) (g : Nat),
        (s.cfg.hasAnemometer = true ∨ s.cfg.hasVane = true ∨ s.cfg.hasRain = true) →
        carried = (if s.cfg.hasAnemometer then s.sensing.peak else none) → g = carried.getD 0xFFFF →
        queueObs prio trigger s =
          enqueue
            { frame :=
                { kind := .obs, prio := prio, source := BitVec.ofNat 8 s.cfg.station, target := 0
                  groups := 0
                  payload := [BitVec.ofNat 8 (g / 256), BitVec.ofNat 8 g,
                    BitVec.ofNat 8 s.sensing.vane, BitVec.ofNat 8 (rainCode s.sensing.rain),
                    BitVec.ofNat 8 trigger] }
              owner := .obs, attempts := 0, sending := false }
            (if s.cfg.hasAnemometer then
              { s with sensing := { s.sensing with published := carried.getD 0, peak := s.sensing.gust } }
             else s)))
  ∧ (∀ s : State, Settled s →
      exec .observationPeriodExpiry s = .next
        (if s.sensing.obsPeriod.isSome then
          finish (queueObs 0 0
            { s with sensing := { s.sensing with obsPeriod := some (s.cfg.obsPeriodS * 1000) } })
         else s))
  ∧ [RainState.dry, .wet, .fault, .noSensor].map rainCode = [0, 1, 2, 3]

/-- R5, R6, R9: a change of the rain level cancels the running confirm and starts one where the level is not that of the
state; with the detector absent the line alone follows the level, and a level that stands already has no effect; a
confirm that expires gives the state its target, raises an entry to FAULT, and queues an OBS at priority 2. -/
def Obligations.RainConfirmStartedAndExpired : Prop :=
  (∀ (s : State) (level : RainLevel) (target : RainState) (ms : Nat), Settled s →
    s.sensing.running = true → s.cfg.hasRain = true → level ≠ s.pins.rain →
    (level = .dry ∧ target = .dry ∧ ms = s.cfg.dryConfirmMin * 60000
      ∨ level = .wet ∧ target = .wet ∧ ms = s.cfg.wetConfirmS * 1000
      ∨ level = .fault ∧ target = .fault ∧ ms = 2000) →
    exec (.rainLevelChange level) s = .next
      { s with
        pins := { s.pins with rain := level }
        sensing := { s.sensing with
          confirm := if s.sensing.rain = target then none else some { target := target, left := ms } } })
  ∧ (∀ (s : State) (level : RainLevel), Settled s → s.cfg.hasRain = false → level ≠ s.pins.rain →
      exec (.rainLevelChange level) s = .next { s with pins := { s.pins with rain := level } })
  ∧ (∀ (s : State) (level : RainLevel), level = s.pins.rain → exec (.rainLevelChange level) s = .next s)
  ∧ ∀ s : State, Settled s →
    (s.sensing.confirm = none → exec .rainConfirmExpiry s = .next s)
    ∧ ∀ k, s.sensing.confirm = some k →
        exec .rainConfirmExpiry s = .next (finish (queueObs 2 1
          { s with
            sensing := { s.sensing with rain := k.target, confirm := none }
            status :=
              if k.target = .fault then
                { s.status with
                  flags := s.status.flags ||| 0x10
                  counters := { s.status.counters with
                    rainLineFault :=
                      if s.status.counters.rainLineFault < 255 then s.status.counters.rainLineFault + 1
                      else s.status.counters.rainLineFault } }
              else s.status }))

/-! ### Sources and the picture (chapter 2) -/

/-- R26, R27: G is the largest gust of the FRESH entries, and W the sector of the lowest-numbered entry that gives it. -/
def Obligations.FusedGustAndItsSector : Prop :=
  ∀ v : Eight Slot,
    ((∀ k o a, (v.get k).entry = .fresh o a → o.gust = none) → (fuse v).g = none ∧ (fuse v).w = none)
    ∧ ∀ k o a g, (v.get k).entry = .fresh o a → o.gust = some g →
        (∀ j o' a' g', (v.get j).entry = .fresh o' a' → o'.gust = some g' → g' ≤ g ∧ (g' = g → k ≤ j)) →
        (fuse v).g = some g
        ∧ (fuse v).w = (if o.sector = 16 ∨ 17 ≤ o.sector then none else some o.sector)
        ∧ ((∀ j o' a' g', (v.get j).entry = .fresh o' a' → o'.gust = some g' → g' ≤ 999) → g ≤ 999)

/-- R28: R over the FRESH and STALE entries. -/
def Obligations.FusedRain : Prop :=
  ∀ (v : Eight Slot) (reports : RainReport → Prop),
    (∀ x, reports x ↔ ∃ k o a, ((v.get k).entry = .fresh o a ∨ (v.get k).entry = .stale o a)
      ∧ o.rain = some x) →
    ((reports .wet ∨ reports .fault) → (fuse v).r = .wet)
    ∧ (reports .dry → ¬ reports .wet → ¬ reports .fault → (fuse v).r = .dry)
    ∧ ((∀ x, ¬ reports x) → (fuse v).r = .unknown)

/-- R13, R18 to R21: an OBS of a listed peer fills its entry as decoded, with age 0; one of an unlisted station is
discarded, whatever its length (log 24); one of another length raises RX_ERROR; and a SELF refresh fills the SELF
entry as it stands, or changes nothing where no slot is SELF, the own number not standing in the source list. -/
def Obligations.ObsFillsItsEntry : Prop :=
  (∀ (h : Header) (hi lo sector rain trigger : Byte) (s : State) (k : SlotId) (x : Slot) (o : Obs),
    PeerFrame h [hi, lo, sector, rain, trigger] s →
    x = s.picture.slots.get k → x.station = h.source.toNat → x.isSelf = false →
    (∀ j < k, (s.picture.slots.get j).station ≠ h.source.toNat) →
    o = { gust :=
            if hi.toNat * 256 + lo.toNat = 65535 then none
            else some (min (hi.toNat * 256 + lo.toNat) 999)
          sector := if sector.toNat ≤ 17 then sector.toNat else 16
          rain :=
            if rain = 0 then some .dry else if rain = 1 then some .wet
            else if rain = 3 then none else some .fault } →
    exec (.obsReceived h [hi, lo, sector, rain, trigger]) s =
      .next (finish (tableChanged (s.picture.slots.set k { x with entry := .fresh o 0 }) (counted s))))
  ∧ (∀ (h : Header) (p : List Byte) (s : State), PeerFrame h p s →
      (∀ k, (s.picture.slots.get k).station = h.source.toNat → (s.picture.slots.get k).isSelf = true) →
      exec (.obsReceived h p) s = .next (counted s))
  ∧ (∀ (h : Header) (p : List Byte) (s : State) (k : SlotId), PeerFrame h p s → p.length ≠ 5 →
      (s.picture.slots.get k).station = h.source.toNat → (s.picture.slots.get k).isSelf = false →
      exec (.obsReceived h p) s = .next
        { counted s with
          status := withError .rxError .rxLength h.source.toNat (counted s).status })
  ∧ ∀ (o : Obs) (s : State),
      ((∀ k, (s.picture.slots.get k).isSelf = false) → refreshSelf o s = s)
      ∧ ∀ k, (s.picture.slots.get k).isSelf = true → (∀ j < k, (s.picture.slots.get j).isSelf = false) →
          refreshSelf o s =
            tableChanged (s.picture.slots.set k { s.picture.slots.get k with entry := .fresh o 0 }) s

/-- R23 to R25, R30: a changed table is fused anew, and a changed picture offered; a FRESH entry at the stale time becomes
STALE with its fields; a STALE entry at its loss becomes ABSENT, and SOURCE_LOST is raised. The age max of age and stale
time, which SOURCE_STALE gives, is the model's choice (log 19). -/
def Obligations.EntriesAgeToStaleAndLost : Prop :=
  (∀ (v : Eight Slot) (s : State),
    (fuse v = s.picture.fused → tableChanged v s = { s with picture := { s.picture with slots := v } })
    ∧ (fuse v ≠ s.picture.fused →
        tableChanged v s = evaluatePicture { s with picture := { slots := v, fused := fuse v } }))
  ∧ ∀ (k : SlotId) (s : State) (x : Slot), Settled s → x = s.picture.slots.get k →
    (∀ o age, x.entry = .fresh o age →
      exec (.sourceStale k) s = .next (finish (tableChanged
        (s.picture.slots.set k { x with entry := .stale o (max age (s.cfg.staleS * 1000)) }) s)))
    ∧ ((∀ o age, x.entry ≠ .fresh o age) → exec (.sourceStale k) s = .next s)
    ∧ (∀ o age, x.entry = .stale o age →
      exec (.sourceLost k) s = .next (finish (tableChanged
        (s.picture.slots.set k { x with entry := .absent })
        { s with
          status := { s.status with
            flags := s.status.flags ||| 0x20
            counters := { s.status.counters with
              sourceLost :=
                if s.status.counters.sourceLost < 255 then s.status.counters.sourceLost + 1
                else s.status.counters.sourceLost } } })))
    ∧ ((∀ o age, x.entry ≠ .stale o age) → exec (.sourceLost k) s = .next s)

/-! ### Exposure and demand (chapter 3) -/

/-- R34: the facing factor by the circular distance of wind sector and facing, the facing taken from the channel's record
whatever its class. -/
def Obligations.FacingFactorByDistance : Prop :=
  (∀ w f d : Nat, w ≤ 15 → f ≤ 15 → d = min (max w f - min w f) (16 - (max w f - min w f)) →
    d ≤ 8 ∧ facingFactor (.sector f) (some w) =
      (if d = 0 then 16 else if d = 1 then 15 else if d = 2 then 12 else if d = 3 then 7
       else if d = 4 then 3 else 0))
  ∧ (∀ w, facingFactor .roof w = 16) ∧ (∀ f, facingFactor (.sector f) none = 16)
  ∧ ∀ (c : Channel) (g : Nat) (s : State) (r : ChannelCfg), r = s.cfg.channels.get c → r.cls ≠ .unused →
      s.picture.fused.g = some g →
      ((reexpose s c).eval.chans.get c).exposure = some (g * facingFactor r.facing s.picture.fused.w / 16)

/-- R35 to R40, R42 to R47, R60: a full evaluation after a picture change: what it leaves of storm flag, exposures,
demands and calm holds, and its stages in order: exposures, handed to the queued jobs, which are placed anew; the
storm flag, whose setting raises STORM; the demands; opening re-judged for every channel, and then, in ascending
number, each channel asked whose demand has become SET or risen in class (askDemand:
Obligations.CloseRequestInsertsOrMerges; rejudgeAll: Obligations.LinkTimersChangeLinkState). The rules order the stages
and no channels within one: that each stage takes them in ascending number, which decides the order of raised CLAIMs of
one priority, is the model's choice (log 14). -/
def Obligations.FullEvaluationJudgesChannels : Prop :=
  (∀ s t : State, t = evaluatePicture s →
    (t.eval.storm = true ↔
      s.eval.storm = true ∨ ∃ g, s.picture.fused.g = some g ∧ s.cfg.tStorm ≤ g)
    ∧ t.eval.stormRelease =
        (if s.eval.storm = true ∧ (∃ g, s.picture.fused.g = some g ∧ g < s.cfg.tStorm - s.cfg.hyst) then
          some (s.eval.stormRelease.getD (s.cfg.calmHoldMin * 60000)) else none)
    ∧ ∀ (c : Channel) (r : ChannelCfg) (e : Option Nat) (d : Option Demand),
        r = s.cfg.channels.get c →
        (r.cls = .unused → t.eval.chans.get c = s.eval.chans.get c)
        ∧ (r.cls ≠ .unused → e = (t.eval.chans.get c).exposure → d = (t.eval.chans.get c).demand →
            (s.picture.fused.g = none → e = none)
            ∧ (∀ g, s.picture.fused.g = some g →
                e = some (g * facingFactor r.facing s.picture.fused.w / 16)
                ∧ g * facingFactor r.facing s.picture.fused.w / 16 ≤ g)
            ∧ d = (if t.eval.storm then some ⟨.storm, 3⟩
                else if s.picture.fused.r = .wet ∧ r.cls = .skylight then some ⟨.rain, 2⟩
                else if ∃ x, e = some x ∧ s.cfg.tWind ≤ x then some ⟨.wind, 1⟩
                else if s.picture.fused.r = .wet ∧ r.cls ≠ .skylight
                    ∧ (∃ x, e = some x ∧ s.cfg.tRain ≤ x) then some ⟨.rain, 1⟩
                else (s.eval.chans.get c).demand)
            ∧ (t.eval.chans.get c).calm =
                (if d ≠ none ∧ t.eval.storm = false
                    ∧ (s.picture.fused.r = .dry
                      ∨ (r.cls ≠ .skylight ∧ ∃ x, e = some x ∧ x < s.cfg.tRain - s.cfg.hyst))
                    ∧ (∃ x, e = some x ∧ x < s.cfg.tWind - s.cfg.hyst) then
                  some ((s.eval.chans.get c).calm.getD (s.cfg.calmHoldMin * 60000))
                 else none)))
  ∧ (allChannels.map (fun c : Channel => c.val + 1) = [1, 2, 3, 4, 5, 6, 7, 8])
  ∧ (∀ s u v : State, u = allChannels.foldl reexpose s → v = reorderJobs u →
    evaluatePicture s = judgeAll (judgeStorm v)
    ∧ u = { s with eval := { s.eval with chans := u.eval.chans } }
    ∧ (∀ (c : Channel) (r : ChannelCfg), r = s.cfg.channels.get c →
        u.eval.chans.get c =
          (if r.cls = .unused then s.eval.chans.get c
           else
            { s.eval.chans.get c with
              exposure :=
                s.picture.fused.g.map (fun g => g * facingFactor r.facing s.picture.fused.w / 16) }))
    ∧ v = { u with jobs := v.jobs }
    ∧ v.jobs.Perm (s.jobs.map (fun j => { j with exposure := (u.eval.chans.get j.chan).exposure }))
    ∧ v.jobs.Pairwise (fun a b => jobAhead b a = false))
  ∧ (∀ s : State,
    (s.eval.storm = true →
      judgeStorm s =
        { s with
          eval := { s.eval with
            stormRelease :=
              if ∃ g, s.picture.fused.g = some g ∧ g < s.cfg.tStorm - s.cfg.hyst then
                some (s.eval.stormRelease.getD (s.cfg.calmHoldMin * 60000)) else none } })
    ∧ (s.eval.storm = false → (∃ g, s.picture.fused.g = some g ∧ s.cfg.tStorm ≤ g) →
        judgeStorm s =
          { s with
            eval := { s.eval with storm := true, stormRelease := none }
            status := { s.status with
              flags := s.status.flags ||| 0x8000
              counters := { s.status.counters with
                storm :=
                  if s.status.counters.storm < 255 then s.status.counters.storm + 1
                  else s.status.counters.storm } } })
    ∧ (s.eval.storm = false → (∀ g, s.picture.fused.g = some g → g < s.cfg.tStorm) →
        judgeStorm s = { s with eval := { s.eval with stormRelease := none } }))
  ∧ (∀ s x : State, x = allChannels.foldl judgeChannel s →
    judgeAll s = allChannels.foldl (askChannel s.eval.chans) (rejudgeAll x)
    ∧ (judgeAll s).eval = x.eval
    ∧ x = { s with eval := { s.eval with chans := x.eval.chans } }
    ∧ ∀ (c : Channel) (r : ChannelCfg) (e : Option Nat) (d : Option Demand),
        r = s.cfg.channels.get c → e = (s.eval.chans.get c).exposure →
        d = (if s.eval.storm then some ⟨.storm, 3⟩
          else if s.picture.fused.r = .wet ∧ r.cls = .skylight then some ⟨.rain, 2⟩
          else if ∃ x, e = some x ∧ s.cfg.tWind ≤ x then some ⟨.wind, 1⟩
          else if s.picture.fused.r = .wet ∧ r.cls ≠ .skylight
              ∧ (∃ x, e = some x ∧ s.cfg.tRain ≤ x) then some ⟨.rain, 1⟩
          else (s.eval.chans.get c).demand) →
        x.eval.chans.get c =
          (if r.cls = .unused then s.eval.chans.get c
           else
            { exposure := e, demand := d
              calm :=
                if d ≠ none ∧ s.eval.storm = false
                    ∧ (s.picture.fused.r = .dry
                      ∨ (r.cls ≠ .skylight ∧ ∃ x, e = some x ∧ x < s.cfg.tRain - s.cfg.hyst))
                    ∧ (∃ x, e = some x ∧ x < s.cfg.tWind - s.cfg.hyst) then
                  some ((s.eval.chans.get c).calm.getD (s.cfg.calmHoldMin * 60000))
                else none }))
  ∧ ∀ (before : Eight Exposed) (c : Channel) (s : State),
    ((s.eval.chans.get c).demand = none → askChannel before s c = s)
    ∧ ∀ d, (s.eval.chans.get c).demand = some d →
        (((before.get c).demand = none ∨ ∃ b, (before.get c).demand = some b ∧ b.cls < d.cls) →
          askChannel before s c = askDemand c d s)
        ∧ (∀ b, (before.get c).demand = some b → d.cls ≤ b.cls → askChannel before s c = s)

/-- R41, R45, R48: the storm release timer expires: the flag clears, and the channels are judged anew on the picture
held, with what Obligations.FullEvaluationJudgesChannels says of judgeAll; a calm hold expires: the channel's demand
is CLEAR, and nothing else is asked. -/
def Obligations.StormReleaseAndCalmHoldExpire : Prop :=
  (∀ s : State, Ready s →
    (s.eval.stormRelease = none → exec .stormReleaseExpiry s = .next s)
    ∧ (s.eval.stormRelease ≠ none →
        ∃ t, exec .stormReleaseExpiry s = .next t ∧ t.eval.storm = false ∧ t.eval.stormRelease = none
          ∧ t = finish (judgeAll
              { s with eval := { s.eval with storm := false, stormRelease := none } })
          ∧ t.picture = s.picture ∧ t.sensing = s.sensing ∧ t.link = s.link ∧ t.requests = s.requests
          ∧ ∀ (c : Channel) (r : ChannelCfg) (e : Option Nat), r = s.cfg.channels.get c →
              e = (s.eval.chans.get c).exposure → (t.eval.chans.get c).exposure = e
              ∧ (r.cls = .unused → t.eval.chans.get c = s.eval.chans.get c)
              ∧ (r.cls ≠ .unused →
                  (t.eval.chans.get c).demand =
                    (if s.picture.fused.r = .wet ∧ r.cls = .skylight then some ⟨.rain, 2⟩
                     else if ∃ x, e = some x ∧ s.cfg.tWind ≤ x then some ⟨.wind, 1⟩
                     else if s.picture.fused.r = .wet ∧ r.cls ≠ .skylight
                         ∧ (∃ x, e = some x ∧ s.cfg.tRain ≤ x) then some ⟨.rain, 1⟩
                     else (s.eval.chans.get c).demand))))
  ∧ ∀ (c : Channel) (s : State), Settled s →
    ((s.eval.chans.get c).calm = none → exec (.calmHoldExpiry c) s = .next s)
    ∧ ((s.eval.chans.get c).calm ≠ none → isOpening (s.drivers.get c) = false →
        (∀ j ∈ s.jobs, j.chan = c → j.dir = .close) →
        exec (.calmHoldExpiry c) s = .next
          { s with
            eval := { s.eval with
              chans := s.eval.chans.set c { s.eval.chans.get c with demand := none, calm := none } } })

/-- R50, R51, R65, R89, R125, R129: when opening is allowed for a channel; where it is not for a channel, its OPEN job
is removed with its claim given up (Obligations.OwnEntryMadeAndGivenUp), and a channel that was OPENING is reversed
where its demand is SET, with its own entry raised (raiseEntry: Obligations.CloseRequestInsertsOrMerges), and halted
otherwise, with its entry given up (halt: Obligations.IsolationPolicyByChannelState); where it is allowed nothing is
asked. -/
def Obligations.OpeningRejudgedAtOnce : Prop :=
  (∀ (c : Channel) (s : State), openingAllowed c s = true ↔
    (s.cfg.channels.get c).cls ≠ .unused ∧ s.drivers.get c ≠ .disabled
    ∧ (∀ p k, s.drivers.get c ≠ .faulted p k) ∧ (s.eval.chans.get c).demand = none
    ∧ s.eval.storm = false ∧ s.requests.hold = none ∧ s.link.state = .active
    ∧ s.picture.fused.g ≠ none ∧ s.picture.fused.r ≠ .unknown)
  ∧ (∀ (c : Channel) (s : State),
    (∀ j u, jobOf c s = some j → j.dir = .opening → u = giveUpClaim j s →
      removeOpenJob c s = { u with jobs := u.jobs.filter (fun k => decide (k.chan ≠ c)) })
    ∧ ((∀ j, jobOf c s = some j → j.dir = .close) → removeOpenJob c s = s)
    ∧ (openingAllowed c s = true → rejudge c s = s)
    ∧ (openingAllowed c s = false → ∀ u, u = removeOpenJob c s →
        ((s.eval.chans.get c).demand = none → rejudge c s = halt c u)
        ∧ ∀ d, (s.eval.chans.get c).demand = some d →
            (isOpening (s.drivers.get c) = false → rejudge c s = u)
            ∧ ∀ m t b, s.drivers.get c = .opening m t b →
                rejudge c s = raiseEntry c d.cls true
                  { u with
                    drivers := u.drivers.set c (.brake
                      { m with dir := .close, cls := d.cls, cause := d.cause, requester := .absent
                               retry := 0, attempt := none } 500) }))
  ∧ ∀ (c : Channel) (s : State), JobsOrdered s.jobs →
    (openingAllowed c s = true → rejudge c s = s)
    ∧ (openingAllowed c s = false →
        (∀ j ∈ (rejudge c s).jobs, j.chan = c → j.dir = .close)
        ∧ (∀ x, x ≠ c → (rejudge c s).drivers.get x = s.drivers.get x)
        ∧ (isOpening (s.drivers.get c) = false → (rejudge c s).drivers.get c = s.drivers.get c)
        ∧ ∀ m t b, s.drivers.get c = .opening m t b →
            (∀ d, (s.eval.chans.get c).demand = some d →
              (rejudge c s).drivers.get c =
                .brake { m with dir := .close, cls := d.cls, cause := d.cause, requester := .absent
                                retry := 0, attempt := none } 500)
            ∧ ((s.eval.chans.get c).demand = none →
                (rejudge c s).drivers.get c = .idle (settled c .part s)))

/-- R52 to R54: the isolation policy is dealt to every channel as the configuration has it; the rules give the
channels no order, and the ascending number in which they are taken here is the model's choice (log 14). CLOSE_ALL
reverses an OPENING channel, asks a close of a channel at rest that is not CLOSED, and changes a weather cause in
BACKOFF and BLOCKED; HOLD_POSITION halts an OPENING channel; neither deals with another. -/
def Obligations.IsolationPolicyByChannelState : Prop :=
  (∀ s : State,
    (s.cfg.policy = .closeAll → applyPolicy s = allChannels.foldl closeForIsolation s)
    ∧ (s.cfg.policy = .holdPosition →
        applyPolicy s = allChannels.foldl (fun t c => halt c t) s
        ∧ (∀ c, (applyPolicy s).drivers.get c =
            if isOpening (s.drivers.get c) then .idle (settled c .part s) else s.drivers.get c)
        ∧ (applyPolicy s).jobs.map (fun j => (j.chan, j.dir)) = s.jobs.map (fun j => (j.chan, j.dir)))
    ∧ (s.cfg.policy = .closeAll → ∀ c,
        (∀ m t b, s.drivers.get c = .opening m t b →
          (applyPolicy s).drivers.get c =
            .brake { m with dir := .close, cls := 1, cause := .isolation, requester := .absent, retry := 0
                            attempt := none } 500)
        ∧ (∀ p, s.drivers.get c = .idle p → (applyPolicy s).drivers.get c = .idle p
            ∧ (p ≠ .closed → ∃ j ∈ (applyPolicy s).jobs, j.chan = c ∧ j.dir = .close))))
  ∧ (∀ (c : Channel) (s : State),
    (∀ m t b, s.drivers.get c = .opening m t b →
      halt c s = wantScan (removeOwn c true { s with drivers := s.drivers.set c (.idle (settled c .part s)) }))
    ∧ (isOpening (s.drivers.get c) = false → halt c s = s))
  ∧ ∀ (c : Channel) (s : State) (r : CloseReq),
    r = { cls := 1, cause := .isolation, who := .absent, retry := 0, clears := false } →
    (∀ m t b, s.drivers.get c = .opening m t b →
      closeForIsolation s c = raiseEntry c 1 true
        { s with
          drivers := s.drivers.set c (.brake
            { m with dir := .close, cls := 1, cause := .isolation, requester := .absent, retry := 0
                     attempt := none } 500) })
    ∧ (∀ p, s.drivers.get c = .idle p → p ≠ .closed → closeForIsolation s c = queueClose c r s)
    ∧ (s.drivers.get c = .idle .closed → closeForIsolation s c = s)
    ∧ (∀ m o t, s.drivers.get c = .backoff m o t →
        ((m.cause = .storm ∨ m.cause = .rain ∨ m.cause = .wind) →
          closeForIsolation s c =
            { s with drivers := s.drivers.set c (.backoff { m with cause := .isolation } o t) })
        ∧ ((m.cause = .command ∨ m.cause = .wall ∨ m.cause = .isolation) → closeForIsolation s c = s))
    ∧ (∀ m t, s.drivers.get c = .blocked m t →
        ((m.cause = .storm ∨ m.cause = .rain ∨ m.cause = .wind) →
          closeForIsolation s c =
            { s with drivers := s.drivers.set c (.blocked { m with cause := .isolation } t) })
        ∧ ((m.cause = .command ∨ m.cause = .wall ∨ m.cause = .isolation) → closeForIsolation s c = s))
    ∧ ((isWarning (s.drivers.get c) = true ∨ closeDrive (s.drivers.get c) = true
          ∨ isFaulted (s.drivers.get c) = true ∨ s.drivers.get c = .disabled
          ∨ ∃ m t, s.drivers.get c = .brake m t) → closeForIsolation s c = s)

/-! ### The motion queue (chapter 4) -/

/-- R59, R60, R99: the key order of the jobs (class, zone priority, exposure with UNKNOWN as 999, channel) and the
precedence of the claims (class, station, tag) are total orders; a job is placed, and the queue put in order anew, by
the key. -/
def Obligations.KeyAndPrecedenceAreTotal : Prop :=
  (∀ a b : Job, jobAhead a b = true ↔
    b.cls < a.cls
    ∨ (b.cls = a.cls ∧ (b.zone < a.zone
      ∨ (b.zone = a.zone ∧ (b.exposure.getD 999 < a.exposure.getD 999
        ∨ (b.exposure.getD 999 = a.exposure.getD 999 ∧ a.chan < b.chan))))))
  ∧ (∀ a : Job, jobAhead a a = false)
  ∧ (∀ a b c : Job, jobAhead a b = true → jobAhead b c = true → jobAhead a c = true)
  ∧ (∀ a b : Job, a.chan ≠ b.chan → jobAhead a b = true ∨ jobAhead b a = true)
  ∧ (∀ a b : Entry, outranks a b = true ↔
      b.cls < a.cls
      ∨ (b.cls = a.cls ∧ (a.station < b.station ∨ (a.station = b.station ∧ a.tag < b.tag))))
  ∧ (∀ a b c : Entry, outranks a b = true → outranks b c = true → outranks a c = true)
  ∧ (∀ a b : Entry, (a.station ≠ b.station ∨ a.tag ≠ b.tag) → outranks a b = true ∨ outranks b a = true)
  ∧ (∀ (j : Job) (js : List Job), (placeJob j js).Perm (j :: js)
      ∧ (js.Pairwise (fun a b => jobAhead b a = false) →
          (placeJob j js).Pairwise (fun a b => jobAhead b a = false)))
  ∧ ∀ js : List Job, (sortJobs js).Perm js ∧ (sortJobs js).Pairwise (fun a b => jobAhead b a = false)

/-- R47, R49, R58, R61 to R63, R89, R125, R127: a close request taken into the queue: inserted where the channel has
no job, in place of an OPEN job, whose claim is given up, or merged into a CLOSE job, whose claim rises with it; the
restore request of a channel at rest, not CLOSED, whose demand is SET and which has no job, and of no other; and what
a close request or a demand asks of a channel by its state: a reversal in OPENING, a class raise of a motion or of a
pending retry, with the raise of the own entry (the stop-at-end marker of a motion so raised: log 30). -/
def Obligations.CloseRequestInsertsOrMerges : Prop :=
  (∀ (c : Channel) (r : CloseReq) (s : State) (new : Job),
    new = { chan := c, dir := .close, cls := r.cls, zone := (s.cfg.channels.get c).zone
            exposure := (s.eval.chans.get c).exposure, cause := r.cause, requester := r.who
            retry := r.retry, state := .waiting, heldBack := false } →
    (jobOf c s = none →
      queueClose c r s =
        { s with jobs := placeJob new s.jobs, work := { s.work with scan := true } })
    ∧ (∀ j u, jobOf c s = some j → j.dir = .opening → u = giveUpClaim j s →
        queueClose c r s =
          { u with
            jobs := placeJob new (u.jobs.filter (fun k => decide (k.chan ≠ c)))
            work := { u.work with scan := true } })
    ∧ (∀ j u, jobOf c s = some j → j.dir = .close →
        u = { s with
              jobs := sortJobs (s.jobs.map (fun k =>
                if k.chan = c then
                  { k with
                    cls := if k.cls < r.cls then r.cls else k.cls
                    cause := if k.cls < r.cls then r.cause else k.cause
                    requester := if k.requester = .absent then r.who else k.requester
                    retry := if r.clears then 0 else if k.retry < r.retry then r.retry else k.retry }
                else k)) } →
        (j.state = .waiting → queueClose c r s = u)
        ∧ (j.state ≠ .waiting → queueClose c r s = raiseEntry c (max j.cls r.cls) true u))
    ∧ (∀ d p, (s.eval.chans.get c).demand = some d → s.drivers.get c = .idle p → jobOf c s = none →
        (p = .closed → restore c s = s)
        ∧ (p ≠ .closed → r.cls = d.cls → r.cause = d.cause → r.who = .absent → r.retry = 0 →
            restore c s = { s with jobs := placeJob new s.jobs, work := { s.work with scan := true } }))
    ∧ (((s.eval.chans.get c).demand = none ∨ jobOf c s ≠ none ∨ ∀ p, s.drivers.get c ≠ .idle p) →
        restore c s = s))
  ∧ (∀ (c : Channel) (s : State),
    (jobOf c s = none ↔ ∀ j ∈ s.jobs, j.chan ≠ c)
    ∧ ∀ j, jobOf c s = some j → j ∈ s.jobs ∧ j.chan = c)
  ∧ (∀ (c : Channel) (r : CloseReq) (s : State) (raised : Motion → Motion),
    raised = (fun m =>
      { m with cls := r.cls, cause := r.cause
               requester := if r.who = .absent then m.requester else r.who
               stopAtEnd := m.stopAtEnd && decide (r.cause = .command ∨ r.cause = .wall) }) →
    (s.drivers.get c = .disabled → closeRequest c r s = s)
    ∧ (((∃ p, s.drivers.get c = .idle p) ∨ ∃ p k, s.drivers.get c = .faulted p k) →
        closeRequest c r s = queueClose c r s)
    ∧ (∀ m t b, s.drivers.get c = .opening m t b →
        closeRequest c r s = raiseEntry c r.cls true
          { s with
            drivers := s.drivers.set c (.brake
              { m with dir := .close, cls := r.cls, cause := r.cause, requester := r.who, retry := 0
                       attempt := none } 500) })
    ∧ (∀ m, motionOf (s.drivers.get c) = some m → isOpening (s.drivers.get c) = false → r.cls ≤ m.cls →
        closeRequest c r s = s)
    ∧ (∀ m, motionOf (s.drivers.get c) = some m → m.cls < r.cls →
        (∀ p t, s.drivers.get c = .warning p m t →
          closeRequest c r s = raiseEntry c r.cls true
            { s with drivers := s.drivers.set c (.warning p (raised m) t) })
        ∧ (∀ t b, s.drivers.get c = .closing m t b →
          closeRequest c r s = raiseEntry c r.cls true
            { s with drivers := s.drivers.set c (.closing (raised m) t b) })
        ∧ (∀ t, s.drivers.get c = .brake m t →
          closeRequest c r s = raiseEntry c r.cls true
            { s with drivers := s.drivers.set c (.brake (raised m) t) })
        ∧ (∀ on t, s.drivers.get c = .backoff m on t →
          closeRequest c r s = raiseEntry c r.cls false
            { s with drivers := s.drivers.set c (.backoff (raised m) on t) })
        ∧ (∀ t, s.drivers.get c = .blocked m t →
          closeRequest c r s = { s with drivers := s.drivers.set c (.blocked (raised m) t) })))
  ∧ (∀ (c : Channel) (d : Demand) (s : State),
    ((s.drivers.get c = .disabled ∨ s.drivers.get c = .idle .closed
        ∨ ∃ p k, s.drivers.get c = .faulted p k) → askDemand c d s = s)
    ∧ ((s.drivers.get c ≠ .disabled ∧ s.drivers.get c ≠ .idle .closed
        ∧ ∀ p k, s.drivers.get c ≠ .faulted p k) →
        askDemand c d s = closeRequest c
          { cls := d.cls, cause := d.cause, who := .absent, retry := 0, clears := false } s))
  ∧ ∀ (c : Channel) (n : Nat) (announce : Bool) (s : State),
    (ownEntry c s = none → raiseEntry c n announce s = s)
    ∧ ∀ (e : Entry) (u : State), ownEntry c s = some e →
        u = { s with
              supply := { s.supply with
                entries := s.supply.entries.map (fun x =>
                  if x.own && decide (x.chan = c) then { x with cls := n } else x) } } →
        (n ≤ e.cls → raiseEntry c n announce s = s)
        ∧ (e.cls < n → (s.link.state = .mute ∨ (e.state = .held ∧ announce = false)) →
            raiseEntry c n announce s = u)
        ∧ (e.cls < n → s.link.state ≠ .mute → (e.state ≠ .held ∨ announce = true) →
            raiseEntry c n announce s = enqueue
              { frame :=
                  { kind := .claim, prio := n, source := BitVec.ofNat 8 s.cfg.station, target := 0
                    groups := 0
                    payload := [BitVec.ofNat 8 s.cfg.circuit, BitVec.ofNat 8 e.tag,
                      BitVec.ofNat 8 (e.chan.val + 1), BitVec.ofNat 8 e.draw, BitVec.ofNat 8 n,
                      BitVec.ofNat 8 e.lifetimeS, 1] }
                owner := .claim e.tag true, attempts := 0, sending := false } (cancelClaim e.tag u))

/-! ### Supply sharing (chapter 5) -/

/-- R80 to R82: the admission limit of each link state, and the totals it is judged by. -/
def Obligations.AdmissionLimitByLinkState : Prop :=
  (∀ (d : Nat) (s : State), admits d s = true ↔
    (s.link.state = .active ∧ totalT s + d ≤ s.cfg.budget ∧ s.supply.tableFull = none
        ∧ s.supply.entries.length < 24)
    ∨ (s.link.state = .isolated ∧ totalT s + d ≤ s.cfg.isoShare ∧ s.supply.entries.length < 24)
    ∨ (s.link.state = .mute ∧ totalT s + d ≤ s.cfg.budget ∧ ownTotal s + d ≤ s.cfg.isoShare
        ∧ s.supply.entries.length < 24))
  ∧ ∀ (s : State) (sum : (Entry → Bool) → Nat),
    (∀ p, sum p = ((s.supply.entries.filter p).map Entry.draw).sum) →
    totalT s = sum (fun e => decide (e.state ≠ .yielding)) ∧ ownTotal s = sum Entry.own
    ∧ heldTotal s = sum (fun e => decide (e.state = .held))
    ∧ (∀ c, drawOf c s = (s.cfg.channels.get c).draw)
    ∧ ∀ e : Entry, (isHeld e = true ↔ e.state = .held) ∧ (isSettling e = true ↔ ∃ n, e.state = .settling n)

/-- R83: the tag of the next own entry. -/
def Obligations.TagCounterSkipsOwnTags : Prop :=
  (∀ (s : State) (own : List Nat), own = (s.supply.entries.filter Entry.own).map Entry.tag →
    own.length ≤ 8 →
    ∃ n ≤ 8, nextTag s = (s.supply.tagCounter + 1 + n) % 16 ∧ nextTag s ∉ own
      ∧ (∀ m < n, (s.supply.tagCounter + 1 + m) % 16 ∈ own))
  ∧ (∀ (j : Job) (s : State), s.link.state = .mute →
      (admitJob j s).supply.tagCounter = nextTag s
      ∧ ∃ e, (admitJob j s).supply.entries = s.supply.entries ++ [e] ∧ e.own = true ∧ e.tag = nextTag s)
  ∧ (∀ (j : Job) (s : State), (admitJob j s).supply.tagCounter = nextTag s)
  ∧ State.reset.supply.tagCounter = 0
  ∧ ∀ s : State, s.supply.tagCounter = 0 → (∀ e ∈ s.supply.entries, e.own = false) → nextTag s = 1

/-- R67, R71, R84, R90, R145: an admitted job gets its own entry, ANNOUNCING with a NEW CLAIM at its class's priority,
or in MUTE SETTLING with no frame; a CLAIM queued for an entry cancels the one still waiting, and carries NEW where
either did; an own entry given up leaves the table with its waiting CLAIM cancelled, a RELEASE is queued at priority 3
where one is owed and the link is not MUTE, and a scan follows; a job's claim is given up by its job state. A
cancelled frame has left the queue (the model's reading, log 36). -/
def Obligations.OwnEntryMadeAndGivenUp : Prop :=
  (∀ (tag : Nat) (s : State) (waits : TxFrame → Bool),
    waits = (fun f => !f.sending && (decide (f.owner = .claim tag true) || decide (f.owner = .claim tag false))) →
    ((∀ f ∈ s.line.queue, waits f = false) → cancelClaim tag s = s)
    ∧ ((∃ f ∈ s.line.queue, waits f = true) →
        cancelClaim tag s =
          { s with
            line := { s.line with queue := s.line.queue.filter (fun f => !waits f) }
            supply := { s.supply with
              entries := s.supply.entries.map (fun x =>
                if x.refreshBarred then { x with refreshBarred := false } else x) }
            work := { s.work with scan := s.work.scan || s.jobs.any Job.heldBack } })
    ∧ ∀ (e : Entry) (isNew flag : Bool), e.tag = tag →
        (flag = true ↔
          isNew = true ∨ ∃ f ∈ s.line.queue, f.sending = false ∧ f.owner = .claim tag true) →
        queueClaim e isNew s =
          enqueue
            { frame :=
                { kind := .claim, prio := e.cls, source := BitVec.ofNat 8 s.cfg.station, target := 0
                  groups := 0
                  payload := [BitVec.ofNat 8 s.cfg.circuit, BitVec.ofNat 8 tag,
                    BitVec.ofNat 8 (e.chan.val + 1), BitVec.ofNat 8 e.draw, BitVec.ofNat 8 e.cls,
                    BitVec.ofNat 8 e.lifetimeS, if flag then 1 else 2] }
              owner := .claim tag flag, attempts := 0, sending := false } (cancelClaim tag s))
  ∧ (∀ (j : Job) (s : State) (e : Entry),
    e = { station := s.cfg.station, tag := nextTag s, chan := j.chan
          draw := (s.cfg.channels.get j.chan).draw, cls := j.cls, lifetimeS := s.cfg.lifetimeS
          state := if s.link.state = .mute then .settling s.cfg.settleMs else .announcing
          ageMs := 0, own := true, reasserted := false, refreshBarred := false } →
    (s.link.state = .mute →
      admitJob j s =
        { s with
          supply := { s.supply with entries := s.supply.entries ++ [e], tagCounter := nextTag s }
          jobs := s.jobs.map (fun k =>
            if k.chan = j.chan then { k with state := .settling, heldBack := false } else k) })
    ∧ (s.link.state ≠ .mute →
        admitJob j s =
          enqueue
            { frame :=
                { kind := .claim, prio := j.cls, source := BitVec.ofNat 8 s.cfg.station, target := 0
                  groups := 0
                  payload := [BitVec.ofNat 8 s.cfg.circuit, BitVec.ofNat 8 (nextTag s),
                    BitVec.ofNat 8 (j.chan.val + 1), BitVec.ofNat 8 e.draw, BitVec.ofNat 8 j.cls,
                    BitVec.ofNat 8 s.cfg.lifetimeS, 1] }
              owner := .claim (nextTag s) true, attempts := 0, sending := false }
            (cancelClaim (nextTag s)
              { s with
                supply := { s.supply with entries := s.supply.entries ++ [e], tagCounter := nextTag s }
                jobs := s.jobs.map (fun k =>
                  if k.chan = j.chan then { k with state := .announcing, heldBack := false } else k) })))
  ∧ (∀ (c : Channel) (tag : Nat) (s : State),
    (ownEntry c s = none ↔ ∀ e ∈ s.supply.entries, e.own = true → e.chan ≠ c)
    ∧ (∀ e, ownEntry c s = some e → e ∈ s.supply.entries ∧ e.own = true ∧ e.chan = c)
    ∧ (ownTagged tag s = none ↔ ∀ e ∈ s.supply.entries, e.own = true → e.tag ≠ tag)
    ∧ ∀ e, ownTagged tag s = some e → e ∈ s.supply.entries ∧ e.own = true ∧ e.tag = tag)
  ∧ ∀ (c : Channel) (owed : Bool) (s : State),
    (ownEntry c s = none → removeOwn c owed s = s)
    ∧ (∀ (e : Entry) (u : State), ownEntry c s = some e →
        u = wantScan (cancelClaim e.tag
              { s with
                supply := { s.supply with
                  entries := s.supply.entries.filter (fun x => !(x.own && decide (x.chan = c))) } }) →
        removeOwn c owed s =
          (if owed = false ∨ s.link.state = .mute then u
           else
            enqueue
              { frame :=
                  { kind := .release, prio := 3, source := BitVec.ofNat 8 s.cfg.station, target := 0
                    groups := 0, payload := [BitVec.ofNat 8 s.cfg.circuit, BitVec.ofNat 8 e.tag] }
                owner := .release, attempts := 0, sending := false } u))
    ∧ ∀ j : Job, j.chan = c →
        (j.state = .waiting → giveUpClaim j s = s)
        ∧ (j.state = .announcing → giveUpClaim j s = removeOwn c false s)
        ∧ (j.state = .settling → giveUpClaim j s = removeOwn c true s)

/-- R75, R87, R113, R115: an own settle interval expires: the entry is HELD and the job is handed over, its motion starting
by direction and class of channel; a job that would find nothing to do, or whose channel is FAULTED, is dropped with its
claim given up. -/
def Obligations.SettledJobStartsOrDrops : Prop :=
  (∀ (c : Channel) (s : State) (e : Entry) (j : Job) (p : Position) (m : Motion) (d : Driver),
    Settled s → ownEntry c s = some e → (∃ n, e.state = .settling n) → jobOf c s = some j →
    s.drivers.get c = .idle p →
    m = { dir := j.dir, cls := j.cls, cause := j.cause, requester := j.requester, retry := j.retry
          attempt := none, stopAtEnd := false } →
    (j.dir = .close ∧ p ≠ .closed ∧ (s.cfg.channels.get c).cls = .windowLow
        ∧ d = .warning p m (s.cfg.warningS * 1000)
      ∨ j.dir = .close ∧ p ≠ .closed ∧ (s.cfg.channels.get c).cls ≠ .windowLow
        ∧ d = .closing m ((s.cfg.channels.get c).travelS * 1000) (some s.cfg.blankingMs)
      ∨ j.dir = .opening ∧ p ≠ .opened ∧ openingAllowed c s = true
        ∧ d = .opening m ((s.cfg.channels.get c).travelS * 1000) (some s.cfg.blankingMs)) →
    exec (.ownSettleExpiry c) s = .next
      { s with
        drivers := s.drivers.set c d
        jobs := s.jobs.filter (fun k => decide (k.chan ≠ c))
        supply := { s.supply with
          entries := s.supply.entries.map (fun x =>
            if x.own && decide (x.chan = c) then { x with state := .held } else x) } })
  ∧ (∀ (c : Channel) (s : State) (e : Entry) (j : Job),
    Settled s → ownEntry c s = some e → (∃ n, e.state = .settling n) → jobOf c s = some j →
    (isFaulted (s.drivers.get c) = true ∨ s.drivers.get c = .disabled
      ∨ (j.dir = .close ∧ s.drivers.get c = .idle .closed)
      ∨ (j.dir = .opening ∧ s.drivers.get c = .idle .opened)
      ∨ (j.dir = .opening ∧ openingAllowed c s = false)) →
    exec (.ownSettleExpiry c) s = .next (finish (removeOwn c true
      { s with
        jobs := s.jobs.filter (fun k => decide (k.chan ≠ c))
        supply := { s.supply with
          entries := s.supply.entries.map (fun x =>
            if x.own && decide (x.chan = c) then { x with state := .held } else x) } })))
  ∧ ∀ (c : Channel) (s : State), Settled s →
      (ownEntry c s = none ∨ ∃ e, ownEntry c s = some e ∧ isSettling e = false) →
      exec (.ownSettleExpiry c) s = .next s

/-- R86, R88: a refresh due for a HELD own entry queues a REFRESH CLAIM at its class's priority where the link state
refreshes, no CLAIM of it waits and no drop from a full queue bars it; otherwise, as in MUTE, none is queued. -/
def Obligations.RefreshRenewsHeldClaim : Prop :=
  ∀ (c : Channel) (s : State) (e : Entry), Settled s → ownEntry c s = some e → e.state = .held →
    (∀ x ∈ s.supply.entries, x.own = true → x.chan = c → s.cfg.lifetimeS * 500 ≤ x.ageMs) →
    ((s.link.state = .mute ∨ s.link.state = .offline ∨ e.refreshBarred = true
        ∨ ∃ f ∈ s.line.queue, f.sending = false ∧ ∃ n, f.owner = .claim e.tag n) →
      exec (.claimRefreshDue c) s = .next s)
    ∧ ((s.link.state = .active ∨ s.link.state = .isolated ∨ s.link.state = .listen) →
        e.refreshBarred = false →
        (∀ f ∈ s.line.queue, ∀ n, f.owner = .claim e.tag n → f.sending = true) →
        exec (.claimRefreshDue c) s = .next (finish (enqueue
          { frame :=
              { kind := .claim, prio := e.cls, source := BitVec.ofNat 8 s.cfg.station, target := 0
                groups := 0
                payload := [BitVec.ofNat 8 s.cfg.circuit, BitVec.ofNat 8 e.tag,
                  BitVec.ofNat 8 (c.val + 1), BitVec.ofNat 8 e.draw, BitVec.ofNat 8 e.cls,
                  BitVec.ofNat 8 e.lifetimeS, 2] }
            owner := .claim e.tag false, attempts := 0, sending := false } s)))

/-- R92 to R94, R98, R100: a CLAIM on the own circuit is applied by its key, its fields brought into range, and the
contention check follows. A NEW of a known peer key leaves SETTLING and HELD and brings YIELDING back to SETTLING, a
REFRESH makes the entry HELD; an unknown key removes what it supersedes and makes a new entry, SETTLING for a NEW and
HELD for a REFRESH, or sets the table-full flag where the table is full. One of another circuit is ignored; a CLAIM or
a RELEASE of the own circuit with a length, tag, channel or flag out of range, or with no payload and so no circuit
byte, raises RX_ERROR and is not taken (circuit before length, and the missing circuit byte: log 24). -/
def Obligations.PeerClaimEntersTable : Prop :=
  (∀ (h : Header) (circuit tag chan draw cls life flag : Byte) (s : State) (c : Channel) (e : Entry),
    PeerFrame h [circuit, tag, chan, draw, cls, life, flag] s →
    circuit.toNat = s.cfg.circuit → tag.toNat ≤ 15 → chan.toNat = c.val + 1 → (flag = 1 ∨ flag = 2) →
    (∀ x ∈ s.supply.entries, x.own = false → x.station = h.source.toNat → x.tag ≠ tag.toNat ∧ x.chan ≠ c) →
    e = { station := h.source.toNat, tag := tag.toNat, chan := c
          draw := if draw = 0 then 1 else if 50 < draw.toNat then 50 else draw.toNat
          cls := if 3 < cls.toNat then 3 else cls.toNat
          lifetimeS := if life.toNat < 4 then 4 else if 60 < life.toNat then 60 else life.toNat
          state := if flag = 1 then .settling s.cfg.settleMs else .held
          ageMs := 0, own := false, reasserted := false, refreshBarred := false } →
    (s.supply.entries.length < 24 → totalT s + e.draw ≤ s.cfg.budget →
      exec (.claimReceived h [circuit, tag, chan, draw, cls, life, flag]) s = .next
        { counted s with
          supply := { s.supply with entries := s.supply.entries ++ [e], heldExcess := false } })
    ∧ (24 ≤ s.supply.entries.length → totalT s ≤ s.cfg.budget →
        exec (.claimReceived h [circuit, tag, chan, draw, cls, life, flag]) s = .next
          { counted s with
            supply := { s.supply with tableFull := some (s.cfg.lifetimeS * 1000), heldExcess := false }
            status := withError .overBudget .tableFull h.source.toNat (counted s).status }))
  ∧ (∀ (h : Header) (circuit tag chan draw cls life flag : Byte) (s : State) (c : Channel) (e : Entry)
      (known old : Entry → Bool),
    PeerFrame h [circuit, tag, chan, draw, cls, life, flag] s →
    circuit.toNat = s.cfg.circuit → tag.toNat ≤ 15 → chan.toNat = c.val + 1 → (flag = 1 ∨ flag = 2) →
    e = { station := h.source.toNat, tag := tag.toNat, chan := c
          draw := if draw = 0 then 1 else if 50 < draw.toNat then 50 else draw.toNat
          cls := if 3 < cls.toNat then 3 else cls.toNat
          lifetimeS := if life.toNat < 4 then 4 else if 60 < life.toNat then 60 else life.toNat
          state := if flag = 1 then .settling s.cfg.settleMs else .held
          ageMs := 0, own := false, reasserted := false, refreshBarred := false } →
    known = (fun x => !x.own && decide (x.station = h.source.toNat) && decide (x.tag = tag.toNat)) →
    old = (fun x => !x.own && decide (x.station = h.source.toNat) && decide (x.chan = c)
      && decide (x.tag ≠ tag.toNat)) →
    ((∃ x ∈ s.supply.entries, known x = true) →
      exec (.claimReceived h [circuit, tag, chan, draw, cls, life, flag]) s = .next (finish
        (contention h.source.toNat
          { counted s with
            supply := { s.supply with
              entries := s.supply.entries.map (fun x =>
                if known x then
                  { x with
                    chan := c, draw := e.draw, cls := e.cls, lifetimeS := e.lifetimeS, ageMs := 0
                    state :=
                      if flag = 2 then .held
                      else if x.state = .yielding then .settling s.cfg.settleMs else x.state }
                else x) } })))
    ∧ ((∀ x ∈ s.supply.entries, known x = false) →
        exec (.claimReceived h [circuit, tag, chan, draw, cls, life, flag]) s = .next (finish
          (contention h.source.toNat
            (if (s.supply.entries.filter (fun x => !old x)).length < 24 then
              { counted s with
                supply := { s.supply with entries := s.supply.entries.filter (fun x => !old x) ++ [e] }
                work := { s.work with scan := s.supply.entries.any old } }
             else
              { counted s with
                supply := { s.supply with
                  entries := s.supply.entries.filter (fun x => !old x)
                  tableFull := some (s.cfg.lifetimeS * 1000) }
                status := withError .overBudget .tableFull h.source.toNat (counted s).status
                work := { s.work with scan := s.supply.entries.any old } })))))
  ∧ (∀ (h : Header) (s : State), PeerFrame h [] s →
    exec (.claimReceived h []) s = .next
      { counted s with status := withError .rxError .rxLength h.source.toNat (counted s).status }
    ∧ exec (.releaseReceived h []) s = .next
      { counted s with status := withError .rxError .rxLength h.source.toNat (counted s).status })
  ∧ ∀ (h : Header) (circuit : Byte) (rest : List Byte) (s : State), PeerFrame h (circuit :: rest) s →
    (circuit.toNat ≠ s.cfg.circuit →
      exec (.claimReceived h (circuit :: rest)) s = .next (counted s)
      ∧ exec (.releaseReceived h (circuit :: rest)) s = .next (counted s))
    ∧ (circuit.toNat = s.cfg.circuit →
        (rest.length ≠ 6 ∨ 15 < (rest.getD 0 0).toNat ∨ rest.getD 1 0 = 0 ∨ 8 < (rest.getD 1 0).toNat
          ∨ (rest.getD 5 0 ≠ 1 ∧ rest.getD 5 0 ≠ 2)) →
        exec (.claimReceived h (circuit :: rest)) s = .next
          { counted s with
            status := withError .rxError .rxLength h.source.toNat (counted s).status })
    ∧ (circuit.toNat = s.cfg.circuit → (rest.length ≠ 1 ∨ 15 < (rest.getD 0 0).toNat) →
        exec (.releaseReceived h (circuit :: rest)) s = .next
          { counted s with
            status := withError .rxError .rxLength h.source.toNat (counted s).status })

/-- R95 to R98: a RELEASE removes the peer entry of its key, with a scan to follow, and is ignored where there is none; the
settle interval, the lifetime and the table-full timer run out. -/
def Obligations.PeerEntriesSettleAndLeave : Prop :=
  (∀ (h : Header) (circuit tag : Byte) (s : State), PeerFrame h [circuit, tag] s →
    circuit.toNat = s.cfg.circuit → tag.toNat ≤ 15 →
    ((∃ x ∈ s.supply.entries, x.own = false ∧ x.station = h.source.toNat ∧ x.tag = tag.toNat) →
      exec (.releaseReceived h [circuit, tag]) s = .next (finish
        { counted s with
          supply := { s.supply with
            entries := s.supply.entries.filter (fun x =>
              !(!x.own && decide (x.station = h.source.toNat) && decide (x.tag = tag.toNat))) }
          work := { s.work with scan := true } }))
    ∧ ((∀ x ∈ s.supply.entries, x.own = false → x.station = h.source.toNat → x.tag ≠ tag.toNat) →
        exec (.releaseReceived h [circuit, tag]) s = .next (counted s)))
  ∧ ∀ (station tag : Nat) (s : State), Settled s →
    exec (.peerSettleExpiry station tag) s = .next
      { s with
        supply := { s.supply with
          entries := s.supply.entries.map (fun x =>
            if !x.own && decide (x.station = station) && decide (x.tag = tag) && isSettling x then
              { x with state := .held } else x) } }
    ∧ ((∃ x ∈ s.supply.entries, x.own = false ∧ x.station = station ∧ x.tag = tag) →
        exec (.claimExpired station tag) s = .next (finish
          { s with
            supply := { s.supply with
              entries := s.supply.entries.filter (fun x =>
                !(!x.own && decide (x.station = station) && decide (x.tag = tag))) }
            status := withError .claimExpired .claimExpired station s.status
            work := { s.work with scan := true } }))
    ∧ ((∀ x ∈ s.supply.entries, x.own = false → x.station = station → x.tag ≠ tag) →
        exec (.claimExpired station tag) s = .next s)
    ∧ (s.supply.tableFull ≠ none →
        exec .tableFullExpiry s = .next (finish
          { s with
            supply := { s.supply with tableFull := none }, work := { s.work with scan := true } }))
    ∧ (s.supply.tableFull = none → exec .tableFullExpiry s = .next s)

/-- R99 to R105, R130, R76: a contention check that finds T within B clears the held-excess marker and does nothing else; one
that leaves T over B leaves no entry SETTLING, and one that leaves the HELD total over B leaves the marker set. Its three
stages in order: while T exceeds B, own ANNOUNCING entries are withdrawn, the last job in key order first, then SETTLING
entries give way in ascending precedence, and where a peer yielded the own ones that are left are reasserted once; while the
HELD total exceeds B, own HELD motions are paused in ascending precedence up to the first peer entry. A pause ends the
motion, gives its entry up and requeues its job; in BACKOFF it ends the backoff and makes no job (the number of a backoff
that holds no attempt: log 30; the order of the records there: log 16). R103 gives the reasserted entries no order, and the
table keeps none (R79): that their NEW CLAIMs are queued in table order is the model's choice (log 14). -/
def Obligations.ContentionSettlesOrMarksExcess : Prop :=
  (∀ (source : Nat) (s t : State), t = contention source s →
    (totalT s ≤ s.cfg.budget → t = { s with supply := { s.supply with heldExcess := false } })
    ∧ (s.cfg.budget < totalT t → ∀ e ∈ t.supply.entries, isSettling e = false)
    ∧ (heldTotal t ≤ s.cfg.budget → t.supply.heldExcess = false)
    ∧ (s.cfg.budget < heldTotal t → t.supply.heldExcess = true))
  ∧ (∀ es : List Entry, (ascending es).Perm es ∧ (ascending es).Pairwise (fun a b => outranks a b = false))
  ∧ (∀ (source : Nat) (s s1 s2 s3 s4 : State),
    s1 = ((s.jobs.filter (fun j => decide (j.state = .announcing))).map Job.chan).reverse.foldl firstStage s →
    s2 = (ascending (s1.supply.entries.filter isSettling)).foldl secondStage s1 →
    s3 = (if s1.supply.entries.countP (fun e => decide (e.state = .yielding))
            < s2.supply.entries.countP (fun e => decide (e.state = .yielding)) then
          s2.supply.entries.foldl reassertOne s2 else s2) →
    s4 = thirdStage source (ascending (s3.supply.entries.filter isHeld)) s3 →
    contention source s =
      (if heldTotal s4 ≤ s.cfg.budget then { s4 with supply := { s4.supply with heldExcess := false } }
       else s4))
  ∧ (∀ (c : Channel) (s u : State), u = removeOwn c false s →
    (totalT s ≤ s.cfg.budget → firstStage s c = s)
    ∧ (s.cfg.budget < totalT s →
        firstStage s c =
          { u with
            jobs := u.jobs.map (fun j =>
              if j.chan = c then { j with state := .waiting, heldBack := false } else j) }))
  ∧ (∀ (e : Entry) (s u : State), u = removeOwn e.chan true s →
    (totalT s ≤ s.cfg.budget → secondStage s e = s)
    ∧ (s.cfg.budget < totalT s → e.own = true →
        secondStage s e =
          { u with
            jobs := u.jobs.map (fun j =>
              if j.chan = e.chan then { j with state := .waiting, heldBack := false } else j) })
    ∧ (s.cfg.budget < totalT s → e.own = false →
        secondStage s e =
          { s with
            supply := { s.supply with
              entries := s.supply.entries.map (fun x =>
                if !x.own && decide (x.station = e.station) && decide (x.tag = e.tag) then
                  { x with state := .yielding } else x) }
            work := { s.work with scan := true } }))
  ∧ (∀ (e : Entry) (s u : State),
    u = { s with
          supply := { s.supply with
            entries := s.supply.entries.map (fun x =>
              if x.own && decide (x.chan = e.chan) then { x with reasserted := true } else x) } } →
    ((e.own = false ∨ isSettling e = false ∨ e.reasserted = true) → reassertOne s e = s)
    ∧ (e.own = true → isSettling e = true → e.reasserted = false →
        reassertOne s e = if s.link.state = .mute then u else queueClaim e true u))
  ∧ (∀ (source : Nat) (e : Entry) (es : List Entry) (s : State),
    thirdStage source [] s = s
    ∧ (heldTotal s ≤ s.cfg.budget → thirdStage source (e :: es) s = s)
    ∧ (s.cfg.budget < heldTotal s → e.own = true →
        thirdStage source (e :: es) s = thirdStage source es (pauseMotion e.chan source s))
    ∧ (s.cfg.budget < heldTotal s → e.own = false →
        thirdStage source (e :: es) s =
          (if s.supply.heldExcess then s
           else raiseEvent .overBudget { s with supply := { s.supply with heldExcess := true } })))
  ∧ ∀ (c : Channel) (source : Nat) (s : State) (gone : Driver → State → State),
    gone = (fun d t => raiseError .overBudget .overBudget source
      (removeOwn c true { t with drivers := t.drivers.set c d })) →
    (∀ p m t, s.drivers.get c = .warning p m t →
      pauseMotion c source s = queueClose c
        { cls := m.cls, cause := m.cause, who := m.requester, retry := m.retry, clears := false }
        (gone (.idle (settled c p s)) s))
    ∧ (∀ m, ((∃ t b, s.drivers.get c = .closing m t b) ∨ ∃ t, s.drivers.get c = .brake m t) →
        pauseMotion c source s = queueClose c
          { cls := m.cls, cause := m.cause, who := m.requester, retry := m.retry, clears := false }
          (gone (.idle (settled c .part s)) s))
    ∧ (∀ m t b u, s.drivers.get c = .opening m t b → u = gone (.idle (settled c .part s)) s →
        (openingAllowed c u = false → pauseMotion c source s = u)
        ∧ (openingAllowed c u = true → jobOf c u = none →
            pauseMotion c source s =
              { u with
                jobs := placeJob
                  { chan := c, dir := .opening, cls := 0, zone := (u.cfg.channels.get c).zone
                    exposure := (u.eval.chans.get c).exposure, cause := m.cause, requester := m.requester
                    retry := m.retry, state := .waiting, heldBack := false } u.jobs
                work := { u.work with scan := true } }))
    ∧ (∀ m on t n, s.drivers.get c = .backoff m on t → n = m.attempt.getD (m.retry + 1) →
        (s.cfg.obstrRetries < n →
          pauseMotion c source s = rejudge c (gone (.faulted .part .obstructed)
            (recordError .obstructedFinal
              (match m.requester with | .station x => x | .wall => 0 | .absent => 0) s)))
        ∧ (n ≤ s.cfg.obstrRetries →
            pauseMotion c source s = rejudge c (gone
              (if m.stopAtEnd then .idle (settled c .part s)
               else .blocked m (min (s.cfg.retryBaseS * 2 ^ (n - 1)) 900 * 1000)) s)))

/-! ### Channel drivers (chapter 6) -/

/-- R111, R114, R115, R126, R133, R181: the warning and brake timers run out, and the chirp; drives, sounder and the
two lamps follow the state. -/
def Obligations.DriverTimersMoveOn : Prop :=
  (∀ (c : Channel) (s : State), Settled s →
    (∀ p m l, s.drivers.get c = .warning p m l →
      exec (.warningTimerExpiry c) s = .next
        { s with
          drivers := s.drivers.set c
            (.closing m ((s.cfg.channels.get c).travelS * 1000) (some s.cfg.blankingMs)) })
    ∧ ((∀ p m l, s.drivers.get c ≠ .warning p m l) → exec (.warningTimerExpiry c) s = .next s)
    ∧ (∀ m l, s.drivers.get c = .brake m l →
      exec (.brakeExpiry c) s = .next
        { s with
          drivers := s.drivers.set c
            (if (s.cfg.channels.get c).cls = .windowLow then .warning .part m (s.cfg.warningS * 1000)
             else .closing m ((s.cfg.channels.get c).travelS * 1000) (some s.cfg.blankingMs)) })
    ∧ ((∀ m l, s.drivers.get c ≠ .brake m l) → exec (.brakeExpiry c) s = .next s)
    ∧ exec .chirpExpiry s = .next { s with chirp := none })
  ∧ (∀ d : Driver,
      (openDrive d = true ↔ (∃ m t b, d = .opening m t b) ∨ ∃ m t, d = .backoff m true t)
      ∧ (closeDrive d = true ↔ ∃ m t b, d = .closing m t b)
      ∧ ¬ (openDrive d = true ∧ closeDrive d = true))
  ∧ ∀ s : State,
      (sounder s = true ↔ (∃ c p m t, s.drivers.get c = .warning p m t) ∨ s.chirp ≠ none)
      ∧ (lampFault s = true ↔
          (∃ c p k, s.drivers.get c = .faulted p k) ∨ s.link.state = .mute
            ∨ s.loader.result = some .defaulted)
      ∧ (lampHold s = true ↔
          s.eval.storm = true ∨ (∃ c, (s.eval.chans.get c).demand ≠ none) ∨ s.requests.hold ≠ none)

/-- R116, R117, R120: the current is compared in CLOSING and OPENING once blanking has expired; an overcurrent in CLOSING is
an obstruction, and one in OPENING ends the motion. -/
def Obligations.OvercurrentBacksOffOrBlocks : Prop :=
  ∀ (c : Channel) (current : Nat) (s u : State), Settled s →
    u = { s with
          pins := { s.pins with
            chans := s.pins.chans.set c { s.pins.chans.get c with current := current } } } →
    (∀ m t b i, s.drivers.get c = .closing m t b →
      (b = none ∧ i = .overcurrent c current ∨ b ≠ none ∧ i = .blankingExpiry c current) →
      ((s.cfg.channels.get c).threshold ≤ current →
        exec i s = .next
          { u with
            drivers := s.drivers.set c (.backoff { m with attempt := some (m.retry + 1) } true 1000)
            status := { s.status with
              flags := s.status.flags ||| 0x1
              counters := { s.status.counters with
                obstruction :=
                  if s.status.counters.obstruction < 255 then s.status.counters.obstruction + 1
                  else s.status.counters.obstruction } } })
      ∧ (current < (s.cfg.channels.get c).threshold →
          exec i s = .next { u with drivers := s.drivers.set c (.closing m t none) }))
    ∧ (∀ m t b i, s.drivers.get c = .opening m t b →
      (b = none ∧ i = .overcurrent c current ∨ b ≠ none ∧ i = .blankingExpiry c current) →
      ((s.cfg.channels.get c).threshold ≤ current →
        exec i s = .next (finish (restore c (raiseEvent .openBlocked (wantScan (removeOwn c true
          { u with drivers := s.drivers.set c (.idle (settled c .part s)) }))))))
      ∧ (current < (s.cfg.channels.get c).threshold →
          exec i s = .next { u with drivers := s.drivers.set c (.opening m t none) }))
    ∧ ((∀ m t, s.drivers.get c ≠ .closing m t none ∧ s.drivers.get c ≠ .opening m t none) →
        exec (.overcurrent c current) s = .next u)
    ∧ ((∀ m t b, s.drivers.get c ≠ .closing m t (some b) ∧ s.drivers.get c ≠ .opening m t (some b)) →
        exec (.blankingExpiry c current) s = .next u)

/-- R118, R119, R76: the end of a backoff by its attempt number, and the end of a retry delay. The number of a motion
that holds none, its retry count plus 1, is the model's choice (log 30); and the position in which a channel comes to
rest: the end whose limit alone is active in SWITCHES mode, and otherwise the one it is given (R124). -/
def Obligations.BackoffAndRetryEnd : Prop :=
  (∀ (c : Channel) (s : State) (m : Motion) (on : Bool) (l n : Nat), Settled s →
    s.drivers.get c = .backoff m on l → n = m.attempt.getD (m.retry + 1) →
    (s.cfg.obstrRetries < n →
      exec (.backoffExpiry c) s = .next (finish (restore c (rejudge c
        (recordError .obstructedFinal (match m.requester with | .station x => x | .wall => 0 | .absent => 0)
          (wantScan (removeOwn c true
            { s with drivers := s.drivers.set c (.faulted .part .obstructed) })))))))
    ∧ (n ≤ s.cfg.obstrRetries →
        exec (.backoffExpiry c) s = .next (finish (restore c (rejudge c (wantScan (removeOwn c true
          { s with
            drivers := s.drivers.set c
              (if m.stopAtEnd then .idle (settled c .part s)
               else .blocked m (min (s.cfg.retryBaseS * 2 ^ (n - 1)) 900 * 1000)) })))))))
  ∧ (∀ (c : Channel) (s : State) (m : Motion) (l : Nat) (d : Option Demand), Settled s →
    s.drivers.get c = .blocked m l → jobOf c s = none → d = (s.eval.chans.get c).demand →
    ((d ≠ none ∨ m.cause = .command ∨ m.cause = .wall ∨ m.cause = .isolation) →
      exec (.retryTimerExpiry c) s = .next (finish
        { s with
          drivers := s.drivers.set c (.idle (settled c .part s))
          jobs := placeJob
            { chan := c, dir := .close, cls := m.cls, zone := (s.cfg.channels.get c).zone
              exposure := (s.eval.chans.get c).exposure, cause := m.cause, requester := m.requester
              retry := m.attempt.getD (m.retry + 1), state := .waiting, heldBack := false } s.jobs
          work := { s.work with scan := true } }))
    ∧ (d = none → (m.cause = .storm ∨ m.cause = .rain ∨ m.cause = .wind) →
        exec (.retryTimerExpiry c) s = .next
          { s with drivers := s.drivers.set c (.idle (settled c .part s)) }))
  ∧ (∀ (c : Channel) (s : State), Settled s →
      ((∀ m o l, s.drivers.get c ≠ .backoff m o l) → exec (.backoffExpiry c) s = .next s)
      ∧ ((∀ m l, s.drivers.get c ≠ .blocked m l) → exec (.retryTimerExpiry c) s = .next s))
  ∧ ∀ (c : Channel) (p : Position) (s : State) (closedOn openOn : Bool),
      closedOn = limitOn c .closed s → openOn = limitOn c .opened s →
      ((s.cfg.channels.get c).timed = true → settled c p s = p)
      ∧ ((s.cfg.channels.get c).timed = false →
          (closedOn = true → openOn = false → settled c p s = .closed)
          ∧ (closedOn = false → openOn = true → settled c p s = .opened)
          ∧ (closedOn = openOn → settled c p s = p))

/-- R123, R131: the travel timer runs out: the ordinary end of a motion in TIMED mode, and FAULTED(TRAVEL) at PART in
SWITCHES mode with TRAVEL_FAULT and the requester as source. -/
def Obligations.TravelTimerEndsOrFaults : Prop :=
  ∀ (c : Channel) (s : State), Settled s →
    ((s.cfg.channels.get c).timed = true →
      (∀ m t b, s.drivers.get c = .closing m t b →
        exec (.travelTimerExpiry c) s = .next (finish (wantScan (removeOwn c true
          { s with drivers := s.drivers.set c (.idle .closed) }))))
      ∧ (∀ m t b, s.drivers.get c = .opening m t b →
        exec (.travelTimerExpiry c) s = .next (finish (restore c (wantScan (removeOwn c true
          { s with drivers := s.drivers.set c (.idle .opened) }))))))
    ∧ ((s.cfg.channels.get c).timed = false →
        ∀ m t b n, (s.drivers.get c = .closing m t b ∨ s.drivers.get c = .opening m t b) →
        n = (match m.requester with | .station x => x | .wall => 0 | .absent => 0) →
        exec (.travelTimerExpiry c) s = .next (finish (rejudge c (raiseError .travelFault .travel n
          (wantScan (removeOwn c true { s with drivers := s.drivers.set c (.faulted .part .travel) }))))))
    ∧ (isOpening (s.drivers.get c) = false → closeDrive (s.drivers.get c) = false →
        exec (.travelTimerExpiry c) s = .next s)

/-- R108, R110, R121, R122, R124: a limit that becomes active, by the state of its channel (the error source of a
BLOCKED one: log 15); the position and the motion record each channel state holds, and how a limit reads under the
channel's polarity. -/
def Obligations.LimitActiveByChannelState : Prop :=
  (∀ (c : Channel) (l other : Limit) (s u : State) (end_ : Position), Settled s →
    (l = .closed ∧ other = .opened ∧ end_ = .closed ∨ l = .opened ∧ other = .closed ∧ end_ = .opened) →
    u = setLimit c l true s →
    (limitOn c l s = true → exec (.limitActive c l) s = .next s)
    ∧ (limitOn c l s = false → s.drivers.get c = .disabled → exec (.limitActive c l) s = .next u)
    ∧ (limitOn c l s = false → (s.cfg.channels.get c).timed = true → exec (.limitActive c l) s = .next u)
    ∧ (limitOn c l s = false → (s.cfg.channels.get c).timed = false → limitOn c other s = true →
        (∀ p, s.drivers.get c = .faulted p .limit → exec (.limitActive c l) s = .next u)
        ∧ (∀ p k, s.drivers.get c = .faulted p k → k ≠ .limit →
            exec (.limitActive c l) s = .next (raiseError .limitFault .limit 0
              { u with drivers := s.drivers.set c (.faulted p .limit) }))
        ∧ (∀ p, s.drivers.get c = .idle p →
            exec (.limitActive c l) s = .next (finish (rejudge c (raiseError .limitFault .limit 0
              { u with drivers := s.drivers.set c (.faulted p .limit) }))))
        ∧ (∀ m t, s.drivers.get c = .blocked m t →
            exec (.limitActive c l) s = .next (finish (rejudge c (raiseError .limitFault .limit 0
              { u with drivers := s.drivers.set c (.faulted .part .limit) }))))
        ∧ (∀ m p n, motionOf (s.drivers.get c) = some m → inMotion (s.drivers.get c) = true →
            p = heldPosition (s.drivers.get c) →
            n = (match m.requester with | .station x => x | .wall => 0 | .absent => 0) →
            exec (.limitActive c l) s = .next (finish (rejudge c (raiseError .limitFault .limit n
              (wantScan (removeOwn c true
                { u with drivers := s.drivers.set c (.faulted p .limit) })))))))
    ∧ (limitOn c l s = false → (s.cfg.channels.get c).timed = false → limitOn c other s = false →
        (∀ p, s.drivers.get c = .idle p →
          exec (.limitActive c l) s = .next
            (if l = .closed then { u with drivers := s.drivers.set c (.idle .closed) }
             else finish (restore c { u with drivers := s.drivers.set c (.idle .opened) })))
        ∧ (∀ p m t, s.drivers.get c = .warning p m t →
            exec (.limitActive c l) s = .next
              (if l = .closed then
                finish (wantScan (removeOwn c true { u with drivers := s.drivers.set c (.idle .closed) }))
               else u))
        ∧ (∀ m t b, s.drivers.get c = .closing m t b → l = .closed →
            exec (.limitActive c l) s = .next (finish (wantScan (removeOwn c true
              { u with drivers := s.drivers.set c (.idle .closed) }))))
        ∧ (∀ m t b, s.drivers.get c = .opening m t b → l = .opened →
            exec (.limitActive c l) s = .next (finish (restore c (wantScan (removeOwn c true
              { u with drivers := s.drivers.set c (.idle .opened) })))))
        ∧ (∀ m n, motionOf (s.drivers.get c) = some m →
            ((∃ t b, s.drivers.get c = .closing m t b) ∧ l = .opened
              ∨ (∃ t b, s.drivers.get c = .opening m t b) ∧ l = .closed
              ∨ (∃ t, s.drivers.get c = .brake m t) ∧ l = .closed) →
            n = (match m.requester with | .station x => x | .wall => 0 | .absent => 0) →
            exec (.limitActive c l) s = .next (finish (rejudge c (raiseError .limitFault .limit n
              (wantScan (removeOwn c true
                { u with drivers := s.drivers.set c (.faulted .part .limit) }))))))
        ∧ (∀ m t, s.drivers.get c = .brake m t → l = .opened →
            exec (.limitActive c l) s = .next u)
        ∧ (∀ m o t, s.drivers.get c = .backoff m o t →
            exec (.limitActive c l) s = .next
              (if l = .closed then u else { u with drivers := s.drivers.set c (.backoff m false t) }))
        ∧ (∀ m t, s.drivers.get c = .blocked m t →
            exec (.limitActive c l) s = .next
              (if l = .closed then { u with drivers := s.drivers.set c (.idle .closed) } else u))
        ∧ (∀ p k, s.drivers.get c = .faulted p k → exec (.limitActive c l) s = .next u)))
  ∧ (∀ (p : Position) (m : Motion) (t : Nat) (b : Option Nat) (on : Bool) (k : FaultKind),
    [Driver.idle p, .warning p m t, .faulted p k].map heldPosition = [p, p, p]
    ∧ [Driver.closing m t b, .opening m t b, .brake m t, .backoff m on t, .blocked m t].map heldPosition
        = [.part, .part, .part, .part, .part]
    ∧ [Driver.warning p m t, .closing m t b, .opening m t b, .brake m t, .backoff m on t, .blocked m t].map
        motionOf = [some m, some m, some m, some m, some m, some m]
    ∧ [Driver.disabled, .idle p, .faulted p k].map motionOf = [none, none, none]
    ∧ [Driver.warning p m t, .closing m t b, .opening m t b, .brake m t, .backoff m on t].map inMotion
        = [true, true, true, true, true]
    ∧ [Driver.disabled, .idle p, .faulted p k, .blocked m t].map inMotion = [false, false, false, false]
    ∧ ∀ d : Driver, (isWarning d = true ↔ ∃ q n l, d = .warning q n l)
      ∧ (isOpening d = true ↔ ∃ n l x, d = .opening n l x)
      ∧ (isFaulted d = true ↔ ∃ q f, d = .faulted q f))
  ∧ ∀ (c : Channel) (s : State) (r : ChannelCfg) (x : ChannelPins), r = s.cfg.channels.get c →
    x = s.pins.chans.get c →
    limitOn c .closed s = (x.closedContact != r.openingContacts)
    ∧ limitOn c .opened s = (x.openContact != r.openingContacts)
    ∧ ∀ on : Bool,
        setLimit c .closed on s =
          { s with
            pins := { s.pins with
              chans := s.pins.chans.set c { x with closedContact := (on != r.openingContacts) } } }
        ∧ setLimit c .opened on s =
          { s with
            pins := { s.pins with
              chans := s.pins.chans.set c { x with openContact := (on != r.openingContacts) } } }

/-- R121, R124: a limit that becomes inactive lets a channel at rest creep off its end, and has no other effect. -/
def Obligations.LimitInactiveCreepsOffEnd : Prop :=
  ∀ (c : Channel) (l : Limit) (s u : State), Settled s → u = setLimit c l false s →
    (limitOn c l s = false → exec (.limitInactive c l) s = .next s)
    ∧ (limitOn c l s = true → (s.cfg.channels.get c).timed = false →
        (l = .closed ∧ s.drivers.get c = .idle .closed ∨ l = .opened ∧ s.drivers.get c = .idle .opened) →
        exec (.limitInactive c l) s = .next (finish (restore c
          { u with drivers := s.drivers.set c (.idle .part) })))
    ∧ (limitOn c l s = true →
        ((s.cfg.channels.get c).timed = true
          ∨ ¬ (l = .closed ∧ s.drivers.get c = .idle .closed ∨ l = .opened ∧ s.drivers.get c = .idle .opened)) →
        exec (.limitInactive c l) s = .next u)
    ∧ (∀ on : Bool, limitOn c l (setLimit c l on s) = on)

/-! ### The segment line (chapter 7) -/

/-- R143, R144, R86: where a frame stands in the transmit queue when it enters, and what is dropped from a full one. A
frame replaced or dropped there has left the queue: refreshes are no longer barred, and where a job is held back a
scan follows (the model's reading, log 36); a frame dropped at its arrival never stood in it. The owner of a dropped
frame is told: a CLAIM's ANNOUNCING entry is withdrawn and its job held back, a SETTLING or HELD one is barred from
refreshing while HELD (Obligations.RefreshRenewsHeldClaim), and a RESTART's REPLY lets the restart begin. -/
def Obligations.QueueKeepsPriorityAndDropsLowest : Prop :=
  (∀ (f : TxFrame) (q : List TxFrame),
    placeFrame f q = q.takeWhile (fun g => decide (f.frame.prio ≤ g.frame.prio))
      ++ f :: q.dropWhile (fun g => decide (f.frame.prio ≤ g.frame.prio)))
  ∧ (∀ (f : TxFrame) (s left : State) (old : TxFrame → Bool),
      left = { s with
        supply := { s.supply with
          entries := s.supply.entries.map (fun x =>
            if x.refreshBarred then { x with refreshBarred := false } else x) }
        work := { s.work with scan := s.work.scan || s.jobs.any Job.heldBack } } →
      old = (fun g => (decide (f.owner = .obs ∧ g.owner = .obs) || decide (f.owner = .pres ∧ g.owner = .pres))
        && !g.sending) →
      ((∃ g ∈ s.line.queue, old g = true) →
        enqueue f s =
          { left with
            line := { s.line with queue := placeFrame f (s.line.queue.filter (fun g => !old g)) } })
      ∧ ((∀ g ∈ s.line.queue, old g = false) → s.line.queue.length < 8 →
          enqueue f s = { s with line := { s.line with queue := placeFrame f s.line.queue } })
      ∧ ((∀ g ∈ s.line.queue, old g = false) → 8 ≤ s.line.queue.length →
          ((∀ g ∈ s.line.queue, g.sending = false → f.frame.prio ≤ g.frame.prio) →
            enqueue f s = tellDropped f.owner true
              { s with status := withError .txOverflow .txOverflow 0 s.status })
          ∧ ∀ q1 v q2, s.line.queue = q1 ++ v :: q2 → v.sending = false → v.frame.prio < f.frame.prio →
              v.frame.prio ≤ 3 →
              (∀ g ∈ q1, g.sending = false → v.frame.prio < g.frame.prio) →
              (∀ g ∈ q2, g.sending = false → v.frame.prio ≤ g.frame.prio) →
              enqueue f s = tellDropped v.owner true
                { left with
                  line := { s.line with queue := placeFrame f (q1 ++ q2) }
                  status := withError .txOverflow .txOverflow 0 s.status }))
  ∧ ∀ (o : FrameOwner) (s : State),
      ((o = .obs ∨ o = .pres ∨ o = .release ∨ o = .reply false) → tellDropped o true s = s)
      ∧ (o = .reply true →
          tellDropped o true s =
            { s with work := { s.work with restart := s.work.restart || s.requests.pendingRestart } })
      ∧ ∀ tag n, o = .claim tag n →
          (ownTagged tag s = none → tellDropped o true s = s)
          ∧ ∀ e w, ownTagged tag s = some e →
              w = cancelClaim tag
                { s with
                  supply := { s.supply with
                    entries := s.supply.entries.filter (fun x => !(x.own && decide (x.chan = e.chan))) } } →
              (e.state = .announcing →
                tellDropped o true s =
                  { w with
                    jobs := w.jobs.map (fun j =>
                      if j.chan = e.chan then { j with state := .waiting, heldBack := true } else j)
                    work := { w.work with scan := true } })
              ∧ ((e.state = .held ∨ ∃ left, e.state = .settling left) →
                tellDropped o true s =
                  { s with
                    supply := { s.supply with
                      entries := s.supply.entries.map (fun x =>
                        if x.own && decide (x.chan = e.chan) then { x with refreshBarred := true } else x) } })

/-- R139, R141, R142, R153, R154: a valid frame of another station is counted, restarts the isolation timer, and is
then acted on by its kind; in ISOLATED it takes the link to LISTEN first, and in OFFLINE it is not received. A PRES, a
REPLY and a request that names another station have no further effect. A frame with the own number (log 21) is
counted; outside MUTE it raises DUPLICATE_STATION, with error code DUPLICATE and the own number, and takes the link
into MUTE, whose entry Obligations.LinkTimersChangeLinkState states. -/
def Obligations.ValidFrameCountedAndJudged : Prop :=
  (∀ (h : Header) (p : List Byte) (s : State), PeerFrame h p s →
    exec (.presReceived h p) s = .next (counted s)
    ∧ exec (.replyReceived h p) s = .next (counted s)
    ∧ ∀ k, ¬ ToStation h s → (k = .cmd → ¬ ToGroup h s) →
        exec (.framePassedOver k h p) s = .next (counted s))
  ∧ (∀ (k : FrameKind) (h : Header) (p : List Byte) (s : State) (i : Instr), Settled s →
      1 ≤ h.source.toNat → h.source.toNat ≤ 63 → h.source.toNat ≠ s.cfg.station → p.length ≤ 24 →
      (k = .obs ∧ i = .obsReceived h p ∨ k = .pres ∧ i = .presReceived h p
        ∨ k = .claim ∧ i = .claimReceived h p ∨ k = .release ∧ i = .releaseReceived h p
        ∨ k = .cmd ∧ (i = .cmdClose h p ∨ i = .cmdOpen h p ∨ i = .cmdStop h p ∨ i = .cmdHold h p
          ∨ i = .cmdUnhold h p ∨ i = .cmdBadVerb h p)
        ∨ k = .read ∧ i = .read h p ∨ k = .take ∧ i = .take h p ∨ k = .clear ∧ i = .clear h p
        ∨ k = .restart ∧ i = .restart h p ∨ k = .reply ∧ i = .replyReceived h p
        ∨ ∃ r, k = requestFrameKind r ∧ i = .framePassedOver r h p) →
      (Takes s → exec i s = .next (finish (dispatch (heard k h p) (counted s))))
      ∧ (s.link.state = .isolated →
          exec i s = .next (finish (dispatch (heard k h p) (enterLink .listen (counted s)))))
      ∧ (s.link.state = .offline → exec i s = .next s))
  ∧ (∀ (k : FrameKind) (h : Header) (p : List Byte), heard k h p =
      { kind := k, prio := 0, source := h.source, target := h.target, groups := h.groups, payload := p })
  ∧ ([RequestKind.cmd, .read, .take, .clear, .restart].map requestFrameKind
      = [.cmd, .read, .take, .clear, .restart])
  ∧ (∀ (h : Header) (p : List Byte) (s : State), Ready s → s.link.state = .isolated →
      1 ≤ h.source.toNat → h.source.toNat ≤ 63 → h.source.toNat ≠ s.cfg.station → p.length ≤ 24 →
      ∀ i, (i = .presReceived h p ∨ i = .replyReceived h p) →
      ∃ t, exec i s = .next t ∧ t.link =
        { state := .listen, join := some (s.cfg.lifetimeS * 1000), isolation := none, presence := none
          drops := s.link.drops })
  ∧ ∀ s : State, Ready s → 1 ≤ s.cfg.station → s.cfg.station ≤ 63 →
      (s.link.state = .mute →
        exec .duplicateReceived s = .next
          { s with
            line := { s.line with rx := .idle }
            status := { s.status with
              received := if s.status.received < 65535 then s.status.received + 1 else s.status.received } })
      ∧ ((s.link.state = .listen ∨ s.link.state = .active ∨ s.link.state = .isolated) →
          exec .duplicateReceived s = .next (finish (enterLink .mute
            { s with
              line := { s.line with rx := .idle }
              status := withError .duplicateStation .duplicate s.cfg.station
                { s.status with
                  received :=
                    if s.status.received < 65535 then s.status.received + 1 else s.status.received } }))
          ∧ ∃ t, exec .duplicateReceived s = .next t ∧ t.link =
            { state := .mute, join := none, isolation := none, presence := none, drops := s.link.drops })

/-- R137 to R139: bytes are assembled into frames: a kind and priority, a source of 1 to 63, the target and the group
mask, a length of at most 24, and as many payload bytes as the length says; the check byte of a whole frame acts as
the receipt of that frame; the bytes of a frame, and its check byte, the exclusive-OR of every byte before it. -/
def Obligations.BytesAssembleIntoFrames : Prop :=
  (∀ (s : State) (b : Byte), Settled s →
    ((s.link.state = .offline ∨ s.line.rx = .passingOver ∨ ∃ f ∈ s.line.queue, f.sending = true) →
      exec (.lineByteArrival b) s = .next s)
    ∧ (s.link.state ≠ .offline → (∀ f ∈ s.line.queue, f.sending = false) →
        (s.line.rx = .idle → 1 ≤ b.toNat / 16 → b.toNat / 16 ≤ 10 → b.toNat % 16 ≤ 3 →
          exec (.lineByteArrival b) s = .next { s with line := { s.line with rx := .assembling [b] } })
        ∧ (∀ bs, s.line.rx = .assembling bs →
            (bs.length = 1 ∧ 1 ≤ b.toNat ∧ b.toNat ≤ 63 ∨ bs.length = 2 ∨ bs.length = 3
              ∨ bs.length = 4 ∧ b.toNat ≤ 24
              ∨ 5 ≤ bs.length ∧ bs.length < 5 + (bs.getD 4 0).toNat) →
            exec (.lineByteArrival b) s = .next
              { s with line := { s.line with rx := .assembling (bs ++ [b]) } })))
  ∧ (∀ (f : Frame) (s : State) (h : Header), Settled s → s.link.state ≠ .offline →
      (∀ g ∈ s.line.queue, g.sending = false) → f.prio ≤ 3 → 1 ≤ f.source.toNat → f.source.toNat ≤ 63 →
      f.payload.length ≤ 24 → h = { source := f.source, target := f.target, groups := f.groups } →
      s.line.rx = .assembling (frameBody f) →
      ∀ i,
        (f.kind = .obs ∧ i = .obsReceived h f.payload ∨ f.kind = .pres ∧ i = .presReceived h f.payload
          ∨ f.kind = .claim ∧ i = .claimReceived h f.payload
          ∨ f.kind = .release ∧ i = .releaseReceived h f.payload
          ∨ f.kind = .cmd ∧ (i = .cmdClose h f.payload ∨ i = .cmdOpen h f.payload ∨ i = .cmdStop h f.payload
            ∨ i = .cmdHold h f.payload ∨ i = .cmdUnhold h f.payload ∨ i = .cmdBadVerb h f.payload)
          ∨ f.kind = .read ∧ i = .read h f.payload ∨ f.kind = .take ∧ i = .take h f.payload
          ∨ f.kind = .clear ∧ i = .clear h f.payload ∨ f.kind = .restart ∧ i = .restart h f.payload
          ∨ f.kind = .reply ∧ i = .replyReceived h f.payload) →
        exec (.lineByteArrival (checkByte (frameBody f))) s = exec i s)
  ∧ (∀ f : Frame, frameBody f =
      [BitVec.ofNat 8
          ((match f.kind with
            | .obs => 1 | .pres => 2 | .claim => 3 | .release => 4 | .cmd => 5 | .read => 6 | .take => 7
            | .clear => 8 | .restart => 9 | .reply => 10) * 16 + f.prio),
        f.source, f.target, f.groups, BitVec.ofNat 8 f.payload.length] ++ f.payload)
  ∧ ∀ (bs : List Byte) (b : Byte), checkByte [] = 0 ∧ checkByte (bs ++ [b]) = checkByte bs ^^^ b

/-- R139, R140: a faulty frame is discarded at the byte that shows the fault, or at a gap, with RX_ERROR, its error
code and source, and counted as rejected (the byte shows which fault it is: log 5); a quiet line lets the next byte
begin a frame. -/
def Obligations.FaultyFrameDiscarded : Prop :=
  (∀ (s : State) (b : Byte), Settled s → s.link.state ≠ .offline →
    (∀ f ∈ s.line.queue, f.sending = false) →
    ∀ (bs : List Byte) (rx : Receiver) (code : ErrorCode) (source : Nat),
      (bs = [] ∧ s.line.rx = .idle
          ∧ (b.toNat / 16 = 0 ∨ 11 ≤ b.toNat / 16 ∨ 4 ≤ b.toNat % 16)
          ∧ rx = .passingOver ∧ code = .rxLength ∧ source = 0
        ∨ s.line.rx = .assembling bs ∧ bs.length = 1 ∧ (b.toNat = 0 ∨ 64 ≤ b.toNat)
          ∧ rx = .passingOver ∧ code = .rxLength ∧ source = 0
        ∨ s.line.rx = .assembling bs ∧ bs.length = 4 ∧ 25 ≤ b.toNat
          ∧ rx = .passingOver ∧ code = .rxLength
          ∧ source = (if 1 ≤ (bs.getD 1 0).toNat ∧ (bs.getD 1 0).toNat ≤ 63 then (bs.getD 1 0).toNat else 0)
        ∨ s.line.rx = .assembling bs ∧ 5 ≤ bs.length ∧ bs.length = 5 + (bs.getD 4 0).toNat
          ∧ b ≠ bs.foldl (· ^^^ ·) 0
          ∧ rx = .idle ∧ code = .rxCheck
          ∧ source = (if 1 ≤ (bs.getD 1 0).toNat ∧ (bs.getD 1 0).toNat ≤ 63 then (bs.getD 1 0).toNat else 0)) →
      exec (.rxFrameFault b) s = .next
        { s with
          line := { s.line with rx := rx }
          status := withError .rxError code source
            { s.status with
              rejected := if s.status.rejected < 65535 then s.status.rejected + 1 else s.status.rejected } })
  ∧ ∀ s : State, Settled s →
      (∀ bs, s.line.rx = .assembling bs →
        exec .rxGapExpiry s = .next
          { s with
            line := { s.line with rx := .idle }
            status := withError .rxError .rxGap
              (if 1 ≤ (bs.getD 1 0).toNat ∧ (bs.getD 1 0).toNat ≤ 63 then (bs.getD 1 0).toNat else 0)
              { s.status with
                rejected := if s.status.rejected < 65535 then s.status.rejected + 1 else s.status.rejected } })
      ∧ ((∀ bs, s.line.rx ≠ .assembling bs) → exec .rxGapExpiry s = .next s)
      ∧ exec .rxQuietResync s = .next
          { s with line := { s.line with rx := if s.line.rx = .passingOver then .idle else s.line.rx } }

/-- R146, R147: the transmission of the head frame begins at the deferral slot of its index, where the link state
transmits and no frame is under transmission. -/
def Obligations.HeadFrameStartsAtItsSlot : Prop :=
  ∀ (s : State) (slot : Nat), Settled s →
    (∀ f q, s.line.queue = f :: q → (∀ g ∈ s.line.queue, g.sending = false) →
      (s.link.state = .active ∨ s.link.state = .isolated) →
      slot = (3 - f.frame.prio) * 64 + s.cfg.station →
      exec (.deferralSlot slot) s = .next
        { s with
          line :=
            { rx := if s.line.rx = .passingOver then .passingOver else .idle
              queue := { f with sending := true } :: q } })
    ∧ ((s.line.queue = [] ∨ s.link.state = .offline ∨ s.link.state = .listen ∨ s.link.state = .mute
        ∨ (∃ g ∈ s.line.queue, g.sending = true)
        ∨ ∃ f q, s.line.queue = f :: q ∧ slot ≠ (3 - f.frame.prio) * 64 + s.cfg.station) →
        exec (.deferralSlot slot) s = .next s)

/-- R72, R84 to R86, R148, R149, R154, R155, R172: the end of a transmission: completed, tried again, given way to a
newer frame, or dropped after its retries. A completed CLAIM makes its ANNOUNCING entry SETTLING and renews any other;
a dropped one withdraws its ANNOUNCING entry, whose newer waiting CLAIM is cancelled, and leaves any other; a
RESTART's REPLY marks the restart at either end, which begins at the end of the command
(Obligations.CommandEndsWithItsScan); the eighth drop mutes the link. A CLAIM's result finds its entry by tag (log
27), and one whose entry has left is tried again as another frame is (log 35). -/
def Obligations.TransmissionEndsByEchoCheck : Prop :=
  ∀ (s u : State) (q1 q2 : List TxFrame) (f : TxFrame), Settled s →
    s.line.queue = q1 ++ f :: q2 → f.sending = true → (∀ g ∈ q1 ++ q2, g.sending = false) →
    u = { s with
          line := { s.line with queue := q1 ++ q2 }
          supply := { s.supply with
            entries := s.supply.entries.map (fun e =>
              if e.refreshBarred then { e with refreshBarred := false } else e) }
          work := { s.work with scan := s.jobs.any Job.heldBack } } →
    (∀ v, v = { u with
                status := { s.status with
                  sent := if s.status.sent < 65535 then s.status.sent + 1 else s.status.sent }
                link := { s.link with drops := if s.link.drops < 8 then 0 else s.link.drops } } →
      ((f.owner = .obs ∨ f.owner = .pres ∨ f.owner = .release ∨ f.owner = .reply false) →
        exec .transmitComplete s = .next (finish v))
      ∧ (f.owner = .reply true →
          (s.requests.pendingRestart = true →
            exec .transmitComplete s = .next (finish { v with work := { v.work with restart := true } })
            ∧ ∃ t, exec .transmitComplete s = .next t ∧ t.phase = .warmLoad)
          ∧ (s.requests.pendingRestart = false → exec .transmitComplete s = .next (finish v)))
      ∧ (∀ tag n e, f.owner = .claim tag n → ownTagged tag v = some e → e.state = .announcing →
          exec .transmitComplete s = .next (finish
            { v with
              supply := { v.supply with
                entries := v.supply.entries.map (fun x =>
                  if x.own && decide (x.chan = e.chan) then
                    { x with state := .settling s.cfg.settleMs, ageMs := 0 } else x) }
              jobs := s.jobs.map (fun j => if j.chan = e.chan then { j with state := .settling } else j) }))
      ∧ (∀ tag n e, f.owner = .claim tag n → ownTagged tag v = some e → e.state ≠ .announcing →
          exec .transmitComplete s = .next (finish
            { v with
              supply := { v.supply with
                entries := v.supply.entries.map (fun x =>
                  if x.own && decide (x.chan = e.chan) then { x with ageMs := 0 } else x) } }))
      ∧ (∀ tag n, f.owner = .claim tag n → ownTagged tag v = none →
          exec .transmitComplete s = .next (finish v)))
    ∧ (f.attempts + 1 ≤ s.cfg.txRetries → hasNewer f (q1 ++ q2) = false →
        exec .echoMismatch s = .next
          { s with
            line := { s.line with
              queue := q1 ++ { f with sending := false, attempts := f.attempts + 1 } :: q2 }
            status := { s.status with
              retries := if s.status.retries < 65535 then s.status.retries + 1 else s.status.retries } })
    ∧ (∀ v, v = { u with
          status := { s.status with
            retries := if s.status.retries < 65535 then s.status.retries + 1 else s.status.retries } } →
        f.attempts + 1 ≤ s.cfg.txRetries →
        ((f.owner = .obs ∨ f.owner = .pres) → (∃ g ∈ q1 ++ q2, g.owner = f.owner) →
          exec .echoMismatch s = .next (finish v))
        ∧ (∀ tag n, f.owner = .claim tag n → (∃ g ∈ q1 ++ q2, ∃ m, g.owner = .claim tag m) →
            (ownTagged tag v = none → exec .echoMismatch s = .next (finish v))
            ∧ ∀ e, ownTagged tag v = some e →
                exec .echoMismatch s = .next (finish (queueClaim e n v))))
    ∧ (∀ v, v = { u with
          status := withError .txDropped .txDropped 0
            { s.status with
              retries := if s.status.retries < 65535 then s.status.retries + 1 else s.status.retries } } →
        s.cfg.txRetries < f.attempts + 1 →
        (∀ tag n e, f.owner = .claim tag n → s.link.drops + 1 < 8 → ownTagged tag v = some e →
          (e.state ≠ .announcing → exec .echoMismatch s = .next (finish
            { v with link := { s.link with drops := s.link.drops + 1 } }))
          ∧ (e.state = .announcing → ∀ w,
              w = cancelClaim tag
                { v with
                  supply := { v.supply with
                    entries := v.supply.entries.filter (fun x => !(x.own && decide (x.chan = e.chan))) } } →
              exec .echoMismatch s = .next (finish
                { w with
                  jobs := w.jobs.map (fun j =>
                    if j.chan = e.chan then { j with state := .waiting, heldBack := false } else j)
                  link := { s.link with drops := s.link.drops + 1 }
                  work := { w.work with scan := true } })))
        ∧ (∀ tag n, f.owner = .claim tag n → s.link.drops + 1 < 8 → ownTagged tag v = none →
            exec .echoMismatch s = .next (finish
              { v with link := { s.link with drops := s.link.drops + 1 } }))
        ∧ (f.owner = .reply true → s.requests.pendingRestart = true →
            ∃ t, exec .echoMismatch s = .next t ∧ t.phase = .warmLoad)
        ∧ (∀ w, w = tellDropped f.owner false v →
            (f.owner = .reply true →
              w = { v with work := { v.work with restart := s.requests.pendingRestart } })
            ∧ (s.link.drops + 1 < 8 →
                exec .echoMismatch s = .next (finish
                  { w with link := { s.link with drops := s.link.drops + 1 } }))
            ∧ ((s.link.drops = 7 ∨ s.link.drops = 8) →
                ((s.link.state = .listen ∨ s.link.state = .active ∨ s.link.state = .isolated) →
                  exec .echoMismatch s = .next (finish (enterLink .mute
                    { w with link := { s.link with drops := 8 } })))
                ∧ ((s.link.state = .offline ∨ s.link.state = .mute) →
                  exec .echoMismatch s = .next (finish { w with link := { s.link with drops := 8 } }))))
        ∧ (s.link.drops = 7 →
            (s.link.state = .listen ∨ s.link.state = .active ∨ s.link.state = .isolated) →
            (f.owner = .obs ∨ f.owner = .pres ∨ f.owner = .release ∨ f.owner = .reply false) →
            exec .echoMismatch s = .next (finish (enterLink .mute
              { v with link := { s.link with drops := 8 } }))))
    ∧ (s.cfg.txRetries < f.attempts + 1 → s.link.drops + 1 < 8 →
        (f.owner = .obs ∨ f.owner = .pres ∨ f.owner = .release ∨ f.owner = .reply false) →
        exec .echoMismatch s = .next (finish
          { u with
            status := withError .txDropped .txDropped 0
              { s.status with
                retries := if s.status.retries < 65535 then s.status.retries + 1 else s.status.retries }
            link := { s.link with drops := s.link.drops + 1 } }))
    ∧ (s.cfg.txRetries < f.attempts + 1 → s.link.drops = 7 → s.requests.pendingRestart = false →
        (s.link.state = .listen ∨ s.link.state = .active ∨ s.link.state = .isolated) →
        ∃ t, exec .echoMismatch s = .next t ∧ t.link.state = .mute ∧ t.link.drops = 8)
    ∧ (hasNewer f (q1 ++ q2) = true ↔
        (f.owner = .obs ∨ f.owner = .pres) ∧ (∃ g ∈ q1 ++ q2, g.owner = f.owner)
        ∨ ∃ tag n, f.owner = .claim tag n ∧ ∃ g ∈ q1 ++ q2, ∃ m, g.owner = .claim tag m)

/-- R73, R91, R151 to R153, R156, R157, R172: the join, isolation and presence timers run out; what an entry into each
link state brings, in order: its timers, the event ISOLATED or the PRES of ACTIVE, the withdrawal of every ANNOUNCING
job, the isolation policy, opening re-judged for every channel, and one scan; and the PRES payload. R156 orders these
stages and no channels within one: that withdrawal and re-judgement take them in ascending number, which decides the
order of the RELEASEs of one change, is the model's choice (log 14). -/
def Obligations.LinkTimersChangeLinkState : Prop :=
  (∀ s : State, Ready s →
    (s.link.join ≠ none →
      ∃ t, exec .joinTimerExpiry s = .next t ∧ t.link =
        { state := .active, join := none, isolation := some (s.cfg.isolationS * 1000)
          presence := some (s.cfg.presenceS * 1000), drops := s.link.drops })
    ∧ (s.link.join = none → exec .joinTimerExpiry s = .next s)
    ∧ (s.link.isolation ≠ none →
        ∃ t, exec .isolationTimerExpiry s = .next t ∧ t.link =
          { state := .isolated, join := none, isolation := none, presence := s.link.presence
            drops := s.link.drops })
    ∧ (s.link.isolation = none → exec .isolationTimerExpiry s = .next s)
    ∧ (s.link.presence ≠ none →
        exec .presenceTimerExpiry s = .next (finish (enqueue
          { frame :=
              { kind := .pres, prio := 0, source := BitVec.ofNat 8 s.cfg.station, target := 0
                groups := 0, payload := presPayload s }
            owner := .pres, attempts := 0, sending := false }
          { s with link := { s.link with presence := some (s.cfg.presenceS * 1000) } })))
    ∧ (s.link.presence = none → exec .presenceTimerExpiry s = .next s))
  ∧ (∀ s : State, Settled s →
      (s.link.join ≠ none → exec .joinTimerExpiry s = .next (finish (enterLink .active s)))
      ∧ (s.link.isolation ≠ none →
          exec .isolationTimerExpiry s = .next (finish (enterLink .isolated s))))
  ∧ (∀ (s u : State) (l : Link),
    l = { state := .listen, join := some (s.cfg.lifetimeS * 1000), isolation := none, presence := none
          drops := s.link.drops } →
    u = { s with link := l } → enterLink .listen s = rejudgeAll (withdrawAll u))
  ∧ (∀ (s u : State) (l : Link),
    l = { state := .active, join := none, isolation := some (s.cfg.isolationS * 1000)
          presence := some (s.cfg.presenceS * 1000), drops := s.link.drops } →
    u = { s with link := l } →
    enterLink .active s = wantScan (rejudgeAll (enqueue
      { frame :=
          { kind := .pres, prio := 0, source := BitVec.ofNat 8 s.cfg.station, target := 0
            groups := 0, payload := presPayload u }
        owner := .pres, attempts := 0, sending := false } u)))
  ∧ (∀ (s u : State) (l : Link),
    l = { state := .isolated, join := none, isolation := none, presence := s.link.presence
          drops := s.link.drops } →
    u = { s with
          link := l
          status := { s.status with
            flags := s.status.flags ||| 0x40
            counters := { s.status.counters with
              isolated :=
                if s.status.counters.isolated < 255 then s.status.counters.isolated + 1
                else s.status.counters.isolated } } } →
    enterLink .isolated s = wantScan (rejudgeAll (applyPolicy (withdrawAll u))))
  ∧ (∀ (s u : State) (l : Link),
    l = { state := .mute, join := none, isolation := none, presence := none, drops := s.link.drops } →
    u = { s with
          link := l
          work := { s.work with restart := s.work.restart || s.requests.pendingRestart } } →
    enterLink .mute s = wantScan (rejudgeAll (applyPolicy (withdrawAll u))))
  ∧ (∀ s : State, rejudgeAll s = allChannels.foldl (fun t c => rejudge c t) s
      ∧ withdrawAll s = allChannels.foldl withdrawAnnouncing s
      ∧ (JobsOrdered s.jobs →
          (∀ j ∈ (withdrawAll s).jobs, j.state ≠ .announcing)
          ∧ ∀ c j, jobOf c s = some j → j.state = .announcing → ownEntry c (withdrawAll s) = none)
      ∧ ∀ c : Channel,
          ((∀ j, jobOf c s = some j → j.state ≠ .announcing) → withdrawAnnouncing s c = s)
          ∧ ∀ j u, jobOf c s = some j → j.state = .announcing → u = removeOwn c false s →
              withdrawAnnouncing s c =
                { u with
                  jobs := u.jobs.map (fun k =>
                    if k.chan = c then { k with state := .waiting, heldBack := false } else k) })
  ∧ ∀ s : State, ∃ a d r f : Byte, presPayload s = [a, d, r, f]
      ∧ a.toNat % 8 = linkCode s.link.state ∧ a.getLsbD 3 = false ∧ a.getLsbD 4 = s.eval.storm
      ∧ a.getLsbD 5 = s.requests.hold.isSome ∧ a.getLsbD 6 = lampFault s ∧ a.getLsbD 7 = false
      ∧ [LinkState.offline, .listen, .active, .isolated, .mute].map linkCode = [0, 1, 2, 3, 4]
      ∧ ∀ c, inMask d c = (s.eval.chans.get c).demand.isSome
          ∧ inMask r c = decide (s.drivers.get c = .idle .closed)
          ∧ inMask f c = isFaulted (s.drivers.get c)

/-! ### Requests and switches (chapter 8) -/

/-- R160 to R163: a CMD judges the channels it names in ascending number, each on the state that the one before it has
left; the accepted and the refused ones make the masks, and the first refusal the code. It is refused as a whole
without authority where it needs it, or for a verb of 0 or over 5; a request of another length than its kind's is
refused with BAD_REQUEST, and one with no payload is not taken and raises RX_ERROR; how a request is answered and a
refusal recorded (masks of 0 where R161 names none: log 22). -/
def Obligations.CommandsJudgedChannelByChannel : Prop :=
  (∀ (f : Channel → State → Verdict × State) (c : Channel) (cs : List Channel) (t : Tally) (s u : State),
    judgeEach f [] t s = (t, s)
    ∧ (f c s = (.accepted, u) →
        judgeEach f (c :: cs) t s = judgeEach f cs { t with accepted := t.accepted ++ [c] } u)
    ∧ ∀ e, f c s = (.refused e, u) →
        judgeEach f (c :: cs) t s = judgeEach f cs
          { t with refused := t.refused ++ [c], code := if t.code = none then some e else t.code } u)
  ∧ Tally.none = { accepted := [], refused := [], code := none }
  ∧ (∀ (cs : List Channel) (c : Channel), inMask (listMask cs) c = true ↔ c ∈ cs)
  ∧ (∀ (c : Channel) (m : Byte), inMask m c = m.getLsbD c.val)
  ∧ allChannels.map (fun c : Channel => c.val + 1) = [1, 2, 3, 4, 5, 6, 7, 8]
  ∧ (∀ s : State, enabledChannels s =
      allChannels.filter (fun c => decide ((s.cfg.channels.get c).cls ≠ .unused)))
  ∧   (∀ (q : Asked) (a : Answer) (s u : State),
    u = (if q.single then
          enqueue
            { frame :=
                { kind := .reply, prio := 1, source := BitVec.ofNat 8 s.cfg.station, target := q.source
                  groups := 0
                  payload := [a.number, BitVec.ofNat 8 a.what,
                    BitVec.ofNat 8 ((a.code.map errorNumber).getD 0), a.accepted, a.refused] ++ a.data }
              owner := .reply false, attempts := 0, sending := false } s
         else s) →
    (a.code = none → answer q a s = u)
    ∧ ∀ e, a.code = some e → answer q a s =
        { u with
          status :=
            { withError .requestRefused e q.source.toNat u.status with
              refusedWhat := a.what, refusedBy := .station q.source.toNat } })
  ∧ (∀ (h : Header) (n verb mask minutes : Byte) (s : State) (q : Asked) (names : List Channel)
      (authority : Prop),
      PeerFrame h [n, verb, mask, minutes] s → (ToStation h s ∨ ToGroup h s) → q = askedOf h s →
      names = (if mask = 0 then enabledChannels s else allChannels.filter (inMask mask)) →
      (authority ↔ ((∀ a ∈ s.cfg.authority, a = 0) ∨ h.source.toNat ∈ s.cfg.authority)) →
      (verb = 1 → ∀ r,
        r = judgeEach (closeChannel .command (.station h.source.toNat)) names Tally.none (counted s) →
        exec (.cmdClose h [n, verb, mask, minutes]) s = .next (finish (answer q
          { number := n, what := 1, code := r.1.code, accepted := listMask r.1.accepted
            refused := listMask r.1.refused, data := [] } r.2)))
      ∧ (verb = 2 → authority → ∀ r,
        r = judgeEach (openChannel .openCommand (.station h.source.toNat)) names Tally.none (counted s) →
        exec (.cmdOpen h [n, verb, mask, minutes]) s = .next (finish (answer q
          { number := n, what := 2, code := r.1.code, accepted := listMask r.1.accepted
            refused := listMask r.1.refused, data := [] } r.2)))
      ∧ (verb = 3 → authority → ∀ r, r = judgeEach stopChannel names Tally.none (counted s) →
        exec (.cmdStop h [n, verb, mask, minutes]) s = .next (finish (answer q
          { number := n, what := 3, code := r.1.code, accepted := listMask r.1.accepted
            refused := listMask r.1.refused, data := [] } r.2)))
      ∧ (∀ i, ¬ authority →
          (verb = 2 ∧ i = .cmdOpen h [n, verb, mask, minutes]
            ∨ verb = 3 ∧ i = .cmdStop h [n, verb, mask, minutes]) →
          exec i s = .next (finish (answer q
            { number := n, what := verb.toNat, code := some .authority, accepted := 0
              refused := listMask names, data := [] } (counted s))))
      ∧ ((verb = 0 ∨ 5 < verb.toNat) →
          exec (.cmdBadVerb h [n, verb, mask, minutes]) s = .next (finish (answer q
            { number := n, what := 0, code := some .badRequest, accepted := 0, refused := 0, data := [] }
            (counted s)))))
  ∧ (∀ (h : Header) (s : State) (i : Instr), PeerFrame h [] s →
      (((ToStation h s ∨ ToGroup h s)
          ∧ (i = .cmdClose h [] ∨ i = .cmdOpen h [] ∨ i = .cmdStop h [] ∨ i = .cmdHold h []
            ∨ i = .cmdUnhold h [] ∨ i = .cmdBadVerb h []))
        ∨ (ToStation h s
          ∧ (i = .read h [] ∨ i = .take h [] ∨ i = .clear h [] ∨ i = .restart h []))) →
      exec i s = .next
        { counted s with status := withError .rxError .rxLength h.source.toNat (counted s).status })
  ∧ ∀ (h : Header) (n : Byte) (rest : List Byte) (s : State) (i : Instr) (what : Nat),
      PeerFrame h (n :: rest) s →
      (((ToStation h s ∨ ToGroup h s) ∧ rest.length ≠ 3
          ∧ (i = .cmdClose h (n :: rest) ∨ i = .cmdOpen h (n :: rest) ∨ i = .cmdStop h (n :: rest)
            ∨ i = .cmdHold h (n :: rest) ∨ i = .cmdUnhold h (n :: rest) ∨ i = .cmdBadVerb h (n :: rest))
          ∧ what = (if 1 ≤ (rest.getD 0 0).toNat ∧ (rest.getD 0 0).toNat ≤ 5 then (rest.getD 0 0).toNat
              else 0))
        ∨ (ToStation h s ∧ rest.length ≠ 2 ∧ i = .read h (n :: rest) ∧ what = 6)
        ∨ (ToStation h s ∧ rest.length ≠ 0
          ∧ (i = .take h (n :: rest) ∧ what = 7 ∨ i = .clear h (n :: rest) ∧ what = 8
            ∨ i = .restart h (n :: rest) ∧ what = 9))) →
      exec i s = .next (finish (answer (askedOf h s)
        { number := n, what := what, code := some .badRequest, accepted := 0, refused := 0, data := [] }
        (counted s)))

/-- R66, R128, R132, R164 to R166: CLOSE, OPEN and STOP judged for one channel by the state it stands in, the clearing
of a fault by a CLOSE, where the close request of a demand that is SET merges with the verb's, and what a STOP makes
of a motion: WARNING ends with its position, CLOSING, OPENING and BRAKE at PART, BACKOFF runs on with its stop-at-end
marker set, and BLOCKED rests at PART. -/
def Obligations.CloseOpenStopByChannelState : Prop :=
  (∀ (c : Channel) (cause : Cause) (who : Requester) (s : State) (r : CloseReq) (d : Driver),
    r = { cls := 1, cause := cause, who := who, retry := 0, clears := false } → d = s.drivers.get c →
    (d = .disabled →
      closeChannel cause who c s = (.refused .noChannel, s)
      ∧ openChannel cause who c s = (.refused .noChannel, s) ∧ stopChannel c s = (.refused .noChannel, s))
    ∧ (∀ p k, d = .faulted p k →
        (bothLimits c s = true → closeChannel cause who c s = (.refused .fault, s))
        ∧ (bothLimits c s = false → jobOf c s = none → (s.eval.chans.get c).demand = none →
            closeChannel cause who c s = (.accepted,
              { s with
                drivers := s.drivers.set c (.idle
                  (if (s.cfg.channels.get c).timed then .part
                   else if limitOn c .closed s then .closed
                   else if limitOn c .opened s then .opened else .unknown))
                jobs := placeJob
                  { chan := c, dir := .close, cls := 1, zone := (s.cfg.channels.get c).zone
                    exposure := (s.eval.chans.get c).exposure, cause := cause, requester := who
                    retry := 0, state := .waiting, heldBack := false } s.jobs
                work := { s.work with scan := true } }))
        ∧ (bothLimits c s = false → ∀ u v : State,
            u = { s with
                  drivers := s.drivers.set c (.idle
                    (if (s.cfg.channels.get c).timed then .part
                     else if limitOn c .closed s then .closed
                     else if limitOn c .opened s then .opened else .unknown)) } →
            v = queueClose c { r with clears := true } u →
            ((s.eval.chans.get c).demand = none → closeChannel cause who c s = (.accepted, v))
            ∧ ∀ x, (s.eval.chans.get c).demand = some x → ∀ w,
                w = queueClose c
                  { cls := x.cls, cause := x.cause, who := .absent, retry := 0, clears := true } v →
                closeChannel cause who c s = (.accepted, w)
                ∧ (jobOf c s = none → jobOf c w = some
                    { chan := c, dir := .close, cls := max 1 x.cls, zone := (s.cfg.channels.get c).zone
                      exposure := (s.eval.chans.get c).exposure
                      cause := if 1 < x.cls then x.cause else cause, requester := who
                      retry := 0, state := .waiting, heldBack := false }))
        ∧ openChannel cause who c s = (.refused .fault, s)
        ∧ (jobOf c s = none → stopChannel c s = (.accepted, s))
        ∧ (∀ j, jobOf c s = some j →
            ((j.cause = .storm ∨ j.cause = .rain ∨ j.cause = .wind ∨ j.cause = .isolation) →
              stopChannel c s = (.refused .held, s))
            ∧ ((j.cause = .command ∨ j.cause = .wall ∨ j.cause = .openCommand ∨ j.cause = .openWall) →
              ∀ u, u = giveUpClaim j s →
                stopChannel c s = (.accepted,
                  { u with jobs := u.jobs.filter (fun k => decide (k.chan ≠ c)) }))))
    ∧ (∀ p, d = .idle p →
        (p = .closed → (∀ j, jobOf c s = some j → j.dir = .close) →
          closeChannel cause who c s = (.accepted, s))
        ∧ ((p ≠ .closed ∨ ∃ j, jobOf c s = some j ∧ j.dir = .opening) →
            closeChannel cause who c s = (.accepted, queueClose c r s))
        ∧ (jobOf c s = none → stopChannel c s = (.accepted, s))
        ∧ (∀ j, jobOf c s = some j →
            ((j.cause = .storm ∨ j.cause = .rain ∨ j.cause = .wind ∨ j.cause = .isolation) →
              stopChannel c s = (.refused .held, s))
            ∧ ((j.cause = .command ∨ j.cause = .wall ∨ j.cause = .openCommand ∨ j.cause = .openWall) →
              ∀ u, u = giveUpClaim j s →
                stopChannel c s = (.accepted,
                  restore c { u with jobs := u.jobs.filter (fun k => decide (k.chan ≠ c)) }))))
    ∧ (∀ m t b, d = .opening m t b → closeChannel cause who c s = (.accepted, closeRequest c r s))
    ∧ ((isWarning d = true ∨ closeDrive d = true) → closeChannel cause who c s = (.accepted, s))
    ∧ (((∃ m t, d = .brake m t) ∨ (∃ m o t, d = .backoff m o t) ∨ ∃ m t, d = .blocked m t) →
        closeChannel cause who c s = (.accepted, closeRequest c r s))
    ∧ (∀ m, motionOf d = some m →
        ((m.cause = .storm ∨ m.cause = .rain ∨ m.cause = .wind ∨ m.cause = .isolation) →
          stopChannel c s = (.refused .held, s))
        ∧ ((m.cause = .command ∨ m.cause = .wall ∨ m.cause = .openCommand ∨ m.cause = .openWall) →
          stopChannel c s = (.accepted, stopMotion c s)))
    ∧ (d ≠ .disabled → isFaulted d = false →
        (s.link.state ≠ .active → openChannel cause who c s = (.refused .link, s))
        ∧ (s.link.state = .active →
            (s.requests.hold ≠ none → openChannel cause who c s = (.refused .stationHold, s))
            ∧ (s.requests.hold = none →
                (((s.eval.chans.get c).demand ≠ none ∨ s.eval.storm = true ∨ s.picture.fused.g = none
                    ∨ s.picture.fused.r = .unknown) →
                  openChannel cause who c s = (.refused .held, s))
                ∧ (((s.eval.chans.get c).demand = none ∧ s.eval.storm = false ∧ s.picture.fused.g ≠ none
                    ∧ s.picture.fused.r ≠ .unknown) →
                    (((∃ j, jobOf c s = some j ∧ j.dir = .close) ∨ isWarning d = true
                        ∨ closeDrive d = true ∨ (∃ m t, d = .brake m t) ∨ (∃ m o t, d = .backoff m o t)
                        ∨ ∃ m t, d = .blocked m t) →
                      openChannel cause who c s = (.refused .busy, s))
                    ∧ ((d = .idle .opened ∧ jobOf c s = none ∨ isOpening d = true ∧ jobOf c s = none
                        ∨ (∃ p, d = .idle p) ∧ ∃ j, jobOf c s = some j ∧ j.dir = .opening) →
                      openChannel cause who c s = (.accepted, s))
                    ∧ (∀ p, d = .idle p → p ≠ .opened → jobOf c s = none →
                      openChannel cause who c s = (.accepted,
                        { s with
                          jobs := placeJob
                            { chan := c, dir := .opening, cls := 0, zone := (s.cfg.channels.get c).zone
                              exposure := (s.eval.chans.get c).exposure, cause := cause
                              requester := who, retry := 0, state := .waiting, heldBack := false } s.jobs
                          work := { s.work with scan := true } })))))))
  ∧ ∀ (c : Channel) (s : State) (rest : Position → State),
      rest = (fun p => restore c (wantScan (removeOwn c true
        { s with drivers := s.drivers.set c (.idle (settled c p s)) }))) →
      (∀ p m t, s.drivers.get c = .warning p m t → stopMotion c s = rest p)
      ∧ (((∃ m t b, s.drivers.get c = .closing m t b) ∨ (∃ m t b, s.drivers.get c = .opening m t b)
          ∨ ∃ m t, s.drivers.get c = .brake m t) → stopMotion c s = rest .part)
      ∧ (∀ m on t, s.drivers.get c = .backoff m on t →
          stopMotion c s =
            { s with drivers := s.drivers.set c (.backoff { m with stopAtEnd := true } on t) })
      ∧ (∀ m t, s.drivers.get c = .blocked m t →
          stopMotion c s =
            restore c { s with drivers := s.drivers.set c (.idle (settled c .part s)) })
      ∧ ((s.drivers.get c = .disabled ∨ (∃ p, s.drivers.get c = .idle p)
          ∨ ∃ p k, s.drivers.get c = .faulted p k) → stopMotion c s = s)
      ∧ (bothLimits c s = true ↔ (s.cfg.channels.get c).timed = false ∧ limitOn c .closed s = true
          ∧ limitOn c .opened s = true)

/-- R167, R168: a HOLD sets or lengthens the hold by its minutes, taken into 1 to 240; an UNHOLD with authority and
the expiry end it; opening is re-judged at each change. The masks of a refused UNHOLD, the refused mask of an accepted
one, and the accepted mask of one that finds no hold are the model's reading (log 22). -/
def Obligations.HoldSetLengthenedAndEnded : Prop :=
  (∀ (h : Header) (n mask minutes : Byte) (s : State) (q : Asked) (ms : Nat) (a : Answer),
    PeerFrame h [n, 4, mask, minutes] s → (ToStation h s ∨ ToGroup h s) → q = askedOf h s →
    ms = (if minutes = 0 then 1 else if 240 < minutes.toNat then 240 else minutes.toNat) * 60000 →
    a = { number := n, what := 4, code := none, accepted := listMask (enabledChannels s), refused := 0
          data := [] } →
    (s.requests.hold = none →
      exec (.cmdHold h [n, 4, mask, minutes]) s = .next (finish (answer q a
        (rejudgeAll { counted s with requests := { s.requests with hold := some ms } }))))
    ∧ ∀ left, s.requests.hold = some left →
        exec (.cmdHold h [n, 4, mask, minutes]) s = .next (finish (answer q a
          { counted s with requests := { s.requests with hold := some (max left ms) } })))
  ∧ (∀ (h : Header) (n mask minutes : Byte) (s : State) (q : Asked) (a : Answer),
      PeerFrame h [n, 5, mask, minutes] s → (ToStation h s ∨ ToGroup h s) → q = askedOf h s →
      a = { number := n, what := 5, code := none, accepted := listMask (enabledChannels s), refused := 0
            data := [] } →
      (((∀ x ∈ s.cfg.authority, x = 0) ∨ h.source.toNat ∈ s.cfg.authority) →
        exec (.cmdUnhold h [n, 5, mask, minutes]) s = .next (finish (answer q a
          (if s.requests.hold = none then counted s
           else rejudgeAll { counted s with requests := { s.requests with hold := none } }))))
      ∧ (¬ ((∀ x ∈ s.cfg.authority, x = 0) ∨ h.source.toNat ∈ s.cfg.authority) →
          exec (.cmdUnhold h [n, 5, mask, minutes]) s = .next (finish (answer q
            { number := n, what := 5, code := some .authority, accepted := 0, refused := 0, data := [] }
            (counted s)))))
  ∧ ∀ s : State, Settled s →
      (s.requests.hold ≠ none →
        exec .holdExpiry s = .next (finish (rejudgeAll
          { s with requests := { s.requests with hold := none } })))
      ∧ (s.requests.hold = none → exec .holdExpiry s = .next s)

/-- R169, R176 to R179, R31, R36, R77, R106, R134, R159, R168: a READ of 1 to 9 words within the fifty is answered with
them, and any other is refused; what each of the fifty words shows (`two hi lo`: the word of those two bytes); the
numbers of events and errors; and what raising an event makes of its flag, its counter and the error record. The masks
of 0 are the model's reading where R161 and R169 leave them open (log 22), and the low byte of the word of an unused
slot is the model's choice (log 34). -/
def Obligations.ReadAnswersStatusWords : Prop :=
  (∀ (h : Header) (n start count : Byte) (s : State), PeerFrame h [n, start, count] s → ToStation h s →
    ((count = 0 ∨ 9 < count.toNat) →
      exec (.read h [n, start, count]) s = .next (finish (answer (askedOf h s)
        { number := n, what := 6, code := some .badRequest, accepted := 0, refused := 0, data := [] }
        (counted s))))
    ∧ (1 ≤ count.toNat → count.toNat ≤ 9 → 49 < start.toNat + count.toNat - 1 →
        exec (.read h [n, start, count]) s = .next (finish (answer (askedOf h s)
          { number := n, what := 6, code := some .range, accepted := 0, refused := 0, data := [] }
          (counted s))))
    ∧ (1 ≤ count.toNat → count.toNat ≤ 9 → start.toNat + count.toNat - 1 ≤ 49 →
        ∃ words : List Byte,
          exec (.read h [n, start, count]) s = .next (finish (answer (askedOf h s)
            { number := n, what := 6, code := none, accepted := 0, refused := 0, data := words }
            (counted s)))
          ∧ words.length = 2 * count.toNat
          ∧ ∀ i, i < count.toNat →
              (words.getD (2 * i) 0).toNat * 256 + (words.getD (2 * i + 1) 0).toNat
                = (statusWord (counted s) (start.toNat + i)).toNat))
  ∧ (∀ (two : Nat → Nat → Word) (s : State),
    two = (fun hi lo => BitVec.ofNat 8 hi ++ BitVec.ofNat 8 lo) →
    statusWord s 0 = 0x0B41
    ∧ statusWord s 1 = two s.cfg.station s.cfg.circuit
    ∧ (∀ r, s.loader.result = some r →
        statusWord s 2 = two
          (match s.link.state with
           | .offline => 0 | .listen => 1 | .active => 2 | .isolated => 3 | .mute => 4)
          (match r with | .loaded => 0 | .clamped => 1 | .defaulted => 2))
    ∧ statusWord s 3 = BitVec.ofNat 16 s.cfg.budget
    ∧ statusWord s 4 = BitVec.ofNat 16 ((s.supply.entries.filter Entry.own).map Entry.draw).sum
    ∧ statusWord s 5 = BitVec.ofNat 16
        ((s.supply.entries.filter (fun e => decide (e.state ≠ .yielding))).map Entry.draw).sum
    ∧ statusWord s 6 = two s.supply.entries.length (s.supply.entries.countP Entry.own)
    ∧ (s.jobs = [] → statusWord s 7 = 0)
    ∧ (∀ j js, s.jobs = j :: js → statusWord s 7 = two (js.length + 1) (j.chan.val + 1))
    ∧ (s.picture.fused.g = none → statusWord s 8 = 0xFFFF)
    ∧ (∀ g, s.picture.fused.g = some g → statusWord s 8 = BitVec.ofNat 16 g)
    ∧ statusWord s 9 = two (s.picture.fused.w.getD 16)
        (match s.picture.fused.r with | .dry => 0 | .wet => 1 | .unknown => 2)
    ∧ (s.requests.hold = none → statusWord s 10 = two (if s.eval.storm then 1 else 0) 0)
    ∧ (∀ ms minutes, s.requests.hold = some ms → ms ≤ minutes * 60000 → minutes * 60000 < ms + 60000 →
        statusWord s 10 = two (if s.eval.storm then 1 else 0) minutes)
    ∧ (∀ (c : Channel) (position : Position → Nat) (cause : Cause → Nat),
        position = (fun | .closed => 0 | .opened => 1 | .part => 2 | .unknown => 3) →
        cause = (fun
          | .storm => 1 | .rain => 2 | .wind => 3 | .isolation => 4 | .command => 5 | .wall => 6
          | .openCommand => 7 | .openWall => 8) →
        statusWord s (11 + c.val) =
          (match s.drivers.get c with
           | .disabled => two 0x0F 0
           | .idle p =>
             two (0x10 + position p)
               (match (s.eval.chans.get c).demand with | some d => cause d.cause | none => 0)
           | .warning p m _ => two (0x20 + position p) (cause m.cause)
           | .closing m _ _ => two 0x32 (cause m.cause)
           | .opening m _ _ => two 0x42 (cause m.cause)
           | .brake m _ => two 0x52 (cause m.cause)
           | .backoff m _ _ => two 0x62 (cause m.cause)
           | .blocked m _ => two 0x72 (cause m.cause)
           | .faulted p k =>
             two (0x80 + position p) (match k with | .travel => 1 | .limit => 2 | .obstructed => 3)))
    ∧ (∀ c : Channel,
        ((s.eval.chans.get c).exposure = none → statusWord s (19 + c.val) = 0xFFFF)
        ∧ ∀ e, (s.eval.chans.get c).exposure = some e →
            statusWord s (19 + c.val) = BitVec.ofNat 16 e)
    ∧ statusWord s 27 = s.status.flags
    ∧ (∀ a b : Event, eventNumber a % 2 = 0 → eventNumber b = eventNumber a + 1 →
        statusWord s (28 + eventNumber a / 2) =
          two (counterOf s.status.counters a) (counterOf s.status.counters b))
    ∧ (s.status.errorCode = none → statusWord s 36 = two 0 s.status.errorSource)
    ∧ (∀ e, s.status.errorCode = some e → statusWord s 36 = two (errorNumber e) s.status.errorSource)
    ∧ statusWord s 37 = two s.status.refusedWhat
        (match s.status.refusedBy with | .station n => n | .wall => 255 | .absent => 0)
    ∧ statusWord s 38 = BitVec.ofNat 16 s.status.received
    ∧ statusWord s 39 = BitVec.ofNat 16 s.status.rejected
    ∧ statusWord s 40 = BitVec.ofNat 16 s.status.sent
    ∧ statusWord s 41 = BitVec.ofNat 16 s.status.retries
    ∧ ∀ k : SlotId, statusWord s (42 + k.val) =
        two (s.picture.slots.get k).station
          (match (s.picture.slots.get k).entry with | .absent => 0 | .fresh _ _ => 1 | .stale _ _ => 2))
  ∧ [Event.obstruction, .travelFault, .limitFault, .openBlocked, .rainLineFault, .sourceLost, .isolated,
      .duplicateStation, .txDropped, .txOverflow, .rxError, .claimExpired, .overBudget, .configClamped,
      .requestRefused, .storm].map eventNumber = List.range 16
  ∧ [ErrorCode.authority, .held, .stationHold, .link, .fault, .busy, .noChannel, .range, .badRequest,
      .restartNotAllowed, .txDropped, .txOverflow, .rxCheck, .rxLength, .rxGap, .obstructedFinal, .travel,
      .limit, .claimExpired, .overBudget, .duplicate, .tableFull].map errorNumber =
    List.range' 1 10 ++ List.range' 16 12
  ∧ ∀ (e : Event) (s t : State), t = raiseEvent e s →
    t = { s with status := { s.status with flags := t.status.flags, counters := t.status.counters } }
    ∧ (∀ n, n < 16 →
        t.status.flags.getLsbD n = (s.status.flags.getLsbD n || decide (n = eventNumber e)))
    ∧ (∀ a, a ≠ e → counterOf t.status.counters a = counterOf s.status.counters a)
    ∧ (counterOf s.status.counters e < 255 →
        counterOf t.status.counters e = counterOf s.status.counters e + 1)
    ∧ (255 ≤ counterOf s.status.counters e →
        counterOf t.status.counters e = counterOf s.status.counters e)
    ∧ ∀ (code : ErrorCode) (source : Nat),
        withError e code source s.status =
          { t.status with errorCode := some code, errorSource := source }
        ∧ raiseError e code source s = { s with status := withError e code source s.status }
        ∧ recordError code source s =
            { s with status := { s.status with errorCode := some code, errorSource := source } }

/-- R170 to R172, R180: TAKE returns the flags and clears them, but not in MUTE; CLEAR zeroes the records and not the
flags; RESTART is judged by authority and by the configuration, and in MUTE the restart begins at once, at the end of
the command (Obligations.CommandEndsWithItsScan). The masks of 0 are the model's reading where R161 and R170 to R172
leave them open (log 22). -/
def Obligations.TakeClearAndRestart : Prop :=
  ∀ (h : Header) (n : Byte) (s : State) (q : Asked) (authority : Prop), PeerFrame h [n] s →
    ToStation h s → q = askedOf h s →
    (authority ↔ ((∀ a ∈ s.cfg.authority, a = 0) ∨ h.source.toNat ∈ s.cfg.authority)) →
    (s.link.state = .mute →
      exec (.take h [n]) s = .next (finish (answer q
        { number := n, what := 7, code := some .link, accepted := 0, refused := 0, data := [] } (counted s))))
    ∧ (s.link.state ≠ .mute →
        exec (.take h [n]) s = .next (finish (answer q
          { number := n, what := 7, code := none, accepted := 0, refused := 0
            data := [BitVec.ofNat 8 (s.status.flags.toNat / 256), BitVec.ofNat 8 s.status.flags.toNat] }
          { counted s with status := { (counted s).status with flags := 0 } })))
    ∧ (authority →
        exec (.clear h [n]) s = .next (finish (answer q
          { number := n, what := 8, code := none, accepted := 0, refused := 0, data := [] }
          { counted s with
            status :=
              { flags := s.status.flags, counters := Counters.zero, errorCode := none, errorSource := 0
                refusedWhat := 0, refusedBy := .absent, received := 0, rejected := 0, sent := 0
                retries := 0 } })))
    ∧ (¬ authority → ∀ i k,
        (i = .clear h [n] ∧ k = 8 ∨ i = .restart h [n] ∧ k = 9) →
        exec i s = .next (finish (answer q
          { number := n, what := k, code := some .authority, accepted := 0, refused := 0, data := [] }
          (counted s))))
    ∧ (authority → s.cfg.remoteRestart = false →
        exec (.restart h [n]) s = .next (finish (answer q
          { number := n, what := 9, code := some .restartNotAllowed, accepted := 0, refused := 0
            data := [] } (counted s))))
    ∧ (authority → s.cfg.remoteRestart = true →
        (s.link.state = .mute → ∃ t, exec (.restart h [n]) s = .next t ∧ t.phase = .warmLoad)
        ∧ (∀ u, u = enqueue
              { frame :=
                  { kind := .reply, prio := 1, source := BitVec.ofNat 8 s.cfg.station
                    target := h.source, groups := 0, payload := [n, 9, 0, 0, 0] }
                owner := .reply true, attempts := 0, sending := false }
              { counted s with requests := { s.requests with pendingRestart := true } } →
            (s.link.state = .mute →
              exec (.restart h [n]) s = .next (finish { u with work := { u.work with restart := true } }))
            ∧ (s.link.state ≠ .mute → exec (.restart h [n]) s = .next (finish u)))
        ∧ (s.link.state ≠ .mute → s.line.queue.length < 8 →
            exec (.restart h [n]) s = .next
              { counted s with
                requests := { s.requests with pendingRestart := true }
                line :=
                  { rx := .idle
                    queue := placeFrame
                      { frame :=
                          { kind := .reply, prio := 1, source := BitVec.ofNat 8 s.cfg.station
                            target := h.source, groups := 0, payload := [n, 9, 0, 0, 0] }
                        owner := .reply true, attempts := 0, sending := false } s.line.queue } }))

/-- R173: a switch input is debounced for 50 ms towards a press where it has stood released, and towards release where
it has not (the bit that says so: log 23). -/
def Obligations.SwitchDebouncedFor50Ms : Prop :=
  ∀ (w : SwitchId) (s : State) (x : Switch), Settled s → x = switchOf w s →
    exec (.switchInputChange w x.input) s = .next s
    ∧ exec (.switchInputChange w (!x.input)) s = .next
        (setSwitch w
          { x with
            input := !x.input
            debounce :=
              if x.input = false ∧ x.pressed = false ∧ x.mustRelease = false
                  ∨ x.input = true ∧ (x.pressed = true ∨ x.mustRelease = true) then some 50
              else none } s)
    ∧ (x.input = false → x.debounce ≠ none →
        exec (.switchReleaseDebounce w) s = .next
          (setSwitch w { x with pressed := false, mustRelease := false, debounce := none } s))
    ∧ ((x.input = true ∨ x.debounce = none) → exec (.switchReleaseDebounce w) s = .next s)
    ∧ switchOf .swClose s = s.requests.swClose ∧ switchOf .swOpen s = s.requests.swOpen
    ∧ ∀ y : Switch,
        setSwitch .swClose y s = { s with requests := { s.requests with swClose := y } }
        ∧ setSwitch .swOpen y s = { s with requests := { s.requests with swOpen := y } }

/-- R174, R162, R133: a press is a stop press where a person has begun a motion or a job of a local channel
(begunByPerson: a motion in any of its states, or else a queued job, of cause COMMAND, LOCAL, OPEN_COMMAND or
OPEN_LOCAL), and a close or an open on the local channels otherwise, judged one by one (judgeEach:
Obligations.CommandsJudgedChannelByChannel); a refused SW_OPEN press chirps for 0.5 s. -/
def Obligations.PressStopsClosesOrOpens : Prop :=
  (∀ (w : SwitchId) (i : Instr) (s u : State) (x : Switch) (locals : List Channel), Settled s →
    (w = .swClose ∧ i = .swClosePress ∨ w = .swOpen ∧ i = .swOpenPress) → x = switchOf w s →
    locals = allChannels.filter (fun c => (s.cfg.channels.get c).localSwitch) →
    u = setSwitch w { x with pressed := true, debounce := none } s →
    ((x.input = false ∨ x.debounce = none) → exec i s = .next s)
    ∧ (x.input = true → x.debounce ≠ none →
        ((∃ c ∈ locals, begunByPerson c s = true) →
          exec i s = .next (finish (locals.foldl
            (fun t c => if begunByPerson c t then (stopChannel c t).2 else t) u)))
        ∧ ((∀ c ∈ locals, begunByPerson c s = false) →
            (w = .swClose → ∀ r, r = judgeEach (closeChannel .wall .wall) locals Tally.none u →
              exec i s = .next (finish (match r.1.code with
                | none => r.2
                | some e => recordRefusal 1 .wall e r.2)))
            ∧ (w = .swOpen → s.cfg.localOpen = true →
                ∀ r, r = judgeEach (openChannel .openWall .wall) locals Tally.none u →
                exec i s = .next (finish (match r.1.code with
                  | none => r.2
                  | some e => { recordRefusal 2 .wall e r.2 with chirp := some 500 })))
            ∧ (w = .swOpen → s.cfg.localOpen = false →
                exec i s = .next
                  (if locals = [] then u
                   else { recordRefusal 2 .wall .authority u with chirp := some 500 })))))
  ∧ (∀ (c : Channel) (s : State) (person : Cause → Prop),
    (∀ k, person k ↔ k = .command ∨ k = .wall ∨ k = .openCommand ∨ k = .openWall) →
    (∀ m, ((∃ p t, s.drivers.get c = .warning p m t) ∨ (∃ t b, s.drivers.get c = .closing m t b)
        ∨ (∃ t b, s.drivers.get c = .opening m t b) ∨ (∃ t, s.drivers.get c = .brake m t)
        ∨ (∃ on t, s.drivers.get c = .backoff m on t) ∨ ∃ t, s.drivers.get c = .blocked m t) →
      (begunByPerson c s = true ↔ person m.cause))
    ∧ ((s.drivers.get c = .disabled ∨ (∃ p, s.drivers.get c = .idle p)
        ∨ ∃ p k, s.drivers.get c = .faulted p k) →
      (begunByPerson c s = true ↔ ∃ j, jobOf c s = some j ∧ person j.cause)))
  ∧ ∀ (what : Nat) (who : Requester) (e : ErrorCode) (s : State),
    recordRefusal what who e s =
      { s with
        status :=
          { withError .requestRefused e (match who with | .station n => n | .wall => 0 | .absent => 0)
              s.status with
            refusedWhat := what, refusedBy := who } }

/-! ### Invariants -/

/-- R80 to R82, R78, R107: the own total never exceeds the budget, and no own entry is YIELDING: every step keeps it. -/
def Obligations.OwnTotalStaysWithinBudget : Prop :=
  ∀ s t : State, WithinBudget s → EmptyUntilLoaded s → step s = .next t →
    WithinBudget t ∧ EmptyUntilLoaded t

/-- R79: every channel's jobs and own entries fit its state: every step keeps it. -/
def Obligations.ClaimsFitMotionsAndJobs : Prop :=
  ∀ s t : State, (∀ c, ClaimFits c s) → JobsOrdered s.jobs → EmptyUntilLoaded s → step s = .next t →
    (∀ c, ClaimFits c t) ∧ JobsOrdered t.jobs ∧ EmptyUntilLoaded t

/-- R50, R51, R58, R59, R65, R109: a channel opens, or waits to open, only while opening is allowed for it: every step
keeps it. -/
def Obligations.OpeningOnlyWhileAllowed : Prop :=
  ∀ s t : State, (∀ c, OpeningGuarded c s) → JobsOrdered s.jobs → EnabledByLoad s → EmptyUntilLoaded s →
    step s = .next t →
    (∀ c, OpeningGuarded c t) ∧ JobsOrdered t.jobs ∧ EnabledByLoad t ∧ EmptyUntilLoaded t

/-- R25, R79, R143, R151 to R153, R157, R159, R178: the transmit queue stays ordered, the table and the records within their
bounds, the link timers fit the link state, the picture follows the table, own entries carry the station's values, and
no mark is left between commands: every step keeps it. -/
def Obligations.QueuesRecordsAndTimersStaySound : Prop :=
  ∀ s t : State, TxOrdered s.line.queue → TableBounded s → RecordsBounded s.status →
    LinkTimersFit s.link → PictureFollows s → OwnEntriesCarry s → EmptyUntilLoaded s → MarksClear s →
    step s = .next t →
    TxOrdered t.line.queue ∧ TableBounded t ∧ RecordsBounded t.status ∧ LinkTimersFit t.link
      ∧ PictureFollows t ∧ OwnEntriesCarry t ∧ EmptyUntilLoaded t ∧ MarksClear t

/-- The invariants hold of the part right after reset. -/
def Obligations.InvariantsHoldAtReset : Prop :=
  WithinBudget State.reset ∧ EmptyUntilLoaded State.reset ∧ (∀ c, ClaimFits c State.reset)
  ∧ JobsOrdered State.reset.jobs ∧ (∀ c, OpeningGuarded c State.reset) ∧ EnabledByLoad State.reset
  ∧ TxOrdered State.reset.line.queue ∧ TableBounded State.reset ∧ RecordsBounded State.reset.status
  ∧ LinkTimersFit State.reset.link ∧ PictureFollows State.reset ∧ OwnEntriesCarry State.reset
  ∧ MarksClear State.reset

end
end

