-- ==== Sys2Proof/Laws/Word.lean ====
section
/-! SUPPORT. Laws of the table of eight: reading after writing, and reading a table that is worked out. -/

namespace Sys2Proof

theorem eight_cases {p : Fin 8 → Prop} (c : Fin 8)
    (h0 : p 0) (h1 : p 1) (h2 : p 2) (h3 : p 3) (h4 : p 4) (h5 : p 5) (h6 : p 6) (h7 : p 7) : p c := by
  obtain ⟨n, h⟩ := c
  match n, h with
  | 0, _ => exact h0
  | 1, _ => exact h1
  | 2, _ => exact h2
  | 3, _ => exact h3
  | 4, _ => exact h4
  | 5, _ => exact h5
  | 6, _ => exact h6
  | 7, _ => exact h7

variable {α β : Type}

@[simp] theorem Eight.get_set_same (v : Eight α) (c : Fin 8) (x : α) : (v.set c x).get c = x := by
  induction c using eight_cases <;> rfl

theorem Eight.get_set_ne (v : Eight α) {c d : Fin 8} (x : α) (h : d ≠ c) :
    (v.set c x).get d = v.get d := by
  revert h
  induction c using eight_cases <;> induction d using eight_cases <;>
    first
    | (intro h; exact absurd rfl h)
    | (intro _; rfl)

theorem Eight.get_set (v : Eight α) (c d : Fin 8) (x : α) :
    (v.set c x).get d = if d = c then x else v.get d := by
  split
  · next h => subst h; exact v.get_set_same d x
  · next h => exact v.get_set_ne x h

@[simp] theorem Eight.set_get (v : Eight α) (c : Fin 8) : v.set c (v.get c) = v := by
  induction c using eight_cases <;> rfl

@[simp] theorem Eight.get_fill (x : α) (c : Fin 8) : (Eight.fill x).get c = x := by
  induction c using eight_cases <;> rfl

@[simp] theorem Eight.get_map (f : α → β) (v : Eight α) (c : Fin 8) : (v.map f).get c = f (v.get c) := by
  induction c using eight_cases <;> rfl

@[simp] theorem Eight.get_tabulate (f : Fin 8 → α) (c : Fin 8) : (Eight.tabulate f).get c = f c := by
  induction c using eight_cases <;> rfl

/-- Two tables that agree at every index are the same. -/
theorem Eight.ext_get {v w : Eight α} (h : ∀ c, v.get c = w.get c) : v = w := by
  cases v; cases w
  simp only [Eight.mk.injEq]
  exact ⟨h 0, h 1, h 2, h 3, h 4, h 5, h 6, h 7⟩

theorem mem_allChannels (c : Channel) : c ∈ allChannels := by
  induction c using eight_cases <;> decide

/-- An operation folded over a list keeps what each of its rounds keeps. -/
theorem foldl_keeps {σ ι : Type} {p : σ → Prop} {f : σ → ι → σ} (h : ∀ s i, p s → p (f s i)) :
    ∀ (l : List ι) (s : σ), p s → p (l.foldl f s)
  | [], _, hs => hs
  | i :: l, s, hs => foldl_keeps h l (f s i) (h s i hs)

/-- A reflexive and transitive relation that each round of a fold respects relates its two ends. -/
theorem foldl_rel {σ ι : Type} {r : σ → σ → Prop} {f : σ → ι → σ} (refl : ∀ s, r s s)
    (trans : ∀ {a b c}, r a b → r b c → r a c) (h : ∀ s i, r s (f s i)) :
    ∀ (l : List ι) (s : σ), r s (l.foldl f s)
  | [], s => refl s
  | i :: l, s => trans (h s i) (foldl_rel refl trans h l (f s i))

end Sys2Proof
end

