-- ==== Sys2Proof/Laws/State.lean ====
section
/-! SUPPORT. Laws of the state's updates: each field after each update, so that no proof unfolds a record update. -/

namespace Sys2Proof.Machine

variable (s : State)

/-! ### setDriver -/

@[simp] theorem setDriver_pending (c : Channel) (d : Driver) : (setDriver c d s).pending = s.pending := rfl
@[simp] theorem setDriver_phase (c : Channel) (d : Driver) : (setDriver c d s).phase = s.phase := rfl
@[simp] theorem setDriver_loader (c : Channel) (d : Driver) : (setDriver c d s).loader = s.loader := rfl
@[simp] theorem setDriver_cfg (c : Channel) (d : Driver) : (setDriver c d s).cfg = s.cfg := rfl
@[simp] theorem setDriver_pins (c : Channel) (d : Driver) : (setDriver c d s).pins = s.pins := rfl
@[simp] theorem setDriver_sensing (c : Channel) (d : Driver) : (setDriver c d s).sensing = s.sensing := rfl
@[simp] theorem setDriver_picture (c : Channel) (d : Driver) : (setDriver c d s).picture = s.picture := rfl
@[simp] theorem setDriver_eval (c : Channel) (d : Driver) : (setDriver c d s).eval = s.eval := rfl
@[simp] theorem setDriver_jobs (c : Channel) (d : Driver) : (setDriver c d s).jobs = s.jobs := rfl
@[simp] theorem setDriver_supply (c : Channel) (d : Driver) : (setDriver c d s).supply = s.supply := rfl
@[simp] theorem setDriver_chirp (c : Channel) (d : Driver) : (setDriver c d s).chirp = s.chirp := rfl
@[simp] theorem setDriver_line (c : Channel) (d : Driver) : (setDriver c d s).line = s.line := rfl
@[simp] theorem setDriver_link (c : Channel) (d : Driver) : (setDriver c d s).link = s.link := rfl
@[simp] theorem setDriver_requests (c : Channel) (d : Driver) : (setDriver c d s).requests = s.requests := rfl
@[simp] theorem setDriver_status (c : Channel) (d : Driver) : (setDriver c d s).status = s.status := rfl
@[simp] theorem setDriver_work (c : Channel) (d : Driver) : (setDriver c d s).work = s.work := rfl
@[simp] theorem setDriver_free (c : Channel) (d : Driver) : (setDriver c d s).free = s.free := rfl

/-! ### setExposed -/

@[simp] theorem setExposed_pending (c : Channel) (x : Exposed) : (setExposed c x s).pending = s.pending := rfl
@[simp] theorem setExposed_phase (c : Channel) (x : Exposed) : (setExposed c x s).phase = s.phase := rfl
@[simp] theorem setExposed_loader (c : Channel) (x : Exposed) : (setExposed c x s).loader = s.loader := rfl
@[simp] theorem setExposed_cfg (c : Channel) (x : Exposed) : (setExposed c x s).cfg = s.cfg := rfl
@[simp] theorem setExposed_pins (c : Channel) (x : Exposed) : (setExposed c x s).pins = s.pins := rfl
@[simp] theorem setExposed_sensing (c : Channel) (x : Exposed) : (setExposed c x s).sensing = s.sensing := rfl
@[simp] theorem setExposed_picture (c : Channel) (x : Exposed) : (setExposed c x s).picture = s.picture := rfl
@[simp] theorem setExposed_jobs (c : Channel) (x : Exposed) : (setExposed c x s).jobs = s.jobs := rfl
@[simp] theorem setExposed_supply (c : Channel) (x : Exposed) : (setExposed c x s).supply = s.supply := rfl
@[simp] theorem setExposed_drivers (c : Channel) (x : Exposed) : (setExposed c x s).drivers = s.drivers := rfl
@[simp] theorem setExposed_chirp (c : Channel) (x : Exposed) : (setExposed c x s).chirp = s.chirp := rfl
@[simp] theorem setExposed_line (c : Channel) (x : Exposed) : (setExposed c x s).line = s.line := rfl
@[simp] theorem setExposed_link (c : Channel) (x : Exposed) : (setExposed c x s).link = s.link := rfl
@[simp] theorem setExposed_requests (c : Channel) (x : Exposed) : (setExposed c x s).requests = s.requests := rfl
@[simp] theorem setExposed_status (c : Channel) (x : Exposed) : (setExposed c x s).status = s.status := rfl
@[simp] theorem setExposed_work (c : Channel) (x : Exposed) : (setExposed c x s).work = s.work := rfl
@[simp] theorem setExposed_free (c : Channel) (x : Exposed) : (setExposed c x s).free = s.free := rfl

/-! ### setJobs -/

@[simp] theorem setJobs_pending (js : List Job) : (setJobs js s).pending = s.pending := rfl
@[simp] theorem setJobs_phase (js : List Job) : (setJobs js s).phase = s.phase := rfl
@[simp] theorem setJobs_loader (js : List Job) : (setJobs js s).loader = s.loader := rfl
@[simp] theorem setJobs_cfg (js : List Job) : (setJobs js s).cfg = s.cfg := rfl
@[simp] theorem setJobs_pins (js : List Job) : (setJobs js s).pins = s.pins := rfl
@[simp] theorem setJobs_sensing (js : List Job) : (setJobs js s).sensing = s.sensing := rfl
@[simp] theorem setJobs_picture (js : List Job) : (setJobs js s).picture = s.picture := rfl
@[simp] theorem setJobs_eval (js : List Job) : (setJobs js s).eval = s.eval := rfl
@[simp] theorem setJobs_supply (js : List Job) : (setJobs js s).supply = s.supply := rfl
@[simp] theorem setJobs_drivers (js : List Job) : (setJobs js s).drivers = s.drivers := rfl
@[simp] theorem setJobs_chirp (js : List Job) : (setJobs js s).chirp = s.chirp := rfl
@[simp] theorem setJobs_line (js : List Job) : (setJobs js s).line = s.line := rfl
@[simp] theorem setJobs_link (js : List Job) : (setJobs js s).link = s.link := rfl
@[simp] theorem setJobs_requests (js : List Job) : (setJobs js s).requests = s.requests := rfl
@[simp] theorem setJobs_status (js : List Job) : (setJobs js s).status = s.status := rfl
@[simp] theorem setJobs_work (js : List Job) : (setJobs js s).work = s.work := rfl
@[simp] theorem setJobs_free (js : List Job) : (setJobs js s).free = s.free := rfl

/-! ### setEntries -/

@[simp] theorem setEntries_pending (es : List Entry) : (setEntries es s).pending = s.pending := rfl
@[simp] theorem setEntries_phase (es : List Entry) : (setEntries es s).phase = s.phase := rfl
@[simp] theorem setEntries_loader (es : List Entry) : (setEntries es s).loader = s.loader := rfl
@[simp] theorem setEntries_cfg (es : List Entry) : (setEntries es s).cfg = s.cfg := rfl
@[simp] theorem setEntries_pins (es : List Entry) : (setEntries es s).pins = s.pins := rfl
@[simp] theorem setEntries_sensing (es : List Entry) : (setEntries es s).sensing = s.sensing := rfl
@[simp] theorem setEntries_picture (es : List Entry) : (setEntries es s).picture = s.picture := rfl
@[simp] theorem setEntries_eval (es : List Entry) : (setEntries es s).eval = s.eval := rfl
@[simp] theorem setEntries_jobs (es : List Entry) : (setEntries es s).jobs = s.jobs := rfl
@[simp] theorem setEntries_drivers (es : List Entry) : (setEntries es s).drivers = s.drivers := rfl
@[simp] theorem setEntries_chirp (es : List Entry) : (setEntries es s).chirp = s.chirp := rfl
@[simp] theorem setEntries_line (es : List Entry) : (setEntries es s).line = s.line := rfl
@[simp] theorem setEntries_link (es : List Entry) : (setEntries es s).link = s.link := rfl
@[simp] theorem setEntries_requests (es : List Entry) : (setEntries es s).requests = s.requests := rfl
@[simp] theorem setEntries_status (es : List Entry) : (setEntries es s).status = s.status := rfl
@[simp] theorem setEntries_work (es : List Entry) : (setEntries es s).work = s.work := rfl
@[simp] theorem setEntries_free (es : List Entry) : (setEntries es s).free = s.free := rfl

/-! ### setQueue -/

@[simp] theorem setQueue_pending (q : List TxFrame) : (setQueue q s).pending = s.pending := rfl
@[simp] theorem setQueue_phase (q : List TxFrame) : (setQueue q s).phase = s.phase := rfl
@[simp] theorem setQueue_loader (q : List TxFrame) : (setQueue q s).loader = s.loader := rfl
@[simp] theorem setQueue_cfg (q : List TxFrame) : (setQueue q s).cfg = s.cfg := rfl
@[simp] theorem setQueue_pins (q : List TxFrame) : (setQueue q s).pins = s.pins := rfl
@[simp] theorem setQueue_sensing (q : List TxFrame) : (setQueue q s).sensing = s.sensing := rfl
@[simp] theorem setQueue_picture (q : List TxFrame) : (setQueue q s).picture = s.picture := rfl
@[simp] theorem setQueue_eval (q : List TxFrame) : (setQueue q s).eval = s.eval := rfl
@[simp] theorem setQueue_jobs (q : List TxFrame) : (setQueue q s).jobs = s.jobs := rfl
@[simp] theorem setQueue_supply (q : List TxFrame) : (setQueue q s).supply = s.supply := rfl
@[simp] theorem setQueue_drivers (q : List TxFrame) : (setQueue q s).drivers = s.drivers := rfl
@[simp] theorem setQueue_chirp (q : List TxFrame) : (setQueue q s).chirp = s.chirp := rfl
@[simp] theorem setQueue_link (q : List TxFrame) : (setQueue q s).link = s.link := rfl
@[simp] theorem setQueue_requests (q : List TxFrame) : (setQueue q s).requests = s.requests := rfl
@[simp] theorem setQueue_status (q : List TxFrame) : (setQueue q s).status = s.status := rfl
@[simp] theorem setQueue_work (q : List TxFrame) : (setQueue q s).work = s.work := rfl
@[simp] theorem setQueue_free (q : List TxFrame) : (setQueue q s).free = s.free := rfl

/-! ### setRx -/

@[simp] theorem setRx_pending (r : Receiver) : (setRx r s).pending = s.pending := rfl
@[simp] theorem setRx_phase (r : Receiver) : (setRx r s).phase = s.phase := rfl
@[simp] theorem setRx_loader (r : Receiver) : (setRx r s).loader = s.loader := rfl
@[simp] theorem setRx_cfg (r : Receiver) : (setRx r s).cfg = s.cfg := rfl
@[simp] theorem setRx_pins (r : Receiver) : (setRx r s).pins = s.pins := rfl
@[simp] theorem setRx_sensing (r : Receiver) : (setRx r s).sensing = s.sensing := rfl
@[simp] theorem setRx_picture (r : Receiver) : (setRx r s).picture = s.picture := rfl
@[simp] theorem setRx_eval (r : Receiver) : (setRx r s).eval = s.eval := rfl
@[simp] theorem setRx_jobs (r : Receiver) : (setRx r s).jobs = s.jobs := rfl
@[simp] theorem setRx_supply (r : Receiver) : (setRx r s).supply = s.supply := rfl
@[simp] theorem setRx_drivers (r : Receiver) : (setRx r s).drivers = s.drivers := rfl
@[simp] theorem setRx_chirp (r : Receiver) : (setRx r s).chirp = s.chirp := rfl
@[simp] theorem setRx_link (r : Receiver) : (setRx r s).link = s.link := rfl
@[simp] theorem setRx_requests (r : Receiver) : (setRx r s).requests = s.requests := rfl
@[simp] theorem setRx_status (r : Receiver) : (setRx r s).status = s.status := rfl
@[simp] theorem setRx_work (r : Receiver) : (setRx r s).work = s.work := rfl
@[simp] theorem setRx_free (r : Receiver) : (setRx r s).free = s.free := rfl

/-! ### wantScan -/

@[simp] theorem wantScan_pending : (wantScan s).pending = s.pending := rfl
@[simp] theorem wantScan_phase : (wantScan s).phase = s.phase := rfl
@[simp] theorem wantScan_loader : (wantScan s).loader = s.loader := rfl
@[simp] theorem wantScan_cfg : (wantScan s).cfg = s.cfg := rfl
@[simp] theorem wantScan_pins : (wantScan s).pins = s.pins := rfl
@[simp] theorem wantScan_sensing : (wantScan s).sensing = s.sensing := rfl
@[simp] theorem wantScan_picture : (wantScan s).picture = s.picture := rfl
@[simp] theorem wantScan_eval : (wantScan s).eval = s.eval := rfl
@[simp] theorem wantScan_jobs : (wantScan s).jobs = s.jobs := rfl
@[simp] theorem wantScan_supply : (wantScan s).supply = s.supply := rfl
@[simp] theorem wantScan_drivers : (wantScan s).drivers = s.drivers := rfl
@[simp] theorem wantScan_chirp : (wantScan s).chirp = s.chirp := rfl
@[simp] theorem wantScan_line : (wantScan s).line = s.line := rfl
@[simp] theorem wantScan_link : (wantScan s).link = s.link := rfl
@[simp] theorem wantScan_requests : (wantScan s).requests = s.requests := rfl
@[simp] theorem wantScan_status : (wantScan s).status = s.status := rfl
@[simp] theorem wantScan_free : (wantScan s).free = s.free := rfl

/-! ### raiseEvent -/

@[simp] theorem raiseEvent_pending (e : Event) : (raiseEvent e s).pending = s.pending := rfl
@[simp] theorem raiseEvent_phase (e : Event) : (raiseEvent e s).phase = s.phase := rfl
@[simp] theorem raiseEvent_loader (e : Event) : (raiseEvent e s).loader = s.loader := rfl
@[simp] theorem raiseEvent_cfg (e : Event) : (raiseEvent e s).cfg = s.cfg := rfl
@[simp] theorem raiseEvent_pins (e : Event) : (raiseEvent e s).pins = s.pins := rfl
@[simp] theorem raiseEvent_sensing (e : Event) : (raiseEvent e s).sensing = s.sensing := rfl
@[simp] theorem raiseEvent_picture (e : Event) : (raiseEvent e s).picture = s.picture := rfl
@[simp] theorem raiseEvent_eval (e : Event) : (raiseEvent e s).eval = s.eval := rfl
@[simp] theorem raiseEvent_jobs (e : Event) : (raiseEvent e s).jobs = s.jobs := rfl
@[simp] theorem raiseEvent_supply (e : Event) : (raiseEvent e s).supply = s.supply := rfl
@[simp] theorem raiseEvent_drivers (e : Event) : (raiseEvent e s).drivers = s.drivers := rfl
@[simp] theorem raiseEvent_chirp (e : Event) : (raiseEvent e s).chirp = s.chirp := rfl
@[simp] theorem raiseEvent_line (e : Event) : (raiseEvent e s).line = s.line := rfl
@[simp] theorem raiseEvent_link (e : Event) : (raiseEvent e s).link = s.link := rfl
@[simp] theorem raiseEvent_requests (e : Event) : (raiseEvent e s).requests = s.requests := rfl
@[simp] theorem raiseEvent_work (e : Event) : (raiseEvent e s).work = s.work := rfl
@[simp] theorem raiseEvent_free (e : Event) : (raiseEvent e s).free = s.free := rfl

/-! ### recordError -/

@[simp] theorem recordError_pending (k : ErrorCode) (n : Nat) : (recordError k n s).pending = s.pending := rfl
@[simp] theorem recordError_phase (k : ErrorCode) (n : Nat) : (recordError k n s).phase = s.phase := rfl
@[simp] theorem recordError_loader (k : ErrorCode) (n : Nat) : (recordError k n s).loader = s.loader := rfl
@[simp] theorem recordError_cfg (k : ErrorCode) (n : Nat) : (recordError k n s).cfg = s.cfg := rfl
@[simp] theorem recordError_pins (k : ErrorCode) (n : Nat) : (recordError k n s).pins = s.pins := rfl
@[simp] theorem recordError_sensing (k : ErrorCode) (n : Nat) : (recordError k n s).sensing = s.sensing := rfl
@[simp] theorem recordError_picture (k : ErrorCode) (n : Nat) : (recordError k n s).picture = s.picture := rfl
@[simp] theorem recordError_eval (k : ErrorCode) (n : Nat) : (recordError k n s).eval = s.eval := rfl
@[simp] theorem recordError_jobs (k : ErrorCode) (n : Nat) : (recordError k n s).jobs = s.jobs := rfl
@[simp] theorem recordError_supply (k : ErrorCode) (n : Nat) : (recordError k n s).supply = s.supply := rfl
@[simp] theorem recordError_drivers (k : ErrorCode) (n : Nat) : (recordError k n s).drivers = s.drivers := rfl
@[simp] theorem recordError_chirp (k : ErrorCode) (n : Nat) : (recordError k n s).chirp = s.chirp := rfl
@[simp] theorem recordError_line (k : ErrorCode) (n : Nat) : (recordError k n s).line = s.line := rfl
@[simp] theorem recordError_link (k : ErrorCode) (n : Nat) : (recordError k n s).link = s.link := rfl
@[simp] theorem recordError_requests (k : ErrorCode) (n : Nat) : (recordError k n s).requests = s.requests := rfl
@[simp] theorem recordError_work (k : ErrorCode) (n : Nat) : (recordError k n s).work = s.work := rfl
@[simp] theorem recordError_free (k : ErrorCode) (n : Nat) : (recordError k n s).free = s.free := rfl

/-! ### raiseError -/

@[simp] theorem raiseError_pending (e : Event) (k : ErrorCode) (n : Nat) : (raiseError e k n s).pending = s.pending := rfl
@[simp] theorem raiseError_phase (e : Event) (k : ErrorCode) (n : Nat) : (raiseError e k n s).phase = s.phase := rfl
@[simp] theorem raiseError_loader (e : Event) (k : ErrorCode) (n : Nat) : (raiseError e k n s).loader = s.loader := rfl
@[simp] theorem raiseError_cfg (e : Event) (k : ErrorCode) (n : Nat) : (raiseError e k n s).cfg = s.cfg := rfl
@[simp] theorem raiseError_pins (e : Event) (k : ErrorCode) (n : Nat) : (raiseError e k n s).pins = s.pins := rfl
@[simp] theorem raiseError_sensing (e : Event) (k : ErrorCode) (n : Nat) : (raiseError e k n s).sensing = s.sensing := rfl
@[simp] theorem raiseError_picture (e : Event) (k : ErrorCode) (n : Nat) : (raiseError e k n s).picture = s.picture := rfl
@[simp] theorem raiseError_eval (e : Event) (k : ErrorCode) (n : Nat) : (raiseError e k n s).eval = s.eval := rfl
@[simp] theorem raiseError_jobs (e : Event) (k : ErrorCode) (n : Nat) : (raiseError e k n s).jobs = s.jobs := rfl
@[simp] theorem raiseError_supply (e : Event) (k : ErrorCode) (n : Nat) : (raiseError e k n s).supply = s.supply := rfl
@[simp] theorem raiseError_drivers (e : Event) (k : ErrorCode) (n : Nat) : (raiseError e k n s).drivers = s.drivers := rfl
@[simp] theorem raiseError_chirp (e : Event) (k : ErrorCode) (n : Nat) : (raiseError e k n s).chirp = s.chirp := rfl
@[simp] theorem raiseError_line (e : Event) (k : ErrorCode) (n : Nat) : (raiseError e k n s).line = s.line := rfl
@[simp] theorem raiseError_link (e : Event) (k : ErrorCode) (n : Nat) : (raiseError e k n s).link = s.link := rfl
@[simp] theorem raiseError_requests (e : Event) (k : ErrorCode) (n : Nat) : (raiseError e k n s).requests = s.requests := rfl
@[simp] theorem raiseError_work (e : Event) (k : ErrorCode) (n : Nat) : (raiseError e k n s).work = s.work := rfl
@[simp] theorem raiseError_free (e : Event) (k : ErrorCode) (n : Nat) : (raiseError e k n s).free = s.free := rfl

/-! ### recordRefusal -/

@[simp] theorem recordRefusal_pending (v : Nat) (w : Requester) (k : ErrorCode) : (recordRefusal v w k s).pending = s.pending := rfl
@[simp] theorem recordRefusal_phase (v : Nat) (w : Requester) (k : ErrorCode) : (recordRefusal v w k s).phase = s.phase := rfl
@[simp] theorem recordRefusal_loader (v : Nat) (w : Requester) (k : ErrorCode) : (recordRefusal v w k s).loader = s.loader := rfl
@[simp] theorem recordRefusal_cfg (v : Nat) (w : Requester) (k : ErrorCode) : (recordRefusal v w k s).cfg = s.cfg := rfl
@[simp] theorem recordRefusal_pins (v : Nat) (w : Requester) (k : ErrorCode) : (recordRefusal v w k s).pins = s.pins := rfl
@[simp] theorem recordRefusal_sensing (v : Nat) (w : Requester) (k : ErrorCode) : (recordRefusal v w k s).sensing = s.sensing := rfl
@[simp] theorem recordRefusal_picture (v : Nat) (w : Requester) (k : ErrorCode) : (recordRefusal v w k s).picture = s.picture := rfl
@[simp] theorem recordRefusal_eval (v : Nat) (w : Requester) (k : ErrorCode) : (recordRefusal v w k s).eval = s.eval := rfl
@[simp] theorem recordRefusal_jobs (v : Nat) (w : Requester) (k : ErrorCode) : (recordRefusal v w k s).jobs = s.jobs := rfl
@[simp] theorem recordRefusal_supply (v : Nat) (w : Requester) (k : ErrorCode) : (recordRefusal v w k s).supply = s.supply := rfl
@[simp] theorem recordRefusal_drivers (v : Nat) (w : Requester) (k : ErrorCode) : (recordRefusal v w k s).drivers = s.drivers := rfl
@[simp] theorem recordRefusal_chirp (v : Nat) (w : Requester) (k : ErrorCode) : (recordRefusal v w k s).chirp = s.chirp := rfl
@[simp] theorem recordRefusal_line (v : Nat) (w : Requester) (k : ErrorCode) : (recordRefusal v w k s).line = s.line := rfl
@[simp] theorem recordRefusal_link (v : Nat) (w : Requester) (k : ErrorCode) : (recordRefusal v w k s).link = s.link := rfl
@[simp] theorem recordRefusal_requests (v : Nat) (w : Requester) (k : ErrorCode) : (recordRefusal v w k s).requests = s.requests := rfl
@[simp] theorem recordRefusal_work (v : Nat) (w : Requester) (k : ErrorCode) : (recordRefusal v w k s).work = s.work := rfl
@[simp] theorem recordRefusal_free (v : Nat) (w : Requester) (k : ErrorCode) : (recordRefusal v w k s).free = s.free := rfl

/-! ### countReceived -/

@[simp] theorem countReceived_pending : (countReceived s).pending = s.pending := rfl
@[simp] theorem countReceived_phase : (countReceived s).phase = s.phase := rfl
@[simp] theorem countReceived_loader : (countReceived s).loader = s.loader := rfl
@[simp] theorem countReceived_cfg : (countReceived s).cfg = s.cfg := rfl
@[simp] theorem countReceived_pins : (countReceived s).pins = s.pins := rfl
@[simp] theorem countReceived_sensing : (countReceived s).sensing = s.sensing := rfl
@[simp] theorem countReceived_picture : (countReceived s).picture = s.picture := rfl
@[simp] theorem countReceived_eval : (countReceived s).eval = s.eval := rfl
@[simp] theorem countReceived_jobs : (countReceived s).jobs = s.jobs := rfl
@[simp] theorem countReceived_supply : (countReceived s).supply = s.supply := rfl
@[simp] theorem countReceived_drivers : (countReceived s).drivers = s.drivers := rfl
@[simp] theorem countReceived_chirp : (countReceived s).chirp = s.chirp := rfl
@[simp] theorem countReceived_line : (countReceived s).line = s.line := rfl
@[simp] theorem countReceived_link : (countReceived s).link = s.link := rfl
@[simp] theorem countReceived_requests : (countReceived s).requests = s.requests := rfl
@[simp] theorem countReceived_work : (countReceived s).work = s.work := rfl
@[simp] theorem countReceived_free : (countReceived s).free = s.free := rfl

/-! ### countRejected -/

@[simp] theorem countRejected_pending : (countRejected s).pending = s.pending := rfl
@[simp] theorem countRejected_phase : (countRejected s).phase = s.phase := rfl
@[simp] theorem countRejected_loader : (countRejected s).loader = s.loader := rfl
@[simp] theorem countRejected_cfg : (countRejected s).cfg = s.cfg := rfl
@[simp] theorem countRejected_pins : (countRejected s).pins = s.pins := rfl
@[simp] theorem countRejected_sensing : (countRejected s).sensing = s.sensing := rfl
@[simp] theorem countRejected_picture : (countRejected s).picture = s.picture := rfl
@[simp] theorem countRejected_eval : (countRejected s).eval = s.eval := rfl
@[simp] theorem countRejected_jobs : (countRejected s).jobs = s.jobs := rfl
@[simp] theorem countRejected_supply : (countRejected s).supply = s.supply := rfl
@[simp] theorem countRejected_drivers : (countRejected s).drivers = s.drivers := rfl
@[simp] theorem countRejected_chirp : (countRejected s).chirp = s.chirp := rfl
@[simp] theorem countRejected_line : (countRejected s).line = s.line := rfl
@[simp] theorem countRejected_link : (countRejected s).link = s.link := rfl
@[simp] theorem countRejected_requests : (countRejected s).requests = s.requests := rfl
@[simp] theorem countRejected_work : (countRejected s).work = s.work := rfl
@[simp] theorem countRejected_free : (countRejected s).free = s.free := rfl

/-! ### countSent -/

@[simp] theorem countSent_pending : (countSent s).pending = s.pending := rfl
@[simp] theorem countSent_phase : (countSent s).phase = s.phase := rfl
@[simp] theorem countSent_loader : (countSent s).loader = s.loader := rfl
@[simp] theorem countSent_cfg : (countSent s).cfg = s.cfg := rfl
@[simp] theorem countSent_pins : (countSent s).pins = s.pins := rfl
@[simp] theorem countSent_sensing : (countSent s).sensing = s.sensing := rfl
@[simp] theorem countSent_picture : (countSent s).picture = s.picture := rfl
@[simp] theorem countSent_eval : (countSent s).eval = s.eval := rfl
@[simp] theorem countSent_jobs : (countSent s).jobs = s.jobs := rfl
@[simp] theorem countSent_supply : (countSent s).supply = s.supply := rfl
@[simp] theorem countSent_drivers : (countSent s).drivers = s.drivers := rfl
@[simp] theorem countSent_chirp : (countSent s).chirp = s.chirp := rfl
@[simp] theorem countSent_line : (countSent s).line = s.line := rfl
@[simp] theorem countSent_link : (countSent s).link = s.link := rfl
@[simp] theorem countSent_requests : (countSent s).requests = s.requests := rfl
@[simp] theorem countSent_work : (countSent s).work = s.work := rfl
@[simp] theorem countSent_free : (countSent s).free = s.free := rfl

/-! ### countRetry -/

@[simp] theorem countRetry_pending : (countRetry s).pending = s.pending := rfl
@[simp] theorem countRetry_phase : (countRetry s).phase = s.phase := rfl
@[simp] theorem countRetry_loader : (countRetry s).loader = s.loader := rfl
@[simp] theorem countRetry_cfg : (countRetry s).cfg = s.cfg := rfl
@[simp] theorem countRetry_pins : (countRetry s).pins = s.pins := rfl
@[simp] theorem countRetry_sensing : (countRetry s).sensing = s.sensing := rfl
@[simp] theorem countRetry_picture : (countRetry s).picture = s.picture := rfl
@[simp] theorem countRetry_eval : (countRetry s).eval = s.eval := rfl
@[simp] theorem countRetry_jobs : (countRetry s).jobs = s.jobs := rfl
@[simp] theorem countRetry_supply : (countRetry s).supply = s.supply := rfl
@[simp] theorem countRetry_drivers : (countRetry s).drivers = s.drivers := rfl
@[simp] theorem countRetry_chirp : (countRetry s).chirp = s.chirp := rfl
@[simp] theorem countRetry_line : (countRetry s).line = s.line := rfl
@[simp] theorem countRetry_link : (countRetry s).link = s.link := rfl
@[simp] theorem countRetry_requests : (countRetry s).requests = s.requests := rfl
@[simp] theorem countRetry_work : (countRetry s).work = s.work := rfl
@[simp] theorem countRetry_free : (countRetry s).free = s.free := rfl

/-! ### clearRecords -/

@[simp] theorem clearRecords_pending : (clearRecords s).pending = s.pending := rfl
@[simp] theorem clearRecords_phase : (clearRecords s).phase = s.phase := rfl
@[simp] theorem clearRecords_loader : (clearRecords s).loader = s.loader := rfl
@[simp] theorem clearRecords_cfg : (clearRecords s).cfg = s.cfg := rfl
@[simp] theorem clearRecords_pins : (clearRecords s).pins = s.pins := rfl
@[simp] theorem clearRecords_sensing : (clearRecords s).sensing = s.sensing := rfl
@[simp] theorem clearRecords_picture : (clearRecords s).picture = s.picture := rfl
@[simp] theorem clearRecords_eval : (clearRecords s).eval = s.eval := rfl
@[simp] theorem clearRecords_jobs : (clearRecords s).jobs = s.jobs := rfl
@[simp] theorem clearRecords_supply : (clearRecords s).supply = s.supply := rfl
@[simp] theorem clearRecords_drivers : (clearRecords s).drivers = s.drivers := rfl
@[simp] theorem clearRecords_chirp : (clearRecords s).chirp = s.chirp := rfl
@[simp] theorem clearRecords_line : (clearRecords s).line = s.line := rfl
@[simp] theorem clearRecords_link : (clearRecords s).link = s.link := rfl
@[simp] theorem clearRecords_requests : (clearRecords s).requests = s.requests := rfl
@[simp] theorem clearRecords_work : (clearRecords s).work = s.work := rfl
@[simp] theorem clearRecords_free : (clearRecords s).free = s.free := rfl

/-! ### clearFlags -/

@[simp] theorem clearFlags_pending : (clearFlags s).pending = s.pending := rfl
@[simp] theorem clearFlags_phase : (clearFlags s).phase = s.phase := rfl
@[simp] theorem clearFlags_loader : (clearFlags s).loader = s.loader := rfl
@[simp] theorem clearFlags_cfg : (clearFlags s).cfg = s.cfg := rfl
@[simp] theorem clearFlags_pins : (clearFlags s).pins = s.pins := rfl
@[simp] theorem clearFlags_sensing : (clearFlags s).sensing = s.sensing := rfl
@[simp] theorem clearFlags_picture : (clearFlags s).picture = s.picture := rfl
@[simp] theorem clearFlags_eval : (clearFlags s).eval = s.eval := rfl
@[simp] theorem clearFlags_jobs : (clearFlags s).jobs = s.jobs := rfl
@[simp] theorem clearFlags_supply : (clearFlags s).supply = s.supply := rfl
@[simp] theorem clearFlags_drivers : (clearFlags s).drivers = s.drivers := rfl
@[simp] theorem clearFlags_chirp : (clearFlags s).chirp = s.chirp := rfl
@[simp] theorem clearFlags_line : (clearFlags s).line = s.line := rfl
@[simp] theorem clearFlags_link : (clearFlags s).link = s.link := rfl
@[simp] theorem clearFlags_requests : (clearFlags s).requests = s.requests := rfl
@[simp] theorem clearFlags_work : (clearFlags s).work = s.work := rfl
@[simp] theorem clearFlags_free : (clearFlags s).free = s.free := rfl

/-! ### setSensing -/

@[simp] theorem setSensing_pending (x : Sensing) : (setSensing x s).pending = s.pending := rfl
@[simp] theorem setSensing_phase (x : Sensing) : (setSensing x s).phase = s.phase := rfl
@[simp] theorem setSensing_loader (x : Sensing) : (setSensing x s).loader = s.loader := rfl
@[simp] theorem setSensing_cfg (x : Sensing) : (setSensing x s).cfg = s.cfg := rfl
@[simp] theorem setSensing_pins (x : Sensing) : (setSensing x s).pins = s.pins := rfl
@[simp] theorem setSensing_picture (x : Sensing) : (setSensing x s).picture = s.picture := rfl
@[simp] theorem setSensing_eval (x : Sensing) : (setSensing x s).eval = s.eval := rfl
@[simp] theorem setSensing_jobs (x : Sensing) : (setSensing x s).jobs = s.jobs := rfl
@[simp] theorem setSensing_supply (x : Sensing) : (setSensing x s).supply = s.supply := rfl
@[simp] theorem setSensing_drivers (x : Sensing) : (setSensing x s).drivers = s.drivers := rfl
@[simp] theorem setSensing_chirp (x : Sensing) : (setSensing x s).chirp = s.chirp := rfl
@[simp] theorem setSensing_line (x : Sensing) : (setSensing x s).line = s.line := rfl
@[simp] theorem setSensing_link (x : Sensing) : (setSensing x s).link = s.link := rfl
@[simp] theorem setSensing_requests (x : Sensing) : (setSensing x s).requests = s.requests := rfl
@[simp] theorem setSensing_status (x : Sensing) : (setSensing x s).status = s.status := rfl
@[simp] theorem setSensing_work (x : Sensing) : (setSensing x s).work = s.work := rfl
@[simp] theorem setSensing_free (x : Sensing) : (setSensing x s).free = s.free := rfl

/-! ### setCurrent -/

@[simp] theorem setCurrent_pending (c : Channel) (n : Nat) : (setCurrent c n s).pending = s.pending := rfl
@[simp] theorem setCurrent_phase (c : Channel) (n : Nat) : (setCurrent c n s).phase = s.phase := rfl
@[simp] theorem setCurrent_loader (c : Channel) (n : Nat) : (setCurrent c n s).loader = s.loader := rfl
@[simp] theorem setCurrent_cfg (c : Channel) (n : Nat) : (setCurrent c n s).cfg = s.cfg := rfl
@[simp] theorem setCurrent_sensing (c : Channel) (n : Nat) : (setCurrent c n s).sensing = s.sensing := rfl
@[simp] theorem setCurrent_picture (c : Channel) (n : Nat) : (setCurrent c n s).picture = s.picture := rfl
@[simp] theorem setCurrent_eval (c : Channel) (n : Nat) : (setCurrent c n s).eval = s.eval := rfl
@[simp] theorem setCurrent_jobs (c : Channel) (n : Nat) : (setCurrent c n s).jobs = s.jobs := rfl
@[simp] theorem setCurrent_supply (c : Channel) (n : Nat) : (setCurrent c n s).supply = s.supply := rfl
@[simp] theorem setCurrent_drivers (c : Channel) (n : Nat) : (setCurrent c n s).drivers = s.drivers := rfl
@[simp] theorem setCurrent_chirp (c : Channel) (n : Nat) : (setCurrent c n s).chirp = s.chirp := rfl
@[simp] theorem setCurrent_line (c : Channel) (n : Nat) : (setCurrent c n s).line = s.line := rfl
@[simp] theorem setCurrent_link (c : Channel) (n : Nat) : (setCurrent c n s).link = s.link := rfl
@[simp] theorem setCurrent_requests (c : Channel) (n : Nat) : (setCurrent c n s).requests = s.requests := rfl
@[simp] theorem setCurrent_status (c : Channel) (n : Nat) : (setCurrent c n s).status = s.status := rfl
@[simp] theorem setCurrent_work (c : Channel) (n : Nat) : (setCurrent c n s).work = s.work := rfl
@[simp] theorem setCurrent_free (c : Channel) (n : Nat) : (setCurrent c n s).free = s.free := rfl

/-! ### setLimit -/

@[simp] theorem setLimit_pending (c : Channel) (l : Limit) (b : Bool) : (setLimit c l b s).pending = s.pending := rfl
@[simp] theorem setLimit_phase (c : Channel) (l : Limit) (b : Bool) : (setLimit c l b s).phase = s.phase := rfl
@[simp] theorem setLimit_loader (c : Channel) (l : Limit) (b : Bool) : (setLimit c l b s).loader = s.loader := rfl
@[simp] theorem setLimit_cfg (c : Channel) (l : Limit) (b : Bool) : (setLimit c l b s).cfg = s.cfg := rfl
@[simp] theorem setLimit_sensing (c : Channel) (l : Limit) (b : Bool) : (setLimit c l b s).sensing = s.sensing := rfl
@[simp] theorem setLimit_picture (c : Channel) (l : Limit) (b : Bool) : (setLimit c l b s).picture = s.picture := rfl
@[simp] theorem setLimit_eval (c : Channel) (l : Limit) (b : Bool) : (setLimit c l b s).eval = s.eval := rfl
@[simp] theorem setLimit_jobs (c : Channel) (l : Limit) (b : Bool) : (setLimit c l b s).jobs = s.jobs := rfl
@[simp] theorem setLimit_supply (c : Channel) (l : Limit) (b : Bool) : (setLimit c l b s).supply = s.supply := rfl
@[simp] theorem setLimit_drivers (c : Channel) (l : Limit) (b : Bool) : (setLimit c l b s).drivers = s.drivers := rfl
@[simp] theorem setLimit_chirp (c : Channel) (l : Limit) (b : Bool) : (setLimit c l b s).chirp = s.chirp := rfl
@[simp] theorem setLimit_line (c : Channel) (l : Limit) (b : Bool) : (setLimit c l b s).line = s.line := rfl
@[simp] theorem setLimit_link (c : Channel) (l : Limit) (b : Bool) : (setLimit c l b s).link = s.link := rfl
@[simp] theorem setLimit_requests (c : Channel) (l : Limit) (b : Bool) : (setLimit c l b s).requests = s.requests := rfl
@[simp] theorem setLimit_status (c : Channel) (l : Limit) (b : Bool) : (setLimit c l b s).status = s.status := rfl
@[simp] theorem setLimit_work (c : Channel) (l : Limit) (b : Bool) : (setLimit c l b s).work = s.work := rfl
@[simp] theorem setLimit_free (c : Channel) (l : Limit) (b : Bool) : (setLimit c l b s).free = s.free := rfl

/-! ### setSwitch -/

@[simp] theorem setSwitch_pending (w : SwitchId) (x : Switch) : (setSwitch w x s).pending = s.pending := by cases w <;> rfl
@[simp] theorem setSwitch_phase (w : SwitchId) (x : Switch) : (setSwitch w x s).phase = s.phase := by cases w <;> rfl
@[simp] theorem setSwitch_loader (w : SwitchId) (x : Switch) : (setSwitch w x s).loader = s.loader := by cases w <;> rfl
@[simp] theorem setSwitch_cfg (w : SwitchId) (x : Switch) : (setSwitch w x s).cfg = s.cfg := by cases w <;> rfl
@[simp] theorem setSwitch_pins (w : SwitchId) (x : Switch) : (setSwitch w x s).pins = s.pins := by cases w <;> rfl
@[simp] theorem setSwitch_sensing (w : SwitchId) (x : Switch) : (setSwitch w x s).sensing = s.sensing := by cases w <;> rfl
@[simp] theorem setSwitch_picture (w : SwitchId) (x : Switch) : (setSwitch w x s).picture = s.picture := by cases w <;> rfl
@[simp] theorem setSwitch_eval (w : SwitchId) (x : Switch) : (setSwitch w x s).eval = s.eval := by cases w <;> rfl
@[simp] theorem setSwitch_jobs (w : SwitchId) (x : Switch) : (setSwitch w x s).jobs = s.jobs := by cases w <;> rfl
@[simp] theorem setSwitch_supply (w : SwitchId) (x : Switch) : (setSwitch w x s).supply = s.supply := by cases w <;> rfl
@[simp] theorem setSwitch_drivers (w : SwitchId) (x : Switch) : (setSwitch w x s).drivers = s.drivers := by cases w <;> rfl
@[simp] theorem setSwitch_chirp (w : SwitchId) (x : Switch) : (setSwitch w x s).chirp = s.chirp := by cases w <;> rfl
@[simp] theorem setSwitch_line (w : SwitchId) (x : Switch) : (setSwitch w x s).line = s.line := by cases w <;> rfl
@[simp] theorem setSwitch_link (w : SwitchId) (x : Switch) : (setSwitch w x s).link = s.link := by cases w <;> rfl
@[simp] theorem setSwitch_status (w : SwitchId) (x : Switch) : (setSwitch w x s).status = s.status := by cases w <;> rfl
@[simp] theorem setSwitch_work (w : SwitchId) (x : Switch) : (setSwitch w x s).work = s.work := by cases w <;> rfl
@[simp] theorem setSwitch_free (w : SwitchId) (x : Switch) : (setSwitch w x s).free = s.free := by cases w <;> rfl

/-! ### dropJob -/

@[simp] theorem dropJob_pending (c : Channel) : (dropJob c s).pending = s.pending := rfl
@[simp] theorem dropJob_phase (c : Channel) : (dropJob c s).phase = s.phase := rfl
@[simp] theorem dropJob_loader (c : Channel) : (dropJob c s).loader = s.loader := rfl
@[simp] theorem dropJob_cfg (c : Channel) : (dropJob c s).cfg = s.cfg := rfl
@[simp] theorem dropJob_pins (c : Channel) : (dropJob c s).pins = s.pins := rfl
@[simp] theorem dropJob_sensing (c : Channel) : (dropJob c s).sensing = s.sensing := rfl
@[simp] theorem dropJob_picture (c : Channel) : (dropJob c s).picture = s.picture := rfl
@[simp] theorem dropJob_eval (c : Channel) : (dropJob c s).eval = s.eval := rfl
@[simp] theorem dropJob_supply (c : Channel) : (dropJob c s).supply = s.supply := rfl
@[simp] theorem dropJob_drivers (c : Channel) : (dropJob c s).drivers = s.drivers := rfl
@[simp] theorem dropJob_chirp (c : Channel) : (dropJob c s).chirp = s.chirp := rfl
@[simp] theorem dropJob_line (c : Channel) : (dropJob c s).line = s.line := rfl
@[simp] theorem dropJob_link (c : Channel) : (dropJob c s).link = s.link := rfl
@[simp] theorem dropJob_requests (c : Channel) : (dropJob c s).requests = s.requests := rfl
@[simp] theorem dropJob_status (c : Channel) : (dropJob c s).status = s.status := rfl
@[simp] theorem dropJob_work (c : Channel) : (dropJob c s).work = s.work := rfl
@[simp] theorem dropJob_free (c : Channel) : (dropJob c s).free = s.free := rfl

/-! ### changeJob -/

@[simp] theorem changeJob_pending (c : Channel) (f : Job → Job) : (changeJob c f s).pending = s.pending := rfl
@[simp] theorem changeJob_phase (c : Channel) (f : Job → Job) : (changeJob c f s).phase = s.phase := rfl
@[simp] theorem changeJob_loader (c : Channel) (f : Job → Job) : (changeJob c f s).loader = s.loader := rfl
@[simp] theorem changeJob_cfg (c : Channel) (f : Job → Job) : (changeJob c f s).cfg = s.cfg := rfl
@[simp] theorem changeJob_pins (c : Channel) (f : Job → Job) : (changeJob c f s).pins = s.pins := rfl
@[simp] theorem changeJob_sensing (c : Channel) (f : Job → Job) : (changeJob c f s).sensing = s.sensing := rfl
@[simp] theorem changeJob_picture (c : Channel) (f : Job → Job) : (changeJob c f s).picture = s.picture := rfl
@[simp] theorem changeJob_eval (c : Channel) (f : Job → Job) : (changeJob c f s).eval = s.eval := rfl
@[simp] theorem changeJob_supply (c : Channel) (f : Job → Job) : (changeJob c f s).supply = s.supply := rfl
@[simp] theorem changeJob_drivers (c : Channel) (f : Job → Job) : (changeJob c f s).drivers = s.drivers := rfl
@[simp] theorem changeJob_chirp (c : Channel) (f : Job → Job) : (changeJob c f s).chirp = s.chirp := rfl
@[simp] theorem changeJob_line (c : Channel) (f : Job → Job) : (changeJob c f s).line = s.line := rfl
@[simp] theorem changeJob_link (c : Channel) (f : Job → Job) : (changeJob c f s).link = s.link := rfl
@[simp] theorem changeJob_requests (c : Channel) (f : Job → Job) : (changeJob c f s).requests = s.requests := rfl
@[simp] theorem changeJob_status (c : Channel) (f : Job → Job) : (changeJob c f s).status = s.status := rfl
@[simp] theorem changeJob_work (c : Channel) (f : Job → Job) : (changeJob c f s).work = s.work := rfl
@[simp] theorem changeJob_free (c : Channel) (f : Job → Job) : (changeJob c f s).free = s.free := rfl

/-! ### enterJob -/

@[simp] theorem enterJob_pending (j : Job) : (enterJob j s).pending = s.pending := rfl
@[simp] theorem enterJob_phase (j : Job) : (enterJob j s).phase = s.phase := rfl
@[simp] theorem enterJob_loader (j : Job) : (enterJob j s).loader = s.loader := rfl
@[simp] theorem enterJob_cfg (j : Job) : (enterJob j s).cfg = s.cfg := rfl
@[simp] theorem enterJob_pins (j : Job) : (enterJob j s).pins = s.pins := rfl
@[simp] theorem enterJob_sensing (j : Job) : (enterJob j s).sensing = s.sensing := rfl
@[simp] theorem enterJob_picture (j : Job) : (enterJob j s).picture = s.picture := rfl
@[simp] theorem enterJob_eval (j : Job) : (enterJob j s).eval = s.eval := rfl
@[simp] theorem enterJob_supply (j : Job) : (enterJob j s).supply = s.supply := rfl
@[simp] theorem enterJob_drivers (j : Job) : (enterJob j s).drivers = s.drivers := rfl
@[simp] theorem enterJob_chirp (j : Job) : (enterJob j s).chirp = s.chirp := rfl
@[simp] theorem enterJob_line (j : Job) : (enterJob j s).line = s.line := rfl
@[simp] theorem enterJob_link (j : Job) : (enterJob j s).link = s.link := rfl
@[simp] theorem enterJob_requests (j : Job) : (enterJob j s).requests = s.requests := rfl
@[simp] theorem enterJob_status (j : Job) : (enterJob j s).status = s.status := rfl
@[simp] theorem enterJob_free (j : Job) : (enterJob j s).free = s.free := rfl

/-! ### changeEntries -/

@[simp] theorem changeEntries_pending (p : Entry → Bool) (f : Entry → Entry) : (changeEntries p f s).pending = s.pending := rfl
@[simp] theorem changeEntries_phase (p : Entry → Bool) (f : Entry → Entry) : (changeEntries p f s).phase = s.phase := rfl
@[simp] theorem changeEntries_loader (p : Entry → Bool) (f : Entry → Entry) : (changeEntries p f s).loader = s.loader := rfl
@[simp] theorem changeEntries_cfg (p : Entry → Bool) (f : Entry → Entry) : (changeEntries p f s).cfg = s.cfg := rfl
@[simp] theorem changeEntries_pins (p : Entry → Bool) (f : Entry → Entry) : (changeEntries p f s).pins = s.pins := rfl
@[simp] theorem changeEntries_sensing (p : Entry → Bool) (f : Entry → Entry) : (changeEntries p f s).sensing = s.sensing := rfl
@[simp] theorem changeEntries_picture (p : Entry → Bool) (f : Entry → Entry) : (changeEntries p f s).picture = s.picture := rfl
@[simp] theorem changeEntries_eval (p : Entry → Bool) (f : Entry → Entry) : (changeEntries p f s).eval = s.eval := rfl
@[simp] theorem changeEntries_jobs (p : Entry → Bool) (f : Entry → Entry) : (changeEntries p f s).jobs = s.jobs := rfl
@[simp] theorem changeEntries_drivers (p : Entry → Bool) (f : Entry → Entry) : (changeEntries p f s).drivers = s.drivers := rfl
@[simp] theorem changeEntries_chirp (p : Entry → Bool) (f : Entry → Entry) : (changeEntries p f s).chirp = s.chirp := rfl
@[simp] theorem changeEntries_line (p : Entry → Bool) (f : Entry → Entry) : (changeEntries p f s).line = s.line := rfl
@[simp] theorem changeEntries_link (p : Entry → Bool) (f : Entry → Entry) : (changeEntries p f s).link = s.link := rfl
@[simp] theorem changeEntries_requests (p : Entry → Bool) (f : Entry → Entry) : (changeEntries p f s).requests = s.requests := rfl
@[simp] theorem changeEntries_status (p : Entry → Bool) (f : Entry → Entry) : (changeEntries p f s).status = s.status := rfl
@[simp] theorem changeEntries_work (p : Entry → Bool) (f : Entry → Entry) : (changeEntries p f s).work = s.work := rfl
@[simp] theorem changeEntries_free (p : Entry → Bool) (f : Entry → Entry) : (changeEntries p f s).free = s.free := rfl

/-! ### removeEntries -/

@[simp] theorem removeEntries_pending (p : Entry → Bool) : (removeEntries p s).pending = s.pending := rfl
@[simp] theorem removeEntries_phase (p : Entry → Bool) : (removeEntries p s).phase = s.phase := rfl
@[simp] theorem removeEntries_loader (p : Entry → Bool) : (removeEntries p s).loader = s.loader := rfl
@[simp] theorem removeEntries_cfg (p : Entry → Bool) : (removeEntries p s).cfg = s.cfg := rfl
@[simp] theorem removeEntries_pins (p : Entry → Bool) : (removeEntries p s).pins = s.pins := rfl
@[simp] theorem removeEntries_sensing (p : Entry → Bool) : (removeEntries p s).sensing = s.sensing := rfl
@[simp] theorem removeEntries_picture (p : Entry → Bool) : (removeEntries p s).picture = s.picture := rfl
@[simp] theorem removeEntries_eval (p : Entry → Bool) : (removeEntries p s).eval = s.eval := rfl
@[simp] theorem removeEntries_jobs (p : Entry → Bool) : (removeEntries p s).jobs = s.jobs := rfl
@[simp] theorem removeEntries_drivers (p : Entry → Bool) : (removeEntries p s).drivers = s.drivers := rfl
@[simp] theorem removeEntries_chirp (p : Entry → Bool) : (removeEntries p s).chirp = s.chirp := rfl
@[simp] theorem removeEntries_line (p : Entry → Bool) : (removeEntries p s).line = s.line := rfl
@[simp] theorem removeEntries_link (p : Entry → Bool) : (removeEntries p s).link = s.link := rfl
@[simp] theorem removeEntries_requests (p : Entry → Bool) : (removeEntries p s).requests = s.requests := rfl
@[simp] theorem removeEntries_status (p : Entry → Bool) : (removeEntries p s).status = s.status := rfl
@[simp] theorem removeEntries_work (p : Entry → Bool) : (removeEntries p s).work = s.work := rfl
@[simp] theorem removeEntries_free (p : Entry → Bool) : (removeEntries p s).free = s.free := rfl

/-! ### faultRaised -/

@[simp] theorem faultRaised_pending (k : FaultKind) (n : Nat) : (faultRaised k n s).pending = s.pending := by cases k <;> rfl
@[simp] theorem faultRaised_phase (k : FaultKind) (n : Nat) : (faultRaised k n s).phase = s.phase := by cases k <;> rfl
@[simp] theorem faultRaised_loader (k : FaultKind) (n : Nat) : (faultRaised k n s).loader = s.loader := by cases k <;> rfl
@[simp] theorem faultRaised_cfg (k : FaultKind) (n : Nat) : (faultRaised k n s).cfg = s.cfg := by cases k <;> rfl
@[simp] theorem faultRaised_pins (k : FaultKind) (n : Nat) : (faultRaised k n s).pins = s.pins := by cases k <;> rfl
@[simp] theorem faultRaised_sensing (k : FaultKind) (n : Nat) : (faultRaised k n s).sensing = s.sensing := by cases k <;> rfl
@[simp] theorem faultRaised_picture (k : FaultKind) (n : Nat) : (faultRaised k n s).picture = s.picture := by cases k <;> rfl
@[simp] theorem faultRaised_eval (k : FaultKind) (n : Nat) : (faultRaised k n s).eval = s.eval := by cases k <;> rfl
@[simp] theorem faultRaised_jobs (k : FaultKind) (n : Nat) : (faultRaised k n s).jobs = s.jobs := by cases k <;> rfl
@[simp] theorem faultRaised_supply (k : FaultKind) (n : Nat) : (faultRaised k n s).supply = s.supply := by cases k <;> rfl
@[simp] theorem faultRaised_drivers (k : FaultKind) (n : Nat) : (faultRaised k n s).drivers = s.drivers := by cases k <;> rfl
@[simp] theorem faultRaised_chirp (k : FaultKind) (n : Nat) : (faultRaised k n s).chirp = s.chirp := by cases k <;> rfl
@[simp] theorem faultRaised_line (k : FaultKind) (n : Nat) : (faultRaised k n s).line = s.line := by cases k <;> rfl
@[simp] theorem faultRaised_link (k : FaultKind) (n : Nat) : (faultRaised k n s).link = s.link := by cases k <;> rfl
@[simp] theorem faultRaised_requests (k : FaultKind) (n : Nat) : (faultRaised k n s).requests = s.requests := by cases k <;> rfl
@[simp] theorem faultRaised_work (k : FaultKind) (n : Nat) : (faultRaised k n s).work = s.work := by cases k <;> rfl
@[simp] theorem faultRaised_free (k : FaultKind) (n : Nat) : (faultRaised k n s).free = s.free := by cases k <;> rfl

/-! ### What each update writes -/

@[simp] theorem setDriver_get_same (c : Channel) (d : Driver) : (setDriver c d s).drivers.get c = d :=
  Eight.get_set_same _ _ _

theorem setDriver_get_ne {c c' : Channel} (d : Driver) (h : c' ≠ c) :
    (setDriver c d s).drivers.get c' = s.drivers.get c' := Eight.get_set_ne _ _ h

theorem setDriver_get (c c' : Channel) (d : Driver) :
    (setDriver c d s).drivers.get c' = if c' = c then d else s.drivers.get c' := Eight.get_set _ _ _ _

@[simp] theorem setDriver_self (c : Channel) : setDriver c (s.drivers.get c) s = s := by
  simp [setDriver]

@[simp] theorem setExposed_get_same (c : Channel) (x : Exposed) :
    (setExposed c x s).eval.chans.get c = x := Eight.get_set_same _ _ _

theorem setExposed_get (c c' : Channel) (x : Exposed) :
    (setExposed c x s).eval.chans.get c' = if c' = c then x else s.eval.chans.get c' :=
  Eight.get_set _ _ _ _

@[simp] theorem setExposed_storm (c : Channel) (x : Exposed) :
    (setExposed c x s).eval.storm = s.eval.storm := rfl

@[simp] theorem setExposed_stormRelease (c : Channel) (x : Exposed) :
    (setExposed c x s).eval.stormRelease = s.eval.stormRelease := rfl

@[simp] theorem setJobs_jobs (js : List Job) : (setJobs js s).jobs = js := rfl
@[simp] theorem setEntries_entries (es : List Entry) : (setEntries es s).supply.entries = es := rfl
@[simp] theorem setEntries_tagCounter (es : List Entry) :
    (setEntries es s).supply.tagCounter = s.supply.tagCounter := rfl
@[simp] theorem setEntries_tableFull (es : List Entry) :
    (setEntries es s).supply.tableFull = s.supply.tableFull := rfl
@[simp] theorem setEntries_heldExcess (es : List Entry) :
    (setEntries es s).supply.heldExcess = s.supply.heldExcess := rfl
@[simp] theorem setQueue_queue (q : List TxFrame) : (setQueue q s).line.queue = q := rfl
@[simp] theorem setQueue_rx (q : List TxFrame) : (setQueue q s).line.rx = s.line.rx := rfl
@[simp] theorem setRx_rx (r : Receiver) : (setRx r s).line.rx = r := rfl
@[simp] theorem setRx_queue (r : Receiver) : (setRx r s).line.queue = s.line.queue := rfl
@[simp] theorem wantScan_work : (wantScan s).work = { s.work with scan := true } := rfl
@[simp] theorem enterJob_work (j : Job) : (enterJob j s).work = { s.work with scan := true } := rfl
@[simp] theorem enterJob_jobs (j : Job) : (enterJob j s).jobs = placeJob j s.jobs := rfl
@[simp] theorem dropJob_jobs (c : Channel) :
    (dropJob c s).jobs = s.jobs.filter (fun j => decide (j.chan ≠ c)) := rfl
@[simp] theorem changeJob_jobs (c : Channel) (f : Job → Job) :
    (changeJob c f s).jobs = sortJobs (s.jobs.map (fun j => if j.chan = c then f j else j)) := rfl
@[simp] theorem changeEntries_entries (p : Entry → Bool) (f : Entry → Entry) :
    (changeEntries p f s).supply.entries = s.supply.entries.map (fun e => if p e then f e else e) := rfl
@[simp] theorem removeEntries_entries (p : Entry → Bool) :
    (removeEntries p s).supply.entries = s.supply.entries.filter (fun e => !p e) := rfl
@[simp] theorem setSensing_sensing (x : Sensing) : (setSensing x s).sensing = x := rfl
@[simp] theorem raiseEvent_counters (e : Event) :
    (raiseEvent e s).status.counters = bumpCounter s.status.counters e := rfl
@[simp] theorem raiseEvent_flags (e : Event) :
    (raiseEvent e s).status.flags = s.status.flags ||| eventFlag e := rfl
@[simp] theorem recordError_code (k : ErrorCode) (n : Nat) :
    (recordError k n s).status.errorCode = some k := rfl
@[simp] theorem recordError_source (k : ErrorCode) (n : Nat) :
    (recordError k n s).status.errorSource = n := rfl
@[simp] theorem recordError_counters (k : ErrorCode) (n : Nat) :
    (recordError k n s).status.counters = s.status.counters := rfl
@[simp] theorem recordError_flags (k : ErrorCode) (n : Nat) :
    (recordError k n s).status.flags = s.status.flags := rfl
@[simp] theorem wantRestart_of_none (h : s.requests.pendingRestart = false) : wantRestart s = s := by
  simp [wantRestart, h]

end Sys2Proof.Machine
end

