-- ==== Sys2Proof/Laws/Lists.lean ====
section
/-! SUPPORT. Laws of the ordered lists: frames by priority (R143), jobs by key (R59), and sums of draws (R80). -/

namespace Sys2Proof.Machine

/-! ### Frames in order of priority -/

theorem placeFrame_perm (f : TxFrame) : ∀ q, (placeFrame f q).Perm (f :: q)
  | [] => .refl _
  | g :: gs => by
    unfold placeFrame
    split
    · exact ((placeFrame_perm f gs).cons g).trans (.swap f g gs)
    · exact .refl _

theorem mem_placeFrame {f g : TxFrame} {q : List TxFrame} : g ∈ placeFrame f q ↔ g = f ∨ g ∈ q := by
  rw [(placeFrame_perm f q).mem_iff, List.mem_cons]

@[simp] theorem placeFrame_length (f : TxFrame) (q : List TxFrame) :
    (placeFrame f q).length = q.length + 1 := (placeFrame_perm f q).length_eq

theorem placeFrame_countP (p : TxFrame → Bool) (f : TxFrame) (q : List TxFrame) :
    (placeFrame f q).countP p = q.countP p + if p f then 1 else 0 := by
  rw [(placeFrame_perm f q).countP_eq, List.countP_cons]

theorem placeFrame_sorted (f : TxFrame) :
    ∀ q : List TxFrame, q.Pairwise (fun f g => g.frame.prio ≤ f.frame.prio) →
      (placeFrame f q).Pairwise (fun f g => g.frame.prio ≤ f.frame.prio)
  | [], _ => List.pairwise_singleton _ _
  | g :: gs, h => by
    rw [List.pairwise_cons] at h
    unfold placeFrame
    split
    · next hle =>
      refine List.pairwise_cons.2 ⟨fun x hx => ?_, placeFrame_sorted f gs h.2⟩
      rcases mem_placeFrame.1 hx with rfl | hx
      · exact hle
      · exact h.1 x hx
    · next hlt =>
      refine List.pairwise_cons.2 ⟨fun x hx => ?_, List.pairwise_cons.2 h⟩
      rcases List.mem_cons.1 hx with rfl | hx
      · omega
      · have := h.1 x hx; omega

/-! ### The transmit queue under its updates -/

theorem TxOrdered.nil : TxOrdered [] := by
  refine ⟨by decide, .nil, ?_, ?_, ?_⟩ <;> simp

/-- A part of an ordered queue is ordered. -/
theorem TxOrdered.sublist {p q : List TxFrame} (h : TxOrdered q) (hs : p.Sublist q) : TxOrdered p :=
  ⟨hs.length_le.trans h.1, h.2.1.sublist hs, hs.countP_le.trans h.2.2.1, hs.countP_le.trans h.2.2.2.1,
    hs.countP_le.trans h.2.2.2.2⟩

/-- A frame not under transmission placed where there is room, no waiting frame giving way to it. -/
theorem TxOrdered.place {q : List TxFrame} {f : TxFrame} (h : TxOrdered q) (hf : f.sending = false)
    (hroom : q.length < Config.txSize) (hnone : q.any (replacedBy f.owner) = false) :
    TxOrdered (placeFrame f q) := by
  obtain ⟨h1, h2, h3, h4, h5⟩ := h
  have hnone' : q.countP (replacedBy f.owner) = 0 := by
    rw [List.countP_eq_zero]; intro x hx hr
    have := List.any_eq_false.1 hnone x hx
    exact this hr
  refine ⟨by simp; omega, placeFrame_sorted f q h2, ?_, ?_, ?_⟩
  · rw [placeFrame_countP]; simp [hf]; exact h3
  · rw [placeFrame_countP]
    split
    · next hr =>
      have : f.owner = .obs := by cases ho : f.owner <;> simp_all [replacedBy]
      rw [this] at hnone'; omega
    · omega
  · rw [placeFrame_countP]
    split
    · next hr =>
      have : f.owner = .pres := by cases ho : f.owner <;> simp_all [replacedBy]
      rw [this] at hnone'; omega
    · omega

theorem victim_mem {p : Nat} {q : List TxFrame} {v : TxFrame} (h : victim p q = some v) :
    v ∈ q ∧ isWaiting v = true ∧ v.frame.prio = lowestPriority q := by
  unfold victim at h
  split at h
  · have h1 := List.mem_of_find?_eq_some h
    have h2 := List.find?_some h
    simp only [Bool.and_eq_true, decide_eq_true_eq] at h2
    exact ⟨h1, h2⟩
  · cases h

theorem withoutVictim_length {p : Nat} {q : List TxFrame} {v : TxFrame} (h : victim p q = some v) :
    (withoutVictim q).length + 1 = q.length := by
  obtain ⟨hm, hw⟩ := victim_mem h
  have := List.length_eraseP_of_mem (p := fun f => isWaiting f && decide (f.frame.prio = lowestPriority q))
    hm (by simp [hw])
  have hpos : 0 < q.length := List.length_pos_of_mem hm
  unfold withoutVictim
  omega

theorem withoutVictim_sublist (q : List TxFrame) : (withoutVictim q).Sublist q := List.eraseP_sublist

/-! ### Jobs in order of their key -/

theorem jobAhead_iff (a b : Job) : jobAhead a b = true ↔
    b.cls < a.cls ∨ (b.cls = a.cls ∧ (b.zone < a.zone ∨ (b.zone = a.zone ∧
      (exposureRank b.exposure < exposureRank a.exposure ∨
        (exposureRank b.exposure = exposureRank a.exposure ∧ a.chan.val < b.chan.val))))) := by
  unfold jobAhead
  split
  · simp only [decide_eq_true_eq]; omega
  · split
    · simp only [decide_eq_true_eq]; omega
    · split
      · simp only [decide_eq_true_eq]; omega
      · simp only [decide_eq_true_eq, Fin.lt_def]; omega

theorem jobAhead_asymm {a b : Job} (h : jobAhead a b = true) : jobAhead b a = false := by
  rw [Bool.eq_false_iff, Ne, jobAhead_iff]
  rw [jobAhead_iff] at h
  omega

theorem jobAhead_trans {a b c : Job} (h : jobAhead a b = true) (h' : jobAhead b c = true) :
    jobAhead a c = true := by
  rw [jobAhead_iff] at *
  omega

/-- Two jobs of different channels: one ranks ahead of the other. -/
theorem jobAhead_total {a b : Job} (h : a.chan ≠ b.chan) : jobAhead a b = true ∨ jobAhead b a = true := by
  have : a.chan.val ≠ b.chan.val := fun e => h (Fin.ext e)
  rw [jobAhead_iff, jobAhead_iff]
  omega

/-- The order is worked out from class, zone, exposure and channel alone. -/
theorem jobAhead_congr {a a' b b' : Job} (h1 : a'.cls = a.cls) (h2 : a'.zone = a.zone)
    (h3 : a'.exposure = a.exposure) (h4 : a'.chan = a.chan) (k1 : b'.cls = b.cls)
    (k2 : b'.zone = b.zone) (k3 : b'.exposure = b.exposure) (k4 : b'.chan = b.chan) :
    jobAhead a' b' = jobAhead a b := by
  unfold jobAhead; rw [h1, h2, h3, h4, k1, k2, k3, k4]

theorem placeJob_perm (j : Job) : ∀ js, (placeJob j js).Perm (j :: js)
  | [] => .refl _
  | k :: ks => by
    unfold placeJob
    split
    · exact .refl _
    · exact ((placeJob_perm j ks).cons k).trans (.swap j k ks)

theorem mem_placeJob {j k : Job} {js : List Job} : k ∈ placeJob j js ↔ k = j ∨ k ∈ js := by
  rw [(placeJob_perm j js).mem_iff, List.mem_cons]

theorem sortJobs_perm : ∀ js, (sortJobs js).Perm js
  | [] => .refl _
  | j :: js => (placeJob_perm j (sortJobs js)).trans ((sortJobs_perm js).cons j)

theorem placeJob_sorted (j : Job) :
    ∀ js : List Job, js.Pairwise (fun a b => jobAhead b a = false) →
      (placeJob j js).Pairwise (fun a b => jobAhead b a = false)
  | [], _ => List.pairwise_singleton _ _
  | k :: ks, h => by
    rw [List.pairwise_cons] at h
    unfold placeJob
    split
    · next hjk =>
      refine List.pairwise_cons.2 ⟨fun x hx => ?_, List.pairwise_cons.2 h⟩
      rcases List.mem_cons.1 hx with rfl | hx
      · exact jobAhead_asymm hjk
      · rw [Bool.eq_false_iff]; intro hxj
        exact absurd (jobAhead_trans hxj hjk) (by rw [h.1 x hx]; decide)
    · next hjk =>
      refine List.pairwise_cons.2 ⟨fun x hx => ?_, placeJob_sorted j ks h.2⟩
      rcases mem_placeJob.1 hx with rfl | hx
      · rwa [Bool.not_eq_true] at hjk
      · exact h.1 x hx

theorem sortJobs_sorted : ∀ js : List Job, (sortJobs js).Pairwise (fun a b => jobAhead b a = false)
  | [] => .nil
  | j :: js => placeJob_sorted j _ (sortJobs_sorted js)

/-! ### The motion queue under its updates -/

theorem JobsOrdered.nil : JobsOrdered [] := ⟨List.nodup_nil, .nil⟩

theorem JobsOrdered.sublist {js ks : List Job} (h : JobsOrdered js) (hs : ks.Sublist js) : JobsOrdered ks :=
  ⟨h.1.sublist (hs.map _), h.2.sublist hs⟩

/-- A job of a channel with none placed in an ordered queue. -/
theorem JobsOrdered.place {js : List Job} {j : Job} (h : JobsOrdered js) (hj : ∀ k ∈ js, k.chan ≠ j.chan) :
    JobsOrdered (placeJob j js) := by
  refine ⟨?_, placeJob_sorted j js h.2⟩
  rw [((placeJob_perm j js).map Job.chan).nodup_iff, List.map_cons, List.nodup_cons]
  refine ⟨fun hm => ?_, h.1⟩
  obtain ⟨k, hk, he⟩ := List.mem_map.1 hm
  exact hj k hk he

/-- A change of jobs that leaves their channels alone, with the queue put into key order anew. -/
theorem JobsOrdered.resort {js : List Job} {f : Job → Job} (h : JobsOrdered js)
    (hf : ∀ j, (f j).chan = j.chan) : JobsOrdered (sortJobs (js.map f)) := by
  refine ⟨?_, sortJobs_sorted _⟩
  rw [((sortJobs_perm _).map Job.chan).nodup_iff, List.map_map]
  have : (Job.chan ∘ f) = Job.chan := funext hf
  rw [this]; exact h.1

/-- A change of jobs that leaves their channels and keys alone. -/
theorem JobsOrdered.map {js : List Job} {f : Job → Job} (h : JobsOrdered js)
    (h1 : ∀ j, (f j).cls = j.cls) (h2 : ∀ j, (f j).zone = j.zone)
    (h3 : ∀ j, (f j).exposure = j.exposure) (h4 : ∀ j, (f j).chan = j.chan) :
    JobsOrdered (js.map f) := by
  refine ⟨?_, ?_⟩
  · rw [List.map_map]
    have : (Job.chan ∘ f) = Job.chan := funext h4
    rw [this]; exact h.1
  · rw [List.pairwise_map]
    exact h.2.imp (fun {a b} hab => by
      rw [jobAhead_congr (h1 b) (h2 b) (h3 b) (h4 b) (h1 a) (h2 a) (h3 a) (h4 a)]; exact hab)

/-! ### Sums of draws -/

theorem drawSum_nil (p : Entry → Bool) : drawSum p [] = 0 := rfl

theorem drawSum_cons (p : Entry → Bool) (e : Entry) (es : List Entry) :
    drawSum p (e :: es) = (if p e then e.draw else 0) + drawSum p es := by
  unfold drawSum
  by_cases h : p e <;> simp [h]

theorem drawSum_append (p : Entry → Bool) (es fs : List Entry) :
    drawSum p (es ++ fs) = drawSum p es + drawSum p fs := by
  simp [drawSum, List.filter_append]

/-- Fewer entries, a smaller sum. -/
theorem drawSum_sublist {p : Entry → Bool} {es fs : List Entry} (h : es.Sublist fs) :
    drawSum p es ≤ drawSum p fs := by
  induction h with
  | slnil => exact Nat.le_refl _
  | cons a _ ih => rw [drawSum_cons]; omega
  | cons_cons a _ ih => rw [drawSum_cons, drawSum_cons]; omega

/-- A stricter test, a smaller sum. -/
theorem drawSum_mono {p q : Entry → Bool} {es : List Entry} (h : ∀ e ∈ es, p e = true → q e = true) :
    drawSum p es ≤ drawSum q es := by
  induction es with
  | nil => exact Nat.le_refl _
  | cons e es ih =>
    rw [drawSum_cons, drawSum_cons]
    have := ih (fun x hx => h x (List.mem_cons_of_mem _ hx))
    have := h e (List.mem_cons_self ..)
    rcases hp : p e with _ | _ <;> rcases hq : q e with _ | _ <;> simp [hp, hq] at this ⊢ <;> omega

/-- A change of entries that alters neither the test nor the draw. -/
theorem drawSum_map {p : Entry → Bool} {f : Entry → Entry} (es : List Entry)
    (h : ∀ e ∈ es, p (f e) = p e ∧ (p e = true → (f e).draw = e.draw)) : drawSum p (es.map f) = drawSum p es := by
  induction es with
  | nil => rfl
  | cons e es ih =>
    rw [List.map_cons, drawSum_cons, drawSum_cons, ih (fun x hx => h x (List.mem_cons_of_mem _ hx))]
    obtain ⟨h1, h2⟩ := h e (List.mem_cons_self ..)
    rw [h1]
    split
    · next hp => rw [h2 hp]
    · rfl

end Sys2Proof.Machine
end

