-- ==== Sys2Proof/Laws/Queue.lean ====
section
/-! SUPPORT. What the shared operations on jobs, claims and frames can do (chapters 4, 5, 7): `QueueStep` says once what
they leave alone and what they keep, and each operation has one lemma. -/

namespace Sys2Proof.Machine

/-- From `s` to `t` only jobs, claims, queued frames, records and marks have changed; no OPEN job is new, no restart is
called for unless one is pending, and the properties of each part are kept. -/
structure QueueStep (s t : State) : Prop where
  pending : t.pending = s.pending
  phase : t.phase = s.phase
  loader : t.loader = s.loader
  cfg : t.cfg = s.cfg
  pins : t.pins = s.pins
  sensing : t.sensing = s.sensing
  picture : t.picture = s.picture
  eval : t.eval = s.eval
  drivers : t.drivers = s.drivers
  chirp : t.chirp = s.chirp
  rx : t.line.rx = s.line.rx
  link : t.link = s.link
  requests : t.requests = s.requests
  free : t.free = s.free
  restart : s.requests.pendingRestart = false → t.work.restart = s.work.restart
  tx : TxOrdered s.line.queue → TxOrdered t.line.queue
  records : RecordsBounded s.status → RecordsBounded t.status
  jobs : JobsOrdered s.jobs → JobsOrdered t.jobs
  opens : ∀ j ∈ t.jobs, j.dir = .opening → ∃ k ∈ s.jobs, k.chan = j.chan ∧ k.dir = .opening
  table : TableBounded s → TableBounded t
  own : OwnEntriesCarry s → OwnEntriesCarry t
  budget : WithinBudget s → WithinBudget t

theorem QueueStep.refl (s : State) : QueueStep s s :=
  ⟨rfl, rfl, rfl, rfl, rfl, rfl, rfl, rfl, rfl, rfl, rfl, rfl, rfl, rfl, fun _ => rfl, id, id, id,
    fun j h hd => ⟨j, h, rfl, hd⟩, id, id, id⟩

theorem QueueStep.trans {a b c : State} (h : QueueStep a b) (k : QueueStep b c) : QueueStep a c :=
  ⟨k.pending.trans h.pending, k.phase.trans h.phase, k.loader.trans h.loader, k.cfg.trans h.cfg,
    k.pins.trans h.pins, k.sensing.trans h.sensing, k.picture.trans h.picture, k.eval.trans h.eval,
    k.drivers.trans h.drivers, k.chirp.trans h.chirp, k.rx.trans h.rx, k.link.trans h.link,
    k.requests.trans h.requests, k.free.trans h.free,
    fun hp => (k.restart (by rw [h.requests]; exact hp)).trans (h.restart hp),
    k.tx ∘ h.tx, k.records ∘ h.records, k.jobs ∘ h.jobs,
    fun j hj hd => by
      obtain ⟨m, hm, hc, hmd⟩ := k.opens j hj hd
      obtain ⟨n, hn, hc', hnd⟩ := h.opens m hm hmd
      exact ⟨n, hn, hc'.trans hc, hnd⟩,
    k.table ∘ h.table, k.own ∘ h.own, k.budget ∘ h.budget⟩

/-! ### Records -/

theorem satSucc_le {limit n : Nat} (h : n ≤ limit) : satSucc limit n ≤ limit := by
  unfold satSucc; split <;> omega

theorem counterOf_bump (k : Counters) (e e' : Event) :
    counterOf (bumpCounter k e) e' =
      if e' = e then satSucc Config.counterMax (counterOf k e) else counterOf k e' := by
  cases e <;> cases e' <;> rfl

theorem RecordsBounded.raise {r : Status} (h : RecordsBounded r) (e : Event) (w : Word) :
    RecordsBounded { r with flags := w, counters := bumpCounter r.counters e } := by
  refine ⟨fun e' => ?_, h.2⟩
  show counterOf (bumpCounter r.counters e) e' ≤ _
  rw [counterOf_bump]
  split
  · exact satSucc_le (h.1 e)
  · exact h.1 e'

theorem raiseEvent_step (e : Event) (s : State) : QueueStep s (raiseEvent e s) :=
  ⟨rfl, rfl, rfl, rfl, rfl, rfl, rfl, rfl, rfl, rfl, rfl, rfl, rfl, rfl, fun _ => rfl, id,
    fun h => h.raise e _, id, fun j h hd => ⟨j, h, rfl, hd⟩, id, id, id⟩

theorem recordError_step (k : ErrorCode) (n : Nat) (s : State) : QueueStep s (recordError k n s) :=
  ⟨rfl, rfl, rfl, rfl, rfl, rfl, rfl, rfl, rfl, rfl, rfl, rfl, rfl, rfl, fun _ => rfl, id, id, id,
    fun j h hd => ⟨j, h, rfl, hd⟩, id, id, id⟩

theorem raiseError_step (e : Event) (k : ErrorCode) (n : Nat) (s : State) :
    QueueStep s (raiseError e k n s) := (raiseEvent_step e s).trans (recordError_step k n _)

theorem recordRefusal_step (v : Nat) (w : Requester) (k : ErrorCode) (s : State) :
    QueueStep s (recordRefusal v w k s) :=
  (raiseError_step .requestRefused k (requesterSource w) s).trans
    ⟨rfl, rfl, rfl, rfl, rfl, rfl, rfl, rfl, rfl, rfl, rfl, rfl, rfl, rfl, fun _ => rfl, id, id, id,
      fun j h hd => ⟨j, h, rfl, hd⟩, id, id, id⟩

theorem countReceived_step (s : State) : QueueStep s (countReceived s) :=
  ⟨rfl, rfl, rfl, rfl, rfl, rfl, rfl, rfl, rfl, rfl, rfl, rfl, rfl, rfl, fun _ => rfl, id,
    fun h => ⟨h.1, satSucc_le h.2.1, h.2.2⟩, id, fun j h hd => ⟨j, h, rfl, hd⟩, id, id, id⟩

theorem countRejected_step (s : State) : QueueStep s (countRejected s) :=
  ⟨rfl, rfl, rfl, rfl, rfl, rfl, rfl, rfl, rfl, rfl, rfl, rfl, rfl, rfl, fun _ => rfl, id,
    fun h => ⟨h.1, h.2.1, satSucc_le h.2.2.1, h.2.2.2⟩, id, fun j h hd => ⟨j, h, rfl, hd⟩, id, id, id⟩

theorem countSent_step (s : State) : QueueStep s (countSent s) :=
  ⟨rfl, rfl, rfl, rfl, rfl, rfl, rfl, rfl, rfl, rfl, rfl, rfl, rfl, rfl, fun _ => rfl, id,
    fun h => ⟨h.1, h.2.1, h.2.2.1, satSucc_le h.2.2.2.1, h.2.2.2.2⟩, id,
    fun j h hd => ⟨j, h, rfl, hd⟩, id, id, id⟩

theorem countRetry_step (s : State) : QueueStep s (countRetry s) :=
  ⟨rfl, rfl, rfl, rfl, rfl, rfl, rfl, rfl, rfl, rfl, rfl, rfl, rfl, rfl, fun _ => rfl, id,
    fun h => ⟨h.1, h.2.1, h.2.2.1, h.2.2.2.1, satSucc_le h.2.2.2.2⟩, id,
    fun j h hd => ⟨j, h, rfl, hd⟩, id, id, id⟩

theorem clearRecords_step (s : State) : QueueStep s (clearRecords s) :=
  ⟨rfl, rfl, rfl, rfl, rfl, rfl, rfl, rfl, rfl, rfl, rfl, rfl, rfl, rfl, fun _ => rfl, id,
    fun _ => ⟨fun e => by cases e <;> exact Nat.zero_le _, Nat.zero_le _, Nat.zero_le _, Nat.zero_le _,
      Nat.zero_le _⟩, id,
    fun j h hd => ⟨j, h, rfl, hd⟩, id, id, id⟩

theorem clearFlags_step (s : State) : QueueStep s (clearFlags s) :=
  ⟨rfl, rfl, rfl, rfl, rfl, rfl, rfl, rfl, rfl, rfl, rfl, rfl, rfl, rfl, fun _ => rfl, id, id, id,
    fun j h hd => ⟨j, h, rfl, hd⟩, id, id, id⟩

theorem faultRaised_step (k : FaultKind) (n : Nat) (s : State) : QueueStep s (faultRaised k n s) := by
  cases k
  · exact raiseError_step ..
  · exact raiseError_step ..
  · exact recordError_step ..

/-! ### Marks -/

theorem wantScan_step (s : State) : QueueStep s (wantScan s) :=
  ⟨rfl, rfl, rfl, rfl, rfl, rfl, rfl, rfl, rfl, rfl, rfl, rfl, rfl, rfl, fun _ => rfl, id, id, id,
    fun j h hd => ⟨j, h, rfl, hd⟩, id, id, id⟩

theorem wantRestart_step (s : State) : QueueStep s (wantRestart s) := by
  unfold wantRestart
  split
  · next h =>
    exact ⟨rfl, rfl, rfl, rfl, rfl, rfl, rfl, rfl, rfl, rfl, rfl, rfl, rfl, rfl,
      fun hp => absurd (h.symm.trans hp) (by decide), id, id, id,
      fun j h hd => ⟨j, h, rfl, hd⟩, id, id, id⟩
  · exact .refl s

/-! ### Jobs -/

/-- A change of the queue of jobs that keeps its order and makes no OPEN job. -/
theorem setJobs_step {js : List Job} {s : State} (h : JobsOrdered s.jobs → JobsOrdered js)
    (ho : ∀ j ∈ js, j.dir = .opening → ∃ k ∈ s.jobs, k.chan = j.chan ∧ k.dir = .opening) :
    QueueStep s (setJobs js s) :=
  ⟨rfl, rfl, rfl, rfl, rfl, rfl, rfl, rfl, rfl, rfl, rfl, rfl, rfl, rfl, fun _ => rfl, id, id, h, ho,
    id, id, id⟩

/-- A change of jobs that leaves their channels, keys and directions alone. -/
theorem mapJobs_step {f : Job → Job} (s : State)
    (h : ∀ j, (f j).cls = j.cls ∧ (f j).zone = j.zone ∧ (f j).exposure = j.exposure
      ∧ (f j).chan = j.chan ∧ (f j).dir = j.dir) : QueueStep s (setJobs (s.jobs.map f) s) :=
  setJobs_step
    (fun hs => hs.map (fun j => (h j).1) (fun j => (h j).2.1) (fun j => (h j).2.2.1)
      (fun j => (h j).2.2.2.1))
    (fun j hj hd => by
      obtain ⟨k, hk, rfl⟩ := List.mem_map.1 hj
      exact ⟨k, hk, (h k).2.2.2.1.symm, (h k).2.2.2.2.symm.trans hd⟩)

theorem dropJob_step (c : Channel) (s : State) : QueueStep s (dropJob c s) :=
  setJobs_step (fun h => h.sublist List.filter_sublist)
    (fun j hj hd => ⟨j, (List.mem_filter.1 hj).1, rfl, hd⟩)

theorem changeJob_step (c : Channel) (f : Job → Job) (s : State)
    (hc : ∀ j, (f j).chan = j.chan) (hd : ∀ j, (f j).dir = j.dir) : QueueStep s (changeJob c f s) :=
  setJobs_step
    (fun h => h.resort (fun j => by split <;> simp [hc]))
    (fun j hj hdir => by
      rw [(sortJobs_perm _).mem_iff] at hj
      obtain ⟨k, hk, rfl⟩ := List.mem_map.1 hj
      refine ⟨k, hk, ?_, ?_⟩
      · split <;> simp [hc]
      · revert hdir; split
        · rw [hd]; exact id
        · exact id)

theorem jobOf_none {c : Channel} {s : State} (h : jobOf c s = none) : ∀ k ∈ s.jobs, k.chan ≠ c := by
  intro k hk
  have := List.find?_eq_none.1 h k hk
  simpa using this

theorem jobOf_some {c : Channel} {s : State} {j : Job} (h : jobOf c s = some j) :
    j ∈ s.jobs ∧ j.chan = c := by
  refine ⟨List.mem_of_find?_eq_some h, ?_⟩
  have := List.find?_some h
  simpa using this

/-- A CLOSE job of a channel with no job enters the queue. -/
theorem enterClose_step {j : Job} {s : State} (hn : ∀ k ∈ s.jobs, k.chan ≠ j.chan) (hd : j.dir = .close) :
    QueueStep s (enterJob j s) :=
  (setJobs_step (s := s) (js := placeJob j s.jobs) (fun h => h.place hn)
    (fun k hk hkd => by
      rcases mem_placeJob.1 hk with rfl | hk
      · rw [hd] at hkd; cases hkd
      · exact ⟨k, hk, rfl, hkd⟩)).trans (wantScan_step _)

/-! ### Claims -/

/-- The claim table replaced, its properties kept. -/
theorem setEntries_step {es : List Entry} {s : State}
    (ht : TableBounded s → TableBounded (setEntries es s))
    (ho : OwnEntriesCarry s → OwnEntriesCarry (setEntries es s))
    (hb : WithinBudget s → WithinBudget (setEntries es s)) : QueueStep s (setEntries es s) :=
  ⟨rfl, rfl, rfl, rfl, rfl, rfl, rfl, rfl, rfl, rfl, rfl, rfl, rfl, rfl, fun _ => rfl, id, id, id,
    fun j h hd => ⟨j, h, rfl, hd⟩, ht, ho, hb⟩

theorem removeEntries_step (p : Entry → Bool) (s : State) : QueueStep s (removeEntries p s) :=
  setEntries_step
    (fun h => Nat.le_trans (List.length_filter_le ..) h)
    (fun h e he => h e (List.mem_filter.1 he).1)
    (fun h => ⟨Nat.le_trans (drawSum_sublist List.filter_sublist) h.1, h.2.1,
      fun e he => h.2.2 e (List.mem_filter.1 he).1⟩)

/-- A change of entries that leaves station, channel, draw, lifetime and marker of own entries alone, and makes none
YIELDING. -/
theorem changeEntries_step {p : Entry → Bool} {f : Entry → Entry} (s : State)
    (hown : ∀ e ∈ s.supply.entries, p e = true → (f e).own = e.own)
    (h : ∀ e ∈ s.supply.entries, p e = true → e.own = true →
      (f e).station = e.station ∧ (f e).chan = e.chan ∧ (f e).draw = e.draw
        ∧ (f e).lifetimeS = e.lifetimeS ∧ (e.state ≠ .yielding → (f e).state ≠ .yielding)) :
    QueueStep s (changeEntries p f s) := by
  refine setEntries_step (fun hs => ?_) (fun hs e he => ?_) (fun hs => ⟨?_, hs.2.1, ?_⟩)
  · show (s.supply.entries.map _).length ≤ _
    rw [List.length_map]; exact hs
  · obtain ⟨x, hx, rfl⟩ := List.mem_map.1 he
    intro ho
    by_cases hp : p x = true
    · rw [if_pos hp] at ho ⊢
      rw [hown x hx hp] at ho
      obtain ⟨h1, h2, h3, h4, h5⟩ := h x hx hp ho
      obtain ⟨k1, k2, k3, k4⟩ := hs x hx ho
      refine ⟨h1.trans k1, h3.trans (k2.trans ?_), h4.trans k3, h5 k4⟩
      rw [h2]; rfl
    · rw [if_neg hp] at ho ⊢
      exact hs x hx ho
  · refine Nat.le_trans (Nat.le_of_eq (drawSum_map _ fun e he => ?_)) hs.1
    split
    · next hp => exact ⟨hown e he hp, fun ho => (h e he hp ho).2.2.1⟩
    · exact ⟨rfl, fun _ => rfl⟩
  · intro e he ho
    obtain ⟨x, hx, rfl⟩ := List.mem_map.1 he
    by_cases hp : p x = true
    · rw [if_pos hp] at ho ⊢
      rw [hown x hx hp] at ho
      exact (h x hx hp ho).2.2.2.2 (hs.2.2 x hx ho)
    · rw [if_neg hp] at ho ⊢
      exact hs.2.2 x hx ho

/-! ### Frames that leave -/

theorem setQueue_step {q : List TxFrame} {s : State} (h : TxOrdered s.line.queue → TxOrdered q) :
    QueueStep s (setQueue q s) :=
  ⟨rfl, rfl, rfl, rfl, rfl, rfl, rfl, rfl, rfl, rfl, rfl, rfl, rfl, rfl, fun _ => rfl, h, id, id,
    fun j h hd => ⟨j, h, rfl, hd⟩, id, id, id⟩

theorem frameLeft_step (s : State) : QueueStep s (frameLeft s) := by
  have h := changeEntries_step (p := Entry.refreshBarred) (f := fun e => { e with refreshBarred := false })
    s (fun _ _ _ => rfl) (fun _ _ _ _ => ⟨rfl, rfl, rfl, rfl, id⟩)
  unfold frameLeft
  dsimp only
  split
  · exact h.trans (wantScan_step _)
  · exact h

theorem cancelClaim_step (tag : Nat) (s : State) : QueueStep s (cancelClaim tag s) := by
  unfold cancelClaim
  split
  · exact (setQueue_step fun h => h.sublist List.filter_sublist).trans (frameLeft_step _)
  · exact .refl s

/-! ### Drops -/

theorem withdrawOwn_step (e : Entry) (b : Bool) (s : State) : QueueStep s (withdrawOwn e b s) :=
  (removeEntries_step (isOwnOf e.chan) s).trans
    ((cancelClaim_step e.tag _).trans
      ((mapJobs_step (f := fun j =>
          if j.chan = e.chan then { j with state := .waiting, heldBack := b } else j) _
        (fun j => by split <;> exact ⟨rfl, rfl, rfl, rfl, rfl⟩)).trans (wantScan_step _)))

theorem claimDropped_step (tag : Nat) (b : Bool) (s : State) : QueueStep s (claimDropped tag b s) := by
  unfold claimDropped
  split
  · exact .refl s
  · split
    · exact withdrawOwn_step ..
    iterate 2
      split
      · exact changeEntries_step s (fun _ _ _ => rfl) (fun _ _ _ _ => ⟨rfl, rfl, rfl, rfl, id⟩)
      · exact .refl s
    · exact .refl s

theorem tellDropped_step (o : FrameOwner) (b : Bool) (s : State) : QueueStep s (tellDropped o b s) := by
  unfold tellDropped
  split
  · exact claimDropped_step ..
  · exact wantRestart_step s
  all_goals exact .refl s

/-! ### Frames -/

/-- R143, R144: what the arrival of a frame at the transmit queue can do. -/
theorem enqueue_step {f : TxFrame} (hf : f.sending = false) (s : State) : QueueStep s (enqueue f s) := by
  unfold enqueue
  dsimp only
  split
  · next hany =>
    refine (setQueue_step fun h => ?_).trans (frameLeft_step _)
    have hs : (s.line.queue.filter (fun g => !replacedBy f.owner g)).Sublist s.line.queue :=
      List.filter_sublist
    refine (h.sublist hs).place hf ?_ ?_
    · have hlt : (s.line.queue.filter (fun g => !replacedBy f.owner g)).length
          < s.line.queue.length := by
        rw [List.length_filter_lt_length_iff_exists]
        obtain ⟨x, hx, hr⟩ := List.any_eq_true.1 hany
        exact ⟨x, hx, by simp [hr]⟩
      exact Nat.lt_of_lt_of_le hlt h.1
    · rw [List.any_eq_false]
      intro x hx
      have := (List.mem_filter.1 hx).2
      simpa using this
  · next hany =>
    have hnone : s.line.queue.any (replacedBy f.owner) = false := by simpa using hany
    split
    · next hroom => exact setQueue_step fun h => h.place hf hroom hnone
    · split
      · next v hv =>
        refine QueueStep.trans (setQueue_step fun h => ?_)
          ((frameLeft_step _).trans ((raiseError_step ..).trans (tellDropped_step ..)))
        have hs := withoutVictim_sublist s.line.queue
        refine (h.sublist hs).place hf ?_ ?_
        · have := withoutVictim_length hv; have := h.1; omega
        · rw [List.any_eq_false]
          intro x hx
          exact List.any_eq_false.1 hnone x (hs.mem hx)
      · exact (raiseError_step ..).trans (tellDropped_step ..)

theorem queueClaim_step (e : Entry) (n : Bool) (s : State) : QueueStep s (queueClaim e n s) := by
  unfold queueClaim
  exact (cancelClaim_step ..).trans (enqueue_step rfl _)

theorem queueRelease_step (tag : Nat) (s : State) : QueueStep s (queueRelease tag s) := by
  unfold queueRelease
  split
  · exact .refl s
  · exact enqueue_step rfl s

/-! ### Own claims -/

theorem removeOwn_step (c : Channel) (r : Bool) (s : State) : QueueStep s (removeOwn c r s) := by
  unfold removeOwn
  split
  · exact .refl s
  · next e _ =>
    have h : QueueStep s (wantScan (cancelClaim e.tag (removeEntries (isOwnOf c) s))) :=
      (removeEntries_step ..).trans ((cancelClaim_step ..).trans (wantScan_step _))
    dsimp only
    split
    · exact h.trans (queueRelease_step ..)
    · exact h

theorem giveUpClaim_step (j : Job) (s : State) : QueueStep s (giveUpClaim j s) := by
  unfold giveUpClaim
  split
  · exact .refl s
  · exact removeOwn_step ..
  · exact removeOwn_step ..

theorem raiseEntry_step (c : Channel) (n : Nat) (b : Bool) (s : State) :
    QueueStep s (raiseEntry c n b s) := by
  unfold raiseEntry
  split
  · exact .refl s
  · split
    · exact .refl s
    · have h := changeEntries_step (p := isOwnOf c) (f := fun x => { x with cls := n })
        s (fun _ _ _ => rfl) (fun _ _ _ _ => ⟨rfl, rfl, rfl, rfl, id⟩)
      dsimp only
      split
      · exact h
      · exact h.trans (queueClaim_step ..)

/-- R80: an own entry counts in T. -/
theorem ownTotal_le_totalT {s : State}
    (h : ∀ e ∈ s.supply.entries, e.own = true → e.state ≠ .yielding) : ownTotal s ≤ totalT s :=
  drawSum_mono fun e he ho => by
    have := h e he ho
    unfold counts
    cases hst : e.state <;> simp_all

/-- R82: a draw that passes the admission limit leaves the own total within the budget and finds a place. -/
theorem admits_room {d : Nat} {s : State} (h : admits d s = true)
    (hb : s.cfg.isoShare ≤ s.cfg.budget) :
    totalT s + d ≤ s.cfg.budget ∧ s.supply.entries.length < Config.tableSize := by
  unfold admits at h
  split at h
  · cases h
  · cases h
  · simp only [Bool.and_eq_true, decide_eq_true_eq] at h; exact ⟨h.1.1, h.2⟩
  · simp only [Bool.and_eq_true, decide_eq_true_eq] at h; exact ⟨by omega, h.2⟩
  · simp only [Bool.and_eq_true, decide_eq_true_eq] at h; exact ⟨h.1.1, h.2⟩

theorem admits_place {d : Nat} {s : State} (h : admits d s = true) :
    s.supply.entries.length < Config.tableSize := by
  unfold admits at h
  split at h <;> simp_all

/-- The entry that an admission makes. -/
def admittedEntry (j : Job) (s : State) : Entry :=
  { station := s.cfg.station, tag := nextTag s, chan := j.chan, draw := drawOf j.chan s, cls := j.cls
    lifetimeS := s.cfg.lifetimeS
    state := if s.link.state == .mute then .settling s.cfg.settleMs else .announcing
    ageMs := 0, own := true, reasserted := false, refreshBarred := false }

/-- The part of an admission before its CLAIM is queued: the entry is made and the job takes its state. -/
def admitted (j : Job) (s : State) : State :=
  setJobs
    (s.jobs.map (fun k =>
      if k.chan = j.chan then
        { k with
          state := if s.link.state == .mute then .settling else .announcing, heldBack := false }
      else k))
    { s with supply :=
        { s.supply with entries := s.supply.entries ++ [admittedEntry j s], tagCounter := nextTag s } }

theorem admit_eq (j : Job) (s : State) :
    admitJob j s = if s.link.state == .mute then admitted j s
      else queueClaim (admittedEntry j s) true (admitted j s) := rfl

theorem admittedEntry_carries (j : Job) (s : State) : (admittedEntry j s).state ≠ .yielding := by
  show (if s.link.state == .mute then ClaimState.settling s.cfg.settleMs else .announcing) ≠ _
  split <;> intro h <;> cases h

theorem admitted_step {j : Job} {s : State} (ha : admits (drawOf j.chan s) s = true) :
    QueueStep s (admitted j s) := by
  refine QueueStep.trans (b := { s with supply :=
      { s.supply with entries := s.supply.entries ++ [admittedEntry j s], tagCounter := nextTag s } })
    ?_ (mapJobs_step (f := fun k =>
      if k.chan = j.chan then
        { k with
          state := if s.link.state == .mute then .settling else .announcing, heldBack := false }
      else k) _ (fun k => by split <;> exact ⟨rfl, rfl, rfl, rfl, rfl⟩))
  refine ⟨rfl, rfl, rfl, rfl, rfl, rfl, rfl, rfl, rfl, rfl, rfl, rfl, rfl, rfl, fun _ => rfl, id, id, id,
    fun j h hd => ⟨j, h, rfl, hd⟩, fun _ => ?_, fun h e he ho => ?_, fun h => ⟨?_, h.2.1, fun e he ho => ?_⟩⟩
  · show (s.supply.entries ++ [admittedEntry j s]).length ≤ _
    have := admits_place ha
    rw [List.length_append]; simpa using this
  · rcases List.mem_append.1 he with he | he
    · exact h e he ho
    · rw [List.mem_singleton] at he; subst he
      exact ⟨rfl, rfl, rfl, admittedEntry_carries j s⟩
  · show drawSum Entry.own (s.supply.entries ++ [admittedEntry j s]) ≤ _
    rw [drawSum_append, drawSum_cons, drawSum_nil]
    have h1 := (admits_room ha h.2.1).1
    have h2 : drawSum Entry.own s.supply.entries ≤ totalT s := ownTotal_le_totalT h.2.2
    show drawSum Entry.own s.supply.entries + ((if true = true then drawOf j.chan s else 0) + 0) ≤
      s.cfg.budget
    simp; omega
  · rcases List.mem_append.1 he with he | he
    · exact h.2.2 e he ho
    · rw [List.mem_singleton] at he; subst he
      exact admittedEntry_carries j s

/-- R71, R84: what the admission of a job that passes its limit can do. -/
theorem admit_step {j : Job} {s : State} (ha : admits (drawOf j.chan s) s = true) :
    QueueStep s (admitJob j s) := by
  rw [admit_eq]
  split
  · exact admitted_step ha
  · exact (admitted_step ha).trans (queueClaim_step ..)

/-! ### The admission scan (R69) -/

theorem scanJob_step (s : State) (c : Channel) : QueueStep s (scanJob s c) := by
  unfold scanJob
  split
  · exact .refl s
  · next j hj =>
    split
    · exact .refl s
    · split
      · exact dropJob_step ..
      · have h := mapJobs_step (f := fun k => if k.chan = c then { k with heldBack := false } else k) s
          (fun k => by split <;> exact ⟨rfl, rfl, rfl, rfl, rfl⟩)
        dsimp only
        split
        · exact h
        · split
          · next ha =>
            refine h.trans (admit_step ?_)
            rw [(jobOf_some hj).2]; exact ha
          · exact h

theorem scan_step (s : State) : QueueStep s (scan s) :=
  foldl_rel QueueStep.refl QueueStep.trans scanJob_step _ _

theorem clearMark_step (s : State) : QueueStep s { s with work := { s.work with scan := false } } :=
  ⟨rfl, rfl, rfl, rfl, rfl, rfl, rfl, rfl, rfl, rfl, rfl, rfl, rfl, rfl, fun _ => rfl, id, id, id,
    fun j h hd => ⟨j, h, rfl, hd⟩, id, id, id⟩

/-- R68: what the scans that follow a command can do. -/
theorem runScans_step : ∀ (n : Nat) (s : State), QueueStep s (runScans n s)
  | 0, s => clearMark_step s
  | n + 1, s => by
    unfold runScans
    split
    · exact (clearMark_step s).trans ((scan_step _).trans (runScans_step n _))
    · exact .refl s

theorem runScans_scan : ∀ (n : Nat) (s : State), (runScans n s).work.scan = false
  | 0, _ => rfl
  | n + 1, s => by
    unfold runScans
    split
    · exact runScans_scan n _
    · next h => simpa using h

end Sys2Proof.Machine
end

