-- ==== Sys2Proof/Laws/Channel.lean ====
section
/-! SUPPORT. What the operations on channels can do (chapters 4, 6): `ChannelStep` says once what they leave alone and
what they keep, and each operation has one lemma. -/

namespace Sys2Proof.Machine

/-- From `s` to `t` only jobs, claims, queued frames, records, marks and the states of the channels in `p` have changed;
no DISABLED channel has left that state, and the properties of each part are kept. -/
structure ChannelFrame (p : Channel → Prop) (s t : State) : Prop where
  pending : t.pending = s.pending
  phase : t.phase = s.phase
  loader : t.loader = s.loader
  cfg : t.cfg = s.cfg
  pins : t.pins = s.pins
  sensing : t.sensing = s.sensing
  picture : t.picture = s.picture
  eval : t.eval = s.eval
  chirp : t.chirp = s.chirp
  rx : t.line.rx = s.line.rx
  link : t.link = s.link
  requests : t.requests = s.requests
  free : t.free = s.free
  others : ∀ c, ¬ p c → t.drivers.get c = s.drivers.get c
  enabled : ∀ c, t.drivers.get c ≠ .disabled → s.drivers.get c ≠ .disabled
  restart : s.requests.pendingRestart = false → t.work.restart = s.work.restart
  tx : TxOrdered s.line.queue → TxOrdered t.line.queue
  records : RecordsBounded s.status → RecordsBounded t.status
  jobs : JobsOrdered s.jobs → JobsOrdered t.jobs
  table : TableBounded s → TableBounded t
  own : OwnEntriesCarry s → OwnEntriesCarry t
  budget : WithinBudget s → WithinBudget t

/-- A `ChannelFrame` that keeps every channel's opening guarded (R51, R65). -/
structure ChannelStep (p : Channel → Prop) (s t : State) : Prop extends ChannelFrame p s t where
  guard : JobsOrdered s.jobs → ∀ c, OpeningGuarded c s → OpeningGuarded c t

theorem ChannelFrame.refl (p : Channel → Prop) (s : State) : ChannelFrame p s s :=
  ⟨rfl, rfl, rfl, rfl, rfl, rfl, rfl, rfl, rfl, rfl, rfl, rfl, rfl, fun _ _ => rfl, fun _ h => h,
    fun _ => rfl, id, id, id, id, id, id⟩

theorem ChannelFrame.trans {p : Channel → Prop} {a b c : State} (h : ChannelFrame p a b)
    (k : ChannelFrame p b c) : ChannelFrame p a c :=
  ⟨k.pending.trans h.pending, k.phase.trans h.phase, k.loader.trans h.loader, k.cfg.trans h.cfg,
    k.pins.trans h.pins, k.sensing.trans h.sensing, k.picture.trans h.picture, k.eval.trans h.eval,
    k.chirp.trans h.chirp, k.rx.trans h.rx, k.link.trans h.link,
    k.requests.trans h.requests, k.free.trans h.free,
    fun x hx => (k.others x hx).trans (h.others x hx), fun x hx => h.enabled x (k.enabled x hx),
    fun hp => (k.restart (by rw [h.requests]; exact hp)).trans (h.restart hp),
    k.tx ∘ h.tx, k.records ∘ h.records, k.jobs ∘ h.jobs, k.table ∘ h.table, k.own ∘ h.own,
    k.budget ∘ h.budget⟩

theorem ChannelFrame.mono {p q : Channel → Prop} {s t : State} (h : ChannelFrame p s t)
    (hpq : ∀ c, p c → q c) : ChannelFrame q s t :=
  { h with others := fun c hc => h.others c (fun hp => hc (hpq c hp)) }

theorem ChannelStep.refl (p : Channel → Prop) (s : State) : ChannelStep p s s :=
  ⟨.refl p s, fun _ _ h => h⟩

theorem ChannelStep.trans {p : Channel → Prop} {a b c : State} (h : ChannelStep p a b)
    (k : ChannelStep p b c) : ChannelStep p a c :=
  ⟨h.toChannelFrame.trans k.toChannelFrame, fun hj x hx => k.guard (h.jobs hj) x (h.guard hj x hx)⟩

theorem ChannelStep.mono {p q : Channel → Prop} {s t : State} (h : ChannelStep p s t)
    (hpq : ∀ c, p c → q c) : ChannelStep q s t := ⟨h.toChannelFrame.mono hpq, h.guard⟩

/-! ### Opening allowed -/

/-- R50's operands of the whole station. -/
theorem openingAllowed_congr {c : Channel} {s t : State} (h1 : t.cfg = s.cfg)
    (h2 : t.drivers.get c = s.drivers.get c) (h3 : t.eval = s.eval) (h4 : t.requests = s.requests)
    (h5 : t.link = s.link) (h6 : t.picture = s.picture) : openingAllowed c t = openingAllowed c s := by
  simp only [openingAllowed, chanCfg, demandSet, h1, h2, h3, h4, h5, h6]

theorem openingAllowed_iff {c : Channel} {s : State} : openingAllowed c s = true ↔
    (chanCfg c s).enabled = true ∧ isFaulted (s.drivers.get c) = false ∧ s.drivers.get c ≠ .disabled
      ∧ demandSet c s = false ∧ s.eval.storm = false ∧ s.requests.hold.isSome = false
      ∧ s.link.state = .active ∧ s.picture.fused.g.isSome = true
      ∧ s.picture.fused.r ≠ .unknown := by
  simp [openingAllowed, and_assoc]

/-- Every operation on jobs, claims and frames is one on channels that changes the state of none. -/
theorem QueueStep.channel {p : Channel → Prop} {s t : State} (h : QueueStep s t) : ChannelStep p s t :=
  ⟨⟨h.pending, h.phase, h.loader, h.cfg, h.pins, h.sensing, h.picture, h.eval, h.chirp, h.rx, h.link,
      h.requests, h.free, fun c _ => by rw [h.drivers], fun c hc => by rwa [h.drivers] at hc,
      h.restart, h.tx, h.records, h.jobs, h.table, h.own, h.budget⟩,
    fun _ c hg ho => by
      rw [openingAllowed_congr h.cfg (by rw [h.drivers]) h.eval h.requests h.link h.picture]
      apply hg
      rcases ho with ho | ⟨j, hj, hc, hd⟩
      · left; rwa [h.drivers] at ho
      · obtain ⟨k, hk, hkc, hkd⟩ := h.opens j hj hd
        exact .inr ⟨k, hk, hkc.trans hc, hkd⟩⟩

/-! ### One channel's state replaced -/

theorem setDriver_frame {c : Channel} {d : Driver} {s : State}
    (h : d ≠ .disabled → s.drivers.get c ≠ .disabled) : ChannelFrame (· = c) s (setDriver c d s) :=
  ⟨rfl, rfl, rfl, rfl, rfl, rfl, rfl, rfl, rfl, rfl, rfl, rfl, rfl,
    fun x hx => setDriver_get_ne s d hx,
    fun x hx => by
      rw [setDriver_get] at hx
      split at hx
      · next e => subst e; exact h hx
      · exact hx,
    fun _ => rfl, id, id, id, id, id, id⟩

/-- The guard of another channel does not see the change. -/
theorem guard_setDriver_ne {c x : Channel} {d : Driver} {s : State} (hx : x ≠ c)
    (h : OpeningGuarded x s) : OpeningGuarded x (setDriver c d s) := fun ho => by
  rw [openingAllowed_congr (s := s) (t := setDriver c d s) rfl (setDriver_get_ne s d hx) rfl rfl rfl rfl]
  apply h
  rcases ho with ho | ho
  · left; rwa [setDriver_get_ne s d hx] at ho
  · exact .inr ho

/-- A live state that is not OPENING: neither FAULTED nor DISABLED. -/
def quietLive (d : Driver) : Prop := isOpening d = false ∧ isFaulted d = false ∧ d ≠ .disabled

theorem setDriver_step {c : Channel} {d : Driver} {s : State} (hd : quietLive d)
    (h : s.drivers.get c ≠ .disabled) : ChannelStep (· = c) s (setDriver c d s) := by
  refine ⟨setDriver_frame (fun _ => h), fun _ x hg => ?_⟩
  by_cases hx : x = c
  · subst hx
    intro ho
    rcases ho with ho | ho
    · rw [setDriver_get_same] at ho; rw [hd.1] at ho; cases ho
    · have := openingAllowed_iff.1 (hg (.inr ho))
      refine openingAllowed_iff.2 ⟨this.1, ?_, ?_, this.2.2.2⟩
      · rw [setDriver_get_same]; exact hd.2.1
      · rw [setDriver_get_same]; exact hd.2.2
  · exact guard_setDriver_ne hx hg

/-- A channel for which opening is not allowed takes a state that is not OPENING. -/
theorem setDriver_step_barred {c : Channel} {d : Driver} {s : State} (hd : isOpening d = false)
    (h : d ≠ .disabled → s.drivers.get c ≠ .disabled) (hb : openingAllowed c s = false) :
    ChannelStep (· = c) s (setDriver c d s) := by
  refine ⟨setDriver_frame h, fun _ x hg => ?_⟩
  by_cases hx : x = c
  · subst hx
    intro ho
    rcases ho with ho | ho
    · rw [setDriver_get_same, hd] at ho; cases ho
    · have := hg (.inr ho); rw [hb] at this; cases this
  · exact guard_setDriver_ne hx hg

/-- The drive goes on in OPENING: only its record or timers change. -/
theorem setDriver_step_opening {c : Channel} {d : Driver} {s : State} (hd : isOpening d = true)
    (hs : isOpening (s.drivers.get c) = true) : ChannelStep (· = c) s (setDriver c d s) := by
  have hne : s.drivers.get c ≠ .disabled := fun e => by rw [e] at hs; cases hs
  refine ⟨setDriver_frame (fun _ => hne), fun _ x hg => ?_⟩
  by_cases hx : x = c
  · subst hx
    intro _
    have := openingAllowed_iff.1 (hg (.inl hs))
    refine openingAllowed_iff.2 ⟨this.1, ?_, ?_, this.2.2.2⟩
    · rw [setDriver_get_same]; cases d <;> first | rfl | cases hd
    · rw [setDriver_get_same]; intro e; rw [e] at hd; cases hd
  · exact guard_setDriver_ne hx hg

/-! ### Ends of a motion (R112, R129) -/

theorem endMotion_step {c : Channel} {d : Driver} {s : State} (hd : quietLive d)
    (h : s.drivers.get c ≠ .disabled) : ChannelStep (· = c) s (endMotion c d s) :=
  (setDriver_step hd h).trans ((removeOwn_step ..).trans (wantScan_step _)).channel

theorem quietLive_idle (p : Position) : quietLive (.idle p) := ⟨rfl, rfl, by intro h; cases h⟩

theorem endAtRest_step {c : Channel} {p : Position} {s : State} (h : s.drivers.get c ≠ .disabled) :
    ChannelStep (· = c) s (endAtRest c p s) := endMotion_step (quietLive_idle _) h

theorem not_disabled_of_opening {d : Driver} (h : isOpening d = true) : d ≠ .disabled := fun e => by
  rw [e] at h; cases h

theorem halt_step (c : Channel) (s : State) : ChannelStep (· = c) s (halt c s) := by
  unfold halt
  split
  · next h => exact endAtRest_step (not_disabled_of_opening h)
  · exact .refl _ s

/-! ### Class raise and reversal (R125, R127) -/

theorem raiseMotion_step (c : Channel) (n : Nat) (k : Cause) (w : Requester) (s : State) :
    ChannelStep (· = c) s (raiseMotion c n k w s) := by
  unfold raiseMotion
  split <;> rename_i hd
  case h_1 | h_2 | h_3 | h_4 =>
    split
    · exact (setDriver_step ⟨rfl, rfl, by intro h; cases h⟩ (by rw [hd]; intro h; cases h)).trans
        (raiseEntry_step ..).channel
    · exact .refl _ s
  case h_5 =>
    split
    · exact setDriver_step ⟨rfl, rfl, by intro h; cases h⟩ (by rw [hd]; intro h; cases h)
    · exact .refl _ s
  all_goals exact .refl _ s

theorem reverse_step (c : Channel) (n : Nat) (k : Cause) (w : Requester) (s : State) :
    ChannelStep (· = c) s (reverse c n k w s) := by
  unfold reverse
  split <;> rename_i hd
  case h_1 =>
    exact (setDriver_step ⟨rfl, rfl, by intro h; cases h⟩ (by rw [hd]; intro h; cases h)).trans
      (raiseEntry_step ..).channel
  all_goals exact .refl _ s

/-! ### Re-judging opening (R51, R65) -/

theorem removeOpenJob_step (c : Channel) (s : State) : QueueStep s (removeOpenJob c s) := by
  unfold removeOpenJob
  split
  · exact .refl s
  · split
    · exact (giveUpClaim_step ..).trans (dropJob_step ..)
    · exact .refl s

theorem rejudge_step (c : Channel) (s : State) : ChannelStep (· = c) s (rejudge c s) := by
  unfold rejudge
  split
  · exact .refl _ s
  · dsimp only
    split
    · exact (removeOpenJob_step c s).channel.trans (reverse_step ..)
    · exact (removeOpenJob_step c s).channel.trans (halt_step ..)

theorem rejudgeAll_step (s : State) : ChannelStep (fun _ => True) s (rejudgeAll s) :=
  foldl_rel (ChannelStep.refl _) ChannelStep.trans
    (fun s c => (rejudge_step c s).mono fun _ _ => trivial) _ _

/-! ### Requests to the queue (R58, R61 to R64) -/

theorem jobsOf_drop_none (c : Channel) (s : State) : ∀ k ∈ (dropJob c s).jobs, k.chan ≠ c := by
  intro k hk
  have := (List.mem_filter.1 hk).2
  simpa using this

theorem queueClose_step (c : Channel) (r : CloseReq) (s : State) : QueueStep s (queueClose c r s) := by
  unfold queueClose
  split
  · next h => exact enterClose_step (jobOf_none h) rfl
  · next j h =>
    split
    · exact ((giveUpClaim_step j s).trans (dropJob_step c _)).trans
        (enterClose_step (jobsOf_drop_none c _) rfl)
    · have hc := changeJob_step c (mergedJob r) s (fun _ => rfl) (fun _ => rfl)
      dsimp only
      split
      · exact hc.trans (raiseEntry_step ..)
      · exact hc

theorem closeRequest_step (c : Channel) (r : CloseReq) (s : State) :
    ChannelStep (· = c) s (closeRequest c r s) := by
  unfold closeRequest
  split
  · exact .refl _ s
  · exact (queueClose_step ..).channel
  · exact (queueClose_step ..).channel
  · exact reverse_step ..
  all_goals exact raiseMotion_step ..

/-- R64: an open request for a channel for which opening is allowed. -/
theorem openRequest_step {c : Channel} {s : State} (k : Cause) (w : Requester) (n : Nat)
    (ha : openingAllowed c s = true) : ChannelStep (· = c) s (openRequest c k w n s) := by
  unfold openRequest
  split
  · next h =>
    refine ⟨⟨rfl, rfl, rfl, rfl, rfl, rfl, rfl, rfl, rfl, rfl, rfl, rfl, rfl, fun _ _ => rfl,
      fun _ h => h, fun _ => rfl, id, id, fun hs => hs.place (jobOf_none h), id, id, id⟩, fun _ x hg ho => ?_⟩
    show openingAllowed x s = true
    by_cases hx : x = c
    · rw [hx]; exact ha
    · apply hg
      rcases ho with ho | ⟨j, hj, hjx, hd⟩
      · exact .inl ho
      · rcases mem_placeJob.1 hj with rfl | hj
        · exact absurd hjx (fun e => hx e.symm)
        · exact .inr ⟨j, hj, hjx, hd⟩
  · exact .refl _ s

theorem restore_step (c : Channel) (s : State) : QueueStep s (restore c s) := by
  unfold restore
  split
  · split
    · exact .refl s
    · exact queueClose_step ..
  · exact .refl s

/-! ### After a re-judgement opening is guarded -/

theorem reverse_not_opening (c : Channel) (n : Nat) (k : Cause) (w : Requester) (s : State) :
    isOpening ((reverse c n k w s).drivers.get c) = false := by
  unfold reverse
  split <;> rename_i hd
  case h_1 =>
    dsimp only
    rw [(raiseEntry_step ..).drivers, setDriver_get_same]; rfl
  all_goals simp [hd, isOpening]

theorem halt_not_opening (c : Channel) (s : State) : isOpening ((halt c s).drivers.get c) = false := by
  unfold halt
  split
  · show isOpening ((removeOwn c true (setDriver c _ s)).drivers.get c) = false
    rw [(removeOwn_step ..).drivers, setDriver_get_same]; rfl
  · next h => simpa using h

theorem reverse_jobs_dir (c : Channel) (n : Nat) (k : Cause) (w : Requester) (s : State) :
    ∀ j ∈ (reverse c n k w s).jobs, j.dir = .opening → ∃ m ∈ s.jobs, m.chan = j.chan ∧ m.dir = .opening := by
  unfold reverse
  split
  case h_1 => exact (raiseEntry_step ..).opens
  all_goals exact fun j hj hd => ⟨j, hj, rfl, hd⟩

theorem halt_jobs_dir (c : Channel) (s : State) :
    ∀ j ∈ (halt c s).jobs, j.dir = .opening → ∃ m ∈ s.jobs, m.chan = j.chan ∧ m.dir = .opening := by
  unfold halt
  split
  · exact fun j hj hd => (removeOwn_step c true (setDriver c _ s)).opens j hj hd
  · exact fun j hj hd => ⟨j, hj, rfl, hd⟩

theorem removeOpenJob_none {c : Channel} {s : State} (hs : JobsOrdered s.jobs) :
    ∀ j ∈ (removeOpenJob c s).jobs, j.chan = c → j.dir ≠ .opening := by
  unfold removeOpenJob
  split
  · next h => exact fun j hj hc => absurd hc (jobOf_none h j hj)
  · next k h =>
    split
    · intro j hj hc
      exact absurd hc (jobsOf_drop_none c _ j hj)
    · next hd =>
      intro j hj hc
      have hk := jobOf_some h
      have : j = k := (List.inj_on_of_nodup_map hs.1) hj hk.1 (hc.trans hk.2.symm)
      rw [this]; exact hd

/-- R51, R65: re-judged, a channel has an OPEN job or is OPENING only where opening is allowed for it. -/
theorem rejudge_guarded {c : Channel} {s : State} (hs : JobsOrdered s.jobs) :
    OpeningGuarded c (rejudge c s) := by
  unfold rejudge
  split
  · next h => exact fun _ => h
  · dsimp only
    have hn := removeOpenJob_none (c := c) hs
    split
    · rintro (ho | ⟨j, hj, hc, hd⟩)
      · rw [reverse_not_opening] at ho; cases ho
      · obtain ⟨m, hm, hmc, hmd⟩ := reverse_jobs_dir _ _ _ _ _ j hj hd
        exact absurd hmd (hn m hm (hmc.trans hc))
    · rintro (ho | ⟨j, hj, hc, hd⟩)
      · rw [halt_not_opening] at ho; cases ho
      · obtain ⟨m, hm, hmc, hmd⟩ := halt_jobs_dir _ _ j hj hd
        exact absurd hmd (hn m hm (hmc.trans hc))

theorem rejudge_fold_guarded : ∀ (l : List Channel) (s : State), JobsOrdered s.jobs → ∀ c ∈ l,
    OpeningGuarded c (l.foldl (fun s c => rejudge c s) s)
  | [], _, _, _, h => by cases h
  | x :: l, s, hs, c, hc => by
    have hs' := (rejudge_step x s).jobs hs
    have hstep : ChannelStep (fun _ => True) (rejudge x s)
        (l.foldl (fun s c => rejudge c s) (rejudge x s)) :=
      foldl_rel (ChannelStep.refl _) ChannelStep.trans
        (fun s c => (rejudge_step c s).mono fun _ _ => trivial) _ _
    rcases List.mem_cons.1 hc with rfl | hc
    · exact hstep.guard hs' c (rejudge_guarded hs)
    · exact rejudge_fold_guarded l _ hs' c hc

/-- R50: after opening is re-judged for every channel, every channel's opening is guarded. -/
theorem rejudgeAll_guarded {s : State} (hs : JobsOrdered s.jobs) (c : Channel) :
    OpeningGuarded c (rejudgeAll s) :=
  rejudge_fold_guarded allChannels s hs c (mem_allChannels c)

/-! ### Faults (R122, R131) -/

theorem becomeFaulted_frame {c : Channel} {k : FaultKind} {s : State} (h : s.drivers.get c ≠ .disabled) :
    ChannelFrame (· = c) s (becomeFaulted c k s) := by
  unfold becomeFaulted
  dsimp only
  have hf := setDriver_frame (c := c) (d := .faulted (heldPosition (s.drivers.get c)) k) (s := s)
    (fun _ => h)
  refine ChannelFrame.trans ?_ ((faultRaised_step ..).channel.toChannelFrame.trans
    (rejudge_step ..).toChannelFrame)
  split
  · exact hf.trans ((removeOwn_step ..).trans (wantScan_step _)).channel.toChannelFrame
  · exact hf

theorem becomeFaulted_step {c : Channel} {k : FaultKind} {s : State} (h : s.drivers.get c ≠ .disabled) :
    ChannelStep (· = c) s (becomeFaulted c k s) := by
  refine ⟨becomeFaulted_frame h, fun hj x hg => ?_⟩
  unfold becomeFaulted
  dsimp only
  have hset : ∀ t : State, QueueStep (setDriver c (.faulted (heldPosition (s.drivers.get c)) k) s) t →
      OpeningGuarded x (rejudge c (faultRaised k (faultSource (s.drivers.get c)) t)) := fun t ht => by
    have hq := ht.trans (faultRaised_step k (faultSource (s.drivers.get c)) t)
    by_cases hx : x = c
    · subst hx; exact rejudge_guarded (hq.jobs hj)
    · exact (rejudge_step c _).guard (hq.jobs hj) x ((hq.channel (p := fun _ => True)).guard hj x
        (guard_setDriver_ne hx hg))
  split
  · exact hset _ ((removeOwn_step ..).trans (wantScan_step _))
  · exact hset _ (.refl _)

theorem openingAllowed_faulted {c : Channel} {s : State} (h : isFaulted (s.drivers.get c) = true) :
    openingAllowed c s = false := by
  rw [Bool.eq_false_iff, Ne, openingAllowed_iff]
  intro hn; rw [h] at hn; exact absurd hn.2.1 (by decide)

theorem limitFault_step (c : Channel) (s : State) : ChannelStep (· = c) s (limitFault c s) := by
  unfold limitFault
  split <;> rename_i hd
  · exact .refl _ s
  · split
    · exact .refl _ s
    · exact (setDriver_step_barred rfl (fun _ => by rw [hd]; intro h; cases h)
        (openingAllowed_faulted (by rw [hd]; rfl))).trans (faultRaised_step ..).channel
  all_goals exact becomeFaulted_step (by rw [hd]; intro h; cases h)

/-! ### Start and course of a motion (R113 to R120) -/

theorem startClosing_step {c : Channel} {m : Motion} {s : State} (h : s.drivers.get c ≠ .disabled) :
    ChannelStep (· = c) s (startClosing c m s) := setDriver_step ⟨rfl, rfl, by intro h; cases h⟩ h

theorem startWarning_step {c : Channel} {p : Position} {m : Motion} {s : State}
    (h : s.drivers.get c ≠ .disabled) : ChannelStep (· = c) s (startWarning c p m s) :=
  setDriver_step ⟨rfl, rfl, by intro h; cases h⟩ h

/-- The open drive starts on a channel for which opening is allowed. -/
theorem startOpening_step {c : Channel} {m : Motion} {s : State} (ha : openingAllowed c s = true) :
    ChannelStep (· = c) s (startOpening c m s) := by
  have h := openingAllowed_iff.1 ha
  refine ⟨setDriver_frame (fun _ => h.2.2.1), fun _ x hg => ?_⟩
  by_cases hx : x = c
  · subst hx
    intro _
    refine openingAllowed_iff.2 ⟨h.1, ?_, ?_, h.2.2.2⟩
    · show isFaulted ((setDriver _ _ s).drivers.get _) = false
      rw [setDriver_get_same]; rfl
    · show (setDriver _ _ s).drivers.get _ ≠ _
      rw [setDriver_get_same]; intro e; cases e
  · exact guard_setDriver_ne hx hg

/-- R75, R113: a job whose channel is not DISABLED, and which opens only where opening is allowed, is handed over. -/
theorem handOver_step {j : Job} {s : State} (h : s.drivers.get j.chan ≠ .disabled)
    (ha : j.dir = .opening → openingAllowed j.chan s = true) :
    ChannelStep (· = j.chan) s (handOver j s) := by
  unfold handOver
  dsimp only
  have hd := (dropJob_step j.chan s).channel (p := (· = j.chan))
  split
  · next e => exact hd.trans (startOpening_step (ha e))
  · split
    · exact hd.trans (startWarning_step h)
    · exact hd.trans (startClosing_step h)

theorem takeOvercurrent_step (c : Channel) (s : State) : ChannelStep (· = c) s (takeOvercurrent c s) := by
  unfold takeOvercurrent
  split <;> rename_i hd
  · exact (setDriver_step ⟨rfl, rfl, by intro h; cases h⟩ (by rw [hd]; intro h; cases h)).trans
      (raiseEvent_step ..).channel
  · exact ((endAtRest_step (by rw [hd]; intro h; cases h)).trans (raiseEvent_step ..).channel).trans
      (restore_step ..).channel
  all_goals exact .refl _ s

theorem backoffError_step (m : Motion) (s : State) : QueueStep s (backoffError m s) := by
  unfold backoffError
  split
  · exact faultRaised_step ..
  · exact .refl s

theorem afterBackoff_live (c : Channel) (m : Motion) (s : State) :
    isOpening (afterBackoff c m s) = false ∧ afterBackoff c m s ≠ .disabled := by
  unfold afterBackoff
  split
  · exact ⟨rfl, by intro h; cases h⟩
  · split
    · exact ⟨rfl, by intro h; cases h⟩
    · exact ⟨rfl, by intro h; cases h⟩

theorem endBackoff_step {c : Channel} {m : Motion} {s : State} (h : s.drivers.get c ≠ .disabled) :
    ChannelStep (· = c) s (endBackoff c m s) := by
  have hq : QueueStep (setDriver c (afterBackoff c m s) s)
      (backoffError m (endMotion c (afterBackoff c m s) s)) :=
    ((removeOwn_step ..).trans (wantScan_step _)).trans (backoffError_step ..)
  have hf : ChannelFrame (· = c) s (backoffError m (endMotion c (afterBackoff c m s) s)) :=
    (setDriver_frame (fun _ => h)).trans hq.channel.toChannelFrame
  unfold endBackoff
  refine ChannelStep.trans (b := rejudge c (backoffError m (endMotion c (afterBackoff c m s) s)))
    ⟨hf.trans (rejudge_step c _).toChannelFrame, fun hj x hg => ?_⟩ (restore_step ..).channel
  by_cases hx : x = c
  · subst hx; exact rejudge_guarded (hf.jobs hj)
  · exact (rejudge_step c _).guard (hf.jobs hj) x ((hq.channel (p := fun _ => True)).guard hj x
      (guard_setDriver_ne hx hg))

/-! ### Stop (R66, R128) -/

theorem stopMotion_step (c : Channel) (s : State) : ChannelStep (· = c) s (stopMotion c s) := by
  unfold stopMotion
  split <;> rename_i hd
  case h_5 => exact setDriver_step ⟨rfl, rfl, by intro h; cases h⟩ (by rw [hd]; intro h; cases h)
  case h_6 =>
    exact (setDriver_step (quietLive_idle _) (by rw [hd]; intro h; cases h)).trans
      (restore_step ..).channel
  case h_1 | h_2 | h_3 | h_4 =>
    exact (endAtRest_step (by rw [hd]; intro h; cases h)).trans (restore_step ..).channel
  all_goals exact .refl _ s

theorem stopJob_step (c : Channel) (s : State) : QueueStep s (stopJob c s) := by
  unfold stopJob
  split
  · exact .refl s
  · exact ((giveUpClaim_step ..).trans (dropJob_step ..)).trans (restore_step ..)

end Sys2Proof.Machine
end

