-- ==== Sys2Proof/Laws/Drivers.lean ====
section
/-! SUPPORT. What the events of the Channel Drivers and of the Supply Share Unit can do (chapters 5, 6): each is a
`ChannelStep`, or a `QueueStep` where it changes the state of no channel. -/

namespace Sys2Proof.Machine

/-! ### Channel Drivers -/

theorem warningExpired_step (c : Channel) (s : State) : ChannelStep (· = c) s (warningExpired c s) := by
  unfold warningExpired
  split <;> rename_i hd
  · exact startClosing_step (by rw [hd]; intro h; cases h)
  all_goals exact .refl _ s

theorem brakeExpired_step (c : Channel) (s : State) : ChannelStep (· = c) s (brakeExpired c s) := by
  unfold brakeExpired
  split <;> rename_i hd
  · split
    · exact startWarning_step (by rw [hd]; intro h; cases h)
    · exact startClosing_step (by rw [hd]; intro h; cases h)
  all_goals exact .refl _ s

theorem backoffExpired_step (c : Channel) (s : State) : ChannelStep (· = c) s (backoffExpired c s) := by
  unfold backoffExpired
  split <;> rename_i hd
  · exact endBackoff_step (by rw [hd]; intro h; cases h)
  all_goals exact .refl _ s

theorem retryExpired_step (c : Channel) (s : State) : ChannelStep (· = c) s (retryExpired c s) := by
  unfold retryExpired
  split <;> rename_i hd
  · dsimp only
    refine ChannelStep.trans
      (setDriver_step (quietLive_idle (settled c .part s)) (by rw [hd]; intro h; cases h)) ?_
    split
    · exact ((queueClose_step ..).trans (restore_step ..)).channel
    · exact (restore_step ..).channel
  all_goals exact .refl _ s

theorem travelExpired_step (c : Channel) (s : State) : ChannelStep (· = c) s (travelExpired c s) := by
  unfold travelExpired
  split <;> rename_i hd
  · split
    · exact endAtRest_step (by rw [hd]; intro h; cases h)
    · exact becomeFaulted_step (by rw [hd]; intro h; cases h)
  · split
    · exact (endAtRest_step (by rw [hd]; intro h; cases h)).trans (restore_step ..).channel
    · exact becomeFaulted_step (by rw [hd]; intro h; cases h)
  all_goals exact .refl _ s

theorem closedLimitActive_step (c : Channel) (s : State) :
    ChannelStep (· = c) s (closedLimitActive c s) := by
  unfold closedLimitActive
  split <;> rename_i hd
  case h_1 | h_6 => exact setDriver_step (quietLive_idle _) (by rw [hd]; intro h; cases h)
  case h_2 | h_3 => exact endAtRest_step (by rw [hd]; intro h; cases h)
  case h_4 | h_5 => exact becomeFaulted_step (by rw [hd]; intro h; cases h)
  all_goals exact .refl _ s

theorem openLimitActive_step (c : Channel) (s : State) : ChannelStep (· = c) s (openLimitActive c s) := by
  unfold openLimitActive
  split <;> rename_i hd
  · exact (setDriver_step (quietLive_idle _) (by rw [hd]; intro h; cases h)).trans
      (restore_step ..).channel
  · exact becomeFaulted_step (by rw [hd]; intro h; cases h)
  · exact (endAtRest_step (by rw [hd]; intro h; cases h)).trans (restore_step ..).channel
  · exact setDriver_step ⟨rfl, rfl, by intro h; cases h⟩ (by rw [hd]; intro h; cases h)
  all_goals exact .refl _ s

theorem limitActivated_step (c : Channel) (l : Limit) (s : State) :
    ChannelStep (· = c) s (limitActivated c l s) := by
  unfold limitActivated
  split
  · exact limitFault_step c s
  · split
    · exact closedLimitActive_step c s
    · exact openLimitActive_step c s

theorem limitDeactivated_step (c : Channel) (l : Limit) (s : State) :
    ChannelStep (· = c) s (limitDeactivated c l s) := by
  unfold limitDeactivated
  split
  · next hd =>
    exact (setDriver_step (quietLive_idle _) (by rw [hd]; intro h; cases h)).trans
      (restore_step ..).channel
  · next hd =>
    exact (setDriver_step (quietLive_idle _) (by rw [hd]; intro h; cases h)).trans
      (restore_step ..).channel
  · exact .refl _ s

/-- The drive with its blanking expired is in the state it was in. -/
theorem unblanked_cases {d d' : Driver} (h : unblanked d = some d') :
    (∃ m t b, d = .closing m t (some b) ∧ d' = .closing m t none)
      ∨ ∃ m t b, d = .opening m t (some b) ∧ d' = .opening m t none := by
  unfold unblanked at h
  split at h
  · cases h; exact .inl ⟨_, _, _, rfl, rfl⟩
  · cases h; exact .inr ⟨_, _, _, rfl, rfl⟩
  · cases h

/-! ### Own claims -/

theorem ownSettled_step (c : Channel) (s : State) : ChannelStep (· = c) s (ownSettled c s) := by
  unfold ownSettled
  split
  · exact .refl _ s
  · split
    · have hq := changeEntries_step (p := isOwnOf c) (f := fun x => { x with state := .held }) s
        (fun _ _ _ => rfl) (fun _ _ _ _ => ⟨rfl, rfl, rfl, rfl, fun _ h => by cases h⟩)
      dsimp only
      split
      · exact hq.channel
      · next j hj =>
        have hc : j.chan = c := (jobOf_some hj).2
        split
        · exact (hq.trans ((dropJob_step ..).trans (removeOwn_step ..))).channel
        · next hdr =>
          subst hc
          refine hq.channel.trans (handOver_step ?_ ?_)
          · intro e
            rw [changeEntries_drivers] at e
            exact hdr (by simp [dropsAtHandover, e])
          · intro hd
            by_contra hna
            exact hdr (by simp [dropsAtHandover, hd, Bool.not_eq_true _ ▸ hna])
    · exact .refl _ s

theorem claimRefresh_step (c : Channel) (s : State) : QueueStep s (claimRefresh c s) := by
  unfold claimRefresh
  split
  · exact .refl s
  · split
    · have hq := changeEntries_step (p := isOwnOf c)
        (f := fun x => { x with ageMs := max x.ageMs (s.cfg.lifetimeS * 500) }) s
        (fun _ _ _ => rfl) (fun _ _ _ _ => ⟨rfl, rfl, rfl, rfl, id⟩)
      dsimp only
      split
      · exact hq.trans (queueClaim_step ..)
      · exact hq
    · exact .refl s

theorem claimSent_step (tag : Nat) (s : State) : QueueStep s (claimSent tag s) := by
  unfold claimSent
  split
  · exact .refl s
  · split
    · next e _ _ _ =>
      exact (changeEntries_step (p := isOwnOf e.chan)
          (f := fun x => { x with state := .settling s.cfg.settleMs, ageMs := 0 }) s (fun _ _ _ => rfl)
          (fun _ _ _ _ => ⟨rfl, rfl, rfl, rfl, fun _ h => by cases h⟩)).trans
        (mapJobs_step (f := fun j => if j.chan = e.chan then { j with state := .settling } else j) _
          (fun k => by split <;> exact ⟨rfl, rfl, rfl, rfl, rfl⟩))
    all_goals
      exact changeEntries_step s (fun _ _ _ => rfl) (fun _ _ _ _ => ⟨rfl, rfl, rfl, rfl, id⟩)

theorem withdrawClaim_step (c : Channel) (r : Bool) (s : State) : QueueStep s (withdrawClaim c r s) := by
  unfold withdrawClaim
  exact (removeOwn_step c r s).trans
    (mapJobs_step _ (fun k => by split <;> exact ⟨rfl, rfl, rfl, rfl, rfl⟩))

theorem withdrawAnnouncing_step (s : State) (c : Channel) : QueueStep s (withdrawAnnouncing s c) := by
  unfold withdrawAnnouncing
  split
  · exact .refl s
  · split
    · exact withdrawClaim_step ..
    · exact .refl s

theorem withdrawAll_step (s : State) : QueueStep s (withdrawAll s) :=
  foldl_rel QueueStep.refl QueueStep.trans withdrawAnnouncing_step _ _

/-! ### Pauses (R105, R130) -/

theorem requeue_step (c : Channel) (d : Driver) (s : State) : ChannelStep (· = c) s (requeue c d s) := by
  unfold requeue
  split
  case h_4 =>
    split
    · next h => exact openRequest_step _ _ _ h
    · exact .refl _ s
  case h_5 => exact rejudge_step c s
  case h_1 | h_2 | h_3 => exact (queueClose_step ..).channel
  all_goals exact .refl _ s

/-- What the pause of a channel makes of its state is not OPENING, and is DISABLED only where the channel was. -/
theorem pausedDriver_live (c : Channel) (s : State) (d : Driver) :
    isOpening (pausedDriver c s d) = false ∧ (d ≠ .disabled → pausedDriver c s d ≠ .disabled)
      ∧ (isFaulted (pausedDriver c s d) = true → isFaulted d = true ∨ ∃ m o t, d = .backoff m o t) := by
  cases d <;> simp only [pausedDriver]
  case backoff m o t =>
    obtain ⟨h1, h2⟩ := afterBackoff_live c m s
    exact ⟨h1, fun _ => h2, fun _ => .inr ⟨m, o, t, rfl⟩⟩
  all_goals simp [isOpening, isFaulted]

theorem pauseMotion_frame (c : Channel) (n : Nat) (s : State) :
    ChannelFrame (· = c) s (pauseMotion c n s) := by
  unfold pauseMotion
  dsimp only
  have hb : ∀ t : State, t.drivers = s.drivers →
      ChannelFrame (· = c) t
        (requeue c (s.drivers.get c) (raiseError .overBudget .overBudget n
          (removeOwn c true (setDriver c (pausedDriver c t (s.drivers.get c)) t)))) := fun t ht =>
    (setDriver_frame (fun h => by
        rw [ht]; intro e
        exact h (by rw [e]; rfl))).trans
      (((removeOwn_step ..).trans (raiseError_step ..)).channel.toChannelFrame.trans
        (requeue_step ..).toChannelFrame)
  split
  · exact (backoffError_step ..).channel.toChannelFrame.trans (hb _ (backoffError_step ..).drivers)
  all_goals exact hb s rfl

theorem pauseMotion_step (c : Channel) (n : Nat) (s : State) :
    ChannelStep (· = c) s (pauseMotion c n s) := by
  refine ⟨pauseMotion_frame c n s, fun hj x hg => ?_⟩
  unfold pauseMotion
  dsimp only
  by_cases hback : ∃ m o t, s.drivers.get c = .backoff m o t
  · obtain ⟨m, o, t, hd⟩ := hback
    rw [hd]
    dsimp only [requeue]
    have h1 := backoffError_step m s
    have h2 : QueueStep (setDriver c (pausedDriver c (backoffError m s) (.backoff m o t))
        (backoffError m s)) (raiseError .overBudget .overBudget n (removeOwn c true
          (setDriver c (pausedDriver c (backoffError m s) (.backoff m o t)) (backoffError m s)))) :=
      (removeOwn_step ..).trans (raiseError_step ..)
    have hjobs := h2.jobs (h1.jobs hj)
    by_cases hx : x = c
    · subst hx; exact rejudge_guarded hjobs
    · refine (rejudge_step c _).guard hjobs x ((h2.channel (p := fun _ => True)).guard
        (h1.jobs hj) x (guard_setDriver_ne hx ?_))
      exact (h1.channel (p := fun _ => True)).guard hj x hg
  · refine Eq.mp (congrArg (OpeningGuarded x) (congrArg (fun t => requeue c (s.drivers.get c)
      (raiseError .overBudget .overBudget n
        (removeOwn c true (setDriver c (pausedDriver c t (s.drivers.get c)) t))))
      (show s = _ by
        split
        · next m o t hd => exact absurd ⟨m, o, t, hd⟩ hback
        all_goals rfl))) ?_
    obtain ⟨h1, h2, h3⟩ := pausedDriver_live c s (s.drivers.get c)
    have hq := ((removeOwn_step c true (setDriver c (pausedDriver c s (s.drivers.get c)) s)).trans
      (raiseError_step .overBudget .overBudget n _))
    refine (requeue_step c (s.drivers.get c) _).guard (hq.jobs hj) x
      ((hq.channel (p := fun _ => True)).guard hj x ?_)
    by_cases hdis : s.drivers.get c = .disabled
    · rw [hdis]
      have : setDriver c (pausedDriver c s .disabled) s = s := by
        show setDriver c .disabled s = s
        rw [← hdis]; exact setDriver_self s c
      rw [this]; exact hg
    · by_cases hf : isFaulted (s.drivers.get c) = true
      · exact (setDriver_step_barred h1 (fun _ => hdis) (openingAllowed_faulted hf)).guard hj x hg
      · have hnf : isFaulted (pausedDriver c s (s.drivers.get c)) = false := by
          rw [Bool.eq_false_iff]; intro e
          rcases h3 e with h | h
          · exact hf h
          · exact hback h
        exact (setDriver_step ⟨h1, hnf, h2 hdis⟩ hdis).guard hj x hg

/-! ### The contention check (R100 to R104) -/

theorem firstStage_step (s : State) (c : Channel) : QueueStep s (firstStage s c) := by
  unfold firstStage
  split
  · exact withdrawClaim_step ..
  · exact .refl s

theorem secondStage_step (s : State) (e : Entry) : QueueStep s (secondStage s e) := by
  unfold secondStage
  split
  · split
    · exact withdrawClaim_step ..
    · exact (changeEntries_step (p := isPeerKey e.station e.tag)
        (f := fun x => { x with state := .yielding }) s (fun _ _ _ => rfl)
        (fun x _ hp ho => by simp [isPeerKey, ho] at hp)).trans (wantScan_step _)
  · exact .refl s

theorem reassertOne_step (s : State) (e : Entry) : QueueStep s (reassertOne s e) := by
  unfold reassertOne
  split
  · have hq := changeEntries_step (p := isOwnOf e.chan) (f := fun x => { x with reasserted := true }) s
      (fun _ _ _ => rfl) (fun _ _ _ _ => ⟨rfl, rfl, rfl, rfl, id⟩)
    dsimp only
    split
    · exact hq
    · exact hq.trans (queueClaim_step ..)
  · exact .refl s

theorem reassert_step (s : State) : QueueStep s (reassert s) :=
  foldl_rel QueueStep.refl QueueStep.trans reassertOne_step _ _

/-- The marks of the Supply Share Unit's own: table-full flag and held-excess marker. -/
theorem supplyMarks_step (s : State) (a : Option Nat) (b : Bool) :
    QueueStep s { s with supply := { s.supply with tableFull := a, heldExcess := b } } :=
  ⟨rfl, rfl, rfl, rfl, rfl, rfl, rfl, rfl, rfl, rfl, rfl, rfl, rfl, rfl, fun _ => rfl, id, id, id,
    fun j h hd => ⟨j, h, rfl, hd⟩, id, id, id⟩

theorem thirdStage_step (n : Nat) : ∀ (es : List Entry) (s : State),
    ChannelStep (fun _ => True) s (thirdStage n es s)
  | [], s => .refl _ s
  | e :: es, s => by
    unfold thirdStage
    split
    · split
      · exact ((pauseMotion_step e.chan n s).mono fun _ _ => trivial).trans (thirdStage_step n es _)
      · split
        · exact .refl _ s
        · exact ((supplyMarks_step s s.supply.tableFull true).trans (raiseEvent_step ..)).channel
    · exact .refl _ s

theorem clearExcess_step (s : State) : QueueStep s (clearExcess s) := by
  unfold clearExcess
  split
  · exact supplyMarks_step s s.supply.tableFull false
  · exact .refl s

theorem contention_step (n : Nat) (s : State) : ChannelStep (fun _ => True) s (contention n s) := by
  unfold contention
  dsimp only
  have h1 : QueueStep s ((announcingChannels s).foldl firstStage s) :=
    foldl_rel QueueStep.refl QueueStep.trans firstStage_step _ _
  have h2 : ∀ (l : List Entry) (t : State), QueueStep t (l.foldl secondStage t) :=
    foldl_rel QueueStep.refl QueueStep.trans secondStage_step
  refine ChannelStep.trans (h1.trans (h2 (ascending (((announcingChannels s).foldl firstStage
    s).supply.entries.filter isSettling)) _)).channel ?_
  split
  · exact (reassert_step _).channel.trans ((thirdStage_step ..).trans (clearExcess_step _).channel)
  · exact (thirdStage_step ..).trans (clearExcess_step _).channel

/-! ### Peer claims (R92 to R98) -/

theorem supersede_step (n : Nat) (k : ClaimFields) (s : State) : QueueStep s (supersede n k s) := by
  unfold supersede
  split
  · exact (removeEntries_step ..).trans (wantScan_step _)
  · exact .refl s

theorem refuseClaim_step (n : Nat) (s : State) : QueueStep s (refuseClaim n s) :=
  (supplyMarks_step s (some (s.cfg.lifetimeS * 1000)) s.supply.heldExcess).trans (raiseError_step ..)

theorem applyClaim_step (n : Nat) (k : ClaimFields) (s : State) : QueueStep s (applyClaim n k s) := by
  unfold applyClaim
  split
  · exact changeEntries_step s (fun _ _ _ => rfl) (fun x _ hp ho => by simp [isPeerKey, ho] at hp)
  · have hq := supersede_step n k s
    dsimp only
    split
    · next hroom =>
      refine hq.trans (setEntries_step (fun _ => ?_) (fun h e he ho => ?_)
        (fun h => ⟨?_, h.2.1, fun e he ho => ?_⟩))
      · show (_ ++ _ : List Entry).length ≤ _
        rw [List.length_append]; exact hroom
      · rcases List.mem_append.1 he with he | he
        · exact h e he ho
        · rw [List.mem_singleton] at he; subst he; cases ho
      · show drawSum Entry.own (_ ++ _) ≤ _
        rw [drawSum_append, drawSum_cons, drawSum_nil]
        exact h.1
      · rcases List.mem_append.1 he with he | he
        · exact h.2.2 e he ho
        · rw [List.mem_singleton] at he; subst he; cases ho
    · exact hq.trans (refuseClaim_step ..)

theorem takeClaim_step (n : Nat) (p : List Byte) (s : State) :
    ChannelStep (fun _ => True) s (takeClaim n p s) := by
  unfold takeClaim
  split
  · exact .refl _ s
  · exact (raiseError_step ..).channel
  · exact (applyClaim_step ..).channel.trans (contention_step ..)

theorem takeRelease_step (n : Nat) (p : List Byte) (s : State) : QueueStep s (takeRelease n p s) := by
  unfold takeRelease
  split
  · exact .refl s
  · exact raiseError_step ..
  · split
    · exact .refl s
    · exact (removeEntries_step ..).trans (wantScan_step _)

theorem peerSettled_step (n tag : Nat) (s : State) : QueueStep s (peerSettled n tag s) := by
  unfold peerSettled
  exact changeEntries_step s (fun _ _ _ => rfl) (fun x _ hp ho => by simp [isPeerKey, ho] at hp)

theorem claimLapsed_step (n tag : Nat) (s : State) : QueueStep s (claimLapsed n tag s) := by
  unfold claimLapsed
  split
  · exact .refl s
  · exact ((removeEntries_step ..).trans (raiseError_step ..)).trans (wantScan_step _)

theorem tableFullExpired_step (s : State) : QueueStep s (tableFullExpired s) := by
  unfold tableFullExpired
  split
  · exact (supplyMarks_step s none s.supply.heldExcess).trans (wantScan_step _)
  · exact .refl s

/-! ### The isolation policy (R52 to R54) -/

theorem closeForIsolation_step (s : State) (c : Channel) :
    ChannelStep (· = c) s (closeForIsolation s c) := by
  unfold closeForIsolation
  dsimp only
  split <;> rename_i hd
  case h_1 => exact closeRequest_step ..
  case h_2 =>
    split
    · exact .refl _ s
    · exact closeRequest_step ..
  case h_3 | h_4 =>
    exact setDriver_step ⟨rfl, rfl, by intro h; cases h⟩ (by rw [hd]; intro h; cases h)
  all_goals exact .refl _ s

theorem applyPolicy_step (s : State) : ChannelStep (fun _ => True) s (applyPolicy s) := by
  unfold applyPolicy
  split
  · exact foldl_rel (ChannelStep.refl _) ChannelStep.trans
      (fun s c => (closeForIsolation_step s c).mono fun _ _ => trivial) _ _
  · exact foldl_rel (ChannelStep.refl _) ChannelStep.trans
      (fun s c => (halt_step c s).mono fun _ _ => trivial) _ _

/-! ### Requests on one channel (R132, R164 to R166) -/

theorem clearFault_step {c : Channel} {s : State} (k : Cause) (w : Requester)
    (h : isFaulted (s.drivers.get c) = true) : ChannelStep (· = c) s (clearFault c k w s) := by
  have hne : s.drivers.get c ≠ .disabled := fun e => by rw [e] at h; cases h
  unfold clearFault
  dsimp only
  refine (setDriver_step_barred (d := .idle (freshPosition c s)) rfl (fun _ => hne)
    (openingAllowed_faulted h)).trans ?_
  split
  · exact ((queueClose_step ..).trans (queueClose_step ..)).channel
  · exact (queueClose_step ..).channel

theorem closeChannel_step (k : Cause) (w : Requester) (c : Channel) (s : State) :
    ChannelStep (· = c) s (closeChannel k w c s).2 := by
  unfold closeChannel
  dsimp only
  split <;> rename_i hd
  case h_2 =>
    split
    · exact .refl _ s
    · exact clearFault_step k w (by rw [hd]; rfl)
  case h_3 =>
    split
    · exact .refl _ s
    · exact closeRequest_step ..
  case h_4 | h_7 | h_8 | h_9 => exact closeRequest_step ..
  all_goals exact .refl _ s

/-- R165: OPEN judged for a channel that is DISABLED or enabled by the settings. -/
theorem openChannel_step {c : Channel} {s : State} (k : Cause) (w : Requester)
    (he : s.drivers.get c ≠ .disabled → (chanCfg c s).enabled = true) :
    ChannelStep (· = c) s (openChannel k w c s).2 := by
  unfold openChannel
  repeat' split
  all_goals try exact .refl _ s
  rename_i h1 h2 h3 h4 h5 h6 h7
  refine openRequest_step _ _ _ (openingAllowed_iff.2 ⟨he h1, ?_, h1, ?_, ?_, ?_, ?_, ?_, ?_⟩) <;>
    simp_all [Option.isSome_iff_ne_none]

theorem stopChannel_step (c : Channel) (s : State) : ChannelStep (· = c) s (stopChannel c s).2 := by
  unfold stopChannel
  split
  · exact .refl _ s
  · split
    · split
      · exact stopMotion_step c s
      · exact .refl _ s
    · split
      · split
        · exact (stopJob_step c s).channel
        · exact .refl _ s
      · exact .refl _ s

end Sys2Proof.Machine
end

