-- ==== Sys2Proof/Laws/Blocks.lean ====
section
/-! SUPPORT. What the operations of the other blocks can do (chapters 1 to 3, 7, 8): `BlockStep` says once what a command's
effect on a running part keeps, and each operation has one lemma. -/

namespace Sys2Proof.Machine

/-- Every channel that is not DISABLED is enabled by the settings (R109). -/
def LiveEnabled (s : State) : Prop := ∀ c, s.drivers.get c ≠ .disabled → (chanCfg c s).enabled = true

/-- From `s` to `t` the waiting commands, the stage of the start, the loader and the settings stand, no DISABLED channel
has left that state, and the properties of each part are kept; where `r` holds, no restart comes to be pending. -/
structure BlockFrame (r : Prop) (s t : State) : Prop where
  pending : t.pending = s.pending
  phase : t.phase = s.phase
  loader : t.loader = s.loader
  cfg : t.cfg = s.cfg
  free : t.free = s.free
  enabled : ∀ c, t.drivers.get c ≠ .disabled → s.drivers.get c ≠ .disabled
  restart : r → s.requests.pendingRestart = false →
    t.requests.pendingRestart = false ∧ t.work.restart = s.work.restart
  tx : TxOrdered s.line.queue → TxOrdered t.line.queue
  records : RecordsBounded s.status → RecordsBounded t.status
  jobs : JobsOrdered s.jobs → JobsOrdered t.jobs
  table : TableBounded s → TableBounded t
  own : OwnEntriesCarry s → OwnEntriesCarry t
  budget : WithinBudget s → WithinBudget t
  timers : LinkTimersFit s.link → LinkTimersFit t.link
  fused : s.picture.fused = fuse s.picture.slots → t.picture.fused = fuse t.picture.slots

/-- A `BlockFrame` that keeps opening guarded (R51, R65). -/
structure BlockStep (r : Prop) (s t : State) : Prop extends BlockFrame r s t where
  guard : JobsOrdered s.jobs → LiveEnabled s → (∀ c, OpeningGuarded c s) → ∀ c, OpeningGuarded c t

variable {r : Prop}

theorem BlockFrame.refl (r : Prop) (s : State) : BlockFrame r s s :=
  ⟨rfl, rfl, rfl, rfl, rfl, fun _ h => h, fun _ h => ⟨h, rfl⟩, id, id, id, id, id, id, id, id⟩

theorem BlockFrame.trans {a b c : State} (h : BlockFrame r a b) (k : BlockFrame r b c) :
    BlockFrame r a c :=
  ⟨k.pending.trans h.pending, k.phase.trans h.phase, k.loader.trans h.loader, k.cfg.trans h.cfg,
    k.free.trans h.free, fun x hx => h.enabled x (k.enabled x hx),
    fun hr hp => ⟨(k.restart hr (h.restart hr hp).1).1,
      (k.restart hr (h.restart hr hp).1).2.trans (h.restart hr hp).2⟩,
    k.tx ∘ h.tx, k.records ∘ h.records, k.jobs ∘ h.jobs, k.table ∘ h.table, k.own ∘ h.own,
    k.budget ∘ h.budget, k.timers ∘ h.timers, k.fused ∘ h.fused⟩

theorem BlockFrame.live {s t : State} (h : BlockFrame r s t) (hl : LiveEnabled s) : LiveEnabled t :=
  fun c hc => by
    have := hl c (h.enabled c hc)
    unfold chanCfg at *
    rw [h.cfg]; exact this

theorem BlockStep.refl (r : Prop) (s : State) : BlockStep r s s := ⟨.refl r s, fun _ _ h => h⟩

theorem BlockStep.trans {a b c : State} (h : BlockStep r a b) (k : BlockStep r b c) : BlockStep r a c :=
  ⟨h.toBlockFrame.trans k.toBlockFrame,
    fun hj hl hg => k.guard (h.jobs hj) (h.live hl) (h.guard hj hl hg)⟩

theorem ChannelFrame.block {p : Channel → Prop} {s t : State} (h : ChannelFrame p s t) :
    BlockFrame r s t :=
  ⟨h.pending, h.phase, h.loader, h.cfg, h.free, h.enabled,
    fun _ hp => ⟨by rw [h.requests]; exact hp, h.restart hp⟩, h.tx, h.records, h.jobs, h.table, h.own,
    h.budget, fun ht => by rw [h.link]; exact ht, fun hf => by rw [h.picture]; exact hf⟩

theorem ChannelStep.block {p : Channel → Prop} {s t : State} (h : ChannelStep p s t) : BlockStep r s t :=
  ⟨h.toChannelFrame.block, fun hj _ hg c => h.guard hj c (hg c)⟩

theorem QueueStep.block {s t : State} (h : QueueStep s t) : BlockStep r s t :=
  (h.channel (p := fun _ => True)).block

/-- A change that `openingAllowed`, the jobs and the properties do not see. -/
theorem quiet_step {s t : State} (h1 : t.pending = s.pending) (h2 : t.phase = s.phase)
    (h3 : t.loader = s.loader) (h4 : t.cfg = s.cfg) (h5 : t.free = s.free) (h6 : t.drivers = s.drivers)
    (h7 : t.requests.pendingRestart = s.requests.pendingRestart) (h8 : t.work = s.work)
    (h9 : t.line.queue = s.line.queue) (h10 : t.status = s.status) (h11 : t.jobs = s.jobs)
    (h12 : t.supply = s.supply) (h13 : LinkTimersFit s.link → LinkTimersFit t.link)
    (h14 : t.picture = s.picture) (h15 : ∀ c, openingAllowed c s = true → openingAllowed c t = true) :
    BlockStep r s t := by
  refine ⟨⟨h1, h2, h3, h4, h5, fun c hc => by rwa [h6] at hc,
    fun _ hp => ⟨h7.trans hp, by rw [h8]⟩, fun h => by rw [h9]; exact h, fun h => by rw [h10]; exact h,
    fun h => by rw [h11]; exact h, fun h => ?_, fun h => ?_, fun h => ?_, h13,
    fun h => by rw [h14]; exact h⟩, fun _ _ hg c ho => ?_⟩
  · unfold TableBounded at *; rw [h12]; exact h
  · unfold OwnEntriesCarry drawOf chanCfg at *; rw [h12, h4]; exact h
  · unfold WithinBudget ownTotal at *; rw [h12, h4]; exact h
  · apply h15
    apply hg
    rcases ho with ho | ho
    · left; rwa [h6] at ho
    · right; rwa [h11] at ho

/-! ### Demand Evaluator (chapter 3) -/

/-- A change of what the Demand Evaluator holds, of the picture, of the hold and of the link, before opening is
re-judged. -/
theorem judged_frame {s t : State} (h1 : t.pending = s.pending) (h2 : t.phase = s.phase)
    (h3 : t.loader = s.loader) (h4 : t.cfg = s.cfg) (h5 : t.free = s.free) (h6 : t.drivers = s.drivers)
    (h7 : t.requests.pendingRestart = s.requests.pendingRestart) (h8 : t.work = s.work)
    (h9 : t.line.queue = s.line.queue) (h10 : t.status = s.status) (h11 : t.jobs = s.jobs)
    (h12 : t.supply = s.supply) (h13 : LinkTimersFit s.link → LinkTimersFit t.link)
    (h14 : s.picture.fused = fuse s.picture.slots → t.picture.fused = fuse t.picture.slots) :
    BlockFrame r s t := by
  refine ⟨h1, h2, h3, h4, h5, fun c hc => by rwa [h6] at hc,
    fun _ hp => ⟨h7.trans hp, by rw [h8]⟩, fun h => by rw [h9]; exact h, fun h => by rw [h10]; exact h,
    fun h => by rw [h11]; exact h, fun h => ?_, fun h => ?_, fun h => ?_, h13, h14⟩
  · unfold TableBounded at *; rw [h12]; exact h
  · unfold OwnEntriesCarry drawOf chanCfg at *; rw [h12, h4]; exact h
  · unfold WithinBudget ownTotal at *; rw [h12, h4]; exact h

/-- An operation that ends in the re-judgement of opening for every channel. -/
theorem BlockFrame.rejudged {s t : State} (h : BlockFrame r s t) : BlockStep r s (rejudgeAll t) :=
  ⟨h.trans (rejudgeAll_step t).toChannelFrame.block, fun hj _ _ c => rejudgeAll_guarded (h.jobs hj) c⟩

theorem eval_frame (s : State) (x : Evaluator) : BlockFrame r s { s with eval := x } :=
  judged_frame rfl rfl rfl rfl rfl rfl rfl rfl rfl rfl rfl rfl id id

theorem reexpose_frame (s : State) (c : Channel) : BlockFrame r s (reexpose s c) := by
  unfold reexpose; split
  · exact eval_frame s _
  · exact .refl r s

theorem reorderJobs_frame (s : State) : BlockFrame r s (reorderJobs s) := by
  refine (QueueStep.block (setJobs_step (fun h => h.resort
    (f := fun j => { j with exposure := (s.eval.chans.get j.chan).exposure }) fun _ => rfl)
    fun j hj hd => ?_)).toBlockFrame
  rw [(sortJobs_perm _).mem_iff] at hj
  obtain ⟨k, hk, rfl⟩ := List.mem_map.1 hj
  exact ⟨k, hk, rfl, hd⟩

theorem judgeStorm_frame (s : State) : BlockFrame r s (judgeStorm s) := by
  unfold judgeStorm
  dsimp only
  split
  · split <;> exact eval_frame s _
  · split
    · exact (eval_frame s _).trans (raiseEvent_step ..).block.toBlockFrame
    · exact eval_frame s _

theorem judgeChannel_frame (s : State) (c : Channel) : BlockFrame r s (judgeChannel s c) := by
  unfold judgeChannel; split
  · exact eval_frame s _
  · exact .refl r s

theorem askDemand_step (c : Channel) (d : Demand) (s : State) :
    ChannelStep (fun _ => True) s (askDemand c d s) := by
  unfold askDemand
  have h := (closeRequest_step c (demandReq d) s).mono (q := fun _ => True) fun _ _ => trivial
  split
  case h_3 => split <;> first | exact .refl _ s | exact h
  all_goals first | exact .refl _ s | exact h

theorem askChannel_step (b : Eight Exposed) (s : State) (c : Channel) :
    ChannelStep (fun _ => True) s (askChannel b s c) := by
  unfold askChannel
  dsimp only
  split
  · split
    · exact askDemand_step ..
    · exact .refl _ s
  · exact .refl _ s

/-- Stages 3 and 4 of a full evaluation, after a change that leaves opening to be re-judged. -/
theorem judgeAll_step {s t : State} (h : BlockFrame r s t) : BlockStep r s (judgeAll t) := by
  unfold judgeAll
  dsimp only
  have h1 : BlockFrame r t (allChannels.foldl judgeChannel t) :=
    foldl_rel (BlockFrame.refl r) BlockFrame.trans judgeChannel_frame _ _
  have h2 : ∀ u : State, ChannelStep (fun _ => True) u (allChannels.foldl (askChannel t.eval.chans) u) :=
    foldl_rel (ChannelStep.refl _) ChannelStep.trans (askChannel_step _) _
  exact (h.trans h1).rejudged.trans (h2 _).block

theorem evaluatePicture_step {s t : State} (h : BlockFrame r s t) : BlockStep r s (evaluatePicture t) := by
  unfold evaluatePicture
  have h1 : BlockFrame r t (allChannels.foldl reexpose t) :=
    foldl_rel (BlockFrame.refl r) BlockFrame.trans reexpose_frame _ _
  exact judgeAll_step (h.trans (h1.trans ((reorderJobs_frame _).trans (judgeStorm_frame _))))

theorem stormReleased_step (s : State) : BlockStep r s (stormReleased s) := judgeAll_step (eval_frame s _)

theorem calmExpired_step (c : Channel) (s : State) : BlockStep r s (calmExpired c s) := by
  unfold calmExpired
  split
  · refine BlockStep.trans ?_ (rejudge_step ..).block
    refine ⟨eval_frame s _, fun _ _ hg x ho => ?_⟩
    have := openingAllowed_iff.1 (hg x ho)
    refine openingAllowed_iff.2 ⟨this.1, this.2.1, this.2.2.1, ?_, this.2.2.2.2⟩
    have hd := this.2.2.2.1
    unfold demandSet at *
    rw [setExposed_get]
    split
    · rfl
    · exact hd
  · exact .refl r s

/-! ### Picture Unit (chapter 2) -/

theorem tableChanged_step (x : Eight Slot) (s : State) : BlockStep r s (tableChanged x s) := by
  unfold tableChanged
  dsimp only
  have hf : BlockFrame r s { s with picture := { slots := x, fused := fuse x } } :=
    judged_frame rfl rfl rfl rfl rfl rfl rfl rfl rfl rfl rfl rfl id (fun _ => rfl)
  split
  · next he =>
    refine ⟨hf, fun _ _ hg c ho => ?_⟩
    have := hg c ho
    rw [openingAllowed_iff] at *
    rw [← he] at this
    exact this
  · exact evaluatePicture_step hf

theorem takeObs_step (n : Nat) (p : List Byte) (s : State) : BlockStep r s (takeObs n p s) := by
  unfold takeObs
  split
  · exact .refl r s
  · split
    · exact tableChanged_step ..
    · exact (raiseError_step ..).block

theorem refreshSelf_step (o : Obs) (s : State) : BlockStep r s (refreshSelf o s) := by
  unfold refreshSelf
  split
  · exact .refl r s
  · exact tableChanged_step ..

theorem sourceStale_step (k : SlotId) (s : State) : BlockStep r s (sourceStale k s) := by
  unfold sourceStale
  split
  · exact tableChanged_step ..
  all_goals exact .refl r s

theorem sourceLost_step (k : SlotId) (s : State) : BlockStep r s (sourceLost k s) := by
  unfold sourceLost
  split
  · exact (raiseEvent_step .sourceLost s).block.trans (tableChanged_step (setEntry k .absent s) _)
  all_goals exact .refl r s

/-! ### Sensing Unit (chapter 1) -/

theorem setSensing_step (x : Sensing) (s : State) : BlockStep r s (setSensing x s) :=
  quiet_step rfl rfl rfl rfl rfl rfl rfl rfl rfl rfl rfl rfl id rfl fun _ h => h

theorem queueObs_step (p k : Nat) (s : State) : BlockStep r s (queueObs p k s) := by
  unfold queueObs
  split
  · dsimp only
    exact (setSensing_step _ s).trans (enqueue_step rfl _).block
  · exact .refl r s

theorem pulse_step (s : State) : BlockStep r s (pulse s) := by
  unfold pulse
  split
  · exact setSensing_step ..
  · exact .refl r s

theorem selfRefresh_step (s : State) : BlockStep r s (selfRefresh s) := by
  unfold selfRefresh
  split
  · exact refreshSelf_step ..
  · exact .refl r s

theorem pins_step (s : State) (p : Pins) : BlockStep r s { s with pins := p } :=
  quiet_step rfl rfl rfl rfl rfl rfl rfl rfl rfl rfl rfl rfl id rfl fun _ h => h

theorem subWindow_step (v : BitVec 4) (s : State) : BlockStep r s (subWindow v s) := by
  unfold subWindow
  dsimp only
  refine (pins_step s { s.pins with vane := v }).trans ?_
  split
  · refine (setSensing_step (windowed s.cfg v s.sensing) _).trans
      (BlockStep.trans ?_ (selfRefresh_step _))
    split
    · exact queueObs_step ..
    · exact .refl r _
  · exact .refl r _

theorem obsPeriod_step (s : State) : BlockStep r s (obsPeriod s) := by
  unfold obsPeriod
  split
  · exact (setSensing_step ..).trans (queueObs_step ..)
  · exact .refl r s

theorem rainLevel_step (l : RainLevel) (s : State) : BlockStep r s (rainLevel l s) := by
  unfold rainLevel
  split
  · exact setSensing_step ..
  · exact .refl r s

theorem rainConfirmed_step (s : State) : BlockStep r s (rainConfirmed s) := by
  unfold rainConfirmed
  split
  · exact .refl r s
  · next k _ =>
    dsimp only
    refine (setSensing_step { s.sensing with rain := k.target, confirm := none } s).trans (BlockStep.trans ?_ (queueObs_step ..))
    split
    · exact (raiseEvent_step ..).block
    · exact .refl r _

/-! ### Link Supervisor (7.6, 7.7) -/

theorem linkEntered_fits (k : Settings) (new : LinkState) {l : Link} (h : LinkTimersFit l)
    (hi : new = .isolated → l.state = .active ∨ l.state = .isolated) :
    LinkTimersFit (linkEntered k new l) := by
  cases new
  case isolated =>
    refine ⟨by simp [linkEntered], by simp [linkEntered], ?_⟩
    have := h.2.2.2 (hi rfl)
    simp [linkEntered, this]
  all_goals exact ⟨by simp [linkEntered], by simp [linkEntered], by simp [linkEntered]⟩

theorem handOn_step (new : LinkState) (s : State) : ChannelStep (fun _ => True) s (handOn new s) := by
  unfold handOn
  split
  · exact (withdrawAll_step s).channel.trans (applyPolicy_step _)
  · exact (withdrawAll_step s).channel.trans (applyPolicy_step _)
  · exact (withdrawAll_step s).channel
  all_goals exact .refl _ s

theorem queuePres_step (s : State) : QueueStep s (queuePres s) := enqueue_step rfl s

theorem entryEffect_step (new : LinkState) (s : State) : QueueStep s (entryEffect new s) := by
  unfold entryEffect
  split
  · exact raiseEvent_step ..
  · exact queuePres_step s
  · exact wantRestart_step s
  all_goals exact .refl s

theorem scanOnEntry_step (new : LinkState) (s : State) : QueueStep s (scanOnEntry new s) := by
  unfold scanOnEntry
  split
  case h_4 | h_5 => exact .refl s
  all_goals exact wantScan_step s

/-- R150 to R156: what an entry of the link into a state can do. ISOLATED is entered from ACTIVE alone. -/
theorem enterLink_step (new : LinkState) (s : State)
    (hi : LinkTimersFit s.link → new = .isolated → s.link.state = .active) :
    BlockStep r s (enterLink new s) := by
  unfold enterLink
  dsimp only
  have hf : BlockFrame r s { s with link := linkEntered s.cfg new s.link } :=
    judged_frame rfl rfl rfl rfl rfl rfl rfl rfl rfl rfl rfl rfl
      (fun h => linkEntered_fits _ _ h fun e => .inl (hi h e)) id
  exact (((hf.trans (entryEffect_step ..).block.toBlockFrame).trans
    (handOn_step ..).block.toBlockFrame).rejudged).trans (scanOnEntry_step ..).block

theorem duplicateHeard_step (s : State) : BlockStep r s (duplicateHeard s) := by
  unfold duplicateHeard
  have h := (raiseError_step .duplicateStation .duplicate s.cfg.station s).block.trans (r := r)
    (enterLink_step .mute (raiseError .duplicateStation .duplicate s.cfg.station s)
      (fun _ e => by cases e))
  split
  case h_1 | h_2 | h_3 => exact h
  all_goals exact .refl r s

/-- A change of the link that leaves its state alone and its timers running or stopped as they were. -/
theorem link_step (s : State) (l : Link) (h1 : l.state = s.link.state)
    (h2 : LinkTimersFit s.link → LinkTimersFit l) : BlockStep r s { s with link := l } :=
  quiet_step rfl rfl rfl rfl rfl rfl rfl rfl rfl rfl rfl rfl h2 rfl fun c h => by
    rw [openingAllowed_iff] at *
    exact ⟨h.1, h.2.1, h.2.2.1, h.2.2.2.1, h.2.2.2.2.1, h.2.2.2.2.2.1, h1.trans h.2.2.2.2.2.2.1,
      h.2.2.2.2.2.2.2⟩

theorem countDrop_step (s : State) : BlockStep r s (countDrop s) := by
  unfold countDrop
  dsimp only
  have h := link_step (r := r) s { s.link with drops := satSucc Config.dropLimit s.link.drops } rfl id
  split
  · have hm := h.trans (enterLink_step .mute _ (fun _ e => by cases e))
    split
    case h_1 | h_2 | h_3 => exact hm
    all_goals exact h
  · exact h

theorem resetDrops_step (s : State) : BlockStep r s (resetDrops s) := by
  unfold resetDrops
  split
  · exact link_step s _ rfl id
  · exact .refl r s

theorem joined_step (s : State) : BlockStep r s (joined s) := by
  unfold joined
  split
  · exact enterLink_step _ _ (fun _ e => by cases e)
  · exact .refl r s

theorem isolationExpired_step (s : State) : BlockStep r s (isolationExpired s) := by
  unfold isolationExpired
  split
  · next h => exact enterLink_step _ _ (fun hl _ => hl.2.1.1 h)
  · exact .refl r s

theorem presenceExpired_step (s : State) : BlockStep r s (presenceExpired s) := by
  unfold presenceExpired
  split
  · next h =>
    refine (link_step s { s.link with presence := some (s.cfg.presenceS * 1000) } rfl
      (fun hl => ⟨hl.1, hl.2.1, ?_⟩)).trans (queuePres_step _).block
    have := hl.2.2
    rw [h] at this
    exact this
  · exact .refl r s

/-! ### Transmit path (7.4, 7.5) -/

theorem setRx_step (x : Receiver) (s : State) : BlockStep r s (setRx x s) :=
  quiet_step rfl rfl rfl rfl rfl rfl rfl rfl rfl rfl rfl rfl id rfl fun _ h => h

theorem slotReached_step (n : Nat) (s : State) : BlockStep r s (slotReached n s) := by
  unfold slotReached
  split
  · exact .refl r s
  · next f fs hq =>
    split
    · next hc =>
      have hs : QueueStep s (setQueue ({ f with sending := true } :: fs) s) := by
        refine setQueue_step fun h => ?_
        rw [hq] at h
        obtain ⟨h1, h2, h3, h4, h5⟩ := h
        have hns : (f :: fs).countP TxFrame.sending = 0 := by
          rw [← hq, List.countP_eq_zero]
          simp only [Bool.and_eq_true, Bool.not_eq_true', transmitting] at hc
          intro x hx hsend
          have := List.any_eq_false.1 hc.1.2 x hx
          exact this hsend
        refine ⟨h1, ?_, ?_, ?_, ?_⟩
        · rw [List.pairwise_cons] at *; exact h2
        · rw [List.countP_cons] at *; simp only at *; split at hns <;> simp_all
        · refine Nat.le_trans ?_ h4
          rw [List.countP_cons, List.countP_cons]
          have : replacedBy .obs { f with sending := true } = false := by
            cases ho : f.owner <;> simp [replacedBy, isWaiting]
          rw [this]; simp
        · refine Nat.le_trans ?_ h5
          rw [List.countP_cons, List.countP_cons]
          have : replacedBy .pres { f with sending := true } = false := by
            cases ho : f.owner <;> simp [replacedBy, isWaiting]
          rw [this]; simp
      dsimp only
      split
      · exact hs.block.trans (setRx_step ..)
      all_goals exact hs.block
    · exact .refl r s

theorem leaveQueue_step (s : State) : QueueStep s (leaveQueue s) :=
  (setQueue_step fun h => h.sublist List.filter_sublist).trans (frameLeft_step _)

theorem tellSent_step (o : FrameOwner) (s : State) : QueueStep s (tellSent o s) := by
  unfold tellSent
  split
  · exact claimSent_step ..
  · exact wantRestart_step s
  all_goals exact .refl s

theorem transmitted_step (s : State) : BlockStep r s (transmitted s) := by
  unfold transmitted
  split
  · exact .refl r s
  · exact (leaveQueue_step s).block.trans ((countSent_step _).block.trans
      ((resetDrops_step _).trans (tellSent_step ..).block))

theorem mergeClaim_step (f : TxFrame) (s : State) : QueueStep s (mergeClaim f s) := by
  unfold mergeClaim
  split
  · split
    · exact queueClaim_step ..
    · exact .refl s
  all_goals exact .refl s

theorem dropSending_step (f : TxFrame) (s : State) : BlockStep r s (dropSending f s) :=
  (leaveQueue_step s).block.trans ((raiseError_step ..).block.trans
    ((tellDropped_step ..).block.trans (countDrop_step _)))

/-- The queue with the frame under transmission back to waiting, where no newer frame waits for its place. -/
theorem backToWaiting_step {s : State} {f : TxFrame} (hf : sendingFrame s = some f)
    (hn : hasNewer f s.line.queue = false) : QueueStep s (backToWaiting s) := by
  refine setQueue_step fun h => ?_
  obtain ⟨h1, h2, h3, h4, h5⟩ := h
  have hfm := List.mem_of_find?_eq_some hf
  have hfs : f.sending = true := List.find?_some hf
  -- every frame under transmission is `f` where there is at most one
  have huniq : ∀ g ∈ s.line.queue, g.sending = true → g = f := by
    intro g hg hgs
    by_contra hne
    have h3' := h3
    obtain ⟨l1, l2, hl⟩ := List.append_of_mem hfm
    rw [hl] at hg h3'
    rw [List.countP_append, List.countP_cons] at h3'
    simp only [hfs, if_true] at h3'
    have : 0 < l1.countP TxFrame.sending ∨ 0 < l2.countP TxFrame.sending := by
      rcases List.mem_append.1 hg with hg | hg
      · exact .inl (List.countP_pos_iff.2 ⟨g, hg, hgs⟩)
      · rcases List.mem_cons.1 hg with hg | hg
        · exact absurd hg hne
        · exact .inr (List.countP_pos_iff.2 ⟨g, hg, hgs⟩)
    omega
  have hback : ∀ g : TxFrame, (if g.sending = true then
      { g with sending := false, attempts := g.attempts + 1 } else g).frame = g.frame := by
    intro g; split <;> rfl
  have hcount : ∀ o, (o = .obs ∨ o = .pres) → s.line.queue.countP (replacedBy o) ≤ 1 →
      (s.line.queue.map (fun g => if g.sending = true then
        { g with sending := false, attempts := g.attempts + 1 } else g)).countP (replacedBy o) ≤ 1 := by
    intro o ho hle
    rw [List.countP_map]
    by_cases hof : f.owner = o
    · -- no frame of this owner waits, so at most `f` itself counts
      have hz : ∀ g ∈ s.line.queue, replacedBy o g = false := by
        have hany : s.line.queue.any (replacedBy f.owner) = false := by
          rcases ho with rfl | rfl <;> simpa [hasNewer, hof] using hn
        rw [hof] at hany
        intro g hg
        have := List.any_eq_false.1 hany g hg
        simpa using this
      refine Nat.le_trans (List.countP_mono_left (q := TxFrame.sending) fun g hg hr => ?_) h3
      by_contra hns
      simp only [Function.comp_apply, if_neg hns] at hr
      rw [hz g hg] at hr; cases hr
    · refine Nat.le_trans (List.countP_mono_left (q := replacedBy o) fun g hg hr => ?_) hle
      by_cases hgs : g.sending = true
      · have := huniq g hg hgs
        subst this
        simp only [Function.comp_apply, if_pos hgs] at hr
        rcases ho with rfl | rfl <;> cases hgo : g.owner <;> simp_all [replacedBy]
      · simpa only [Function.comp_apply, if_neg hgs] using hr
  refine ⟨by rw [List.length_map]; exact h1, ?_, ?_, hcount _ (.inl rfl) h4, hcount _ (.inr rfl) h5⟩
  · rw [List.pairwise_map]
    refine h2.imp fun {a b} hab => ?_
    rw [hback a, hback b]; exact hab
  · rw [List.countP_map]
    refine Nat.le_trans (Nat.le_of_eq (List.countP_eq_zero.2 fun g _ hr => ?_)) (Nat.zero_le 1)
    simp only [Function.comp_apply] at hr
    split at hr
    · cases hr
    · next h => exact h hr

theorem mismatched_step (s : State) : BlockStep r s (mismatched s) := by
  unfold mismatched
  split
  · exact .refl r s
  · next f hf =>
    have hc := (countRetry_step s).block (r := r)
    dsimp only
    split
    · exact hc.trans (dropSending_step ..)
    · split
      · exact hc.trans ((leaveQueue_step _).trans (mergeClaim_step ..)).block
      · next hn =>
        exact hc.trans (backToWaiting_step (s := countRetry s) (f := f) hf (by simpa using hn)).block

end Sys2Proof.Machine
end

