-- ==== Sys2Proof/Laws/Requests.lean ====
section
/-! SUPPORT. What the Request Handler, the receive path and the wall switches can do (7.2, chapter 8): each operation is a
`BlockStep`; only an accepted RESTART makes a restart pending. -/

namespace Sys2Proof.Machine

variable {r : Prop}

/-! ### Channels judged (R164 to R166) -/

theorem openRequest_frame (c : Channel) (k : Cause) (w : Requester) (n : Nat) (s : State) :
    ChannelFrame (· = c) s (openRequest c k w n s) := by
  unfold openRequest
  split
  · next h =>
    exact ⟨rfl, rfl, rfl, rfl, rfl, rfl, rfl, rfl, rfl, rfl, rfl, rfl, rfl, fun _ _ => rfl,
      fun _ h => h, fun _ => rfl, id, id, fun hs => hs.place (jobOf_none h), id, id, id⟩
  · exact .refl _ s

theorem openChannel_frame (k : Cause) (w : Requester) (c : Channel) (s : State) :
    ChannelFrame (· = c) s (openChannel k w c s).2 := by
  unfold openChannel
  repeat' split
  all_goals first | exact .refl _ s | exact openRequest_frame ..

theorem openChannel_block (k : Cause) (w : Requester) (c : Channel) (s : State) :
    BlockStep r s (openChannel k w c s).2 :=
  ⟨(openChannel_frame k w c s).block,
    fun hj hl hg x => (openChannel_step k w (hl c)).guard hj x (hg x)⟩

theorem judgeEach_step {f : Channel → State → Verdict × State} (hf : ∀ c s, BlockStep r s (f c s).2) :
    ∀ (cs : List Channel) (t : Tally) (s : State), BlockStep r s (judgeEach f cs t s).2
  | [], _, s => .refl r s
  | c :: cs, _, s => (hf c s).trans (judgeEach_step hf cs _ _)

/-! ### Replies and refusals (R161, R162) -/

theorem reply_step (q : Asked) (a : Answer) (b : Bool) (s : State) : QueueStep s (reply q a b s) := by
  unfold reply
  split
  · exact enqueue_step rfl s
  · exact .refl s

theorem answer_step (q : Asked) (a : Answer) (s : State) : QueueStep s (answer q a s) := by
  unfold answer
  dsimp only
  split
  · exact (reply_step ..).trans (recordRefusal_step ..)
  · exact reply_step ..

theorem refuseWhole_step (q : Asked) (n : Byte) (v : Nat) (e : ErrorCode) (s : State) :
    QueueStep s (refuseWhole q n v e s) := answer_step ..

theorem emptyRequest_step (q : Asked) (s : State) : QueueStep s (emptyRequest q s) := raiseError_step ..

/-! ### The hold (R167, R168) -/

theorem setHold_step (ms : Nat) (s : State) : BlockStep r s (setHold ms s) := by
  unfold setHold
  split
  · next left hl =>
    refine quiet_step rfl rfl rfl rfl rfl rfl rfl rfl rfl rfl rfl rfl id rfl fun c h => ?_
    rw [openingAllowed_iff] at h
    rw [hl] at h
    exact absurd h.2.2.2.2.2.1 (by simp)
  · exact BlockFrame.rejudged
      (judged_frame rfl rfl rfl rfl rfl rfl rfl rfl rfl rfl rfl rfl id id)

theorem endHold_step (s : State) : BlockStep r s (endHold s) := by
  unfold endHold
  split
  · exact BlockFrame.rejudged
      (judged_frame rfl rfl rfl rfl rfl rfl rfl rfl rfl rfl rfl rfl id id)
  · exact .refl r s

/-! ### CMD (R160 to R168) -/

theorem channelVerb_step (q : Asked) (n : Byte) (v : Nat) (m : Byte) (s : State)
    {f : Channel → State → Verdict × State} (hf : ∀ c s, BlockStep r s (f c s).2) :
    BlockStep r s (channelVerb q n v m f s) := by
  unfold channelVerb
  exact (judgeEach_step hf _ _ s).trans (answer_step ..).block

theorem verbClose_step (q : Asked) (n m : Byte) (s : State) : BlockStep r s (verbClose q n m s) :=
  channelVerb_step q n 1 m s fun c s => (closeChannel_step _ _ c s).block

theorem verbOpen_step (q : Asked) (n m : Byte) (s : State) : BlockStep r s (verbOpen q n m s) := by
  unfold verbOpen
  split
  · exact channelVerb_step q n 2 m s fun c s => openChannel_block _ _ c s
  · exact (answer_step ..).block

theorem verbStop_step (q : Asked) (n m : Byte) (s : State) : BlockStep r s (verbStop q n m s) := by
  unfold verbStop
  split
  · exact channelVerb_step q n 3 m s fun c s => (stopChannel_step c s).block
  · exact (answer_step ..).block

theorem verbHold_step (q : Asked) (n m : Byte) (s : State) : BlockStep r s (verbHold q n m s) := by
  unfold verbHold
  exact (setHold_step (holdMs m) s).trans (answer_step ..).block

theorem verbUnhold_step (q : Asked) (n : Byte) (s : State) : BlockStep r s (verbUnhold q n s) := by
  unfold verbUnhold
  split
  · exact (endHold_step s).trans (answer_step ..).block
  · exact (refuseWhole_step ..).block

theorem takeCmd_step (q : Asked) (p : List Byte) (s : State) : BlockStep r s (takeCmd q p s) := by
  unfold takeCmd
  split
  · exact (emptyRequest_step q s).block
  · split
    · exact verbClose_step ..
    · exact verbOpen_step ..
    · exact verbStop_step ..
    · exact verbHold_step ..
    · exact verbUnhold_step ..
    · exact (refuseWhole_step ..).block
  · exact (refuseWhole_step ..).block

/-! ### READ, TAKE, CLEAR, RESTART (R169 to R172) -/

theorem takeRead_step (q : Asked) (p : List Byte) (s : State) : QueueStep s (takeRead q p s) := by
  unfold takeRead
  split
  · exact emptyRequest_step q s
  · split
    · exact refuseWhole_step ..
    · split
      · exact refuseWhole_step ..
      · exact answer_step ..
  · exact refuseWhole_step ..

theorem takeTake_step (q : Asked) (p : List Byte) (s : State) : QueueStep s (takeTake q p s) := by
  unfold takeTake
  split
  · exact emptyRequest_step q s
  · split
    · exact refuseWhole_step ..
    · exact (clearFlags_step s).trans (answer_step ..)
  · exact refuseWhole_step ..

theorem takeClear_step (q : Asked) (p : List Byte) (s : State) : QueueStep s (takeClear q p s) := by
  unfold takeClear
  split
  · exact emptyRequest_step q s
  · split
    · exact (clearRecords_step s).trans (answer_step ..)
    · exact refuseWhole_step ..
  · exact refuseWhole_step ..

/-- Only here does a restart become pending, so the law holds where `r` does not. -/
theorem takeRestart_step (hr : ¬ r) (q : Asked) (p : List Byte) (s : State) :
    BlockStep r s (takeRestart q p s) := by
  have hp : BlockStep r s { s with requests := { s.requests with pendingRestart := true } } :=
    ⟨⟨rfl, rfl, rfl, rfl, rfl, fun _ h => h, fun h => absurd h hr, id, id, id, id, id, id, id, id⟩,
      fun _ _ h => h⟩
  unfold takeRestart
  split
  · exact (emptyRequest_step q s).block
  · split
    · exact (refuseWhole_step ..).block
    · split
      · exact (refuseWhole_step ..).block
      · unfold acceptRestart
        dsimp only
        split
        · exact hp.trans ((reply_step ..).trans (wantRestart_step _)).block
        · exact hp.trans (reply_step ..).block
  · exact (refuseWhole_step ..).block

/-! ### Frames heard (R139 to R142) -/

theorem rejectFrame_step (k : ErrorCode) (n : Nat) (s : State) : QueueStep s (rejectFrame k n s) :=
  (countRejected_step s).trans (raiseError_step ..)

theorem dispatch_step (f : Frame) (s : State) (hr : f.kind = .restart → ¬ r) :
    BlockStep r s (dispatch f s) := by
  unfold dispatch
  split
  · exact takeObs_step ..
  · exact (takeClaim_step ..).block
  · exact (takeRelease_step ..).block
  · split
    · exact takeCmd_step ..
    · exact .refl r s
  · split
    · exact (takeRead_step ..).block
    · exact .refl r s
  · split
    · exact (takeTake_step ..).block
    · exact .refl r s
  · split
    · exact (takeClear_step ..).block
    · exact .refl r s
  · next hk =>
    split
    · exact takeRestart_step (hr hk) ..
    · exact .refl r s
  all_goals exact .refl r s

theorem heardPeer_step (s : State) : BlockStep r s (heardPeer s) := by
  unfold heardPeer
  split <;> rename_i hs
  · exact enterLink_step _ _ (fun _ e => by cases e)
  · exact link_step s _ rfl (fun h => ⟨h.1, by simp [hs], h.2.2⟩)
  all_goals exact .refl r s

theorem validFrame_step (f : Frame) (s : State) (hr : f.kind = .restart → ¬ r) :
    BlockStep r s (validFrame f s) := by
  unfold validFrame
  dsimp only
  refine (countReceived_step s).block.trans ?_
  split
  · exact duplicateHeard_step _
  · exact (heardPeer_step _).trans (dispatch_step f _ hr)

theorem frameHeard_step (f : Frame) (s : State) (hr : f.kind = .restart → ¬ r) :
    BlockStep r s (frameHeard f s) := by
  unfold frameHeard
  split
  · exact .refl r s
  · split
    · exact (rejectFrame_step ..).block.trans (setRx_step ..)
    · split
      · exact (rejectFrame_step ..).block.trans (setRx_step ..)
      · exact (setRx_step ..).trans (validFrame_step f _ hr)

/-- A byte may complete a frame of any kind, a RESTART among them. -/
theorem byteHeard_step (hr : ¬ r) (b : Byte) (s : State) : BlockStep r s (byteHeard b s) := by
  unfold byteHeard
  split
  · exact .refl r s
  · unfold byteJudged
    split
    · exact setRx_step ..
    · exact (rejectFrame_step ..).block.trans (setRx_step ..)
    · exact (rejectFrame_step ..).block.trans (setRx_step ..)
    · exact (setRx_step ..).trans (validFrame_step _ _ fun _ => hr)

theorem duplicateFrame_step (s : State) : BlockStep r s (duplicateFrame s) := by
  unfold duplicateFrame
  split
  · exact .refl r s
  · exact (setRx_step .idle s).trans ((countReceived_step _).block.trans (duplicateHeard_step _))

theorem gapExpired_step (s : State) : BlockStep r s (gapExpired s) := by
  unfold gapExpired
  split
  · exact (rejectFrame_step ..).block.trans (setRx_step ..)
  all_goals exact .refl r s

theorem quietResync_step (s : State) : BlockStep r s (quietResync s) := by
  unfold quietResync
  split
  · exact setRx_step ..
  all_goals exact .refl r s

/-! ### Wall switches (8.9) -/

theorem setSwitch_step (w : SwitchId) (x : Switch) (s : State) : BlockStep r s (setSwitch w x s) := by
  cases w <;> exact quiet_step rfl rfl rfl rfl rfl rfl rfl rfl rfl rfl rfl rfl id rfl fun _ h => h

theorem released_step (w : SwitchId) (s : State) : BlockStep r s (released w s) := by
  unfold released
  dsimp only
  split
  · exact setSwitch_step ..
  · exact .refl r s

theorem stopPress_step (s : State) : BlockStep r s (stopPress s) :=
  foldl_rel (BlockStep.refl r) BlockStep.trans (fun s c => by
    split
    · exact (stopChannel_step c s).block
    · exact .refl r s) _ _

theorem recordPress_step (v : Nat) (t : Tally) (s : State) : QueueStep s (recordPress v t s) := by
  unfold recordPress
  split
  · exact recordRefusal_step ..
  · exact .refl s

theorem chirp_step (x : Option Nat) (s : State) : BlockStep r s { s with chirp := x } :=
  quiet_step rfl rfl rfl rfl rfl rfl rfl rfl rfl rfl rfl rfl id rfl fun _ h => h

theorem chirpIf_step (t : Tally) (s : State) : BlockStep r s (chirpIf t s) := by
  unfold chirpIf
  split
  · exact chirp_step ..
  · exact .refl r s

theorem pressClose_step (s : State) : BlockStep r s (pressClose s) :=
  (judgeEach_step (fun c s => (closeChannel_step _ _ c s).block) _ _ s).trans (recordPress_step ..).block

theorem pressOpenChannel_step (c : Channel) (s : State) : BlockStep r s (pressOpenChannel c s).2 := by
  unfold pressOpenChannel
  split
  · exact openChannel_block ..
  · exact .refl r s

theorem pressOpen_step (s : State) : BlockStep r s (pressOpen s) :=
  (judgeEach_step pressOpenChannel_step _ _ s).trans
    ((recordPress_step ..).block.trans (chirpIf_step ..))

theorem pressEffect_step (w : SwitchId) (s : State) : BlockStep r s (pressEffect w s) := by
  unfold pressEffect
  split
  · exact stopPress_step s
  · split
    · exact pressClose_step s
    · exact pressOpen_step s

theorem press_step (w : SwitchId) (s : State) : BlockStep r s (press w s) := by
  unfold press
  dsimp only
  split
  · exact (setSwitch_step ..).trans (pressEffect_step ..)
  · exact .refl r s

/-! ### Motor current and limits (R116, R121, R124) -/

theorem setCurrent_step (c : Channel) (n : Nat) (s : State) : BlockStep r s (setCurrent c n s) :=
  pins_step s _

theorem setLimit_step (c : Channel) (l : Limit) (b : Bool) (s : State) : BlockStep r s (setLimit c l b s) :=
  pins_step s _

theorem currentRisen_step (c : Channel) (n : Nat) (s : State) : BlockStep r s (currentRisen c n s) := by
  unfold currentRisen
  dsimp only
  refine (setCurrent_step c n s).trans ?_
  split
  · exact (takeOvercurrent_step ..).block
  · exact .refl r _

theorem blankingExpired_step (c : Channel) (n : Nat) (s : State) :
    BlockStep r s (blankingExpired c n s) := by
  unfold blankingExpired
  dsimp only
  refine (setCurrent_step c n s).trans ?_
  split
  · next d hd =>
    have h : ChannelStep (· = c) (setCurrent c n s) (setDriver c d (setCurrent c n s)) := by
      rcases unblanked_cases hd with ⟨m, t, b, hs, rfl⟩ | ⟨m, t, b, hs, rfl⟩
      · exact setDriver_step ⟨rfl, rfl, by intro h; cases h⟩ (by rw [hs]; intro h; cases h)
      · exact setDriver_step_opening rfl (by rw [hs]; rfl)
    split
    · exact h.block.trans (takeOvercurrent_step ..).block
    · exact h.block
  · exact .refl r _

theorem limitTaken_step (c : Channel) (l : Limit) (s : State) :
    BlockStep r s (if takesLimits c s then limitActivated c l s else s) := by
  split
  · exact (limitActivated_step ..).block
  · exact .refl r s

theorem limitLeft_step (c : Channel) (l : Limit) (s : State) :
    BlockStep r s (if takesLimits c s then limitDeactivated c l s else s) := by
  split
  · exact (limitDeactivated_step ..).block
  · exact .refl r s

/-! ### Every command but those of a start -/

/-- The commands that may carry an accepted RESTART. -/
def mayRestart : Instr → Bool
  | .restart _ _ | .framePassedOver _ _ _ | .lineByteArrival _ | .rxFrameFault _ => true
  | _ => false

/-- What a command comes to: its effect on a running part with the end of a command after it, or one that touches no
mark. -/
def Comes (r : Prop) (s : State) (o : Host.Outcome State Fault Refusal) : Prop :=
  ∃ u, BlockStep r s u ∧ ((o = .next u ∧ u.work = s.work) ∨ (s.phase = .running ∧ o = .next (finish u)))

theorem whileRunning_comes {f : State → State} {s t : State} (h0 : BlockStep r s t)
    (hw : t.work = s.work) (hf : BlockStep r t (f t)) : Comes r s (.next (whileRunning f t)) := by
  unfold whileRunning isRunning
  split
  · next h =>
    exact ⟨f t, h0.trans hf, .inr ⟨by rw [← h0.phase]; simpa using h, rfl⟩⟩
  · exact ⟨t, h0, .inl ⟨rfl, hw⟩⟩

theorem running_comes {f : State → State} {s : State} (hf : BlockStep r s (f s)) :
    Comes r s (.next (whileRunning f s)) := whileRunning_comes (.refl r s) rfl hf

/-- A command that begins no start, as one `BlockStep`. -/
theorem exec_comes (i : Instr) (s : State) (h1 : i ≠ .coldStart) (h2 : i ≠ .resetAsserted)
    (h3 : ∀ im, i ≠ .loadComplete im) : Comes (mayRestart i = false) s (exec i s) := by
  cases i
  case coldStart => exact absurd rfl h1
  case resetAsserted => exact absurd rfl h2
  case loadComplete im => exact absurd rfl (h3 im)
  case anemometerPulse => exact running_comes (pulse_step s)
  case subWindowExpiry v => exact running_comes (subWindow_step v s)
  case observationPeriodExpiry => exact running_comes (obsPeriod_step s)
  case rainLevelChange l =>
    show Comes _ s (.next _)
    split
    · exact ⟨s, .refl _ s, .inl ⟨rfl, rfl⟩⟩
    · exact whileRunning_comes (pins_step s _) rfl (rainLevel_step l _)
  case rainConfirmExpiry => exact running_comes (rainConfirmed_step s)
  case sourceStale k => exact running_comes (sourceStale_step k s)
  case sourceLost k => exact running_comes (sourceLost_step k s)
  case stormReleaseExpiry =>
    refine running_comes (f := fun s => if s.eval.stormRelease.isSome then stormReleased s else s) ?_
    split
    · exact stormReleased_step s
    · exact .refl _ s
  case calmHoldExpiry c => exact running_comes (calmExpired_step c s)
  case ownSettleExpiry c => exact running_comes (ownSettled_step c s).block
  case claimRefreshDue c => exact running_comes (claimRefresh_step c s).block
  case peerSettleExpiry n t => exact running_comes (peerSettled_step n t s).block
  case claimExpired n t => exact running_comes (claimLapsed_step n t s).block
  case tableFullExpiry => exact running_comes (tableFullExpired_step s).block
  case warningTimerExpiry c => exact running_comes (warningExpired_step c s).block
  case blankingExpiry c n => exact running_comes (blankingExpired_step c n s)
  case overcurrent c n => exact running_comes (currentRisen_step c n s)
  case backoffExpiry c => exact running_comes (backoffExpired_step c s).block
  case retryTimerExpiry c => exact running_comes (retryExpired_step c s).block
  case brakeExpiry c => exact running_comes (brakeExpired_step c s).block
  case travelTimerExpiry c => exact running_comes (travelExpired_step c s).block
  case limitActive c l =>
    show Comes _ s (.next _)
    split
    · exact ⟨s, .refl _ s, .inl ⟨rfl, rfl⟩⟩
    · exact whileRunning_comes (setLimit_step c l true s) rfl (limitTaken_step c l _)
  case limitInactive c l =>
    show Comes _ s (.next _)
    split
    · exact whileRunning_comes (setLimit_step c l false s) rfl (limitLeft_step c l _)
    · exact ⟨s, .refl _ s, .inl ⟨rfl, rfl⟩⟩
  case chirpExpiry => exact running_comes (chirp_step none s)
  case obsReceived h p => exact running_comes (frameHeard_step _ s fun e => by cases e)
  case presReceived h p => exact running_comes (frameHeard_step _ s fun e => by cases e)
  case claimReceived h p => exact running_comes (frameHeard_step _ s fun e => by cases e)
  case releaseReceived h p => exact running_comes (frameHeard_step _ s fun e => by cases e)
  case replyReceived h p => exact running_comes (frameHeard_step _ s fun e => by cases e)
  case duplicateReceived => exact running_comes (duplicateFrame_step s)
  case rxFrameFault b => exact running_comes (byteHeard_step (by simp [mayRestart]) b s)
  case rxGapExpiry => exact running_comes (gapExpired_step s)
  case cmdClose h p => exact running_comes (frameHeard_step _ s fun e => by cases e)
  case cmdOpen h p => exact running_comes (frameHeard_step _ s fun e => by cases e)
  case cmdStop h p => exact running_comes (frameHeard_step _ s fun e => by cases e)
  case cmdHold h p => exact running_comes (frameHeard_step _ s fun e => by cases e)
  case cmdUnhold h p => exact running_comes (frameHeard_step _ s fun e => by cases e)
  case cmdBadVerb h p => exact running_comes (frameHeard_step _ s fun e => by cases e)
  case read h p => exact running_comes (frameHeard_step _ s fun e => by cases e)
  case take h p => exact running_comes (frameHeard_step _ s fun e => by cases e)
  case clear h p => exact running_comes (frameHeard_step _ s fun e => by cases e)
  case restart h p => exact running_comes (frameHeard_step _ s fun _ => by simp [mayRestart])
  case holdExpiry => exact running_comes (endHold_step s)
  case switchInputChange w a =>
    show Comes _ s (.next _)
    split
    · exact ⟨s, .refl _ s, .inl ⟨rfl, rfl⟩⟩
    · exact whileRunning_comes (setSwitch_step ..) (by cases w <;> rfl) (setSwitch_step ..)
  case switchReleaseDebounce w => exact running_comes (released_step w s)
  case swClosePress => exact running_comes (press_step .swClose s)
  case swOpenPress => exact running_comes (press_step .swOpen s)
  case deferralSlot n => exact running_comes (slotReached_step n s)
  case transmitComplete => exact running_comes (transmitted_step s)
  case echoMismatch => exact running_comes (mismatched_step s)
  case joinTimerExpiry => exact running_comes (joined_step s)
  case isolationTimerExpiry => exact running_comes (isolationExpired_step s)
  case presenceTimerExpiry => exact running_comes (presenceExpired_step s)
  case framePassedOver k h p => exact running_comes (frameHeard_step _ s fun _ => by simp [mayRestart])
  case lineByteArrival b => exact running_comes (byteHeard_step (by simp [mayRestart]) b s)
  case rxQuietResync => exact running_comes (quietResync_step s)

end Sys2Proof.Machine
end

