-- ==== Sys2Proof/Laws/Start.lean ====
section
/-! SUPPORT. What a start, the end of a command and a tick can do (chapter 10, log 2, log 12). -/

namespace Sys2Proof.Machine

/-! ### The end of a command (R68, R172) -/

theorem finish_cases (s : State) :
    (finish s = runScans 16 s ∧ (runScans 16 s).work.restart = false)
      ∨ finish s = warmRestart (runScans 16 s) := by
  unfold finish
  dsimp only
  split
  · exact .inr rfl
  · next h => exact .inl ⟨rfl, by simpa using h⟩

/-- No mark is left at the end of a command. -/
theorem finish_marks (s : State) : MarksClear (finish s) := by
  rcases finish_cases s with ⟨h, hr⟩ | h
  · rw [h]; exact ⟨runScans_scan 16 s, hr⟩
  · rw [h]; exact ⟨rfl, rfl⟩

/-- Where no restart is called for, the end of a command is its scans. -/
theorem finish_step {s : State} (h : s.requests.pendingRestart = false) (hr : s.work.restart = false) :
    QueueStep s (finish s) := by
  have hs := runScans_step 16 s
  have hw : (runScans 16 s).work.restart = false := (hs.restart h).trans hr
  have : finish s = runScans 16 s := by unfold finish; simp [hw]
  rw [this]; exact hs

/-- Where nothing is called for, the end of a command changes nothing. -/
theorem finish_quiet {s : State} (h1 : s.work.scan = false) (h2 : s.work.restart = false) :
    finish s = s := by
  have hs : runScans 16 s = s := by simp [runScans, h1]
  unfold finish
  simp [hs, h2]

theorem whileRunning_quiet {f : State → State} {s : State} (h : s.phase = .running)
    (h1 : (f s).work.scan = false) (h2 : (f s).work.restart = false) : whileRunning f s = f s := by
  unfold whileRunning isRunning
  simp [h, finish_quiet h1 h2]

theorem whileRunning_running {f : State → State} {s : State} (h : s.phase = .running) :
    whileRunning f s = finish (f s) := by
  unfold whileRunning isRunning
  simp [h]

theorem whileRunning_away {f : State → State} {s : State} (h : s.phase ≠ .running) :
    whileRunning f s = s := by
  unfold whileRunning isRunning
  simp [h]

/-! ### The completion of a load (R189, R190) -/

/-- From `s` to `t` only jobs, claims, queued frames, records, marks, free values taken and the states of the channels in
`p` have changed, and the properties of each part are kept. -/
structure LoadFrame (p : Channel → Prop) (s t : State) : Prop where
  pending : t.pending = s.pending
  phase : t.phase = s.phase
  loader : t.loader = s.loader
  cfg : t.cfg = s.cfg
  pins : t.pins = s.pins
  sensing : t.sensing = s.sensing
  picture : t.picture = s.picture
  eval : t.eval = s.eval
  rx : t.line.rx = s.line.rx
  link : t.link = s.link
  requests : t.requests = s.requests
  others : ∀ c, ¬ p c → t.drivers.get c = s.drivers.get c
  restart : s.requests.pendingRestart = false → t.work.restart = s.work.restart
  tx : TxOrdered s.line.queue → TxOrdered t.line.queue
  records : RecordsBounded s.status → RecordsBounded t.status
  jobs : JobsOrdered s.jobs → JobsOrdered t.jobs
  table : TableBounded s → TableBounded t
  own : OwnEntriesCarry s → OwnEntriesCarry t
  budget : WithinBudget s → WithinBudget t

theorem LoadFrame.refl (p : Channel → Prop) (s : State) : LoadFrame p s s :=
  ⟨rfl, rfl, rfl, rfl, rfl, rfl, rfl, rfl, rfl, rfl, rfl, fun _ _ => rfl, fun _ => rfl,
    id, id, id, id, id, id⟩

theorem LoadFrame.trans {p : Channel → Prop} {a b c : State} (h : LoadFrame p a b)
    (k : LoadFrame p b c) : LoadFrame p a c :=
  ⟨k.pending.trans h.pending, k.phase.trans h.phase, k.loader.trans h.loader, k.cfg.trans h.cfg,
    k.pins.trans h.pins, k.sensing.trans h.sensing, k.picture.trans h.picture, k.eval.trans h.eval,
    k.rx.trans h.rx, k.link.trans h.link, k.requests.trans h.requests,
    fun x hx => (k.others x hx).trans (h.others x hx),
    fun hp => (k.restart (by rw [h.requests]; exact hp)).trans (h.restart hp),
    k.tx ∘ h.tx, k.records ∘ h.records, k.jobs ∘ h.jobs, k.table ∘ h.table, k.own ∘ h.own,
    k.budget ∘ h.budget⟩

theorem LoadFrame.mono {p q : Channel → Prop} {s t : State} (h : LoadFrame p s t)
    (hpq : ∀ c, p c → q c) : LoadFrame q s t :=
  { h with others := fun c hc => h.others c (fun hp => hc (hpq c hp)) }

theorem ChannelFrame.load {p : Channel → Prop} {s t : State} (h : ChannelFrame p s t) : LoadFrame p s t :=
  ⟨h.pending, h.phase, h.loader, h.cfg, h.pins, h.sensing, h.picture, h.eval, h.rx, h.link,
    h.requests, h.others, h.restart, h.tx, h.records, h.jobs, h.table, h.own, h.budget⟩

theorem setDriver_load (c : Channel) (d : Driver) (s : State) : LoadFrame (· = c) s (setDriver c d s) :=
  ⟨rfl, rfl, rfl, rfl, rfl, rfl, rfl, rfl, rfl, rfl, rfl, fun _ hx => setDriver_get_ne s d hx,
    fun _ => rfl, id, id, id, id, id, id⟩

theorem coldChannel_load (s : State) (c : Channel) : LoadFrame (· = c) s (coldChannel s c) := by
  unfold coldChannel
  split
  · exact setDriver_load ..
  · split
    · exact LoadFrame.trans (b := { s with free := s.free + 1 })
        ⟨rfl, rfl, rfl, rfl, rfl, rfl, rfl, rfl, rfl, rfl, rfl, fun _ _ => rfl,
          fun _ => rfl, id, id, id, id, id, id⟩
        ((setDriver_load ..).trans (faultRaised_step ..).channel.toChannelFrame.load)
    · exact setDriver_load ..

theorem warmChannel_load (s : State) (c : Channel) : LoadFrame (· = c) s (warmChannel s c) := by
  have hl := (limitFault_step c s).toChannelFrame.load
  unfold warmChannel
  split
  · exact setDriver_load ..
  · split
    · exact coldChannel_load ..
    · split
      · exact hl
      · exact setDriver_load ..
    all_goals
      split
      · exact hl
      · exact .refl _ s

/-- After its setting, a channel that is not DISABLED is enabled. -/
theorem coldChannel_live (s : State) (c : Channel) (h : (coldChannel s c).drivers.get c ≠ .disabled) :
    (chanCfg c s).enabled = true := by
  unfold coldChannel at h
  split at h
  · rw [setDriver_get_same] at h; exact absurd rfl h
  · next he => simpa using he

theorem warmChannel_live (s : State) (c : Channel) (h : (warmChannel s c).drivers.get c ≠ .disabled) :
    (chanCfg c s).enabled = true := by
  unfold warmChannel at h
  split at h
  · rw [setDriver_get_same] at h; exact absurd rfl h
  · next he => simpa using he

theorem setChannel_fold {f : State → Channel → State} (hf : ∀ s c, LoadFrame (· = c) s (f s c))
    (hl : ∀ s c, (f s c).drivers.get c ≠ .disabled → (chanCfg c s).enabled = true) :
    ∀ (l : List Channel) (s : State), ∀ c ∈ l, (l.foldl f s).drivers.get c ≠ .disabled →
      (chanCfg c s).enabled = true
  | [], _, _, h => by cases h
  | x :: l, s, c, hc => by
    intro hd
    have hx := hf s x
    by_cases hin : c ∈ l
    · have := setChannel_fold hf hl l (f s x) c hin hd
      unfold chanCfg at *
      rw [hx.cfg] at this; exact this
    · rcases List.mem_cons.1 hc with rfl | h
      · have hrest : LoadFrame (· ∈ l) (f s c) (l.foldl f (f s c)) := by
          clear hd hc
          have : ∀ (m : List Channel) (t : State), (∀ y ∈ m, y ∈ l) → LoadFrame (· ∈ l) t (m.foldl f t) := by
            intro m
            induction m with
            | nil => intro t _; exact .refl _ t
            | cons y m ih =>
              intro t hm
              exact ((hf t y).mono (fun z hz => by rw [hz]; exact hm y (List.mem_cons_self ..))).trans
                (ih _ (fun z hz => hm z (List.mem_cons_of_mem _ hz)))
          exact this l _ (fun _ h => h)
        rw [List.foldl_cons, hrest.others c hin] at hd
        exact hl s c hd
      · exact absurd h hin

/-- The state a load completes in, before the link leaves OFFLINE (R189, step 3). -/
def loadedBase (warm : Bool) (answered : List Byte) (s : State) : State :=
  let im := imageCopy answered
  let l := judgeImage im
  let s := raiseTimes .configClamped l.events (settle im l s)
  let s := { s with
    sensing := sensingAtStart s.cfg s.pins.rain
    picture := { slots := filledSlots s.cfg, fused := Picture.unknown } }
  let s := allChannels.foldl (if warm then warmChannel else coldChannel) s
  { s with
    requests := { s.requests with
      swClose := switchAtLoad s.requests.swClose, swOpen := switchAtLoad s.requests.swOpen } }

theorem completeLoad_eq (warm : Bool) (im : List Byte) (s : State) :
    completeLoad warm im s = enterLink (linkAtLoad (loadedBase warm im s)) (loadedBase warm im s) := rfl

theorem raiseTimes_step (e : Event) : ∀ (n : Nat) (s : State), QueueStep s (raiseTimes e n s)
  | 0, s => .refl s
  | n + 1, s => (raiseEvent_step e s).trans (raiseTimes_step e n _)

/-- R81, R186: the isolated share that a load settles is within its budget. -/
theorem judgeImage_iso (im : List Byte) :
    (judgeImage im).settings.isoShare ≤ (judgeImage im).settings.budget := by
  unfold judgeImage
  split
  · exact Nat.min_le_right ..
  · exact Nat.zero_le _

/-- R25, R32: the slots a load fills hold no observation, and their picture is UNKNOWN. -/
theorem fuse_filled (k : Settings) : fuse (filledSlots k) = Picture.unknown := by
  have h : ∀ n : Nat, ∀ b : Bool, ∀ x : Option (Nat × Nat),
      bestGust x { station := n, isSelf := b, entry := .absent } = x := fun _ _ x => rfl
  simp [fuse, strongest, filledSlots, Eight.map, Eight.toList, h, fuseRain, rainOf, heldObs,
    Picture.unknown]

/-- What the state a load completes in keeps of the state before it. -/
structure LoadKeeps (im : List Byte) (s t : State) : Prop where
  pending : t.pending = s.pending
  phase : t.phase = .running
  cfg : t.cfg = (judgeImage (imageCopy im)).settings
  loader : t.loader = { image := imageCopy im, result := some (judgeImage (imageCopy im)).result
                        clamps := (judgeImage (imageCopy im)).clamps }
  pins : t.pins = s.pins
  sensing : t.sensing = sensingAtStart t.cfg s.pins.rain
  slots : t.picture = { slots := filledSlots t.cfg, fused := Picture.unknown }
  eval : t.eval = s.eval
  rx : t.line.rx = s.line.rx
  link : t.link = s.link
  hold : t.requests.hold = s.requests.hold
  pendingRestart : t.requests.pendingRestart = s.requests.pendingRestart
  live : LiveEnabled t
  restart : s.requests.pendingRestart = false → t.work.restart = s.work.restart
  tx : TxOrdered s.line.queue → TxOrdered t.line.queue
  records : RecordsBounded s.status → RecordsBounded t.status
  jobs : JobsOrdered s.jobs → JobsOrdered t.jobs
  table : TableBounded s → TableBounded t
  own : s.supply.entries = [] → OwnEntriesCarry t
  budget : s.supply.entries = [] → WithinBudget t

theorem loadedBase_keeps (warm : Bool) (im : List Byte) (s : State) :
    LoadKeeps im s (loadedBase warm im s) := by
  let l := judgeImage (imageCopy im)
  let a := settle (imageCopy im) l s
  let b := raiseTimes .configClamped l.events a
  let c : State := { b with
    sensing := sensingAtStart b.cfg b.pins.rain
    picture := { slots := filledSlots b.cfg, fused := Picture.unknown } }
  let d := allChannels.foldl (if warm then warmChannel else coldChannel) c
  have hb : QueueStep a b := raiseTimes_step ..
  have hf : ∀ s c, LoadFrame (· = c) s ((if warm then warmChannel else coldChannel) s c) := by
    intro s c; split
    · exact warmChannel_load ..
    · exact coldChannel_load ..
  have hlive : ∀ s c, ((if warm then warmChannel else coldChannel) s c).drivers.get c ≠ .disabled →
      (chanCfg c s).enabled = true := by
    intro s c; split
    · exact warmChannel_live s c
    · exact coldChannel_live s c
  have hd : LoadFrame (fun _ => True) c d :=
    foldl_rel (LoadFrame.refl _) LoadFrame.trans (fun s c => (hf s c).mono fun _ _ => trivial) _ _
  have hcfg : d.cfg = l.settings := hd.cfg.trans hb.cfg
  have hempty : s.supply.entries = [] → OwnEntriesCarry a := fun he e hm => by
    have hm' : e ∈ s.supply.entries := hm
    rw [he] at hm'; cases hm'
  have hbudget : s.supply.entries = [] → WithinBudget a := fun he => by
    refine ⟨?_, judgeImage_iso _, fun e hm => ?_⟩
    · show drawSum Entry.own s.supply.entries ≤ _
      rw [he]; exact Nat.zero_le _
    · have hm' : e ∈ s.supply.entries := hm
      rw [he] at hm'; cases hm'
  exact
    { pending := hd.pending.trans hb.pending
      phase := hd.phase.trans hb.phase
      cfg := hcfg
      loader := hd.loader.trans hb.loader
      pins := hd.pins.trans hb.pins
      sensing := by
        show d.sensing = sensingAtStart d.cfg s.pins.rain
        rw [hd.sensing, hd.cfg]
        show sensingAtStart b.cfg b.pins.rain = _
        rw [hb.pins]; rfl
      slots := by
        show d.picture = _
        rw [hd.picture]
        show _ = PictureUnit.mk (filledSlots d.cfg) _
        rw [hd.cfg]
      eval := hd.eval.trans hb.eval
      rx := hd.rx.trans hb.rx
      link := hd.link.trans hb.link
      hold := by
        show d.requests.hold = _
        rw [hd.requests]
        show b.requests.hold = _
        rw [hb.requests]; rfl
      pendingRestart := by
        show d.requests.pendingRestart = _
        rw [hd.requests]
        show b.requests.pendingRestart = _
        rw [hb.requests]; rfl
      live := fun x hx => by
        have := setChannel_fold hf hlive allChannels c x (mem_allChannels x) hx
        show (d.cfg.channels.get x).enabled = true
        rw [hd.cfg]; exact this
      restart := fun hp => by
        have h1 : b.work.restart = a.work.restart := hb.restart hp
        have h2 : d.work.restart = c.work.restart := hd.restart (by
          show b.requests.pendingRestart = false
          rw [hb.requests]; exact hp)
        exact h2.trans h1
      tx := fun h => hd.tx (hb.tx h)
      records := fun h => hd.records (hb.records h)
      jobs := fun h => hd.jobs (hb.jobs h)
      table := fun h => hd.table (hb.table h)
      own := fun he => hd.own (hb.own (hempty he))
      budget := fun he => hd.budget (hb.budget (hbudget he)) }

/-- R150: the link state a load completes in is LISTEN or MUTE. -/
theorem linkAtLoad_cases (s : State) : linkAtLoad s = .mute ∨ linkAtLoad s = .listen := by
  unfold linkAtLoad
  split
  · exact .inl rfl
  · exact .inr rfl

/-- The link's entry that ends a load. -/
theorem loadEntry_step {r : Prop} (t : State) : BlockStep r t (enterLink (linkAtLoad t) t) :=
  enterLink_step _ _ fun _ e => by
    rcases linkAtLoad_cases t with h | h <;> rw [h] at e <;> cases e

/-- After an entry of the link every channel's opening is guarded. -/
theorem enterLink_guarded {s : State} (new : LinkState) (h : JobsOrdered s.jobs) (c : Channel) :
    OpeningGuarded c (enterLink new s) := by
  unfold enterLink
  dsimp only
  have h1 : JobsOrdered (entryEffect new { s with link := linkEntered s.cfg new s.link }).jobs :=
    (entryEffect_step ..).jobs h
  have h2 := (handOn_step new (entryEffect new { s with link := linkEntered s.cfg new s.link })).jobs h1
  exact ((scanOnEntry_step new _).channel (p := fun _ => True)).guard
    ((rejudgeAll_step _).jobs h2) c (rejudgeAll_guarded h2 c)

/-! ### Ticks (log 2) -/

@[simp] theorem elapse_pending (s : State) : (elapse s).pending = s.pending := rfl
@[simp] theorem elapse_phase (s : State) : (elapse s).phase = s.phase := rfl
@[simp] theorem elapse_loader (s : State) : (elapse s).loader = s.loader := rfl
@[simp] theorem elapse_cfg (s : State) : (elapse s).cfg = s.cfg := rfl
@[simp] theorem elapse_pins (s : State) : (elapse s).pins = s.pins := rfl
@[simp] theorem elapse_jobs (s : State) : (elapse s).jobs = s.jobs := rfl
@[simp] theorem elapse_line (s : State) : (elapse s).line = s.line := rfl
@[simp] theorem elapse_status (s : State) : (elapse s).status = s.status := rfl
@[simp] theorem elapse_work (s : State) : (elapse s).work = s.work := rfl
@[simp] theorem elapse_free (s : State) : (elapse s).free = s.free := rfl
@[simp] theorem elapse_fused (s : State) : (elapse s).picture.fused = s.picture.fused := rfl
@[simp] theorem elapse_storm (s : State) : (elapse s).eval.storm = s.eval.storm := rfl
@[simp] theorem elapse_linkState (s : State) : (elapse s).link.state = s.link.state := rfl
@[simp] theorem elapse_entries (s : State) :
    (elapse s).supply.entries = s.supply.entries.map tickedEntry := rfl
@[simp] theorem elapse_driver (c : Channel) (s : State) :
    (elapse s).drivers.get c = tickedDriver (s.drivers.get c) := Eight.get_map ..
@[simp] theorem elapse_slot (k : SlotId) (s : State) : (elapse s).picture.slots.get k =
    { s.picture.slots.get k with entry := agedSource (s.picture.slots.get k).entry } := Eight.get_map ..

@[simp] theorem ticked_isSome (t : Option Nat) : (ticked t).isSome = t.isSome := by cases t <;> rfl

theorem tickedDriver_disabled (d : Driver) : tickedDriver d = .disabled ↔ d = .disabled := by
  cases d <;> simp [tickedDriver]

@[simp] theorem inMotion_ticked (d : Driver) : inMotion (tickedDriver d) = inMotion d := by
  cases d <;> rfl

@[simp] theorem isOpening_ticked (d : Driver) : isOpening (tickedDriver d) = isOpening d := by
  cases d <;> rfl

@[simp] theorem isFaulted_ticked (d : Driver) : isFaulted (tickedDriver d) = isFaulted d := by
  cases d <;> rfl

theorem bestGust_aged (b : Option (Nat × Nat)) (x : Slot) :
    bestGust b { x with entry := agedSource x.entry } = bestGust b x := by
  unfold bestGust; cases x.entry <;> rfl

theorem rainOf_aged (x : Slot) : rainOf { x with entry := agedSource x.entry } = rainOf x := by
  unfold rainOf; cases x.entry <;> rfl

/-- Ages play no part in the fusion (R26 to R28). -/
theorem fuse_aged (v : Eight Slot) :
    fuse (v.map fun x => { x with entry := agedSource x.entry }) = fuse v := by
  have hl : (v.map fun x : Slot => { x with entry := agedSource x.entry }).toList
      = v.toList.map fun x => { x with entry := agedSource x.entry } := rfl
  unfold fuse strongest fuseRain
  simp only [hl, List.foldl_map, List.filterMap_map, bestGust_aged, Function.comp_def, rainOf_aged]

/-- A tick keeps every channel's opening guarded (R51, R65). -/
theorem elapse_guarded {s : State} {c : Channel} (hg : OpeningGuarded c s) : OpeningGuarded c (elapse s) := by
  intro ho
  have ho' : Opens c s := by
    rcases ho with ho | ho
    · left; rwa [elapse_driver, isOpening_ticked] at ho
    · exact .inr ho
  have := openingAllowed_iff.1 (hg ho')
  refine openingAllowed_iff.2 ⟨this.1, ?_, ?_, ?_, this.2.2.2.2.1, ?_, this.2.2.2.2.2.2⟩
  · rw [elapse_driver, isFaulted_ticked]; exact this.2.1
  · rw [elapse_driver]; intro e; exact this.2.2.1 ((tickedDriver_disabled _).1 e)
  · have hd := this.2.2.2.1
    unfold demandSet at *
    simp only [elapse, Eight.get_map]
    exact hd
  · have hh := this.2.2.2.2.2.1
    simp only [elapse, ticked_isSome]
    exact hh

/-- What a tick keeps. -/
theorem elapse_step {r : Prop} (s : State) : BlockStep r s (elapse s) := by
  have hent : ∀ e : Entry, (tickedEntry e).own = e.own ∧ (tickedEntry e).station = e.station
      ∧ (tickedEntry e).chan = e.chan ∧ (tickedEntry e).draw = e.draw
      ∧ (tickedEntry e).lifetimeS = e.lifetimeS ∧ (e.state ≠ .yielding → (tickedEntry e).state ≠ .yielding) := by
    intro e
    refine ⟨rfl, rfl, rfl, rfl, rfl, fun h => ?_⟩
    unfold tickedEntry
    cases hs : e.state <;> simp_all
  refine ⟨⟨rfl, rfl, rfl, rfl, rfl, fun c hc e => hc ?_, fun _ h => ⟨h, rfl⟩, id, id, id, fun h => ?_,
    fun h e he ho => ?_, fun h => ⟨?_, h.2.1, fun e he ho => ?_⟩, fun h => ?_, fun h => ?_⟩,
    fun _ _ hg c ho => ?_⟩
  · rw [elapse_driver, tickedDriver_disabled]; exact e
  · show (s.supply.entries.map tickedEntry).length ≤ _
    rw [List.length_map]; exact h
  · obtain ⟨x, hx, rfl⟩ := List.mem_map.1 he
    obtain ⟨h1, h2, h3, h4, h5, h6⟩ := hent x
    rw [h1] at ho
    obtain ⟨k1, k2, k3, k4⟩ := h x hx ho
    exact ⟨h2.trans k1, h4.trans k2, h5.trans k3, h6 k4⟩
  · show drawSum Entry.own (s.supply.entries.map tickedEntry) ≤ _
    rw [drawSum_map _ fun e _ => ⟨(hent e).1, fun _ => (hent e).2.2.2.1⟩]
    exact h.1
  · obtain ⟨x, hx, rfl⟩ := List.mem_map.1 he
    obtain ⟨h1, _, _, _, _, h6⟩ := hent x
    rw [h1] at ho
    exact h6 (h.2.2 x hx ho)
  · unfold LinkTimersFit at *
    simp only [elapse, ticked_isSome]
    exact h
  · show s.picture.fused = _
    rw [h]
    exact (fuse_aged _).symm
  · exact elapse_guarded (hg c) ho

end Sys2Proof.Machine
end

