-- ==== Sys2Proof/Laws/Claims.lean ====
section
/-! SUPPORT. How the jobs, the own entries and the motion of a channel fit together (R79): `Mild` says of an operation on
jobs, claims and frames that it keeps a channel fitted, `Keeps` of an operation on channels that it keeps them all. -/

namespace Sys2Proof.Machine

/-- The states of the jobs of a channel. -/
def jobStates (c : Channel) (s : State) : List JobState := (jobsOf c s).map Job.state

/-- The states of the own entries of a channel. -/
def ownStates (c : Channel) (s : State) : List ClaimState := (ownOf c s).map Entry.state

/-- `ClaimFits`, case by case. -/
inductive Fit : Bool → List JobState → List ClaimState → Prop
  | moving : Fit true [] [.held]
  | rest : Fit false [] []
  | waiting : Fit false [.waiting] []
  | announcing : Fit false [.announcing] [.announcing]
  | settling (n : Nat) : Fit false [.settling] [.settling n]

theorem Fit.lengths {m : Bool} {a : List JobState} {o : List ClaimState} (h : Fit m a o) :
    a.length ≤ 1 ∧ o.length ≤ 1 := by cases h <;> simp

theorem Fit.of_announcing {m : Bool} {a : List JobState} (h : Fit m a [.announcing]) :
    a = [.announcing] ∧ m = false := by cases h; exact ⟨rfl, rfl⟩

theorem Fit.of_moving {a : List JobState} {o : List ClaimState} (h : Fit true a o) :
    a = [] ∧ o = [.held] := by cases h; exact ⟨rfl, rfl⟩

theorem Fit.of_job {m : Bool} {k : JobState} {o : List ClaimState} (h : Fit m [k] o) :
    m = false ∧ (k = .waiting ∧ o = [] ∨ k = .announcing ∧ o = [.announcing]
      ∨ ∃ n, k = .settling ∧ o = [.settling n]) := by
  cases h
  · exact ⟨rfl, .inl ⟨rfl, rfl⟩⟩
  · exact ⟨rfl, .inr (.inl ⟨rfl, rfl⟩)⟩
  · exact ⟨rfl, .inr (.inr ⟨_, rfl, rfl⟩)⟩

theorem Fit.of_jobless {a : List JobState} {o : List ClaimState} (h : Fit false a o) (ha : a = []) :
    o = [] := by cases h <;> first | rfl | cases ha

theorem Fit.of_settling {m : Bool} {a : List JobState} {n : Nat} (h : Fit m a [.settling n]) :
    a = [.settling] ∧ m = false := by cases h; exact ⟨rfl, rfl⟩

theorem Fit.of_held {m : Bool} {a : List JobState} (h : Fit m a [.held]) : a = [] ∧ m = true := by
  cases h; exact ⟨rfl, rfl⟩

/-- Lists of one element at most have no other order. -/
theorem Fit.perm {m : Bool} {a b : List JobState} {o : List ClaimState} (h : Fit m a o) (hp : b.Perm a) :
    Fit m b o := by
  have : b = a := by
    cases h
    case moving | rest => exact List.perm_nil.1 hp
    all_goals exact List.perm_singleton.1 hp
  rw [this]; exact h

theorem claimFits_iff {c : Channel} {s : State} :
    ClaimFits c s ↔ Fit (inMotion (s.drivers.get c)) (jobStates c s) (ownStates c s) := by
  unfold ClaimFits jobStates ownStates
  generalize inMotion (s.drivers.get c) = m
  generalize jobsOf c s = js
  generalize ownOf c s = es
  constructor
  · intro h
    split at h
    · next hm =>
      obtain ⟨rfl, e, rfl, he⟩ := h
      simp only [hm, List.map_nil, List.map_cons, he]; exact .moving
    · next hm =>
      rw [Bool.not_eq_true] at hm
      rw [hm]
      rcases h with ⟨rfl, rfl | ⟨j, rfl, hj⟩⟩ | ⟨j, e, rfl, rfl, ⟨hj, he⟩ | ⟨hj, he⟩⟩
      · exact .rest
      · simp only [List.map_nil, List.map_cons, hj]; exact .waiting
      · simp only [List.map_nil, List.map_cons, hj, he]; exact .announcing
      · simp only [List.map_nil, List.map_cons, hj]
        cases hs : e.state <;> simp [isSettling, hs] at he
        exact .settling _
  · intro h
    generalize hjs : js.map Job.state = a at h
    generalize hes : es.map Entry.state = b at h
    cases h
    case moving =>
      obtain rfl := List.map_eq_nil_iff.1 hjs
      obtain ⟨e, rfl, he⟩ := List.map_eq_singleton_iff.1 hes
      exact ⟨rfl, e, rfl, he⟩
    case rest =>
      obtain rfl := List.map_eq_nil_iff.1 hjs
      obtain rfl := List.map_eq_nil_iff.1 hes
      exact .inl ⟨rfl, .inl rfl⟩
    case waiting =>
      obtain ⟨j, rfl, hj⟩ := List.map_eq_singleton_iff.1 hjs
      obtain rfl := List.map_eq_nil_iff.1 hes
      exact .inl ⟨rfl, .inr ⟨j, rfl, hj⟩⟩
    case announcing =>
      obtain ⟨j, rfl, hj⟩ := List.map_eq_singleton_iff.1 hjs
      obtain ⟨e, rfl, he⟩ := List.map_eq_singleton_iff.1 hes
      exact .inr ⟨j, e, rfl, rfl, .inl ⟨hj, he⟩⟩
    case settling n =>
      obtain ⟨j, rfl, hj⟩ := List.map_eq_singleton_iff.1 hjs
      obtain ⟨e, rfl, he⟩ := List.map_eq_singleton_iff.1 hes
      exact .inr ⟨j, e, rfl, rfl, .inr ⟨hj, by simp [isSettling, he]⟩⟩

/-- From `s` to `t` the claims and jobs of a channel stay fitted, and where it has no own entry, its jobs keep their
states and it gets none. -/
structure Mild (x : Channel) (s t : State) : Prop where
  fits : ClaimFits x s → ClaimFits x t
  bare : ownStates x s = [] → ownStates x t = [] ∧ jobStates x t = jobStates x s
  driver : t.drivers.get x = s.drivers.get x

theorem Mild.refl (x : Channel) (s : State) : Mild x s s := ⟨id, fun h => ⟨h, rfl⟩, rfl⟩

theorem Mild.trans {x : Channel} {a b c : State} (h : Mild x a b) (k : Mild x b c) : Mild x a c :=
  ⟨k.fits ∘ h.fits, fun e =>
    ⟨(k.bare (h.bare e).1).1, (k.bare (h.bare e).1).2.trans (h.bare e).2⟩, k.driver.trans h.driver⟩

/-- A change that jobs, own entries and motion do not see. -/
theorem mild_of_view {x : Channel} {s t : State} (hd : t.drivers.get x = s.drivers.get x)
    (hj : jobStates x t = jobStates x s) (ho : ownStates x t = ownStates x s) : Mild x s t :=
  ⟨fun h => by rw [claimFits_iff] at *; rw [hd, hj, ho]; exact h, fun h => ⟨ho.trans h, hj⟩, hd⟩

/-- A change that leaves jobs, entries and drivers alone. -/
theorem mild_same {x : Channel} {s t : State} (hd : t.drivers = s.drivers) (hj : t.jobs = s.jobs)
    (ho : t.supply.entries = s.supply.entries) : Mild x s t :=
  mild_of_view (by rw [hd]) (by unfold jobStates jobsOf; rw [hj]) (by unfold ownStates ownOf; rw [ho])

/-- A change that jobs, entries and drivers do not see comes first. -/
theorem Mild.after {x : Channel} {s t u : State} (h : Mild x t u) (hd : t.drivers = s.drivers)
    (hj : t.jobs = s.jobs) (ho : t.supply.entries = s.supply.entries) : Mild x s u :=
  (mild_same hd hj ho).trans h

variable {x : Channel}

theorem raiseEvent_mild (e : Event) (s : State) : Mild x s (raiseEvent e s) := mild_same rfl rfl rfl
theorem raiseError_mild (e : Event) (k : ErrorCode) (n : Nat) (s : State) :
    Mild x s (raiseError e k n s) := mild_same rfl rfl rfl
theorem recordRefusal_mild (v : Nat) (w : Requester) (k : ErrorCode) (s : State) :
    Mild x s (recordRefusal v w k s) := mild_same rfl rfl rfl
theorem faultRaised_mild (k : FaultKind) (n : Nat) (s : State) : Mild x s (faultRaised k n s) := by
  cases k <;> exact mild_same rfl rfl rfl
theorem wantScan_mild (s : State) : Mild x s (wantScan s) := mild_same rfl rfl rfl
theorem wantRestart_mild (s : State) : Mild x s (wantRestart s) := by
  unfold wantRestart; split <;> exact mild_same rfl rfl rfl
theorem setQueue_mild (q : List TxFrame) (s : State) : Mild x s (setQueue q s) := mild_same rfl rfl rfl

/-! ### Views of the updates -/

theorem jobStates_map (f : Job → Job) (s : State) (hc : ∀ j, (f j).chan = j.chan) :
    jobStates x (setJobs (s.jobs.map f) s) = (jobsOf x s).map (fun j => (f j).state) := by
  unfold jobStates jobsOf
  show ((s.jobs.map f).filter _).map _ = _
  rw [List.filter_map, List.map_map]
  congr 1
  exact List.filter_congr fun j _ => by simp [hc]

theorem jobsOf_chan {s : State} {j : Job} (h : j ∈ jobsOf x s) : j.chan = x := by
  have := (List.mem_filter.1 h).2
  simpa using this

theorem ownOf_chan {s : State} {e : Entry} (h : e ∈ ownOf x s) : e.own = true ∧ e.chan = x := by
  have := (List.mem_filter.1 h).2
  simpa [isOwnOf] using this

/-- Jobs of one channel changed: the states of the others stand. -/
theorem jobStates_set (c : Channel) (f : Job → Job) (s : State) (hc : ∀ j, (f j).chan = j.chan) :
    jobStates x (setJobs (s.jobs.map (fun j => if j.chan = c then f j else j)) s)
      = if x = c then (jobsOf x s).map (fun j => (f j).state) else jobStates x s := by
  rw [jobStates_map _ _ (fun j => by split <;> simp [hc])]
  split
  · next h =>
    refine List.map_congr_left fun j hj => ?_
    rw [if_pos (by rw [jobsOf_chan hj, h])]
  · next h =>
    refine List.map_congr_left fun j hj => ?_
    rw [if_neg (by rw [jobsOf_chan hj]; exact h)]

theorem ownStates_change (p : Entry → Bool) (f : Entry → Entry) (s : State)
    (h : ∀ e, p e = true → (f e).own = e.own ∧ (e.own = true → (f e).chan = e.chan)) :
    ownStates x (changeEntries p f s) = (ownOf x s).map (fun e => if p e then (f e).state else e.state) := by
  unfold ownStates ownOf
  show ((s.supply.entries.map _).filter _).map _ = _
  rw [List.filter_map, List.map_map]
  have : s.supply.entries.filter (isOwnOf x ∘ fun e => if p e then f e else e)
      = s.supply.entries.filter (isOwnOf x) := by
    refine List.filter_congr fun e _ => ?_
    simp only [Function.comp_apply]
    split
    · next hp =>
      obtain ⟨h1, h2⟩ := h e hp
      unfold isOwnOf
      rw [h1]
      cases ho : e.own
      · rfl
      · rw [h2 ho]
    · rfl
  rw [this]
  exact List.map_congr_left fun e _ => by simp only [Function.comp_apply]; split <;> rfl

/-- A change of entries that leaves the states of own entries alone. -/
theorem changeEntries_mild (p : Entry → Bool) (f : Entry → Entry) (s : State)
    (h : ∀ e, p e = true → (f e).own = e.own
      ∧ (e.own = true → (f e).chan = e.chan ∧ (f e).state = e.state)) :
    Mild x s (changeEntries p f s) := by
  refine mild_of_view rfl rfl ?_
  rw [ownStates_change p f s (fun e hp => ⟨(h e hp).1, fun ho => ((h e hp).2 ho).1⟩)]
  unfold ownStates
  refine List.map_congr_left fun e he => ?_
  split
  · next hp => exact ((h e hp).2 (ownOf_chan he).1).2
  · rfl

theorem ownStates_remove (p : Entry → Bool) (s : State) :
    ownStates x (removeEntries p s) = ((ownOf x s).filter (fun e => !p e)).map Entry.state := by
  unfold ownStates ownOf
  show ((s.supply.entries.filter _).filter _).map _ = _
  rw [List.filter_filter, List.filter_filter]
  congr 2
  funext e
  exact Bool.and_comm ..

theorem removePeers_mild (p : Entry → Bool) (s : State) (h : ∀ e, p e = true → e.own = false) :
    Mild x s (removeEntries p s) := by
  refine mild_of_view rfl rfl ?_
  rw [ownStates_remove]
  unfold ownStates
  congr 1
  rw [List.filter_eq_self]
  intro e he
  have := (ownOf_chan he).1
  cases hp : p e
  · rfl
  · rw [h e hp] at this; cases this

theorem ownStates_removeOwn (c : Channel) (s : State) :
    ownStates x (removeEntries (isOwnOf c) s) = if x = c then [] else ownStates x s := by
  rw [ownStates_remove]
  split
  · next h =>
    rw [List.map_eq_nil_iff, List.filter_eq_nil_iff]
    intro e he
    have := ownOf_chan he
    simp [isOwnOf, this.1, this.2, h]
  · next h =>
    unfold ownStates
    congr 1
    rw [List.filter_eq_self]
    intro e he
    have := ownOf_chan he
    simp [isOwnOf, this.1, this.2, h]

/-! ### Dropped claims -/

theorem ownTagged_mem {tag : Nat} {s : State} {e : Entry} (h : ownTagged tag s = some e) :
    e ∈ ownOf e.chan s := by
  have h1 := List.mem_of_find?_eq_some h
  have h2 := List.find?_some h
  simp only [Bool.and_eq_true] at h2
  exact List.mem_filter.2 ⟨h1, by simp [isOwnOf, h2.1]⟩

/-- In a fitted channel the state of one own entry is that of all. -/
theorem fit_own {s : State} {e : Entry} (hf : ClaimFits x s) (h : e ∈ ownOf x s) :
    ownOf x s = [e] := by
  rw [claimFits_iff] at hf
  have hlen : (ownOf x s).length ≤ 1 := by
    have := hf.lengths.2
    unfold ownStates at this; rwa [List.length_map] at this
  match h' : ownOf x s with
  | [] => rw [h'] at h; cases h
  | [y] => rw [h', List.mem_singleton] at h; rw [h]
  | y :: z :: l => rw [h'] at hlen; simp at hlen

theorem not_bare {s : State} {e : Entry} (h : e ∈ ownOf x s) : ownStates x s ≠ [] := by
  unfold ownStates
  intro hn
  rw [List.map_eq_nil_iff] at hn
  rw [hn] at h; cases h

/-- One channel's claim and job changed together, from a state with an own entry. -/
theorem mild_at {c : Channel} {s t : State} {e : Entry} (he : e ∈ ownOf c s)
    (hd : t.drivers = s.drivers)
    (ho : ∀ x, x ≠ c → jobStates x t = jobStates x s ∧ ownStates x t = ownStates x s)
    (hc : ClaimFits c s → ClaimFits c t) : Mild x s t := by
  by_cases hx : x = c
  · subst hx
    exact ⟨hc, fun hb => absurd hb (not_bare he), by rw [hd]⟩
  · exact mild_of_view (by rw [hd]) (ho x hx).1 (ho x hx).2

/-! ### Frames that leave -/

/-- A frame that leaves changes no job, no channel and no state of an own entry. -/
theorem frameLeft_view (s : State) : (frameLeft s).drivers = s.drivers ∧ (frameLeft s).jobs = s.jobs
    ∧ ownStates x (frameLeft s) = ownStates x s := by
  have h : ownStates x
      (changeEntries Entry.refreshBarred (fun e => { e with refreshBarred := false }) s) = ownStates x s := by
    refine (ownStates_change Entry.refreshBarred (fun e => { e with refreshBarred := false }) s
      fun _ _ => ⟨rfl, fun _ => rfl⟩).trans ?_
    unfold ownStates
    exact List.map_congr_left fun e _ => by split <;> rfl
  unfold frameLeft
  dsimp only
  split <;> exact ⟨rfl, rfl, h⟩

theorem cancelClaim_view (tag : Nat) (s : State) : (cancelClaim tag s).drivers = s.drivers
    ∧ (cancelClaim tag s).jobs = s.jobs ∧ ownStates x (cancelClaim tag s) = ownStates x s := by
  unfold cancelClaim
  split
  · exact frameLeft_view _
  · exact ⟨rfl, rfl, rfl⟩

theorem frameLeft_mild (s : State) : Mild x s (frameLeft s) := by
  obtain ⟨h1, h2, h3⟩ := frameLeft_view (x := x) s
  exact mild_of_view (by rw [h1]) (by unfold jobStates jobsOf; rw [h2]) h3

theorem cancelClaim_mild (tag : Nat) (s : State) : Mild x s (cancelClaim tag s) := by
  obtain ⟨h1, h2, h3⟩ := cancelClaim_view (x := x) tag s
  exact mild_of_view (by rw [h1]) (by unfold jobStates jobsOf; rw [h2]) h3

theorem withdrawOwn_mild {b : Bool} {s : State} {e : Entry} (he : e ∈ ownOf e.chan s)
    (hs : e.state = .announcing) : Mild x s (withdrawOwn e b s) := by
  have hv := fun y => cancelClaim_view (x := y) e.tag (removeEntries (isOwnOf e.chan) s)
  have hd : (withdrawOwn e b s).drivers = s.drivers := (hv e.chan).1
  have hj : ∀ y, jobStates y (withdrawOwn e b s)
      = if y = e.chan then (jobsOf y s).map (fun _ => .waiting) else jobStates y s := fun y => by
    refine (jobStates_set (x := y) e.chan (fun j => { j with state := .waiting, heldBack := b })
      (cancelClaim e.tag (removeEntries (isOwnOf e.chan) s)) (fun _ => rfl)).trans ?_
    unfold jobStates jobsOf
    rw [(hv y).2.1]; rfl
  have ho : ∀ y, ownStates y (withdrawOwn e b s) = if y = e.chan then [] else ownStates y s :=
    fun y => (hv y).2.2.trans (ownStates_removeOwn e.chan s)
  refine mild_at he hd (fun y hy => ⟨by rw [hj, if_neg hy], by rw [ho, if_neg hy]⟩) fun hf => ?_
  have hone := fit_own hf he
  rw [claimFits_iff] at *
  rw [hj, ho, if_pos rfl, if_pos rfl, hd]
  have hos : ownStates e.chan s = [.announcing] := by unfold ownStates; rw [hone]; simp [hs]
  rw [hos] at hf
  obtain ⟨h1, hm⟩ := hf.of_announcing
  rw [hm]
  obtain ⟨j, h1, _⟩ := List.map_eq_singleton_iff.1 h1
  rw [h1]; exact .waiting

/-! ### Frames dropped and queued -/

theorem claimDropped_mild (tag : Nat) (b : Bool) (s : State) : Mild x s (claimDropped tag b s) := by
  unfold claimDropped
  split
  · exact .refl x s
  · next e h =>
    split
    · next hs => exact withdrawOwn_mild (ownTagged_mem h) hs
    iterate 2
      split
      · exact changeEntries_mild _ _ s fun _ _ => ⟨rfl, fun _ => ⟨rfl, rfl⟩⟩
      · exact .refl x s
    · exact .refl x s

theorem tellDropped_mild (o : FrameOwner) (b : Bool) (s : State) : Mild x s (tellDropped o b s) := by
  unfold tellDropped
  split
  · exact claimDropped_mild ..
  · exact wantRestart_mild s
  all_goals exact .refl x s

theorem enqueue_mild (f : TxFrame) (s : State) : Mild x s (enqueue f s) := by
  unfold enqueue
  dsimp only
  split
  · exact (setQueue_mild ..).trans (frameLeft_mild _)
  · split
    · exact setQueue_mild ..
    · split
      · exact (setQueue_mild ..).trans
          ((frameLeft_mild _).trans ((raiseError_mild ..).trans (tellDropped_mild ..)))
      · exact (raiseError_mild ..).trans (tellDropped_mild ..)

theorem queueClaim_mild (e : Entry) (n : Bool) (s : State) : Mild x s (queueClaim e n s) := by
  unfold queueClaim
  exact (cancelClaim_mild ..).trans (enqueue_mild ..)

theorem queueRelease_mild (tag : Nat) (s : State) : Mild x s (queueRelease tag s) := by
  unfold queueRelease
  split
  · exact .refl x s
  · exact enqueue_mild ..

theorem raiseEntry_mild (c : Channel) (n : Nat) (b : Bool) (s : State) : Mild x s (raiseEntry c n b s) := by
  unfold raiseEntry
  split
  · exact .refl x s
  · split
    · exact .refl x s
    · have h := changeEntries_mild (x := x) (isOwnOf c) (fun e => { e with cls := n }) s
        fun _ _ => ⟨rfl, fun _ => ⟨rfl, rfl⟩⟩
      dsimp only
      split
      · exact h
      · exact h.trans (queueClaim_mild ..)

/-! ### Own entries removed -/

theorem removeOwn_other {c : Channel} (hx : x ≠ c) (r : Bool) (s : State) : Mild x s (removeOwn c r s) := by
  unfold removeOwn
  split
  · exact .refl x s
  · have h : Mild x s (removeEntries (isOwnOf c) s) :=
      mild_of_view rfl rfl (by rw [ownStates_removeOwn, if_neg hx])
    dsimp only
    split
    · exact h.trans ((cancelClaim_mild ..).trans ((wantScan_mild _).trans (queueRelease_mild ..)))
    · exact h.trans ((cancelClaim_mild ..).trans (wantScan_mild _))

theorem ownEntry_none {c : Channel} {s : State} (h : ownEntry c s = none) : ownStates c s = [] := by
  unfold ownStates ownOf
  rw [List.map_eq_nil_iff, List.filter_eq_nil_iff]
  intro e he
  exact List.find?_eq_none.1 h e he

theorem ownEntry_mem {c : Channel} {s : State} {e : Entry} (h : ownEntry c s = some e) :
    e ∈ ownOf c s := List.mem_filter.2 ⟨List.mem_of_find?_eq_some h, List.find?_some h⟩

/-- Removed, the own entry is gone and the channel's jobs are as they were. -/
theorem removeOwn_own (c : Channel) (r : Bool) (s : State) :
    ownStates c (removeOwn c r s) = [] ∧ jobStates c (removeOwn c r s) = jobStates c s := by
  unfold removeOwn
  split
  · next h => exact ⟨ownEntry_none h, rfl⟩
  · have h : ownStates c (removeEntries (isOwnOf c) s) = [] := by rw [ownStates_removeOwn, if_pos rfl]
    have k : ∀ t, Mild c (removeEntries (isOwnOf c) s) t →
        ownStates c t = [] ∧ jobStates c t = jobStates c s := fun t ht => ht.bare h
    dsimp only
    split
    · exact k _ ((cancelClaim_mild ..).trans ((wantScan_mild _).trans (queueRelease_mild ..)))
    · exact k _ ((cancelClaim_mild ..).trans (wantScan_mild _))

/-! ### One channel's operations -/

/-- From `s` to `t` every channel stays fitted, as long as all are. -/
structure Keeps (s t : State) : Prop where
  all : (∀ x, ClaimFits x s) → ∀ x, ClaimFits x t

theorem Keeps.refl (s : State) : Keeps s s := ⟨id⟩
theorem Keeps.trans {a b c : State} (h : Keeps a b) (k : Keeps b c) : Keeps a c := ⟨k.all ∘ h.all⟩

theorem Mild.keeps {s t : State} (h : ∀ x, Mild x s t) : Keeps s t := ⟨fun hf x => (h x).fits (hf x)⟩

/-- A change that jobs, entries and drivers do not see comes first. -/
theorem Keeps.after {s t u : State} (h : Keeps t u) (hd : t.drivers = s.drivers) (hj : t.jobs = s.jobs)
    (ho : t.supply.entries = s.supply.entries) : Keeps s u :=
  (Mild.keeps fun _ => mild_same hd hj ho).trans h

/-- A change that jobs, entries and drivers do not see comes last. -/
theorem Keeps.before {s t u : State} (h : Keeps s t) (hd : u.drivers = t.drivers) (hj : u.jobs = t.jobs)
    (ho : u.supply.entries = t.supply.entries) : Keeps s u :=
  h.trans (Mild.keeps fun _ => mild_same hd hj ho)

theorem fit_rest {c : Channel} {s : State} (hd : inMotion (s.drivers.get c) = false)
    (hj : jobStates c s = []) (ho : ownStates c s = []) : ClaimFits c s := by
  rw [claimFits_iff, hd, hj, ho]; exact .rest

theorem fit_moving {c : Channel} {s : State} (hf : ClaimFits c s)
    (hm : inMotion (s.drivers.get c) = true) : jobStates c s = [] ∧ ownStates c s = [.held] := by
  rw [claimFits_iff, hm] at hf
  exact hf.of_moving

theorem setDriver_view {c : Channel} {d : Driver} {s : State} :
    jobStates x (setDriver c d s) = jobStates x s ∧ ownStates x (setDriver c d s) = ownStates x s :=
  ⟨rfl, rfl⟩

theorem setDriver_other {c : Channel} {d : Driver} {s : State} (hx : x ≠ c) : Mild x s (setDriver c d s) :=
  mild_of_view (setDriver_get_ne s d hx) rfl rfl

/-- A channel's state replaced by one in motion exactly where it was. -/
theorem setDriver_mild {c : Channel} {d : Driver} {s : State}
    (h : inMotion d = inMotion (s.drivers.get c)) : Keeps s (setDriver c d s) := by
  refine ⟨fun hf x => ?_⟩
  rw [claimFits_iff, setDriver_get]
  have := claimFits_iff.1 (hf x)
  split
  · next e => subst e; rw [h]; exact this
  · exact this

theorem endMotion_keeps {c : Channel} {d : Driver} {s : State} (hd : inMotion d = false)
    (hm : inMotion (s.drivers.get c) = true) : Keeps s (endMotion c d s) := by
  refine ⟨fun hf x => ?_⟩
  unfold endMotion
  by_cases hx : x = c
  · subst hx
    have h := removeOwn_own x true (setDriver x d s)
    refine fit_rest ?_ (h.2.trans (fit_moving (hf x) hm).1) h.1
    show inMotion ((removeOwn x true (setDriver x d s)).drivers.get x) = _
    rw [(removeOwn_step ..).drivers, setDriver_get_same]; exact hd
  · exact ((setDriver_other hx).trans ((removeOwn_other hx ..).trans (wantScan_mild _))).fits (hf x)

theorem endAtRest_keeps {c : Channel} {p : Position} {s : State} (hm : inMotion (s.drivers.get c) = true) :
    Keeps s (endAtRest c p s) := endMotion_keeps rfl hm

theorem inMotion_opening {d : Driver} (h : isOpening d = true) : inMotion d = true := by
  cases d <;> simp_all [isOpening, inMotion]

theorem halt_keeps (c : Channel) (s : State) : Keeps s (halt c s) := by
  unfold halt
  split
  · next h => exact endAtRest_keeps (inMotion_opening h)
  · exact .refl s

theorem raiseMotion_keeps (c : Channel) (n : Nat) (k : Cause) (w : Requester) (s : State) :
    Keeps s (raiseMotion c n k w s) := by
  unfold raiseMotion
  split <;> rename_i hd
  case h_1 | h_2 | h_3 | h_4 =>
    split
    · exact (setDriver_mild (by rw [hd]; rfl)).trans (Mild.keeps fun _ => raiseEntry_mild ..)
    · exact .refl s
  case h_5 =>
    split
    · exact setDriver_mild (by rw [hd]; rfl)
    · exact .refl s
  all_goals exact .refl s

theorem reverse_keeps (c : Channel) (n : Nat) (k : Cause) (w : Requester) (s : State) :
    Keeps s (reverse c n k w s) := by
  unfold reverse
  split <;> rename_i hd
  case h_1 => exact (setDriver_mild (by rw [hd]; rfl)).trans (Mild.keeps fun _ => raiseEntry_mild ..)
  all_goals exact .refl s

/-! ### Jobs -/

theorem jobOf_state {c : Channel} {s : State} {j : Job} (hf : ClaimFits c s) (h : jobOf c s = some j) :
    inMotion (s.drivers.get c) = false ∧ jobsOf c s = [j]
      ∧ (j.state = .waiting ∧ ownStates c s = [] ∨ j.state = .announcing ∧ ownStates c s = [.announcing]
        ∨ ∃ n, j.state = .settling ∧ ownStates c s = [.settling n]) := by
  have hm : j ∈ jobsOf c s := List.mem_filter.2 ⟨(jobOf_some h).1, by simp [(jobOf_some h).2]⟩
  rw [claimFits_iff] at hf
  have hone : jobsOf c s = [j] := by
    have hl := hf.lengths.1
    unfold jobStates at hl
    rw [List.length_map] at hl
    match h' : jobsOf c s with
    | [] => rw [h'] at hm; cases hm
    | [k] => rw [h', List.mem_singleton] at hm; rw [hm]
    | k :: l :: m => rw [h'] at hl; simp at hl
  have hjs : jobStates c s = [j.state] := by unfold jobStates; rw [hone]; rfl
  rw [hjs] at hf
  exact ⟨hf.of_job.1, hone, hf.of_job.2⟩

theorem jobOf_none_states {c : Channel} {s : State} (h : jobOf c s = none) : jobStates c s = [] := by
  unfold jobStates jobsOf
  rw [List.map_eq_nil_iff, List.filter_eq_nil_iff]
  intro j hj; simpa using jobOf_none h j hj

theorem giveUpClaim_other {j : Job} (hx : x ≠ j.chan) (s : State) : Mild x s (giveUpClaim j s) := by
  unfold giveUpClaim
  split
  · exact .refl x s
  · exact removeOwn_other hx ..
  · exact removeOwn_other hx ..

theorem jobStates_drop (c : Channel) (s : State) :
    jobStates x (dropJob c s) = if x = c then [] else jobStates x s := by
  unfold jobStates jobsOf dropJob
  show ((s.jobs.filter _).filter _).map _ = _
  rw [List.filter_filter]
  split
  · next h =>
    rw [List.map_eq_nil_iff, List.filter_eq_nil_iff]
    intro j _; simp [h]
  · next h =>
    congr 1
    refine List.filter_congr fun j _ => ?_
    by_cases e : j.chan = x
    · simp [e, h]
    · simp [e]

theorem dropJob_other {c : Channel} (hx : x ≠ c) (s : State) : Mild x s (dropJob c s) :=
  mild_of_view rfl (by rw [jobStates_drop, if_neg hx]) rfl

/-- A channel's job leaves the queue with its claim: the channel is bare. -/
theorem giveUp_drop {c : Channel} {s : State} {j : Job} (hf : ClaimFits c s) (h : jobOf c s = some j) :
    inMotion ((dropJob c (giveUpClaim j s)).drivers.get c) = false
      ∧ jobStates c (dropJob c (giveUpClaim j s)) = [] ∧ ownStates c (dropJob c (giveUpClaim j s)) = [] := by
  obtain ⟨hm, _, hst⟩ := jobOf_state hf h
  have hc : j.chan = c := (jobOf_some h).2
  subst hc
  refine ⟨?_, by rw [jobStates_drop, if_pos rfl], ?_⟩
  · rw [((giveUpClaim_step j s).trans (dropJob_step j.chan _)).drivers]; exact hm
  · show ownStates j.chan (giveUpClaim j s) = []
    unfold giveUpClaim
    rcases hst with ⟨h1, h2⟩ | ⟨h1, h2⟩ | ⟨n, h1, h2⟩ <;> rw [h1]
    · exact h2
    · exact (removeOwn_own ..).1
    · exact (removeOwn_own ..).1

theorem giveUp_drop_keeps {c : Channel} {s : State} {j : Job} (h : jobOf c s = some j) :
    Keeps s (dropJob c (giveUpClaim j s)) := by
  refine ⟨fun hf x => ?_⟩
  by_cases hx : x = c
  · subst hx
    obtain ⟨h1, h2, h3⟩ := giveUp_drop (hf x) h
    exact fit_rest h1 h2 h3
  · exact ((giveUpClaim_other (by rw [(jobOf_some h).2]; exact hx) s).trans (dropJob_other hx _)).fits (hf x)

theorem jobStates_perm {s : State} {js : List Job} (h : js.Perm s.jobs) :
    (jobStates x (setJobs js s)).Perm (jobStates x s) := (h.filter _).map _

theorem jobStates_place (j : Job) (s : State) :
    (jobStates x (enterJob j s)).Perm (if j.chan = x then j.state :: jobStates x s else jobStates x s) := by
  unfold jobStates jobsOf
  refine (((placeJob_perm j s.jobs).filter _).map _).trans ?_
  rw [List.filter_cons]
  by_cases h : j.chan = x
  · simp [h]
  · simp [h]

/-- A WAITING job enters for a channel at rest with none. -/
theorem enterJob_keeps {j : Job} {s : State} (hw : j.state = .waiting) (hn : jobOf j.chan s = none)
    (hm : inMotion (s.drivers.get j.chan) = false) : Keeps s (enterJob j s) := by
  refine ⟨fun hf x => ?_⟩
  have hp := jobStates_place (x := x) j s
  rw [claimFits_iff]
  show Fit (inMotion (s.drivers.get x)) _ (ownStates x s)
  have hx := claimFits_iff.1 (hf x)
  split at hp
  · next e =>
    subst e
    rw [hw, jobOf_none_states hn] at hp
    rw [List.perm_singleton.1 hp]
    rw [hm] at hx ⊢
    rw [hx.of_jobless (jobOf_none_states hn)]; exact .waiting
  · exact hx.perm hp

/-- Jobs changed in what their states and channels do not say, and put into key order anew. -/
theorem resort_keeps {f : Job → Job} {s : State} (hc : ∀ j, (f j).chan = j.chan)
    (hs : ∀ j, (f j).state = j.state) : Keeps s (setJobs (sortJobs (s.jobs.map f)) s) := by
  refine ⟨fun hf x => ?_⟩
  rw [claimFits_iff]
  show Fit (inMotion (s.drivers.get x)) _ (ownStates x s)
  refine (claimFits_iff.1 (hf x)).perm (((sortJobs_perm (s.jobs.map f)).filter _).map _ |>.trans ?_)
  have := jobStates_map (x := x) f s hc
  unfold jobStates at this ⊢
  show ((jobsOf x (setJobs (s.jobs.map f) s)).map Job.state).Perm _
  rw [this]
  exact .of_eq (List.map_congr_left fun j _ => hs j)

theorem jobOf_dropped (c : Channel) (s : State) : jobOf c (dropJob c s) = none := by
  unfold jobOf
  rw [List.find?_eq_none]
  intro j hj
  simpa using jobsOf_drop_none c s j hj

theorem queueClose_keeps {c : Channel} {s : State} (r : CloseReq)
    (hm : inMotion (s.drivers.get c) = false) : Keeps s (queueClose c r s) := by
  unfold queueClose
  split
  · next h => exact enterJob_keeps rfl h hm
  · next j h =>
    split
    · dsimp only
      have hk := giveUp_drop_keeps (s := s) h
      refine hk.trans (enterJob_keeps rfl (jobOf_dropped ..) ?_)
      rw [((giveUpClaim_step j s).trans (dropJob_step c _)).drivers]; exact hm
    · have hk : Keeps s (changeJob c (mergedJob r) s) :=
        resort_keeps (fun j => by split <;> rfl) (fun j => by split <;> rfl)
      dsimp only
      split
      · exact hk.trans (Mild.keeps fun _ => raiseEntry_mild ..)
      · exact hk

theorem closeRequest_keeps (c : Channel) (r : CloseReq) (s : State) : Keeps s (closeRequest c r s) := by
  unfold closeRequest
  split <;> rename_i hd
  · exact .refl s
  · exact queueClose_keeps r (by rw [hd]; rfl)
  · exact queueClose_keeps r (by rw [hd]; rfl)
  · exact reverse_keeps ..
  all_goals exact raiseMotion_keeps ..

theorem openRequest_keeps {c : Channel} {s : State} (k : Cause) (w : Requester) (n : Nat)
    (hm : inMotion (s.drivers.get c) = false) : Keeps s (openRequest c k w n s) := by
  unfold openRequest
  split
  · next h => exact enterJob_keeps rfl h hm
  · exact .refl s

theorem restore_keeps (c : Channel) (s : State) : Keeps s (restore c s) := by
  unfold restore
  split
  · next hd _ =>
    split
    · exact .refl s
    · exact queueClose_keeps _ (by rw [hd]; rfl)
  · exact .refl s

theorem removeOpenJob_keeps (c : Channel) (s : State) : Keeps s (removeOpenJob c s) := by
  unfold removeOpenJob
  split
  · exact .refl s
  · next j h =>
    split
    · exact giveUp_drop_keeps h
    · exact .refl s

theorem rejudge_keeps (c : Channel) (s : State) : Keeps s (rejudge c s) := by
  unfold rejudge
  split
  · exact .refl s
  · dsimp only
    split
    · exact (removeOpenJob_keeps c s).trans (reverse_keeps ..)
    · exact (removeOpenJob_keeps c s).trans (halt_keeps ..)

theorem rejudgeAll_keeps (s : State) : Keeps s (rejudgeAll s) :=
  foldl_rel Keeps.refl Keeps.trans (fun s c => rejudge_keeps c s) _ _

theorem becomeFaulted_keeps (c : Channel) (k : FaultKind) (s : State) : Keeps s (becomeFaulted c k s) := by
  unfold becomeFaulted
  dsimp only
  refine Keeps.trans ?_ ((Mild.keeps fun _ => faultRaised_mild ..).trans (rejudge_keeps ..))
  split
  · next h => exact endMotion_keeps rfl h
  · next h => exact setDriver_mild (Bool.eq_false_iff.2 h).symm

theorem limitFault_keeps (c : Channel) (s : State) : Keeps s (limitFault c s) := by
  unfold limitFault
  split <;> rename_i hd
  · exact .refl s
  · split
    · exact .refl s
    · exact (setDriver_mild (by rw [hd]; rfl)).trans (Mild.keeps fun _ => faultRaised_mild ..)
  all_goals exact becomeFaulted_keeps ..

theorem takeOvercurrent_keeps (c : Channel) (s : State) : Keeps s (takeOvercurrent c s) := by
  unfold takeOvercurrent
  split <;> rename_i hd
  · exact (setDriver_mild (by rw [hd]; rfl)).trans (Mild.keeps fun _ => raiseEvent_mild ..)
  · exact ((endAtRest_keeps (by rw [hd]; rfl)).trans (Mild.keeps fun _ => raiseEvent_mild ..)).trans
      (restore_keeps ..)
  all_goals exact .refl s

theorem afterBackoff_rest (c : Channel) (m : Motion) (s : State) : inMotion (afterBackoff c m s) = false := by
  unfold afterBackoff
  split
  · rfl
  · split <;> rfl

theorem backoffError_mild (m : Motion) (s : State) : Mild x s (backoffError m s) := by
  unfold backoffError
  split
  · exact faultRaised_mild ..
  · exact .refl x s

theorem endBackoff_keeps {c : Channel} {m : Motion} {s : State} (hm : inMotion (s.drivers.get c) = true) :
    Keeps s (endBackoff c m s) := by
  unfold endBackoff
  exact (endMotion_keeps (afterBackoff_rest c m s) hm).trans ((Mild.keeps fun _ => backoffError_mild ..).trans
    ((rejudge_keeps ..).trans (restore_keeps ..)))

theorem stopMotion_keeps (c : Channel) (s : State) : Keeps s (stopMotion c s) := by
  unfold stopMotion
  split <;> rename_i hd
  case h_5 => exact setDriver_mild (by rw [hd]; rfl)
  case h_6 => exact (setDriver_mild (by rw [hd]; rfl)).trans (restore_keeps ..)
  case h_1 | h_2 | h_3 | h_4 => exact (endAtRest_keeps (by rw [hd]; rfl)).trans (restore_keeps ..)
  all_goals exact .refl s

theorem stopJob_keeps (c : Channel) (s : State) : Keeps s (stopJob c s) := by
  unfold stopJob
  split
  · exact .refl s
  · next h => exact (giveUp_drop_keeps h).trans (restore_keeps ..)

/-! ### Channel Drivers -/

theorem warningExpired_keeps (c : Channel) (s : State) : Keeps s (warningExpired c s) := by
  unfold warningExpired
  split <;> rename_i hd
  · exact setDriver_mild (by rw [hd]; rfl)
  all_goals exact .refl s

theorem brakeExpired_keeps (c : Channel) (s : State) : Keeps s (brakeExpired c s) := by
  unfold brakeExpired
  split <;> rename_i hd
  · split <;> exact setDriver_mild (by rw [hd]; rfl)
  all_goals exact .refl s

theorem backoffExpired_keeps (c : Channel) (s : State) : Keeps s (backoffExpired c s) := by
  unfold backoffExpired
  split <;> rename_i hd
  · exact endBackoff_keeps (by rw [hd]; rfl)
  all_goals exact .refl s

theorem retryExpired_keeps (c : Channel) (s : State) : Keeps s (retryExpired c s) := by
  unfold retryExpired
  split <;> rename_i hd
  · dsimp only
    refine Keeps.trans (setDriver_mild (d := .idle (settled c .part s)) (by rw [hd]; rfl)) ?_
    split
    · exact (queueClose_keeps _ (by rw [setDriver_get_same]; rfl)).trans (restore_keeps ..)
    · exact restore_keeps ..
  all_goals exact .refl s

theorem travelExpired_keeps (c : Channel) (s : State) : Keeps s (travelExpired c s) := by
  unfold travelExpired
  split <;> rename_i hd
  · split
    · exact endAtRest_keeps (by rw [hd]; rfl)
    · exact becomeFaulted_keeps ..
  · split
    · exact (endAtRest_keeps (by rw [hd]; rfl)).trans (restore_keeps ..)
    · exact becomeFaulted_keeps ..
  all_goals exact .refl s

theorem limitActivated_keeps (c : Channel) (l : Limit) (s : State) : Keeps s (limitActivated c l s) := by
  unfold limitActivated
  split
  · exact limitFault_keeps c s
  · split
    · unfold closedLimitActive
      split <;> rename_i hd
      case h_1 | h_6 => exact setDriver_mild (by rw [hd]; rfl)
      case h_2 | h_3 => exact endAtRest_keeps (by rw [hd]; rfl)
      case h_4 | h_5 => exact becomeFaulted_keeps ..
      all_goals exact .refl s
    · unfold openLimitActive
      split <;> rename_i hd
      · exact (setDriver_mild (by rw [hd]; rfl)).trans (restore_keeps ..)
      · exact becomeFaulted_keeps ..
      · exact (endAtRest_keeps (by rw [hd]; rfl)).trans (restore_keeps ..)
      · exact setDriver_mild (by rw [hd]; rfl)
      all_goals exact .refl s

theorem limitDeactivated_keeps (c : Channel) (l : Limit) (s : State) : Keeps s (limitDeactivated c l s) := by
  unfold limitDeactivated
  split
  · next hd => exact (setDriver_mild (by rw [hd]; rfl)).trans (restore_keeps ..)
  · next hd => exact (setDriver_mild (by rw [hd]; rfl)).trans (restore_keeps ..)
  · exact .refl s

end Sys2Proof.Machine
end

