-- ==== Sys2Proof/Laws/ClaimsKept.lean ====
section
/-! SUPPORT. Every operation, from own claims to the completion of a load, keeps the jobs, the own entries and the motion
of each channel fitted (R79); and a part that does not run takes no command. -/

namespace Sys2Proof.Machine

variable {x : Channel}

/-! ### Own claims -/

theorem handOver_keeps {j : Job} {s t : State} (hst : ∀ y, y ≠ j.chan → ClaimFits y s → ClaimFits y t)
    (hos : ownStates j.chan t = [.held]) :
    (∀ y, ClaimFits y s) → ∀ y, ClaimFits y (handOver j t) := by
  intro hf y
  have hd : ∀ d : Driver, inMotion d = true → ClaimFits y (setDriver j.chan d (dropJob j.chan t)) := by
    intro d hd
    by_cases hy : y = j.chan
    · rw [claimFits_iff, hy, setDriver_get_same, hd]
      show Fit true (jobStates j.chan (dropJob j.chan t)) (ownStates j.chan t)
      rw [jobStates_drop, if_pos rfl, hos]; exact .moving
    · exact (setDriver_other hy).fits ((dropJob_other hy t).fits (hst y hy (hf y)))
  unfold handOver
  dsimp only
  split
  · exact hd _ rfl
  · split
    · exact hd _ rfl
    · exact hd _ rfl

/-- The states of a channel's own entries, all set to one. -/
theorem ownStates_set (c : Channel) (f : Entry → Entry) (st : ClaimState) (s : State)
    (h : ∀ e, (f e).own = e.own ∧ (f e).chan = e.chan ∧ (f e).state = st) :
    ownStates x (changeEntries (isOwnOf c) f s) =
      if x = c then (ownOf x s).map (fun _ => st) else ownStates x s := by
  rw [ownStates_change _ _ _ (fun e _ => ⟨(h e).1, fun _ => (h e).2.1⟩)]
  split
  · next hx =>
    refine List.map_congr_left fun e he => ?_
    have := ownOf_chan he
    rw [if_pos (by simp [isOwnOf, this.1, this.2, hx]), (h e).2.2]
  · next hx =>
    refine List.map_congr_left fun e he => ?_
    have := ownOf_chan he
    rw [if_neg (by simp [isOwnOf, this.1, this.2, hx])]

theorem isSettling_eq {e : Entry} (h : isSettling e = true) : ∃ n, e.state = .settling n := by
  cases hs : e.state <;> simp [isSettling, hs] at h
  exact ⟨_, rfl⟩

theorem ownSettled_keeps (c : Channel) (s : State) : Keeps s (ownSettled c s) := by
  refine ⟨fun hf => ?_⟩
  unfold ownSettled
  split
  · exact hf
  · next e he =>
    split
    · next hset =>
      have hone := fit_own (hf c) (ownEntry_mem he)
      obtain ⟨n, hn⟩ := isSettling_eq hset
      have hos : ownStates c s = [.settling n] := by unfold ownStates; rw [hone]; simp [hn]
      have hfit := claimFits_iff.1 (hf c)
      rw [hos] at hfit
      obtain ⟨hjs, hm⟩ := hfit.of_settling
      have hview := fun y => ownStates_set (x := y) c (fun x => { x with state := .held }) .held s
        (fun e => ⟨rfl, rfl, rfl⟩)
      have hoc : ownStates c (changeEntries (isOwnOf c) (fun x => { x with state := .held }) s) = [.held] := by
        rw [hview, if_pos rfl, hone]; rfl
      have hother : ∀ y, y ≠ c → Mild y s (changeEntries (isOwnOf c) (fun x => { x with state := .held }) s) :=
        fun y hy => mild_of_view rfl rfl (by rw [hview, if_neg hy])
      dsimp only
      split
      · next hj =>
        have h0 := jobOf_none_states hj
        have h1 : jobStates c s = [] := h0
        rw [hjs] at h1; cases h1
      · next j hj =>
        have hc : j.chan = c := (jobOf_some hj).2
        split
        · intro y
          by_cases hy : y = c
          · subst hy
            have := removeOwn_own y true (dropJob y (changeEntries (isOwnOf y) (fun x => { x with state := .held }) s))
            refine fit_rest ?_ (this.2.trans (by rw [jobStates_drop, if_pos rfl])) this.1
            rw [((dropJob_step ..).trans (removeOwn_step ..)).drivers]; exact hm
          · exact ((hother y hy).trans ((dropJob_other hy _).trans (removeOwn_other hy ..))).fits (hf y)
        · subst hc
          exact handOver_keeps (s := s) (fun y hy => (hother y hy).fits)
            hoc hf
    · exact hf

theorem claimRefresh_mild (c : Channel) (s : State) : Mild x s (claimRefresh c s) := by
  unfold claimRefresh
  split
  · exact .refl x s
  · split
    · have hq := changeEntries_mild (x := x) (isOwnOf c)
        (fun e => { e with ageMs := max e.ageMs (s.cfg.lifetimeS * 500) }) s
        fun _ _ => ⟨rfl, fun _ => ⟨rfl, rfl⟩⟩
      dsimp only
      split
      · exact hq.trans (queueClaim_mild ..)
      · exact hq
    · exact .refl x s

theorem claimSent_mild (tag : Nat) (s : State) : Mild x s (claimSent tag s) := by
  unfold claimSent
  split
  · exact .refl x s
  · next e h =>
    have hm := ownTagged_mem h
    split
    · next hs =>
      have hview := fun y => ownStates_set (x := y) e.chan
        (fun x => { x with state := .settling s.cfg.settleMs, ageMs := 0 }) (.settling s.cfg.settleMs) s
        (fun _ => ⟨rfl, rfl, rfl⟩)
      have hj := fun y => jobStates_set (x := y) e.chan (fun j => { j with state := .settling })
        (changeEntries (isOwnOf e.chan)
          (fun x => { x with state := .settling s.cfg.settleMs, ageMs := 0 }) s) (fun _ => rfl)
      refine mild_at hm rfl (fun y hy => ⟨(hj y).trans (by rw [if_neg hy]; rfl), (hview y).trans (if_neg hy)⟩)
        fun hf => ?_
      have hone := fit_own hf hm
      rw [claimFits_iff] at *
      have hos : ownStates e.chan s = [.announcing] := by unfold ownStates; rw [hone]; simp [hs]
      rw [hos] at hf
      obtain ⟨h1, hmm⟩ := hf.of_announcing
      have ho' := (hview e.chan).trans (if_pos rfl)
      rw [hone] at ho'
      have hj' := (hj e.chan).trans (if_pos rfl)
      obtain ⟨j, h1, _⟩ := List.map_eq_singleton_iff.1 h1
      have h1' : jobsOf e.chan (changeEntries (isOwnOf e.chan)
          (fun x => { x with state := .settling s.cfg.settleMs, ageMs := 0 }) s) = [j] := h1
      rw [h1'] at hj'
      have : Fit false [.settling] [.settling s.cfg.settleMs] := .settling _
      have hgoal : Fit (inMotion (s.drivers.get e.chan)) [.settling] [.settling s.cfg.settleMs] := by
        rw [hmm]; exact this
      exact Eq.mp (congrArg₂ (Fit _) hj'.symm ho'.symm) hgoal
    all_goals exact changeEntries_mild _ _ s fun _ _ => ⟨rfl, fun _ => ⟨rfl, rfl⟩⟩

/-! ### Withdrawals -/

/-- An own entry that is not HELD is withdrawn. -/
theorem withdrawClaim_keeps (c : Channel) (r : Bool) (s : State)
    (h : inMotion (s.drivers.get c) = false) : Keeps s (withdrawClaim c r s) := by
  refine ⟨fun hf y => ?_⟩
  unfold withdrawClaim
  dsimp only
  have hj := fun y => jobStates_set (x := y) c (fun j => { j with state := .waiting, heldBack := false })
    (removeOwn c r s) (fun _ => rfl)
  by_cases hy : y = c
  · subst hy
    have hown := removeOwn_own y r s
    rw [claimFits_iff]
    show Fit (inMotion ((removeOwn y r s).drivers.get y)) _ (ownStates y (removeOwn y r s))
    rw [(removeOwn_step ..).drivers, h, hown.1]
    have hfit := claimFits_iff.1 (hf y)
    rw [h] at hfit
    have hl := hfit.lengths.1
    rw [← hown.2] at hl
    unfold jobStates at hl
    rw [List.length_map] at hl
    have hj' := (hj y).trans (if_pos rfl)
    match h' : jobsOf y (removeOwn y r s) with
    | [] => rw [h'] at hj'; exact Eq.mp (congrArg (fun a => Fit false a []) hj'.symm) .rest
    | [k] => rw [h'] at hj'; exact Eq.mp (congrArg (fun a => Fit false a []) hj'.symm) .waiting
    | k :: l :: m => rw [h'] at hl; simp at hl
  · exact ((removeOwn_other hy r s).trans (mild_of_view (s := removeOwn c r s)
      (t := setJobs ((removeOwn c r s).jobs.map (fun j =>
        if j.chan = c then { j with state := .waiting, heldBack := false } else j)) (removeOwn c r s)) rfl
      ((hj y).trans (if_neg hy)) rfl)).fits (hf y)

theorem Keeps.under {s t : State} {p : Prop} (h : p → Keeps s t)
    (hp : (∀ x, ClaimFits x s) → p) : Keeps s t := ⟨fun hf => (h (hp hf)).all hf⟩

theorem withdrawAnnouncing_keeps (s : State) (c : Channel) : Keeps s (withdrawAnnouncing s c) := by
  unfold withdrawAnnouncing
  split
  · exact .refl s
  · next j hj =>
    split
    · exact Keeps.under (withdrawClaim_keeps c false s) fun hf => (jobOf_state (hf c) hj).1
    · exact .refl s

theorem withdrawAll_keeps (s : State) : Keeps s (withdrawAll s) :=
  foldl_rel Keeps.refl Keeps.trans withdrawAnnouncing_keeps _ _

/-! ### Pauses -/

theorem pausedDriver_rest (c : Channel) (s : State) (d : Driver) : inMotion (pausedDriver c s d) = false := by
  cases d <;> simp only [pausedDriver]
  case backoff m o t => exact afterBackoff_rest c m s
  all_goals rfl

theorem requeue_keeps {c : Channel} (d : Driver) {s : State} (h : inMotion (s.drivers.get c) = false) :
    Keeps s (requeue c d s) := by
  unfold requeue
  split
  case h_4 =>
    split
    · exact openRequest_keeps _ _ _ h
    · exact .refl s
  case h_5 => exact rejudge_keeps c s
  case h_1 | h_2 | h_3 => exact queueClose_keeps _ h
  all_goals exact .refl s

/-- R105: the motion of a channel in motion is paused. -/
theorem pauseMotion_keeps {c : Channel} (n : Nat) {s : State} (h : inMotion (s.drivers.get c) = true) :
    Keeps s (pauseMotion c n s) := by
  unfold pauseMotion
  dsimp only
  have hb : ∀ t : State, Keeps s t → t.drivers = s.drivers →
      Keeps s (requeue c (s.drivers.get c) (raiseError .overBudget .overBudget n
          (removeOwn c true (setDriver c (pausedDriver c t (s.drivers.get c)) t)))) := by
    intro t hk ht
    have hm : inMotion (t.drivers.get c) = true := by rw [ht]; exact h
    refine hk.trans (Keeps.trans (b := raiseError .overBudget .overBudget n
          (removeOwn c true (setDriver c (pausedDriver c t (s.drivers.get c)) t))) ⟨fun hf y => ?_⟩
      (requeue_keeps _ ?_))
    · by_cases hy : y = c
      · subst hy
        have hr := removeOwn_own y true (setDriver y (pausedDriver y t (s.drivers.get y)) t)
        refine (raiseError_mild ..).fits (fit_rest ?_ (hr.2.trans (fit_moving (hf y) hm).1) hr.1)
        rw [(removeOwn_step ..).drivers, setDriver_get_same]; exact pausedDriver_rest ..
      · exact ((setDriver_other hy).trans ((removeOwn_other hy ..).trans (raiseError_mild ..))).fits (hf y)
    · rw [((removeOwn_step ..).trans (raiseError_step ..)).drivers, setDriver_get_same]
      exact pausedDriver_rest ..
  split
  · exact hb _ (Mild.keeps fun _ => backoffError_mild ..) (backoffError_step ..).drivers
  all_goals exact hb s (.refl s) rfl

/-! ### The contention check -/

theorem firstStage_fold : ∀ (l : List Channel) (s : State),
    (∀ c ∈ l, inMotion (s.drivers.get c) = false) → Keeps s (l.foldl firstStage s)
  | [], s, _ => .refl s
  | c :: l, s, h => by
    have hs : Keeps s (firstStage s c) ∧ (firstStage s c).drivers = s.drivers := by
      refine ⟨?_, (firstStage_step s c).drivers⟩
      unfold firstStage
      split
      · exact withdrawClaim_keeps c false s (h c (List.mem_cons_self ..))
      · exact .refl s
    exact hs.1.trans (firstStage_fold l _ fun y hy => by
      rw [hs.2]; exact h y (List.mem_cons_of_mem _ hy))

theorem secondStage_fold : ∀ (l : List Entry) (s : State),
    (∀ e ∈ l, e.own = true → inMotion (s.drivers.get e.chan) = false) → Keeps s (l.foldl secondStage s)
  | [], s, _ => .refl s
  | e :: l, s, h => by
    have hs : Keeps s (secondStage s e) ∧ (secondStage s e).drivers = s.drivers := by
      refine ⟨?_, (secondStage_step s e).drivers⟩
      unfold secondStage
      split
      · split
        · next ho => exact withdrawClaim_keeps _ true s (h e (List.mem_cons_self ..) ho)
        · exact Mild.keeps fun _ => (changeEntries_mild (isPeerKey e.station e.tag)
            (fun x => { x with state := .yielding }) s fun y hp => ⟨rfl, fun hyo => by
              simp [isPeerKey, hyo] at hp⟩).trans (wantScan_mild _)
      · exact .refl s
    exact hs.1.trans (secondStage_fold l _ fun y hy => by
      rw [hs.2]; exact h y (List.mem_cons_of_mem _ hy))

theorem reassertOne_mild (s : State) (e : Entry) : Mild x s (reassertOne s e) := by
  unfold reassertOne
  split
  · have hq := changeEntries_mild (x := x) (isOwnOf e.chan) (fun y => { y with reasserted := true }) s
      fun _ _ => ⟨rfl, fun _ => ⟨rfl, rfl⟩⟩
    dsimp only
    split
    · exact hq
    · exact hq.trans (queueClaim_mild ..)
  · exact .refl x s

theorem reassert_mild (s : State) : Mild x s (reassert s) :=
  foldl_rel (Mild.refl x) Mild.trans reassertOne_mild _ _

theorem thirdStage_keeps (n : Nat) : ∀ (es : List Entry) (s : State),
    (∀ e ∈ es, e.own = true → inMotion (s.drivers.get e.chan) = true) →
    ((es.filter Entry.own).map Entry.chan).Nodup → Keeps s (thirdStage n es s)
  | [], s, _, _ => .refl s
  | e :: es, s, h, hn => by
    unfold thirdStage
    split
    · split
      · next ho =>
        rw [List.filter_cons_of_pos ho, List.map_cons, List.nodup_cons] at hn
        refine (pauseMotion_keeps n (h e (List.mem_cons_self ..) ho)).trans
          (thirdStage_keeps n es _ (fun y hy hyo => ?_) hn.2)
        rw [(pauseMotion_frame e.chan n s).others y.chan
          (fun hc => hn.1 (List.mem_map.2 ⟨y, List.mem_filter.2 ⟨hy, hyo⟩, hc⟩))]
        exact h y (List.mem_cons_of_mem _ hy) hyo
      · split
        · exact .refl s
        · exact Mild.keeps fun _ => mild_same rfl rfl rfl
    · exact .refl s

theorem placeEntry_perm (e : Entry) : ∀ l, (placeEntry e l).Perm (e :: l)
  | [] => .refl _
  | y :: ys => by
    unfold placeEntry
    split
    · exact .refl _
    · exact ((placeEntry_perm e ys).cons y).trans (.swap e y ys)

theorem ascending_perm : ∀ l, (ascending l).Perm l
  | [] => .refl _
  | e :: l => (placeEntry_perm e (ascending l)).trans ((ascending_perm l).cons e)

theorem own_mem {s : State} {e : Entry} (h : e ∈ s.supply.entries) (ho : e.own = true) :
    e ∈ ownOf e.chan s := List.mem_filter.2 ⟨h, by simp [isOwnOf, ho]⟩

theorem own_settling_rest {s : State} {e : Entry} (hf : ∀ y, ClaimFits y s) (h : e ∈ s.supply.entries)
    (ho : e.own = true) (hs : isSettling e = true) : inMotion (s.drivers.get e.chan) = false := by
  have hone := fit_own (hf _) (own_mem h ho)
  obtain ⟨n, hn⟩ := isSettling_eq hs
  have hfit := claimFits_iff.1 (hf e.chan)
  have hos : ownStates e.chan s = [.settling n] := by unfold ownStates; rw [hone]; simp [hn]
  rw [hos] at hfit
  exact hfit.of_settling.2

theorem own_held_moves {s : State} {e : Entry} (hf : ∀ y, ClaimFits y s) (h : e ∈ s.supply.entries)
    (ho : e.own = true) (hs : isHeld e = true) : inMotion (s.drivers.get e.chan) = true := by
  have hone := fit_own (hf _) (own_mem h ho)
  have hfit := claimFits_iff.1 (hf e.chan)
  have hos : ownStates e.chan s = [.held] := by
    unfold ownStates; rw [hone]; simpa [isHeld] using hs
  rw [hos] at hfit
  exact hfit.of_held.2

/-- In a fitted state no two own entries are of one channel. -/
theorem own_nodup {s : State} (hf : ∀ y, ClaimFits y s) :
    ((s.supply.entries.filter Entry.own).map Entry.chan).Nodup := by
  rw [List.nodup_iff_count_le_one]
  intro c
  rw [List.count, List.countP_map, List.countP_filter]
  have hl : (ownOf c s).length ≤ 1 := by
    have := (claimFits_iff.1 (hf c)).lengths.2
    unfold ownStates at this; rwa [List.length_map] at this
  unfold ownOf at hl
  rw [← List.countP_eq_length_filter] at hl
  refine Nat.le_trans (Nat.le_of_eq ?_) hl
  congr 1
  funext e
  cases ho : e.own <;> simp [isOwnOf, ho, beq_eq_decide]

theorem contention_keeps (n : Nat) (s : State) : Keeps s (contention n s) := by
  unfold contention
  dsimp only
  have h1 : Keeps s ((announcingChannels s).foldl firstStage s) := by
    refine Keeps.under (firstStage_fold _ s) fun hf c hc => ?_
    unfold announcingChannels at hc
    obtain ⟨j, hj, rfl⟩ := List.mem_map.1 (List.mem_reverse.1 hc)
    have hj := (List.mem_filter.1 hj)
    have hm : j ∈ jobsOf j.chan s := List.mem_filter.2 ⟨hj.1, by simp⟩
    cases hm' : inMotion (s.drivers.get j.chan)
    · rfl
    · have := (fit_moving (hf j.chan) hm').1
      unfold jobStates at this
      rw [List.map_eq_nil_iff] at this
      rw [this] at hm; cases hm
  generalize (announcingChannels s).foldl firstStage s = a at *
  refine h1.trans ?_
  have h2 : Keeps a ((ascending (a.supply.entries.filter isSettling)).foldl secondStage a) :=
    Keeps.under (secondStage_fold _ a) fun hf e he ho => by
      rw [(ascending_perm _).mem_iff, List.mem_filter] at he
      exact own_settling_rest hf he.1 ho he.2
  generalize (ascending (a.supply.entries.filter isSettling)).foldl secondStage a = b at *
  refine h2.trans ?_
  have h3 : ∀ u, Keeps u (clearExcess (thirdStage n (ascending (u.supply.entries.filter isHeld)) u)) := by
    intro u
    refine Keeps.trans (b := thirdStage n (ascending (u.supply.entries.filter isHeld)) u) ⟨fun hf => ?_⟩
      (Mild.keeps fun _ => by unfold clearExcess; split <;> exact mild_same rfl rfl rfl)
    refine (thirdStage_keeps n _ u (fun e he ho => ?_) ?_).all hf
    · rw [(ascending_perm _).mem_iff, List.mem_filter] at he
      exact own_held_moves hf he.1 ho he.2
    · rw [(((ascending_perm _).filter Entry.own).map Entry.chan).nodup_iff]
      refine (own_nodup hf).sublist (List.Sublist.map _ ?_)
      exact List.filter_sublist.filter _
  split
  · exact (Mild.keeps fun _ => reassert_mild b).trans (h3 _)
  · exact h3 _

/-! ### Peer claims -/

theorem newEntry_mild (e : Entry) (he : e.own = false) (s : State) :
    Mild x s (setEntries (s.supply.entries ++ [e]) s) := by
  refine mild_of_view rfl rfl ?_
  unfold ownStates ownOf
  show ((s.supply.entries ++ [e]).filter _).map _ = _
  rw [List.filter_append]
  simp [isOwnOf, he]

theorem applyClaim_mild (n : Nat) (k : ClaimFields) (s : State) : Mild x s (applyClaim n k s) := by
  unfold applyClaim
  split
  · exact changeEntries_mild _ _ s fun e hp => ⟨rfl, fun ho => by simp [isPeerKey, ho] at hp⟩
  · have hs : Mild x s (supersede n k s) := by
      unfold supersede
      split
      · exact (removePeers_mild _ s fun e hp => by
          simp only [superseded, Bool.and_eq_true, Bool.not_eq_true'] at hp; exact hp.1.1.1).trans
          (wantScan_mild _)
      · exact .refl x s
    dsimp only
    split
    · exact hs.trans (newEntry_mild _ rfl _)
    · exact hs.trans (mild_same rfl rfl rfl)

theorem takeClaim_keeps (n : Nat) (p : List Byte) (s : State) : Keeps s (takeClaim n p s) := by
  unfold takeClaim
  split
  · exact .refl s
  · exact Mild.keeps fun _ => raiseError_mild ..
  · exact (Mild.keeps fun _ => applyClaim_mild ..).trans (contention_keeps ..)

theorem isPeer_own {n tag : Nat} {e : Entry} (h : isPeerKey n tag e = true) : e.own = false := by
  simp only [isPeerKey, Bool.and_eq_true, Bool.not_eq_true'] at h; exact h.1.1

theorem takeRelease_mild (n : Nat) (p : List Byte) (s : State) : Mild x s (takeRelease n p s) := by
  unfold takeRelease
  split
  · exact .refl x s
  · exact raiseError_mild ..
  · split
    · exact .refl x s
    · exact (removePeers_mild _ s fun _ h => isPeer_own h).trans (wantScan_mild _)

theorem peerSettled_mild (n tag : Nat) (s : State) : Mild x s (peerSettled n tag s) :=
  changeEntries_mild _ _ s fun e hp => ⟨rfl, fun ho => by simp [isPeerKey, ho] at hp⟩

theorem claimLapsed_mild (n tag : Nat) (s : State) : Mild x s (claimLapsed n tag s) := by
  unfold claimLapsed
  split
  · exact .refl x s
  · exact (removePeers_mild _ s fun _ h => isPeer_own h).trans ((raiseError_mild ..).trans (wantScan_mild _))

theorem tableFullExpired_mild (s : State) : Mild x s (tableFullExpired s) := by
  unfold tableFullExpired
  split <;> exact mild_same rfl rfl rfl

/-! ### The admission scan and the end of a command -/

theorem admitted_keeps {j : Job} {s : State} (hw : jobStates j.chan s = [.waiting]) :
    Keeps s (admitted j s) := by
  refine ⟨fun hf y => ?_⟩
  have hjs := fun y => jobStates_set (x := y) j.chan
    (fun k => { k with state := if s.link.state == .mute then .settling else .announcing, heldBack := false })
    { s with supply :=
      { s.supply with entries := s.supply.entries ++ [admittedEntry j s], tagCounter := nextTag s } } (fun _ => rfl)
  have hos : ∀ y, ownStates y (admitted j s)
      = if y = j.chan then ownStates y s ++ [(admittedEntry j s).state] else ownStates y s := by
    intro y
    unfold ownStates ownOf
    show ((s.supply.entries ++ [admittedEntry j s]).filter _).map _ = _
    rw [List.filter_append, List.map_append]
    by_cases hy : y = j.chan
    · rw [if_pos hy]; simp [isOwnOf, admittedEntry, hy]
    · rw [if_neg hy]; simp [isOwnOf, admittedEntry, Ne.symm hy]
  by_cases hy : y = j.chan
  · subst hy
    have hfit := claimFits_iff.1 (hf j.chan)
    rw [hw] at hfit
    obtain ⟨hm, ho⟩ := hfit.of_job
    have ho : ownStates j.chan s = [] := by
      rcases ho with ⟨_, h⟩ | ⟨h, _⟩ | ⟨_, h, _⟩
      · exact h
      · cases h
      · cases h
    obtain ⟨k, hone, _⟩ := List.map_eq_singleton_iff.1 hw
    have hj' := (hjs j.chan).trans (if_pos rfl)
    have hone' : jobsOf j.chan { s with supply := { s.supply with
        entries := s.supply.entries ++ [admittedEntry j s], tagCounter := nextTag s } } = [k] := hone
    rw [hone'] at hj'
    have ho' := (hos j.chan).trans (if_pos rfl)
    rw [ho] at ho'
    rw [claimFits_iff]
    refine Eq.mp (congrArg₂ (Fit _) hj'.symm ho'.symm) ?_
    show Fit (inMotion (s.drivers.get j.chan)) _ _
    rw [hm]
    unfold admittedEntry
    simp only [List.map_cons, List.map_nil, List.nil_append]
    split
    · exact .settling _
    · exact .announcing
  · exact (mild_of_view (s := s) (t := admitted j s) rfl ((hjs y).trans (if_neg hy)) ((hos y).trans (if_neg hy))).fits
      (hf y)

theorem mapJobs_mild {f : Job → Job} (s : State) (hc : ∀ j, (f j).chan = j.chan)
    (hs : ∀ j, (f j).state = j.state) : Mild x s (setJobs (s.jobs.map f) s) := by
  refine mild_of_view rfl ?_ rfl
  rw [jobStates_map f s hc]
  exact List.map_congr_left fun j _ => hs j

theorem scanJob_keeps (s : State) (c : Channel) : Keeps s (scanJob s c) := by
  unfold scanJob
  split
  · exact .refl s
  · next j hj =>
    have hc : j.chan = c := (jobOf_some hj).2
    split
    · exact .refl s
    · next hw =>
      have hw : j.state = .waiting := by
        by_contra h; exact hw (.inl h)
      split
      · have : dropJob c s = dropJob c (giveUpClaim j s) := by unfold giveUpClaim; rw [hw]
        rw [this]; exact giveUp_drop_keeps hj
      · have hk : ∀ y, Mild y s
            (setJobs (s.jobs.map (fun k => if k.chan = c then { k with heldBack := false } else k)) s) :=
          fun y => mapJobs_mild s (fun k => by split <;> rfl) (fun k => by split <;> rfl)
        dsimp only
        split
        · exact Mild.keeps hk
        · split
          · refine Keeps.under (p := jobStates c s = [.waiting])
              (fun hjs => (Mild.keeps hk).trans ?_) ?_
            · rw [admit_eq]
              have ha := admitted_keeps (j := j) (s := setJobs (s.jobs.map (fun k =>
                if k.chan = c then { k with heldBack := false } else k)) s) (by
                  rw [hc, jobStates_map _ s (fun k => by split <;> rfl), ← hjs]
                  exact List.map_congr_left fun k _ => by split <;> rfl)
              split
              · exact ha
              · exact ha.trans (Mild.keeps fun _ => queueClaim_mild ..)
            · intro hf
              unfold jobStates
              rw [(jobOf_state (hf c) hj).2.1]
              simp [hw]
          · exact Mild.keeps hk

theorem scan_keeps (s : State) : Keeps s (scan s) := foldl_rel Keeps.refl Keeps.trans scanJob_keeps _ _

theorem runScans_keeps : ∀ (n : Nat) (s : State), Keeps s (runScans n s)
  | 0, s => Mild.keeps fun _ => mild_same rfl rfl rfl
  | n + 1, s => by
    unfold runScans
    split
    · exact ((scan_keeps _).trans (runScans_keeps n _)).after rfl rfl rfl
    · exact .refl s

theorem restarted_rest (d : Driver) : inMotion (restarted d) = false := by cases d <;> rfl

theorem warmRestart_fits (s : State) (y : Channel) : ClaimFits y (warmRestart s) := by
  refine fit_rest ?_ rfl rfl
  show inMotion ((s.drivers.map restarted).get y) = false
  rw [Eight.get_map]; exact restarted_rest _

theorem finish_keeps (s : State) : Keeps s (finish s) := by
  rcases finish_cases s with ⟨h, _⟩ | h <;> rw [h]
  · exact runScans_keeps 16 s
  · exact ⟨fun _ => warmRestart_fits _⟩

/-! ### Demand Evaluator -/

theorem eval_mild (s : State) (v : Evaluator) : Mild x s { s with eval := v } := mild_same rfl rfl rfl

theorem evalStages_keeps (s : State) : Keeps s (judgeAll s) := by
  unfold judgeAll
  dsimp only
  have h1 : Keeps s (allChannels.foldl judgeChannel s) :=
    foldl_rel Keeps.refl Keeps.trans (fun s c => Mild.keeps fun _ => by
      unfold judgeChannel; split <;> exact mild_same rfl rfl rfl) _ _
  refine h1.trans ((rejudgeAll_keeps _).trans ?_)
  refine foldl_rel Keeps.refl Keeps.trans (fun s c => ?_) _ _
  unfold askChannel
  dsimp only
  split
  · split
    · unfold askDemand
      split
      case h_3 => split <;> first | exact .refl _ | exact closeRequest_keeps ..
      all_goals first | exact .refl _ | exact closeRequest_keeps ..
    · exact .refl _
  · exact .refl _

theorem reorderJobs_keeps (s : State) : Keeps s (reorderJobs s) :=
  resort_keeps (f := fun j => { j with exposure := (s.eval.chans.get j.chan).exposure }) (fun _ => rfl)
    (fun _ => rfl)

theorem judgeStorm_mild (s : State) : Mild x s (judgeStorm s) := by
  unfold judgeStorm
  dsimp only
  repeat' split
  all_goals exact mild_same rfl rfl rfl

theorem evaluatePicture_keeps (s : State) : Keeps s (evaluatePicture s) := by
  unfold evaluatePicture
  have h1 : Keeps s (allChannels.foldl reexpose s) :=
    foldl_rel Keeps.refl Keeps.trans (fun s c => Mild.keeps fun _ => by
      unfold reexpose; split <;> exact mild_same rfl rfl rfl) _ _
  exact h1.trans ((reorderJobs_keeps _).trans ((Mild.keeps fun _ => judgeStorm_mild _).trans
    (evalStages_keeps _)))

theorem stormReleased_keeps (s : State) : Keeps s (stormReleased s) := by
  unfold stormReleased
  exact (evalStages_keeps _).after rfl rfl rfl

theorem calmExpired_keeps (c : Channel) (s : State) : Keeps s (calmExpired c s) := by
  unfold calmExpired
  split
  · exact (rejudge_keeps ..).after rfl rfl rfl
  · exact .refl s

theorem tableChanged_keeps (v : Eight Slot) (s : State) : Keeps s (tableChanged v s) := by
  unfold tableChanged
  dsimp only
  split
  · exact Mild.keeps fun _ => mild_same rfl rfl rfl
  · exact (evaluatePicture_keeps _).after rfl rfl rfl

theorem refreshSelf_keeps (o : Obs) (s : State) : Keeps s (refreshSelf o s) := by
  unfold refreshSelf
  split
  · exact .refl s
  · exact tableChanged_keeps ..

theorem selfRefresh_keeps (s : State) : Keeps s (selfRefresh s) := by
  unfold selfRefresh
  split
  · exact refreshSelf_keeps ..
  · exact .refl s

theorem queueObs_mild (p k : Nat) (s : State) : Mild x s (queueObs p k s) := by
  unfold queueObs
  split
  · dsimp only
    exact (enqueue_mild ..).after rfl rfl rfl
  · exact .refl x s

theorem pins_mild (s : State) (p : Pins) : Mild x s { s with pins := p } := mild_same rfl rfl rfl

theorem setSensing_mild (v : Sensing) (s : State) : Mild x s (setSensing v s) := mild_same rfl rfl rfl

theorem subWindow_keeps (v : BitVec 4) (s : State) : Keeps s (subWindow v s) := by
  unfold subWindow
  dsimp only
  refine (Mild.keeps fun _ => pins_mild s { s.pins with vane := v }).trans ?_
  split
  · refine (Mild.keeps fun _ => setSensing_mild (windowed s.cfg v s.sensing) _).trans
      (Keeps.trans ?_ (selfRefresh_keeps _))
    split
    · exact Mild.keeps fun _ => queueObs_mild ..
    · exact .refl _
  · exact .refl _

theorem obsPeriod_keeps (s : State) : Keeps s (obsPeriod s) := by
  unfold obsPeriod
  split
  · exact Mild.keeps fun _ => (queueObs_mild ..).after rfl rfl rfl
  · exact .refl s

theorem rainConfirmed_keeps (s : State) : Keeps s (rainConfirmed s) := by
  unfold rainConfirmed
  split
  · exact .refl s
  · dsimp only
    refine Mild.keeps fun _ => Mild.trans ?_ (queueObs_mild ..)
    split <;> exact mild_same rfl rfl rfl

theorem sourceStale_keeps (k : SlotId) (s : State) : Keeps s (sourceStale k s) := by
  unfold sourceStale
  split
  · exact tableChanged_keeps ..
  all_goals exact .refl s

theorem sourceLost_keeps (k : SlotId) (s : State) : Keeps s (sourceLost k s) := by
  unfold sourceLost
  split
  · exact (Mild.keeps fun _ => raiseEvent_mild .sourceLost s).trans (tableChanged_keeps (setEntry k .absent s) _)
  all_goals exact .refl s

theorem takeObs_keeps (n : Nat) (p : List Byte) (s : State) : Keeps s (takeObs n p s) := by
  unfold takeObs
  split
  · exact .refl s
  · split
    · exact tableChanged_keeps ..
    · exact Mild.keeps fun _ => raiseError_mild ..

/-! ### Link -/

theorem closeForIsolation_keeps (s : State) (c : Channel) : Keeps s (closeForIsolation s c) := by
  unfold closeForIsolation
  dsimp only
  split <;> rename_i hd
  case h_1 => exact closeRequest_keeps ..
  case h_2 =>
    split
    · exact .refl s
    · exact closeRequest_keeps ..
  case h_3 | h_4 => exact setDriver_mild (by rw [hd]; rfl)
  all_goals exact .refl s

theorem applyPolicy_keeps (s : State) : Keeps s (applyPolicy s) := by
  unfold applyPolicy
  split
  · exact foldl_rel Keeps.refl Keeps.trans closeForIsolation_keeps _ _
  · exact foldl_rel Keeps.refl Keeps.trans (fun s c => halt_keeps c s) _ _

theorem entryEffect_mild (new : LinkState) (s : State) : Mild x s (entryEffect new s) := by
  unfold entryEffect
  split
  · exact raiseEvent_mild ..
  · exact enqueue_mild ..
  · exact wantRestart_mild ..
  all_goals exact .refl _ _

theorem handOn_keeps (new : LinkState) (s : State) : Keeps s (handOn new s) := by
  unfold handOn
  split
  · exact (withdrawAll_keeps _).trans (applyPolicy_keeps _)
  · exact (withdrawAll_keeps _).trans (applyPolicy_keeps _)
  · exact withdrawAll_keeps _
  all_goals exact .refl _

theorem scanOnEntry_mild (new : LinkState) (s : State) : Mild x s (scanOnEntry new s) := by
  unfold scanOnEntry
  split <;> exact mild_same rfl rfl rfl

theorem enterLink_keeps (new : LinkState) (s : State) : Keeps s (enterLink new s) := by
  unfold enterLink
  dsimp only
  exact ((Mild.keeps fun _ => entryEffect_mild new _).trans ((handOn_keeps new _).trans
    ((rejudgeAll_keeps _).trans (Mild.keeps fun _ => scanOnEntry_mild new _)))).after rfl rfl rfl

theorem duplicateHeard_keeps (s : State) : Keeps s (duplicateHeard s) := by
  unfold duplicateHeard
  have h := (Mild.keeps fun _ => raiseError_mild .duplicateStation .duplicate s.cfg.station s).trans
    (enterLink_keeps .mute (raiseError .duplicateStation .duplicate s.cfg.station s))
  split
  case h_1 | h_2 | h_3 => exact h
  all_goals exact .refl s

theorem countDrop_keeps (s : State) : Keeps s (countDrop s) := by
  unfold countDrop
  dsimp only
  have h : Keeps s { s with link := { s.link with drops := satSucc Config.dropLimit s.link.drops } } :=
    Mild.keeps fun _ => mild_same rfl rfl rfl
  split
  · split
    case h_1 | h_2 | h_3 => exact h.trans (enterLink_keeps ..)
    all_goals exact h
  · exact h

theorem presenceExpired_keeps (s : State) : Keeps s (presenceExpired s) := by
  unfold presenceExpired
  split
  · exact Mild.keeps fun _ => (enqueue_mild ..).after rfl rfl rfl
  · exact .refl s

/-! ### Transmit path -/

theorem slotReached_mild (n : Nat) (s : State) : Mild x s (slotReached n s) := by
  unfold slotReached
  split
  · exact .refl x s
  · split
    · dsimp only
      split <;> exact mild_same rfl rfl rfl
    · exact .refl x s

theorem leaveQueue_mild (s : State) : Mild x s (leaveQueue s) := (setQueue_mild ..).trans (frameLeft_mild _)

theorem transmitted_mild (s : State) : Mild x s (transmitted s) := by
  unfold transmitted
  split
  · exact .refl x s
  · refine (leaveQueue_mild s).trans (Mild.trans (b := resetDrops (countSent (leaveQueue s))) ?_ ?_)
    · unfold resetDrops; split <;> exact mild_same rfl rfl rfl
    · unfold tellSent
      split
      · exact claimSent_mild ..
      · exact wantRestart_mild ..
      all_goals exact .refl x _

theorem mismatched_keeps (s : State) : Keeps s (mismatched s) := by
  unfold mismatched
  split
  · exact .refl s
  · have hc : Keeps s (countRetry s) := Mild.keeps fun _ => mild_same rfl rfl rfl
    dsimp only
    split
    · refine hc.trans ?_
      unfold dropSending
      exact (Mild.keeps fun _ => (leaveQueue_mild _).trans ((raiseError_mild ..).trans (tellDropped_mild ..))).trans
        (countDrop_keeps _)
    · split
      · refine hc.trans (Mild.keeps fun _ => (leaveQueue_mild _).trans ?_)
        unfold mergeClaim
        split
        · split
          · exact queueClaim_mild ..
          · exact .refl _ _
        all_goals exact .refl _ _
      · exact hc.trans (Mild.keeps fun _ => setQueue_mild ..)

/-! ### Request Handler -/

theorem isFaulted_rest {d : Driver} (h : isFaulted d = true) : inMotion d = false := by
  cases d <;> simp_all [isFaulted, inMotion]

theorem clearFault_keeps {c : Channel} {s : State} (k : Cause) (w : Requester)
    (h : inMotion (s.drivers.get c) = false) : Keeps s (clearFault c k w s) := by
  unfold clearFault
  dsimp only
  have h1 : Keeps s (setDriver c (.idle (freshPosition c s)) s) := setDriver_mild h.symm
  have h2 : inMotion ((setDriver c (.idle (freshPosition c s)) s).drivers.get c) = false := by
    rw [setDriver_get_same]; rfl
  refine h1.trans ?_
  split
  · refine (queueClose_keeps _ h2).trans (queueClose_keeps _ ?_)
    rw [(queueClose_step ..).drivers]; exact h2
  · exact queueClose_keeps _ h2

theorem closeChannel_keeps (k : Cause) (w : Requester) (c : Channel) (s : State) :
    Keeps s (closeChannel k w c s).2 := by
  unfold closeChannel
  dsimp only
  split <;> rename_i hd
  case h_2 =>
    split
    · exact .refl s
    · exact clearFault_keeps k w (by rw [hd]; rfl)
  case h_3 =>
    split
    · exact .refl s
    · exact closeRequest_keeps ..
  case h_4 | h_7 | h_8 | h_9 => exact closeRequest_keeps ..
  all_goals exact .refl s

theorem openChannel_keeps (k : Cause) (w : Requester) (c : Channel) (s : State) :
    Keeps s (openChannel k w c s).2 := by
  unfold openChannel
  repeat' split
  all_goals try exact .refl s
  rename_i h1 h2 h3 h4 h5 h6 h7
  refine openRequest_keeps _ _ _ ?_
  cases hd : s.drivers.get c <;> simp_all [busyClosing, opensAlready, isOpening, inMotion]

theorem stopChannel_keeps (c : Channel) (s : State) : Keeps s (stopChannel c s).2 := by
  unfold stopChannel
  split
  · exact .refl s
  · split
    · split
      · exact stopMotion_keeps c s
      · exact .refl s
    · split
      · split
        · exact stopJob_keeps c s
        · exact .refl s
      · exact .refl s

theorem judgeEach_keeps {f : Channel → State → Verdict × State} (hf : ∀ c s, Keeps s (f c s).2) :
    ∀ (cs : List Channel) (t : Tally) (s : State), Keeps s (judgeEach f cs t s).2
  | [], _, s => .refl s
  | c :: cs, _, s => (hf c s).trans (judgeEach_keeps hf cs _ _)

theorem reply_mild (q : Asked) (a : Answer) (b : Bool) (s : State) : Mild x s (reply q a b s) := by
  unfold reply
  split
  · exact enqueue_mild ..
  · exact .refl x s

theorem answer_mild (q : Asked) (a : Answer) (s : State) : Mild x s (answer q a s) := by
  unfold answer
  dsimp only
  split
  · exact (reply_mild ..).trans (recordRefusal_mild ..)
  · exact reply_mild ..

theorem refuseWhole_mild (q : Asked) (n : Byte) (v : Nat) (e : ErrorCode) (s : State) :
    Mild x s (refuseWhole q n v e s) := answer_mild ..

theorem setHold_keeps (ms : Nat) (s : State) : Keeps s (setHold ms s) := by
  unfold setHold
  split
  · exact Mild.keeps fun _ => mild_same rfl rfl rfl
  · exact (rejudgeAll_keeps _).after rfl rfl rfl

theorem endHold_keeps (s : State) : Keeps s (endHold s) := by
  unfold endHold
  split
  · exact (rejudgeAll_keeps _).after rfl rfl rfl
  · exact .refl s

theorem channelVerb_keeps (q : Asked) (n : Byte) (v : Nat) (m : Byte) (s : State)
    {f : Channel → State → Verdict × State} (hf : ∀ c s, Keeps s (f c s).2) :
    Keeps s (channelVerb q n v m f s) := by
  unfold channelVerb
  exact (judgeEach_keeps hf _ _ s).trans (Mild.keeps fun _ => answer_mild ..)

theorem takeCmd_keeps (q : Asked) (p : List Byte) (s : State) : Keeps s (takeCmd q p s) := by
  unfold takeCmd
  split
  · exact Mild.keeps fun _ => raiseError_mild ..
  · split
    · exact channelVerb_keeps _ _ _ _ _ fun c s => closeChannel_keeps ..
    · unfold verbOpen
      split
      · exact channelVerb_keeps _ _ _ _ _ fun c s => openChannel_keeps ..
      · exact Mild.keeps fun _ => answer_mild ..
    · unfold verbStop
      split
      · exact channelVerb_keeps _ _ _ _ _ fun c s => stopChannel_keeps ..
      · exact Mild.keeps fun _ => answer_mild ..
    · unfold verbHold
      exact (setHold_keeps ..).trans (Mild.keeps fun _ => answer_mild ..)
    · unfold verbUnhold
      split
      · exact (endHold_keeps s).trans (Mild.keeps fun _ => answer_mild ..)
      · exact Mild.keeps fun _ => answer_mild ..
    · exact Mild.keeps fun _ => answer_mild ..
  · exact Mild.keeps fun _ => answer_mild ..

theorem takeOthers_mild (q : Asked) (p : List Byte) (s : State) :
    Mild x s (takeRead q p s) ∧ Mild x s (takeTake q p s) ∧ Mild x s (takeClear q p s)
      ∧ Mild x s (takeRestart q p s) := by
  refine ⟨?_, ?_, ?_, ?_⟩
  · unfold takeRead
    repeat' split
    all_goals first | exact answer_mild .. | exact raiseError_mild ..
  · unfold takeTake
    repeat' split
    all_goals
      first
      | exact answer_mild ..
      | exact raiseError_mild ..
      | exact Mild.after (answer_mild _ _ (clearFlags s)) rfl rfl rfl
  · unfold takeClear
    repeat' split
    all_goals
      first
      | exact answer_mild ..
      | exact raiseError_mild ..
      | exact Mild.after (answer_mild _ _ (clearRecords s)) rfl rfl rfl
  · unfold takeRestart
    split
    · exact raiseError_mild ..
    · split
      · exact answer_mild ..
      · split
        · exact answer_mild ..
        · unfold acceptRestart
          dsimp only
          have hp : Mild x s { s with requests := { s.requests with pendingRestart := true } } :=
            mild_same rfl rfl rfl
          split
          · exact hp.trans ((reply_mild ..).trans (wantRestart_mild _))
          · exact hp.trans (reply_mild ..)
    · exact answer_mild ..

theorem dispatch_keeps (f : Frame) (s : State) : Keeps s (dispatch f s) := by
  unfold dispatch
  split
  · exact takeObs_keeps ..
  · exact takeClaim_keeps ..
  · exact Mild.keeps fun _ => takeRelease_mild ..
  · split
    · exact takeCmd_keeps ..
    · exact .refl s
  · split
    · exact Mild.keeps fun _ => (takeOthers_mild ..).1
    · exact .refl s
  · split
    · exact Mild.keeps fun _ => (takeOthers_mild ..).2.1
    · exact .refl s
  · split
    · exact Mild.keeps fun _ => (takeOthers_mild ..).2.2.1
    · exact .refl s
  · split
    · exact Mild.keeps fun _ => (takeOthers_mild ..).2.2.2
    · exact .refl s
  all_goals exact .refl s

theorem setRx_mild (r : Receiver) (s : State) : Mild x s (setRx r s) := mild_same rfl rfl rfl

theorem rejectFrame_mild (k : ErrorCode) (n : Nat) (s : State) : Mild x s (rejectFrame k n s) :=
  mild_same rfl rfl rfl

theorem countReceived_mild (s : State) : Mild x s (countReceived s) := mild_same rfl rfl rfl

theorem validFrame_keeps (f : Frame) (s : State) : Keeps s (validFrame f s) := by
  unfold validFrame
  dsimp only
  refine (Mild.keeps fun _ => countReceived_mild s).trans ?_
  split
  · exact duplicateHeard_keeps _
  · refine Keeps.trans ?_ (dispatch_keeps f _)
    unfold heardPeer
    split
    · exact enterLink_keeps ..
    · exact Mild.keeps fun _ => mild_same rfl rfl rfl
    all_goals exact .refl _

theorem frameHeard_keeps (f : Frame) (s : State) : Keeps s (frameHeard f s) := by
  unfold frameHeard
  split
  · exact .refl s
  · split
    · exact Mild.keeps fun _ => (rejectFrame_mild ..).trans (setRx_mild ..)
    · split
      · exact Mild.keeps fun _ => (rejectFrame_mild ..).trans (setRx_mild ..)
      · exact (Mild.keeps fun _ => setRx_mild ..).trans (validFrame_keeps f _)

theorem byteHeard_keeps (b : Byte) (s : State) : Keeps s (byteHeard b s) := by
  unfold byteHeard
  split
  · exact .refl s
  · unfold byteJudged
    split
    · exact Mild.keeps fun _ => setRx_mild ..
    · exact Mild.keeps fun _ => (rejectFrame_mild ..).trans (setRx_mild ..)
    · exact Mild.keeps fun _ => (rejectFrame_mild ..).trans (setRx_mild ..)
    · exact (Mild.keeps fun _ => setRx_mild ..).trans (validFrame_keeps _ _)

theorem duplicateFrame_keeps (s : State) : Keeps s (duplicateFrame s) := by
  unfold duplicateFrame
  split
  · exact .refl s
  · exact (duplicateHeard_keeps _).after rfl rfl rfl

/-! ### Wall switches -/

theorem setSwitch_mild (w : SwitchId) (v : Switch) (s : State) : Mild x s (setSwitch w v s) := by
  cases w <;> exact mild_same rfl rfl rfl

theorem recordPress_mild (v : Nat) (t : Tally) (s : State) : Mild x s (recordPress v t s) := by
  unfold recordPress
  split
  · exact recordRefusal_mild ..
  · exact .refl x s

theorem chirpIf_mild (t : Tally) (s : State) : Mild x s (chirpIf t s) := by
  unfold chirpIf
  split <;> exact mild_same rfl rfl rfl

theorem pressOpenChannel_keeps (c : Channel) (s : State) : Keeps s (pressOpenChannel c s).2 := by
  unfold pressOpenChannel
  split
  · exact openChannel_keeps ..
  · exact .refl s

theorem pressEffect_keeps (w : SwitchId) (s : State) : Keeps s (pressEffect w s) := by
  unfold pressEffect
  split
  · exact foldl_rel Keeps.refl Keeps.trans (fun s c => by
      split
      · exact stopChannel_keeps c s
      · exact .refl s) _ _
  · split
    · exact (judgeEach_keeps (fun c s => closeChannel_keeps _ _ c s) _ _ s).trans
        (Mild.keeps fun _ => recordPress_mild ..)
    · exact (judgeEach_keeps pressOpenChannel_keeps _ _ s).trans
        (Mild.keeps fun _ => (recordPress_mild ..).trans (chirpIf_mild ..))

theorem press_keeps (w : SwitchId) (s : State) : Keeps s (press w s) := by
  unfold press
  dsimp only
  split
  · exact (Mild.keeps fun _ => setSwitch_mild ..).trans (pressEffect_keeps ..)
  · exact .refl s

/-! ### Motor current and limits -/

theorem setCurrent_mild (c : Channel) (n : Nat) (s : State) : Mild x s (setCurrent c n s) :=
  mild_same rfl rfl rfl

theorem currentRisen_keeps (c : Channel) (n : Nat) (s : State) : Keeps s (currentRisen c n s) := by
  unfold currentRisen
  dsimp only
  refine (Mild.keeps fun _ => setCurrent_mild c n s).trans ?_
  split
  · exact takeOvercurrent_keeps ..
  · exact .refl _

theorem blankingExpired_keeps (c : Channel) (n : Nat) (s : State) : Keeps s (blankingExpired c n s) := by
  unfold blankingExpired
  dsimp only
  refine (Mild.keeps fun _ => setCurrent_mild c n s).trans ?_
  split
  · next d hd =>
    have h : Keeps (setCurrent c n s) (setDriver c d (setCurrent c n s)) := by
      rcases unblanked_cases hd with ⟨m, t, b, hs, rfl⟩ | ⟨m, t, b, hs, rfl⟩ <;>
        exact setDriver_mild (by rw [hs]; rfl)
    split
    · exact h.trans (takeOvercurrent_keeps ..)
    · exact h
  · exact .refl _

/-! ### Every command but those of a start -/

theorem whileRunning_keeps {f : State → State} {s t : State} (h0 : Keeps s t) (hf : Keeps t (f t)) :
    Keeps s (whileRunning f t) := by
  unfold whileRunning
  split
  · exact h0.trans (hf.trans (finish_keeps _))
  · exact h0

theorem running_keeps {f : State → State} {s : State} (hf : Keeps s (f s)) : Keeps s (whileRunning f s) :=
  whileRunning_keeps (.refl s) hf

theorem Mild.running {f : State → State} {s : State} (h : ∀ x, Mild x s (f s)) :
    Keeps s (whileRunning f s) := running_keeps (Mild.keeps h)

theorem pulse_mild (s : State) : Mild x s (pulse s) := by
  unfold pulse
  split
  · exact setSensing_mild ..
  · exact .refl x s

theorem gapExpired_mild (s : State) : Mild x s (gapExpired s) := by
  unfold gapExpired
  split
  · exact (rejectFrame_mild ..).trans (setRx_mild ..)
  all_goals exact .refl x s

theorem quietResync_mild (s : State) : Mild x s (quietResync s) := by
  unfold quietResync
  split
  · exact setRx_mild ..
  all_goals exact .refl x s

theorem released_mild (w : SwitchId) (s : State) : Mild x s (released w s) := by
  unfold released
  dsimp only
  split
  · exact setSwitch_mild ..
  · exact .refl x s

theorem chirpOff_keeps (s : State) : Keeps s { s with chirp := none } :=
  Mild.keeps fun _ => mild_same rfl rfl rfl

theorem exec_keeps {i : Instr} {s t : State} (h1 : i ≠ .coldStart) (h2 : i ≠ .resetAsserted)
    (h3 : ∀ im, i ≠ .loadComplete im) (h : exec i s = .next t) : Keeps s t := by
  cases i
  case coldStart => exact absurd rfl h1
  case resetAsserted => exact absurd rfl h2
  case loadComplete im => exact absurd rfl (h3 im)
  all_goals (cases h)
  case anemometerPulse => exact running_keeps (Mild.keeps fun _ => pulse_mild s)
  case subWindowExpiry v => exact running_keeps (subWindow_keeps v s)
  case observationPeriodExpiry => exact running_keeps (obsPeriod_keeps s)
  case rainLevelChange l =>
    split
    · exact .refl s
    · refine whileRunning_keeps (Mild.keeps fun _ => mild_same rfl rfl rfl) (Mild.keeps fun _ => ?_)
      unfold rainLevel; split <;> exact mild_same rfl rfl rfl
  case rainConfirmExpiry => exact running_keeps (rainConfirmed_keeps s)
  case sourceStale k => exact running_keeps (sourceStale_keeps k s)
  case sourceLost k => exact running_keeps (sourceLost_keeps k s)
  case stormReleaseExpiry =>
    refine running_keeps (f := fun s => if s.eval.stormRelease.isSome then stormReleased s else s) ?_
    split
    · exact stormReleased_keeps s
    · exact .refl s
  case calmHoldExpiry c => exact running_keeps (calmExpired_keeps c s)
  case ownSettleExpiry c => exact running_keeps (ownSettled_keeps c s)
  case claimRefreshDue c => exact Mild.running fun _ => claimRefresh_mild c s
  case peerSettleExpiry n t => exact Mild.running fun _ => peerSettled_mild n t s
  case claimExpired n t => exact Mild.running fun _ => claimLapsed_mild n t s
  case tableFullExpiry => exact Mild.running fun _ => tableFullExpired_mild s
  case warningTimerExpiry c => exact running_keeps (warningExpired_keeps c s)
  case blankingExpiry c n => exact running_keeps (blankingExpired_keeps c n s)
  case overcurrent c n => exact running_keeps (currentRisen_keeps c n s)
  case backoffExpiry c => exact running_keeps (backoffExpired_keeps c s)
  case retryTimerExpiry c => exact running_keeps (retryExpired_keeps c s)
  case brakeExpiry c => exact running_keeps (brakeExpired_keeps c s)
  case travelTimerExpiry c => exact running_keeps (travelExpired_keeps c s)
  case limitActive c l =>
    split
    · exact .refl s
    · refine whileRunning_keeps (Mild.keeps fun _ => mild_same rfl rfl rfl) ?_
      split
      · exact limitActivated_keeps ..
      · exact .refl _
  case limitInactive c l =>
    split
    · refine whileRunning_keeps (Mild.keeps fun _ => mild_same rfl rfl rfl) ?_
      split
      · exact limitDeactivated_keeps ..
      · exact .refl _
    · exact .refl s
  case chirpExpiry => exact running_keeps (f := fun s => { s with chirp := none }) (chirpOff_keeps s)
  case obsReceived h p => exact running_keeps (frameHeard_keeps _ s)
  case presReceived h p => exact running_keeps (frameHeard_keeps _ s)
  case claimReceived h p => exact running_keeps (frameHeard_keeps _ s)
  case releaseReceived h p => exact running_keeps (frameHeard_keeps _ s)
  case replyReceived h p => exact running_keeps (frameHeard_keeps _ s)
  case duplicateReceived => exact running_keeps (duplicateFrame_keeps s)
  case rxFrameFault b => exact running_keeps (byteHeard_keeps b s)
  case rxGapExpiry => exact running_keeps (Mild.keeps fun _ => gapExpired_mild s)
  case cmdClose h p => exact running_keeps (frameHeard_keeps _ s)
  case cmdOpen h p => exact running_keeps (frameHeard_keeps _ s)
  case cmdStop h p => exact running_keeps (frameHeard_keeps _ s)
  case cmdHold h p => exact running_keeps (frameHeard_keeps _ s)
  case cmdUnhold h p => exact running_keeps (frameHeard_keeps _ s)
  case cmdBadVerb h p => exact running_keeps (frameHeard_keeps _ s)
  case read h p => exact running_keeps (frameHeard_keeps _ s)
  case take h p => exact running_keeps (frameHeard_keeps _ s)
  case clear h p => exact running_keeps (frameHeard_keeps _ s)
  case restart h p => exact running_keeps (frameHeard_keeps _ s)
  case holdExpiry => exact running_keeps (endHold_keeps s)
  case switchInputChange w a =>
    split
    · exact .refl s
    · exact whileRunning_keeps (Mild.keeps fun _ => setSwitch_mild ..) (Mild.keeps fun _ => setSwitch_mild ..)
  case switchReleaseDebounce w => exact running_keeps (Mild.keeps fun _ => released_mild w s)
  case swClosePress => exact running_keeps (press_keeps .swClose s)
  case swOpenPress => exact running_keeps (press_keeps .swOpen s)
  case deferralSlot n => exact Mild.running fun _ => slotReached_mild n s
  case transmitComplete => exact Mild.running fun _ => transmitted_mild s
  case echoMismatch => exact running_keeps (mismatched_keeps s)
  case joinTimerExpiry =>
    refine running_keeps ?_
    unfold joined
    split
    · exact enterLink_keeps ..
    · exact .refl s
  case isolationTimerExpiry =>
    refine running_keeps ?_
    unfold isolationExpired
    split
    · exact enterLink_keeps ..
    · exact .refl s
  case presenceTimerExpiry => exact running_keeps (presenceExpired_keeps s)
  case framePassedOver k h p => exact running_keeps (frameHeard_keeps _ s)
  case lineByteArrival b => exact running_keeps (byteHeard_keeps b s)
  case rxQuietResync => exact running_keeps (Mild.keeps fun _ => quietResync_mild s)

/-! ### Starts and ticks -/

theorem coldStart_fits (p : Phase) (s : State) (y : Channel) : ClaimFits y (coldStart p s) :=
  fit_rest (by show inMotion (State.reset.drivers.get y) = false; revert y; decide) rfl rfl

theorem elapse_keeps (s : State) : Keeps s (elapse s) := by
  refine ⟨fun hf y => ?_⟩
  have h := claimFits_iff.1 (hf y)
  have hos : ownStates y (elapse s) = (ownStates y s).map (fun st => match st with
      | .settling n => .settling (n - Config.tickMs) | .announcing => .announcing | .held => .held
      | .yielding => .yielding) := by
    unfold ownStates ownOf
    show ((s.supply.entries.map tickedEntry).filter _).map _ = _
    rw [List.filter_map, List.map_map, List.map_map]
    rfl
  rw [claimFits_iff, elapse_driver, inMotion_ticked, hos]
  show Fit _ (jobStates y s) _
  generalize inMotion (s.drivers.get y) = m at *
  generalize jobStates y s = a at *
  generalize ownStates y s = b at *
  cases h
  · exact .moving
  · exact .rest
  · exact .waiting
  · exact .announcing
  · exact .settling _

/-- Where nothing is in the queue or the table, a fitted state has no motion. -/
theorem rest_of_empty {s : State} (he : s.supply.entries = [])
    (hf : ∀ y, ClaimFits y s) (y : Channel) : inMotion (s.drivers.get y) = false := by
  cases h : inMotion (s.drivers.get y)
  · rfl
  · have := (fit_moving (hf y) h).2
    unfold ownStates ownOf at this
    rw [he] at this; cases this

theorem loadChannel_keeps (warm : Bool) (s : State) (c : Channel)
    (hc : inMotion (s.drivers.get c) = false) :
    Keeps s ((if warm then warmChannel else coldChannel) s c) := by
  have hcold : Keeps s (coldChannel s c) := by
    unfold coldChannel
    split
    · exact setDriver_mild (by rw [hc]; rfl)
    · split
      · exact ((setDriver_mild (s := { s with free := s.free + 1 }) (c := c)
          (d := .faulted (Config.freePosition s.free) .limit) (by exact hc.symm)).trans
          (Mild.keeps fun _ => faultRaised_mild ..)).after rfl rfl rfl
      · exact setDriver_mild (by rw [hc]; rfl)
  split
  · unfold warmChannel
    split
    · exact setDriver_mild (by rw [hc]; rfl)
    · split <;> rename_i hd
      · exact hcold
      · split
        · exact limitFault_keeps c s
        · exact setDriver_mild (by rw [hd]; rfl)
      all_goals
        split
        · exact limitFault_keeps c s
        · exact .refl s
  · exact hcold

/-- A channel set at a load is at rest. -/
theorem loadChannel_rest (warm : Bool) (s : State) (c y : Channel)
    (h : ∀ y, inMotion (s.drivers.get y) = false) :
    inMotion (((if warm then warmChannel else coldChannel) s c).drivers.get y) = false := by
  by_cases hy : y = c
  · subst hy
    have hset : ∀ (d : Driver) (u : State), inMotion d = false →
        inMotion ((setDriver y d u).drivers.get y) = false := fun d u hd => by
      rw [setDriver_get_same]; exact hd
    have hcold : inMotion ((coldChannel s y).drivers.get y) = false := by
      unfold coldChannel
      split
      · exact hset _ _ rfl
      · split
        · rw [(faultRaised_step ..).drivers]; exact hset _ _ rfl
        · exact hset _ _ rfl
    have hfault : inMotion ((limitFault y s).drivers.get y) = false := by
      have hb : inMotion ((becomeFaulted y .limit s).drivers.get y) = false := by
        unfold becomeFaulted
        dsimp only
        rw [if_neg (by rw [h y]; simp)]
        have hf : isFaulted ((faultRaised .limit (faultSource (s.drivers.get y))
            (setDriver y (.faulted (heldPosition (s.drivers.get y)) .limit) s)).drivers.get y) = true := by
          rw [(faultRaised_step ..).drivers, setDriver_get_same]; rfl
        generalize faultRaised .limit (faultSource (s.drivers.get y))
            (setDriver y (.faulted (heldPosition (s.drivers.get y)) .limit) s) = u at *
        unfold rejudge
        rw [openingAllowed_faulted hf]
        simp only [Bool.false_eq_true, if_false]
        have hd : (removeOpenJob y u).drivers = u.drivers := (removeOpenJob_step y u).drivers
        have hrest := isFaulted_rest hf
        split
        · unfold reverse
          rw [hd]
          split
          · next hop => rw [hop] at hrest; cases hrest
          all_goals rw [hd]; exact hrest
        · unfold halt
          rw [hd]
          split
          · next hop => rw [inMotion_opening hop] at hrest; cases hrest
          · rw [hd]; exact hrest
      unfold limitFault
      split
      · exact h y
      · split
        · exact h y
        · rw [(faultRaised_step ..).drivers]; exact hset _ _ rfl
      all_goals exact hb
    split
    · unfold warmChannel
      split
      · exact hset _ _ rfl
      · split
        · exact hcold
        · split
          · exact hfault
          · exact hset _ _ rfl
        all_goals
          split
          · exact hfault
          · exact h y
    · exact hcold
  · have : LoadFrame (· = c) s ((if warm then warmChannel else coldChannel) s c) := by
      split
      · exact warmChannel_load ..
      · exact coldChannel_load ..
    rw [this.others y hy]; exact h y

theorem loadChannels_keeps (warm : Bool) : ∀ (l : List Channel) (s : State),
    (∀ y, inMotion (s.drivers.get y) = false) →
    Keeps s (l.foldl (if warm then warmChannel else coldChannel) s)
  | [], s, _ => .refl s
  | c :: l, s, h => (loadChannel_keeps warm s c (h c)).trans
      (loadChannels_keeps warm l _ fun y => loadChannel_rest warm s c y h)

/-- R189, R190: the completion of a load keeps every channel fitted. -/
theorem loadedBase_fits (warm : Bool) (im : List Byte) (s : State)
    (h : ∀ y, inMotion (s.drivers.get y) = false) : Keeps s (loadedBase warm im s) := by
  unfold loadedBase
  dsimp only
  have hr : ∀ (n : Nat) (u : State), Keeps u (raiseTimes .configClamped n u)
      ∧ (raiseTimes .configClamped n u).drivers = u.drivers := by
    intro n
    induction n with
    | zero => exact fun u => ⟨.refl u, rfl⟩
    | succ n ih => exact fun u => ⟨((Mild.keeps fun _ => raiseEvent_mild .configClamped u)).trans (ih _).1,
        (ih _).2⟩
  obtain ⟨h1, h2⟩ := hr (judgeImage (imageCopy im)).events (settle (imageCopy im) (judgeImage (imageCopy im)) s)
  have h3 := h1.after (s := s) rfl rfl rfl
  generalize raiseTimes .configClamped (judgeImage (imageCopy im)).events
    (settle (imageCopy im) (judgeImage (imageCopy im)) s) = b at *
  have h4 : Keeps b _ := (loadChannels_keeps warm allChannels { b with
    sensing := sensingAtStart b.cfg b.pins.rain
    picture := { slots := filledSlots b.cfg, fused := Picture.unknown } } (fun y => by
      show inMotion (b.drivers.get y) = false
      rw [h2]; exact h y)).after (s := b) rfl rfl rfl
  generalize allChannels.foldl (if warm then warmChannel else coldChannel) _ = d at *
  exact h3.trans (h4.before rfl rfl rfl)

/-! ### A part that does not run -/

/-- A part that does not run takes no command but those of a start: only its inputs change. -/
theorem exec_away {i : Instr} {s t : State} (hp : s.phase ≠ .running) (h1 : i ≠ .coldStart)
    (h2 : i ≠ .resetAsserted) (h3 : ∀ im, i ≠ .loadComplete im) (h : exec i s = .next t) :
    ∃ p a b, t = { s with pins := p, requests := { s.requests with swClose := a, swOpen := b } } := by
  have hs : ∃ p a b, s = { s with pins := p, requests := { s.requests with swClose := a, swOpen := b } } :=
    ⟨_, _, _, rfl⟩
  have hw : ∀ (f : State → State) (u : State), u.phase = s.phase → whileRunning f u = u :=
    fun f u hu => whileRunning_away (by rw [hu]; exact hp)
  cases i
  case coldStart => exact absurd rfl h1
  case resetAsserted => exact absurd rfl h2
  case loadComplete im => exact absurd rfl (h3 im)
  all_goals cases h
  case rainLevelChange l =>
    split
    · exact hs
    · exact ⟨_, _, _, hw _ _ rfl⟩
  case limitActive c l =>
    split
    · exact hs
    · exact ⟨_, _, _, hw _ _ rfl⟩
  case limitInactive c l =>
    split
    · exact ⟨_, _, _, hw _ _ rfl⟩
    · exact hs
  case switchInputChange w a =>
    split
    · exact hs
    · cases w <;> exact ⟨_, _, _, hw _ _ rfl⟩
  all_goals exact ⟨_, _, _, hw _ s rfl⟩

end Sys2Proof.Machine
end

