-- ==== Sys2Proof/WellFormed.lean ====
section
/-! DEFINITION. Which commands can occur: the checks that the operands of a command satisfy whatever the state.
`exec` does not depend on them: it answers a next state for every command. -/

namespace Sys2Proof.WellFormed

/-- R137, R140: a valid frame carries a source of 1 to 63 and at most 24 payload bytes. -/
def frame (h : Header) (payload : List Byte) : Bool :=
  decide (1 ≤ h.source.toNat) && decide (h.source.toNat ≤ 63) && decide (payload.length ≤ 24)

/-- R137: the verb a CMD payload carries, where it has the byte. -/
def verbOf (payload : List Byte) : Option Nat := (payload[1]?).map BitVec.toNat

/-- A CMD row of verb `v`: the payload is too short to hold a verb, or holds `v` (R160). -/
def cmd (v : Nat) (h : Header) (payload : List Byte) : Bool :=
  frame h payload && (verbOf payload == none || verbOf payload == some v)

/-- The CMD_BAD_VERB row: the payload holds a verb of 0 or over 5 (R160). -/
def badVerb (h : Header) (payload : List Byte) : Bool :=
  frame h payload &&
    match verbOf payload with
    | none => false
    | some v => v == 0 || decide (5 < v)

/-- R79: a claim key names a station 1 to 63 and a tag 0 to 15. -/
def claimKey (station tag : Nat) : Bool :=
  decide (1 ≤ station) && decide (station ≤ 63) && decide (tag ≤ 15)

/-- The check of one command. -/
def command : Instr → Bool
  | .loadComplete image => image.length == 128
  | .peerSettleExpiry st tg | .claimExpired st tg => claimKey st tg
  | .obsReceived h p | .presReceived h p | .claimReceived h p | .releaseReceived h p
  | .replyReceived h p | .read h p | .take h p | .clear h p | .restart h p
  | .framePassedOver _ h p => frame h p
  | .cmdClose h p => cmd 1 h p
  | .cmdOpen h p => cmd 2 h p
  | .cmdStop h p => cmd 3 h p
  | .cmdHold h p => cmd 4 h p
  | .cmdUnhold h p => cmd 5 h p
  | .cmdBadVerb h p => badVerb h p
  | .deferralSlot n => decide (1 ≤ n) && decide (n ≤ 255)
  | .coldStart | .resetAsserted | .anemometerPulse | .subWindowExpiry _
  | .observationPeriodExpiry | .rainLevelChange _ | .rainConfirmExpiry | .sourceStale _
  | .sourceLost _ | .stormReleaseExpiry | .calmHoldExpiry _ | .ownSettleExpiry _
  | .claimRefreshDue _ | .tableFullExpiry | .warningTimerExpiry _ | .blankingExpiry _ _
  | .overcurrent _ _ | .backoffExpiry _ | .retryTimerExpiry _ | .brakeExpiry _
  | .travelTimerExpiry _ | .limitActive _ _ | .limitInactive _ _ | .chirpExpiry
  | .duplicateReceived | .rxFrameFault _ | .rxGapExpiry | .holdExpiry
  | .switchInputChange _ _ | .switchReleaseDebounce _ | .swClosePress | .swOpenPress
  | .transmitComplete | .echoMismatch | .joinTimerExpiry | .isolationTimerExpiry
  | .presenceTimerExpiry | .lineByteArrival _ | .rxQuietResync => true

end Sys2Proof.WellFormed
end

