-- ==== Sys2Proof/Tests/Slice0.lean ====
section
/-! SUPPORT. Small tests: ill-formed commands refused, one step at a time on a small running part with values from the
manual's tables and worked sequences, and one witness of the hypotheses of each obligation. -/

namespace Sys2Proof.Tests

open Sys2Proof Sys2Proof.Machine

set_option maxRecDepth 20000

/-! ### Well-formed commands -/

/-- A frame of station 9 to all. -/
def fromPeer : Header := { source := 9, target := 0, groups := 0 }

/-- A frame of station 9 to the station alone. -/
def toStation : Header := { source := 9, target := 5, groups := 0 }

theorem test_wf_image_length : WellFormed.command (.loadComplete [0xB8]) = false := by decide

theorem test_wf_frame_source : WellFormed.command (.presReceived { fromPeer with source := 64 } []) = false := by
  decide

theorem test_wf_frame_length :
    WellFormed.command (.replyReceived fromPeer (List.replicate 25 0)) = false := by decide

theorem test_wf_cmd_verb : WellFormed.command (.cmdClose toStation [1, 2, 0, 0]) = false := by decide

theorem test_wf_bad_verb : WellFormed.command (.cmdBadVerb toStation [1, 5, 0, 0]) = false := by decide

theorem test_wf_claim_key : WellFormed.command (.claimExpired 9 16) = false := by decide

theorem test_wf_deferral_slot : WellFormed.command (.deferralSlot 256) = false := by decide

theorem test_wf_accepts : WellFormed.command (.cmdHold toStation [1, 4, 0, 30]) = true := by decide

/-! ### A small running part -/

/-- Station 5 on circuit 2 with B 60 and B_iso 50; channel 1 is a low window facing 12 with a local switch, channel 2 a
roof light in TIMED mode, channel 3 a high window facing 4; the others are UNUSED. -/
def cfg : Settings :=
  { Settings.defaults with
    station := 5, circuit := 2, budget := 60, isoShare := 50, authority := [9, 0, 0, 0]
    sources := { (Eight.fill 0 : Eight Nat) with e1 := 5, e2 := 9 }
    remoteRestart := true, localOpen := true
    channels := { (Eight.fill ChannelCfg.unused : Eight ChannelCfg) with
      e1 := { ChannelCfg.unused with
        cls := .windowLow, facing := .sector 12, zone := 1, groups := 1, localSwitch := true }
      e2 := { ChannelCfg.unused with cls := .skylight, facing := .roof, draw := 20, timed := true }
      e3 := { ChannelCfg.unused with cls := .windowHigh, facing := .sector 4, draw := 12 } } }

/-- The SELF entry and that of station 9. -/
def slots : Eight Slot :=
  { (Eight.fill Slot.unused : Eight Slot) with
    e1 := { station := 5, isSelf := true
            entry := .fresh { gust := some 40, sector := 12, rain := some .dry } 0 }
    e2 := { station := 9, isSelf := false
            entry := .fresh { gust := some 50, sector := 11, rain := some .dry } 1000 } }

/-- The part running, ACTIVE, with channels 1 to 3 IDLE at PART and a known picture. -/
def run : State :=
  { State.reset with
    phase := .running, cfg := cfg
    sensing := { sensingAtStart cfg .dry with gust := some 84, peak := some 84, published := 84 }
    picture := { slots := slots, fused := { g := some 50, w := some 11, r := .dry } }
    drivers := { (Eight.fill .disabled : Eight Driver) with
      e1 := .idle .part, e2 := .idle .part, e3 := .idle .part }
    link := { state := .active, join := none, isolation := some 30000, presence := some 5000, drops := 0 } }

/-- The state after a command. -/
def after (i : Instr) (s : State) : State :=
  match exec i s with
  | .next t => t
  | .fault _ => s
  | .refused _ => s

/-- A close motion. -/
def closeMotion : Motion :=
  { dir := .close, cls := 1, cause := .wind, requester := .absent, retry := 0, attempt := none, stopAtEnd := false }

/-- An opening motion asked for by station 9. -/
def openMotion : Motion :=
  { closeMotion with dir := .opening, cls := 0, cause := .openCommand, requester := .station 9 }

/-- A WAITING close job. -/
def closeJob (c : Channel) : Job :=
  { chan := c, dir := .close, cls := 1, zone := 0, exposure := none, cause := .command, requester := .station 9
    retry := 0, state := .waiting, heldBack := false }

/-- An own entry. -/
def ownClaim (c : Channel) (tag : Nat) (st : ClaimState) : Entry :=
  { station := 5, tag := tag, chan := c, draw := 15, cls := 1, lifetimeS := 12, state := st, ageMs := 0, own := true
    reasserted := false, refreshBarred := false }

/-- An entry of station 9. -/
def peerClaim (tag : Nat) (draw : Nat) (st : ClaimState) : Entry :=
  { station := 9, tag := tag, chan := 0, draw := draw, cls := 1, lifetimeS := 12, state := st, ageMs := 0, own := false
    reasserted := false, refreshBarred := false }

/-- A frame of the transmit queue. -/
def queued (prio : Nat) (owner : FrameOwner) (sending : Bool) : TxFrame :=
  { frame := { kind := .release, prio := prio, source := 5, target := 0, groups := 0, payload := [2, 3] }
    owner := owner, attempts := 0, sending := sending }

/-! ### Sensing (chapter 1) -/

/-- 1.8, second 4: the ring 15, 13, 22 and K 700 give 116, sector 13, and a gust-step OBS of priority 2. -/
theorem test_gust_and_step :
    let s := { run with sensing := { run.sensing with ring2 := 15, ring3 := 13, pulses := 22, peak := some 98 } }
    let t := after (.subWindowExpiry 0b1011) s
    t.sensing.gust = some 116 ∧ t.sensing.vane = 13 ∧ t.sensing.published = 116
      ∧ (t.line.queue.take 1).map (fun f => (f.frame.prio, f.frame.payload)) = [(2, [0, 116, 13, 0, 2])] := by decide

/-- The gust table of R3. -/
theorem test_gust_table :
    gustOf 700 14 14 14 = 98 ∧ gustOf 700 20 20 10 = 116 ∧ gustOf 100 1 1 1 = 1 ∧ gustOf 100 0 1 1 = 0
      ∧ gustOf 700 1023 0 0 = 999 := by decide

/-- The sixteen patterns of 1.3, V4 first. -/
theorem test_gray_table :
    [0b0000#4, 0b0001, 0b0011, 0b0010, 0b0110, 0b0111, 0b0101, 0b0100, 0b1100, 0b1101, 0b1111, 0b1110,
      0b1010, 0b1011, 0b1001, 0b1000].map graySector = List.range 16 := by decide

/-- 1.8, second 10, period first: the periodic OBS carries 123 and the peak is reset to 67. -/
theorem test_periodic_obs :
    let s := { run with sensing := { run.sensing with gust := some 67, peak := some 123, vane := 13, published := 116 } }
    let t := after .observationPeriodExpiry s
    t.sensing.peak = some 67 ∧ t.sensing.published = 123
      ∧ t.line.queue.map (fun f => f.frame.payload) = [[0, 123, 13, 0, 0]] := by decide

theorem test_pulse : (after .anemometerPulse run).sensing.pulses = 1 := by decide

theorem test_rain_confirm_starts :
    (after (.rainLevelChange .wet) run).sensing.confirm = some { target := .wet, left := 4000 } := by decide

theorem test_rain_confirmed :
    let t := after .rainConfirmExpiry
      { run with sensing := { run.sensing with confirm := some { target := .fault, left := 0 } } }
    t.sensing.rain = .fault ∧ t.status.flags = 0x10 ∧ t.line.queue.map (fun f => f.frame.prio) = [2] := by decide

/-! ### Sources and demand (chapters 2 and 3) -/

/-- R18, R28: an OBS with rain 2 (FAULT) makes R WET, and the roof light's demand is SET with class 2. -/
theorem test_obs_taken :
    let t := after (.obsReceived fromPeer [0, 98, 13, 2, 0]) run
    t.picture.fused = { g := some 98, w := some 13, r := .wet }
      ∧ (t.eval.chans.get 1).demand = some ⟨.rain, 2⟩ ∧ (t.eval.chans.get 0).exposure = some 91 := by decide

theorem test_source_stale :
    (after (.sourceStale 1) run).picture.fused = { g := some 40, w := some 12, r := .dry } := by decide

theorem test_source_lost :
    let s := { run with picture := { run.picture with slots := { slots with
      e2 := { slots.e2 with entry := .stale { gust := some 50, sector := 11, rain := some .dry } 120000 } } } }
    let t := after (.sourceLost 1) s
    (t.picture.slots.get 1).entry = .absent ∧ t.status.counters.sourceLost = 1 := by decide

/-- The factor table of R34, by distance. -/
theorem test_facing_table :
    (List.range 9).map (fun d => facingFactor (.sector 0) (some d)) = [16, 15, 12, 7, 3, 0, 0, 0, 0] := by decide

/-- 3.10, 31:00: the release timer expires, the flag clears, and the calm hold of 15 min starts. -/
theorem test_storm_release :
    let s := { run with
      picture := { run.picture with fused := { g := some 80, w := some 11, r := .dry } }
      eval := { run.eval with
        storm := true, stormRelease := some 0
        chans := run.eval.chans.set 0 { exposure := some 75, demand := some ⟨.storm, 3⟩, calm := none } }
      drivers := run.drivers.set 0 (.idle .closed) }
    let t := after .stormReleaseExpiry s
    t.eval.storm = false ∧ (t.eval.chans.get 0).demand = some ⟨.storm, 3⟩
      ∧ (t.eval.chans.get 0).calm = some 900000 := by decide

theorem test_calm_hold :
    let s := { run with eval := { run.eval with
      chans := run.eval.chans.set 0 { exposure := some 75, demand := some ⟨.wind, 1⟩, calm := some 0 } } }
    ((after (.calmHoldExpiry 0) s).eval.chans.get 0).demand = none := by decide

/-! ### Queue and claims (chapters 4 and 5) -/

/-- R71, R84, R137: an admitted close command announces a NEW CLAIM of tag 1. -/
theorem test_cmd_close_admitted :
    let t := after (.cmdClose toStation [7, 1, 1, 0]) run
    t.jobs.map Job.state = [.announcing] ∧ ownTotal t = 15
      ∧ t.line.queue.map (fun f => f.frame.payload) = [[7, 1, 0, 1, 0], [2, 1, 1, 15, 1, 12, 1]] := by decide

theorem test_own_settle :
    let s := { run with
      jobs := [{ closeJob 0 with state := .settling }]
      supply := { run.supply with entries := [ownClaim 0 1 (.settling 0)] } }
    let t := after (.ownSettleExpiry 0) s
    isWarning (t.drivers.get 0) = true ∧ t.jobs = [] ∧ heldTotal t = 15 := by decide

theorem test_refresh :
    let s := { run with
      drivers := run.drivers.set 0 (.closing closeMotion 9000 none)
      supply := { run.supply with entries := [{ ownClaim 0 1 .held with ageMs := 6000 }] } }
    (after (.claimRefreshDue 0) s).line.queue.map (fun f => f.frame.payload) = [[2, 1, 1, 15, 1, 12, 2]] := by decide

theorem test_claim_taken :
    totalT (after (.claimReceived fromPeer [2, 3, 1, 60, 1, 12, 1]) run) = 50 := by decide

theorem test_release_taken :
    let s := { run with supply := { run.supply with entries := [peerClaim 3 20 .held] } }
    (after (.releaseReceived fromPeer [2, 3]) s).supply.entries = [] := by decide

theorem test_peer_settle :
    let s := { run with supply := { run.supply with entries := [peerClaim 3 20 (.settling 0)] } }
    heldTotal (after (.peerSettleExpiry 9 3) s) = 20 := by decide

theorem test_claim_expired :
    let s := { run with supply := { run.supply with entries := [peerClaim 3 20 .held] } }
    let t := after (.claimExpired 9 3) s
    totalT t = 0 ∧ t.status.errorSource = 9 := by decide

theorem test_table_full :
    (after .tableFullExpiry { run with supply := { run.supply with tableFull := some 0 } }).supply.tableFull = none := by
  decide

/-! ### Drivers (chapter 6) -/

theorem test_warning :
    (after (.warningTimerExpiry 0) { run with drivers := run.drivers.set 0 (.warning .part closeMotion 0) }).drivers.get 0
      = .closing closeMotion 60000 (some 400) := by decide

theorem test_blanking :
    (after (.blankingExpiry 0 24) { run with drivers := run.drivers.set 0 (.closing closeMotion 9000 (some 0)) }).drivers.get
      0 = .closing closeMotion 9000 none := by decide

theorem test_overcurrent :
    let t := after (.overcurrent 0 25) { run with drivers := run.drivers.set 0 (.closing closeMotion 9000 none) }
    t.drivers.get 0 = .backoff { closeMotion with attempt := some 1 } true 1000 ∧ t.status.flags = 1 := by decide

theorem test_backoff :
    (after (.backoffExpiry 0)
      { run with drivers := run.drivers.set 0 (.backoff { closeMotion with attempt := some 2 } true 0) }).drivers.get 0
      = .blocked { closeMotion with attempt := some 2 } 40000 := by decide

theorem test_retry :
    (after (.retryTimerExpiry 0)
      { run with drivers := run.drivers.set 0 (.blocked { closeMotion with cause := .command, attempt := some 2 } 0)
      }).jobs.map Job.retry = [2] := by decide

theorem test_brake :
    isWarning ((after (.brakeExpiry 0) { run with drivers := run.drivers.set 0 (.brake closeMotion 0) }).drivers.get 0)
      = true := by decide

theorem test_travel_fault :
    (after (.travelTimerExpiry 0) { run with drivers := run.drivers.set 0 (.closing closeMotion 0 none) }).drivers.get 0
      = .faulted .part .travel := by decide

theorem test_limit_active : (after (.limitActive 0 .closed) run).drivers.get 0 = .idle .closed := by decide

theorem test_limit_inactive :
    (after (.limitInactive 0 .closed) (after (.limitActive 0 .closed) run)).drivers.get 0 = .idle .part := by decide

theorem test_chirp : sounder (after .chirpExpiry { run with chirp := some 0 }) = false := by decide

/-! ### The line (chapter 7) -/

/-- R138: the RELEASE of the worked frame, and its check byte. -/
theorem test_worked_frame :
    frameBytes { kind := .release, prio := 3, source := 0x0D, target := 0, groups := 0, payload := [0, 3] }
      = [0x43, 0x0D, 0, 0, 2, 0, 3, 0x4F] := by decide

theorem test_pres : (after (.presReceived fromPeer [2, 0, 0, 0]) run).status.received = 1 := by decide

theorem test_reply : (after (.replyReceived fromPeer [1, 1, 0, 0, 0]) run).status.received = 1 := by decide

theorem test_passed_over :
    (after (.framePassedOver .take { fromPeer with target := 6 } [1]) run).status.received = 1 := by decide

theorem test_duplicate : (after .duplicateReceived run).link.state = .mute := by decide

theorem test_byte_begins_frame : (after (.lineByteArrival 0x43) run).line.rx = .assembling [0x43] := by decide

theorem test_frame_fault :
    let t := after (.rxFrameFault 0xB0) run
    t.line.rx = .passingOver ∧ t.status.rejected = 1 ∧ t.status.errorCode = some .rxLength := by decide

theorem test_gap :
    let t := after .rxGapExpiry { run with line := { run.line with rx := .assembling [0x43, 9] } }
    t.line.rx = .idle ∧ t.status.errorCode = some .rxGap ∧ t.status.errorSource = 9 := by decide

theorem test_resync : (after .rxQuietResync { run with line := { run.line with rx := .passingOver } }).line.rx = .idle := by
  decide

theorem test_deferral_slot :
    (after (.deferralSlot 69) { run with line := { run.line with queue := [queued 2 .obs false] } }).line.queue
      = [queued 2 .obs true] := by decide

theorem test_transmit_complete :
    let t := after .transmitComplete { run with line := { run.line with queue := [queued 2 .obs true] } }
    t.line.queue = [] ∧ t.status.sent = 1 := by decide

theorem test_echo_mismatch :
    (after .echoMismatch { run with line := { run.line with queue := [queued 2 .obs true] } }).line.queue
      = [{ queued 2 .obs false with attempts := 1 }] := by decide

theorem test_join :
    (after .joinTimerExpiry { run with link :=
      { state := .listen, join := some 0, isolation := none, presence := none, drops := 0 } }).link.state = .active := by
  decide

theorem test_isolation :
    let t := after .isolationTimerExpiry run
    t.link.state = .isolated ∧ t.jobs.map Job.cause = [.isolation, .isolation, .isolation] := by decide

theorem test_presence :
    (after .presenceTimerExpiry run).line.queue.map (fun f => f.frame.payload) = [[2, 0, 0, 0]] := by decide

/-! ### Requests and switches (chapter 8) -/

theorem test_cmd_open :
    (after (.cmdOpen toStation [7, 2, 1, 0]) run).jobs.map Job.dir = [.opening] := by decide

theorem test_cmd_stop :
    (after (.cmdStop toStation [7, 3, 2, 0]) { run with jobs := [closeJob 1] }).jobs = [] := by decide

theorem test_cmd_hold : (after (.cmdHold toStation [7, 4, 0, 241]) run).requests.hold = some 14400000 := by decide

theorem test_cmd_unhold :
    (after (.cmdUnhold toStation [7, 5, 0, 0]) { run with requests := { run.requests with hold := some 5 } }).requests.hold
      = none := by decide

theorem test_cmd_bad_verb :
    let t := after (.cmdBadVerb toStation [7, 6, 0, 0]) run
    t.status.errorCode = some .badRequest ∧ t.line.queue.map (fun f => f.frame.payload) = [[7, 0, 9, 0, 0]] := by decide

/-- 9.1: word 0 carries the product code 0x0B41. -/
theorem test_read :
    (after (.read toStation [7, 0, 1]) run).line.queue.map (fun f => f.frame.payload) = [[7, 6, 0, 0, 0, 0x0B, 0x41]] := by decide

theorem test_take :
    let t := after (.take toStation [7]) { run with status := { run.status with flags := 0x8001 } }
    t.status.flags = 0 ∧ t.line.queue.map (fun f => f.frame.payload) = [[7, 7, 0, 0, 0, 0x80, 1]] := by decide

theorem test_clear :
    (after (.clear toStation [7]) { run with status := { run.status with sent := 9 } }).status.sent = 0 := by decide

theorem test_restart : (after (.restart toStation [7]) run).requests.pendingRestart = true := by decide

theorem test_hold_expiry :
    (after .holdExpiry { run with requests := { run.requests with hold := some 0 } }).requests.hold = none := by decide

theorem test_switch_input :
    (after (.switchInputChange .swClose true) run).requests.swClose.debounce = some 50 := by decide

theorem test_switch_release :
    (after (.switchReleaseDebounce .swOpen) { run with requests := { run.requests with
      swOpen := { input := false, pressed := true, mustRelease := false, debounce := some 0 } } }).requests.swOpen.pressed
      = false := by decide

theorem test_close_press :
    (after .swClosePress { run with requests := { run.requests with
      swClose := { input := true, pressed := false, mustRelease := false, debounce := some 0 } } }).jobs.map Job.cause
      = [.wall] := by decide

theorem test_open_press :
    (after .swOpenPress { run with
      requests := { run.requests with
        hold := some 60000, swOpen := { input := true, pressed := false, mustRelease := false, debounce := some 0 } }
      }).chirp = some 500 := by decide

/-! ### Starts (chapter 10) -/

theorem test_cold_start : (after .coldStart run).link.state = .offline ∧ (after .coldStart run).phase = .coldLoad := by
  decide

theorem test_reset_asserted : (after .resetAsserted run).phase = .held := by decide

/-- A channel record. -/
def record (cls facing draw : Byte) : List Byte := [cls, facing, 0, draw, 60, 25, 0, 0]

/-- The image of 10.6 but for its check byte. -/
def workedBody : List Byte :=
  [0xB8, 13, 0, 0, 60, 0, 0, 0, 5, 30, 12, 25, 3, 10, 30, 30, 2, 0xBC, 20, 7, 4, 10, 0, 110, 0, 40, 0, 90, 20, 15, 0, 0]
    ++ [0, 0, 0, 0, 13, 21, 13, 0, 0, 0, 0, 0, 3, 40, 3, 20]
    ++ record 1 16 12 ++ record 2 0 12 ++ record 3 4 70 ++ List.replicate 55 0

/-- The image of 10.6. -/
def workedImage : List Byte := workedBody ++ [workedBody.foldl (· ^^^ ·) 0]

/-- 10.6: three clamps, T_storm 110, B_iso 50, source slot 3 unused. -/
theorem test_worked_load :
    let k := (judgeImage workedImage).settings
    (judgeImage workedImage).result = .clamped ∧ (judgeImage workedImage).clamps = 3 ∧ k.tStorm = 110
      ∧ k.isoShare = 50 ∧ k.sources.get 0 = 13 ∧ k.sources.get 2 = 0 ∧ (k.channels.get 2).draw = 50 := by
  decide

/-- 10.6: after the cold start the link enters LISTEN. -/
theorem test_load_complete :
    (after (.loadComplete workedImage) State.reset).link.state = .listen := by decide

/-! ### Witnesses: a concrete state that meets the hypotheses of each obligation, clause by clause -/

/-- The part with the state of channel 1 replaced. -/
def withDriver (d : Driver) : State := { run with drivers := run.drivers.set 0 d }

/-- The part with a transmit queue. -/
def withQueue (q : List TxFrame) : State := { run with line := { run.line with queue := q } }

/-- The part with claim table entries. -/
def withEntries (es : List Entry) : State := { run with supply := { run.supply with entries := es } }

/-- The part with a link state. -/
def withLink (l : LinkState) : State := { run with link := { run.link with state := l } }

/-- The part with a wall switch's input and debounce. -/
def withClose (input : Bool) (debounce : Option Nat) : State :=
  { run with requests := { run.requests with
    swClose := { input := input, pressed := false, mustRelease := false, debounce := debounce } } }

theorem witness_StepTakesFrontCommand :
    ({ run with pending := [.chirpExpiry] } : State).pending = .chirpExpiry :: [] := by decide

theorem witness_NothingTakenBeforeLoad :
    State.reset.phase ≠ .running ∧ (∀ im, Instr.chirpExpiry = .loadComplete im → State.reset.phase = .held)
      ∧ exec .chirpExpiry State.reset = .next State.reset :=
  ⟨by decide, nofun, rfl⟩

theorem witness_NothingTakenBeforeLoad_lines :
    State.reset.phase ≠ .running ∧ true = (true != (State.reset.cfg.channels.get 7).openingContacts)
      ∧ (after (.rainLevelChange .fault) State.reset).pins.rain = .fault
      ∧ ((after (.limitActive 7 .closed) State.reset).pins.chans.get 7).closedContact = true
      ∧ (after (.switchInputChange .swOpen true) State.reset).requests.swOpen.input = true := by decide

theorem witness_CommandEndsWithItsScan :
    run.requests.pendingRestart = false ∧ run.work.restart = false ∧ run.work.scan = false
      ∧ (∀ j ∈ run.jobs, j.state ≠ .waiting) := by decide

/-- A command that ends with the restart marked, its scan called for or not. -/
theorem witness_CommandEndsWithItsScan_restart :
    let s := { run with work := { scan := true, restart := true }, jobs := [closeJob 0] }
    s.work.restart = true ∧ s.work.scan = true ∧ (runScans 16 s).work.restart = true
      ∧ (finish s).phase = .warmLoad ∧ (runScans 16 run).work.restart = false := by decide

theorem witness_ScanTreatsOneJob_settling :
    let s := { run with jobs := [{ closeJob 0 with state := .settling }] }
    jobOf 0 s = some { closeJob 0 with state := .settling } ∧ (jobOf 0 s).map Job.state ≠ some .waiting := by decide

theorem witness_ScanTreatsOneJob_held_back :
    let j := { closeJob 0 with heldBack := true }
    let s := { withQueue (List.replicate 8 (queued 3 .release false)) with jobs := [j] }
    jobOf 0 s = some j ∧ j.state = .waiting ∧ j.heldBack = true ∧ 8 ≤ s.line.queue.length := by decide

theorem witness_ScanTreatsOneJob_held_back_with_room :
    let j := { closeJob 0 with heldBack := true }
    let s := { withQueue (List.replicate 7 (queued 3 .release false)) with jobs := [j] }
    jobOf 0 s = some j ∧ j.state = .waiting ∧ j.heldBack = true ∧ s.line.queue.length < 8
      ∧ ((scanJob s 0).jobs.map fun k => (k.state, k.heldBack)) = [(.announcing, false)] := by decide

theorem witness_ScanTreatsOneJob_key_order :
    let s := { run with jobs := [{ closeJob 1 with cls := 2 }, closeJob 0] }
    JobsOrdered s.jobs ∧ jobOf 1 s = some { closeJob 1 with cls := 2 } ∧ jobOf 0 s = some (closeJob 0)
      ∧ jobAhead { closeJob 1 with cls := 2 } (closeJob 0) = true :=
  ⟨⟨by decide, by decide⟩, by decide, by decide, by decide⟩

theorem witness_ScanTreatsOneJob_nothing_to_do :
    let s := { withDriver (.idle .closed) with jobs := [closeJob 0] }
    jobOf 0 s = some (closeJob 0) ∧ s.drivers.get 0 = .idle .closed := by decide

theorem witness_ScanTreatsOneJob_admitted :
    let s := { run with jobs := [closeJob 0] }
    jobOf 0 s = some (closeJob 0) ∧ (∀ k ∈ s.jobs, k.heldBack = false) ∧ isFaulted (s.drivers.get 0) = false
      ∧ s.drivers.get 0 ≠ .idle .closed := by decide

theorem witness_ScanTreatsOneJob_open_waits :
    let j := { closeJob 0 with dir := .opening }
    let s := { run with jobs := [closeJob 1, j] }
    jobOf 0 s = some j ∧ j.dir = .opening ∧ (∃ k ∈ s.jobs, k.dir = .close ∧ k.state = .waiting)
      ∧ s.drivers.get 0 ≠ .idle .opened := by decide

theorem witness_IdleTickMovesOnlyTime :
    run.pending = [] ∧ dueEvents run = [] ∧ (elapse run).link.presence = some 4990
      ∧ ((elapse run).picture.slots.get 1).entry = .fresh { gust := some 50, sector := 11, rain := some .dry } 1010 := by
  decide

theorem witness_IdleTickMovesOnlyTime_due :
    let s := { withDriver (.closing closeMotion 0 (some 0)) with chirp := some 0 }
    s.pending = []
      ∧ dueEvents s = .blankingExpiry 0 0 :: [.travelTimerExpiry 0, .chirpExpiry] ∧ s.chirp = some 0 := by decide

/-- Each ageing is due where its age has come, and not before. -/
theorem witness_IdleTickMovesOnlyTime_ages :
    let o : Obs := { gust := some 50, sector := 11, rain := some .dry }
    let aged (age : Nat) : State := { run with
      picture := { run.picture with
        slots := { slots with e2 := { station := 9, isSelf := false, entry := .fresh o age } } } }
    let claims (own peer : Nat) : State :=
      withEntries [{ ownClaim 0 1 .held with ageMs := own }, { peerClaim 1 15 .held with ageMs := peer }]
    run.cfg.staleS * 1000 = 30000 ∧ dueEvents (aged 29999) = [] ∧ dueEvents (aged 30000) = [.sourceStale 1]
      ∧ dueEvents (claims 5999 11999) = []
      ∧ dueEvents (claims 6000 12000) = [.claimRefreshDue 0, .claimExpired 9 1] := by decide

theorem witness_ImageJudgedByFormatAndCheck :
    (workedImage.getD 0 0 = 0xB8 ∧ (workedImage.take 127).foldl (· ^^^ ·) 0 = workedImage.getD 127 0)
      ∧ ¬ (([] : List Byte).getD 0 0 = 0xB8) := by decide

/-- A field in its range and one at each of its limits, one below, one above, and a channel record with an own field out of
range. -/
theorem witness_SettingsSettledInRange :
    let low := workedImage.set 8 1
    let high := workedImage.set 8 31
    (settingsIn workedImage).presenceS = 5 ∧ (settingsIn low).presenceS = 2 ∧ (settingsIn high).presenceS = 30
      ∧ clampCount workedImage = 3 ∧ clampCount low = 4 ∧ clampCount high = 4
      ∧ ((settingsIn workedImage).channels.get 2).enabled = true := by decide

theorem witness_ColdLoadSetsThePart :
    State.reset.phase = .coldLoad ∧ MarksClear State.reset ∧ State.reset.requests.pendingRestart = false :=
  ⟨rfl, ⟨rfl, rfl⟩, rfl⟩

theorem witness_ColdLoadSetsThePart_channels :
    let k := (judgeImage (imageCopy workedImage)).settings
    (k.channels.get 3).cls = .unused ∧ (k.channels.get 0).cls ≠ .unused ∧ (k.channels.get 0).timed = false
      ∧ ((State.reset.pins.chans.get 0).closedContact != (k.channels.get 0).openingContacts) = false := by decide

/-- A wet line at the load starts its confirm, the worked image's three clamps are counted, and both limits fault. -/
theorem witness_ColdLoadSetsThePart_events :
    let k := (judgeImage (imageCopy workedImage)).settings
    let t := raiseTimes .configClamped 3 State.reset
    (judgeImage (imageCopy workedImage)).events = 3 ∧ t.status.counters.configClamped = 3 ∧ t.status.flags = 0x2000
      ∧ (sensingAtStart k .wet).confirm = some { target := .wet, left := k.wetConfirmS * 1000 }
      ∧ (sensingAtStart k .wet).obsPeriod = some (k.obsPeriodS * 1000) := by decide

theorem witness_ColdLoadSetsThePart_both_limits :
    let s := setLimit 0 .opened true (setLimit 0 .closed true run)
    (s.cfg.channels.get 0).cls ≠ .unused ∧ bothLimits 0 s = true ∧ bothLimits 0 run = false
      ∧ (coldChannel s 0).free = 1 ∧ (coldChannel s 0).status.errorCode = some .limit
      ∧ (run.cfg.channels.get 3).cls = .unused := by decide

theorem witness_WarmRestartKeepsRecordsAndChannels :
    let s := { withDriver (.faulted .part .travel) with phase := .warmLoad }
    s.phase = .warmLoad ∧ MarksClear s ∧ s.requests.pendingRestart = false ∧ s.drivers.get 0 = .faulted .part .travel
      ∧ s.drivers.get 1 = .idle .part ∧ s.drivers.get 3 = .disabled :=
  ⟨rfl, ⟨rfl, rfl⟩, rfl, rfl, rfl, rfl⟩

/-- A channel kept IDLE or FAULTED with both limits active, and one newly enabled with its closed limit active. -/
theorem witness_WarmRestartKeepsRecordsAndChannels_limits :
    let both (d : Driver) : State := setLimit 0 .opened true (setLimit 0 .closed true (withDriver d))
    let fresh := setLimit 0 .closed true (withDriver .disabled)
    bothLimits 0 (both (.idle .part)) = true
      ∧ (warmChannel (both (.idle .part)) 0).drivers.get 0 = .faulted .part .limit
      ∧ (warmChannel (both (.faulted .part .travel)) 0).drivers.get 0 = .faulted .part .limit
      ∧ fresh.drivers.get 0 = .disabled ∧ (fresh.cfg.channels.get 0).timed = false ∧ bothLimits 0 fresh = false
      ∧ (warmChannel fresh 0).drivers.get 0 = .idle .closed := by decide

theorem witness_PulseCountedUpTo1023 :
    let s := { run with sensing := { run.sensing with pulses := 1023 } }
    Settled s ∧ s.sensing.running = true ∧ s.cfg.hasAnemometer = true := by decide

theorem witness_SubCountEntersRing : Ready run ∧ run.sensing.subWindow.isSome = true := by decide

theorem witness_SubWindowMeasuresAndPublishes :
    Settled run ∧ run.sensing.subWindow.isSome = true ∧ run.cfg.hasAnemometer = true := by decide

theorem witness_ObsQueuedAsBuilt :
    Settled run ∧ (run.cfg.hasAnemometer = true ∨ run.cfg.hasVane = true ∨ run.cfg.hasRain = true)
      ∧ run.sensing.obsPeriod.isSome = true := by decide

theorem witness_RainConfirmStartedAndExpired :
    Settled run ∧ run.sensing.running = true ∧ run.cfg.hasRain = true ∧ RainLevel.fault ≠ run.pins.rain
      ∧ ({ run with sensing := { run.sensing with confirm := some { target := .wet, left := 0 } } } : State).sensing.confirm
        = some { target := .wet, left := 0 } := by decide

theorem witness_RainConfirmStartedAndExpired_absent_and_standing :
    let s := { run with cfg := { run.cfg with hasRain := false } }
    Settled s ∧ s.cfg.hasRain = false ∧ RainLevel.wet ≠ s.pins.rain ∧ RainLevel.dry = s.pins.rain
      ∧ (after (.rainLevelChange .wet) s).sensing.confirm = none ∧ (after (.rainLevelChange .dry) run) = run := by decide

theorem witness_FusedGustAndItsSector :
    (slots.get 1).entry = .fresh { gust := some 50, sector := 11, rain := some .dry } 1000
      ∧ (slots.get 0).entry = .fresh { gust := some 40, sector := 12, rain := some .dry } 0 := by decide

theorem witness_FusedRain :
    ∃ reports : RainReport → Prop,
      (∀ x, reports x ↔ ∃ k o a, ((slots.get k).entry = .fresh o a ∨ (slots.get k).entry = .stale o a)
        ∧ o.rain = some x) ∧ reports .dry :=
  ⟨_, fun _ => Iff.rfl, 0, _, _, .inl rfl, rfl⟩

theorem witness_ObsFillsItsEntry :
    PeerFrame fromPeer [0xFF, 0xFF, 17, 3, 0] run ∧ (run.picture.slots.get 1).station = fromPeer.source.toNat
      ∧ (run.picture.slots.get 1).isSelf = false
      ∧ (∀ j < (1 : SlotId), (run.picture.slots.get j).station ≠ fromPeer.source.toNat) := by decide

theorem witness_ObsFillsItsEntry_unlisted :
    let h := { fromPeer with source := 63 }
    PeerFrame h [0] run
      ∧ (∀ k, (run.picture.slots.get k).station = h.source.toNat → (run.picture.slots.get k).isSelf = true) := by decide

theorem witness_ObsFillsItsEntry_length_and_self :
    PeerFrame fromPeer [0, 0, 0, 0] run ∧ (run.picture.slots.get 1).station = fromPeer.source.toNat
      ∧ (run.picture.slots.get 0).isSelf = true := by decide

theorem witness_ObsFillsItsEntry_no_self :
    let o : Obs := { gust := some 84, sector := 11, rain := some .wet }
    let s := { run with picture := { run.picture with slots := slots.set 0 Slot.unused } }
    (∀ k, (s.picture.slots.get k).isSelf = false) ∧ (refreshSelf o s).picture.slots = s.picture.slots := by decide

theorem witness_EntriesAgeToStaleAndLost :
    Settled run ∧ (run.picture.slots.get 1).entry = .fresh { gust := some 50, sector := 11, rain := some .dry } 1000
      ∧ fuse run.picture.slots = run.picture.fused
      ∧ fuse (run.picture.slots.set 1 Slot.unused) ≠ run.picture.fused := by decide

theorem witness_EntriesAgeToStaleAndLost_stale :
    let x : Slot := { slots.e2 with entry := .stale { gust := some 50, sector := 11, rain := some .dry } 120000 }
    let s := { run with picture := { run.picture with slots := slots.set 1 x } }
    Settled s ∧ (s.picture.slots.get 1).entry = .stale { gust := some 50, sector := 11, rain := some .dry } 120000 := by
  decide

theorem witness_FacingFactorByDistance :
    (1 ≤ 15 ∧ 15 ≤ 15) ∧ min (max 1 15 - min 1 15) (16 - (max 1 15 - min 1 15)) = 2 := by decide

theorem witness_FullEvaluationJudgesChannels :
    run.picture.fused.g = some 50 ∧ (run.cfg.channels.get 0).cls ≠ .unused ∧ (run.cfg.channels.get 7).cls = .unused := by
  decide

/-- A gust at the storm threshold sets the flag and raises STORM; each enabled channel at PART gets a close job (R39, R47). -/
theorem witness_FullEvaluationJudgesChannels_storm :
    let s := { run with picture := { run.picture with fused := { run.picture.fused with g := some run.cfg.tStorm } } }
    let t := evaluatePicture s
    s.eval.storm = false ∧ s.cfg.tStorm ≤ run.cfg.tStorm ∧ (judgeStorm s).eval.storm = true
      ∧ (s.eval.chans.get 0).demand = none ∧ (t.eval.chans.get 0).demand = some ⟨.storm, 3⟩
      ∧ t.status.flags = 0x8000 ∧ t.jobs.map (fun j => (j.chan, j.cls)) = [(0, 3), (1, 3), (2, 3)] := by decide

theorem witness_FullEvaluationJudgesChannels_asked :
    let wind : Exposed := { exposure := some 300, demand := some ⟨.wind, 1⟩, calm := none }
    let storm : Exposed := { wind with demand := some ⟨.storm, 3⟩ }
    let before : Eight Exposed := Eight.fill wind
    let s := { run with eval := { run.eval with storm := true, chans := Eight.fill storm } }
    s.eval.storm = true ∧ (∃ g, s.picture.fused.g = some g ∧ g < s.cfg.tStorm - s.cfg.hyst)
      ∧ (s.eval.chans.get 0).demand = some ⟨.storm, 3⟩ ∧ (before.get 0).demand = some ⟨.wind, 1⟩
      ∧ askChannel before s 0 ≠ s ∧ askChannel s.eval.chans s 0 = s ∧ (run.eval.chans.get 0).demand = none := by
  decide

theorem witness_StormReleaseAndCalmHoldExpire :
    let s := { run with eval := { run.eval with
      storm := true, stormRelease := some 0
      chans := run.eval.chans.set 0 { exposure := some 5, demand := some ⟨.wind, 1⟩, calm := some 0 } } }
    Ready s ∧ s.eval.stormRelease ≠ none ∧ (s.eval.chans.get 0).calm ≠ none
      ∧ isOpening (s.drivers.get 0) = false ∧ (∀ j ∈ s.jobs, j.chan = 0 → j.dir = .close) := by decide

theorem witness_OpeningRejudgedAtOnce :
    let s := { withDriver (.opening openMotion 9000 none) with
      jobs := [{ closeJob 1 with dir := .opening }], requests := { run.requests with hold := some 60000 } }
    JobsOrdered s.jobs ∧ openingAllowed 0 s = false ∧ openingAllowed 0 run = true
      ∧ s.drivers.get 0 = .opening openMotion 9000 none ∧ (s.eval.chans.get 0).demand = none :=
  ⟨⟨by decide, by simp⟩, by decide, by decide, rfl, rfl⟩

/-- An ANNOUNCING OPEN job is removed with its entry, and a channel that was OPENING is reversed with its entry raised. -/
theorem witness_OpeningRejudgedAtOnce_claims :
    let j := { closeJob 0 with dir := .opening, state := .announcing }
    let s := { withEntries [ownClaim 0 1 .announcing] with
      jobs := [j], requests := { run.requests with hold := some 60000 } }
    let o := { withDriver (.opening openMotion 9000 none) with
      supply := { run.supply with entries := [{ ownClaim 0 1 .held with cls := 0 }] }
      eval := { run.eval with
        chans := run.eval.chans.set 0 { exposure := some 5, demand := some ⟨.wind, 1⟩, calm := none } } }
    jobOf 0 s = some j ∧ openingAllowed 0 s = false ∧ (rejudge 0 s).supply.entries = [] ∧ (rejudge 0 s).jobs = []
      ∧ openingAllowed 0 o = false ∧ (o.eval.chans.get 0).demand = some ⟨.wind, 1⟩
      ∧ (rejudge 0 o).supply.entries.map Entry.cls = [1]
      ∧ (rejudge 0 o).line.queue.map (fun f => f.frame.prio) = [1] := by decide

theorem witness_IsolationPolicyByChannelState_dealt :
    let s := withDriver (.opening openMotion 9000 none)
    let hold : State := { s with cfg := { cfg with policy := .holdPosition } }
    s.cfg.policy = .closeAll ∧ hold.cfg.policy = .holdPosition
      ∧ s.drivers.get 0 = .opening openMotion 9000 none ∧ s.drivers.get 1 = .idle .part
      ∧ (applyPolicy hold).drivers.get 0 = .idle .part ∧ (applyPolicy hold).drivers.get 1 = .idle .part := by decide

theorem witness_IsolationPolicyByChannelState :
    (withDriver (.opening openMotion 9000 none)).drivers.get 0 = .opening openMotion 9000 none
      ∧ (withDriver (.backoff closeMotion true 5)).drivers.get 0 = .backoff closeMotion true 5
      ∧ (withDriver (.blocked closeMotion 5)).drivers.get 0 = .blocked closeMotion 5
      ∧ run.drivers.get 0 = .idle .part := by decide

theorem witness_CloseRequestInsertsOrMerges :
    let s := { run with jobs := [{ closeJob 0 with dir := .opening }, closeJob 1] }
    (jobOf 0 s).map Job.dir = some .opening ∧ (jobOf 1 s).map Job.dir = some .close ∧ jobOf 2 s = none := by decide

theorem witness_CloseRequestInsertsOrMerges_restore :
    let s := { run with eval := { run.eval with
      chans := run.eval.chans.set 0 { exposure := some 5, demand := some ⟨.wind, 1⟩, calm := none } } }
    (s.eval.chans.get 0).demand = some ⟨.wind, 1⟩ ∧ s.drivers.get 0 = .idle .part ∧ jobOf 0 s = none := by decide

theorem witness_CloseRequestInsertsOrMerges_no_restore :
    let eval : Evaluator := { run.eval with
      chans := run.eval.chans.set 0 { exposure := some 5, demand := some ⟨.wind, 1⟩, calm := none } }
    (run.eval.chans.get 0).demand = none ∧ jobOf 0 { run with eval := eval, jobs := [closeJob 0] } ≠ none
      ∧ (∀ p, ({ withDriver (.closing closeMotion 9000 none) with eval := eval } : State).drivers.get 0 ≠ .idle p) :=
  ⟨rfl, by decide, fun _ h => by cases h⟩

theorem witness_CloseRequestInsertsOrMerges_announced :
    let s := { withEntries [ownClaim 0 1 .announcing, { ownClaim 1 2 (.settling 9) with cls := 0 }] with
      jobs := [{ closeJob 0 with state := .announcing }, { closeJob 1 with dir := .opening, cls := 0, state := .settling }] }
    (jobOf 0 s).map Job.dir = some .close ∧ (jobOf 0 s).map Job.state ≠ some .waiting
      ∧ (jobOf 1 s).map Job.dir = some .opening ∧ (jobOf 1 s).map Job.state = some .settling := by decide

theorem witness_CloseRequestInsertsOrMerges_motion :
    let r : CloseReq := { cls := 2, cause := .rain, who := .absent, retry := 0, clears := false }
    let s := withDriver (.closing { closeMotion with stopAtEnd := true } 9000 none)
    let s' := withDriver (.opening openMotion 9000 none)
    motionOf (s.drivers.get 0) = some { closeMotion with stopAtEnd := true } ∧ isOpening (s.drivers.get 0) = false
      ∧ closeMotion.cls < r.cls ∧ 1 ≤ closeMotion.cls
      ∧ s'.drivers.get 0 = .opening openMotion 9000 none ∧ isFaulted ((withDriver (.faulted .part .limit)).drivers.get 0) = true
      ∧ run.drivers.get 7 = .disabled := by decide

theorem witness_CloseRequestInsertsOrMerges_pending_retry :
    (withDriver (.backoff closeMotion true 5)).drivers.get 0 = .backoff closeMotion true 5
      ∧ (withDriver (.blocked closeMotion 5)).drivers.get 0 = .blocked closeMotion 5
      ∧ (withDriver (.warning .part closeMotion 5)).drivers.get 0 = .warning .part closeMotion 5
      ∧ (withDriver (.brake closeMotion 5)).drivers.get 0 = .brake closeMotion 5
      ∧ closeMotion.cls < 3 := by decide

theorem witness_CloseRequestInsertsOrMerges_raised_entry :
    let s := withEntries [ownClaim 0 1 .held]
    ownEntry 0 s = some (ownClaim 0 1 .held) ∧ (ownClaim 0 1 .held).cls < 2 ∧ (ownClaim 0 1 .held).cls ≤ 1
      ∧ s.link.state ≠ .mute ∧ ownEntry 0 run = none := by decide

theorem witness_TagCounterSkipsOwnTags :
    let s := withEntries [ownClaim 0 1 .held]
    ((s.supply.entries.filter Entry.own).map Entry.tag).length ≤ 8 ∧ nextTag s = 2
      ∧ (withLink .mute).link.state = .mute ∧ (∀ e ∈ run.supply.entries, e.own = false) := by decide

theorem witness_OwnEntryMadeAndGivenUp :
    let s := { withEntries [ownClaim 0 1 .announcing] with line := { run.line with queue := [queued 1 (.claim 1 true) false] } }
    (withLink .mute).link.state = .mute ∧ run.link.state ≠ .mute
      ∧ ownEntry 0 s = some (ownClaim 0 1 .announcing) ∧ ownEntry 0 run = none
      ∧ (∃ f ∈ s.line.queue, f.sending = false ∧ f.owner = .claim 1 true)
      ∧ (removeOwn 0 false s).line.queue = [] := by decide

theorem witness_OwnEntryMadeAndGivenUp_under_transmission :
    let s := withQueue [queued 1 (.claim 1 true) true]
    (∀ f ∈ s.line.queue, (!f.sending
      && (decide (f.owner = .claim 1 true) || decide (f.owner = .claim 1 false))) = false)
      ∧ cancelClaim 1 s = s :=
  ⟨by decide, rfl⟩

theorem witness_SettledJobStartsOrDrops :
    let j := { closeJob 0 with state := .settling }
    let s := { withEntries [ownClaim 0 1 (.settling 0)] with jobs := [j] }
    Settled s ∧ ownEntry 0 s = some (ownClaim 0 1 (.settling 0)) ∧ jobOf 0 s = some j ∧ s.drivers.get 0 = .idle .part
      ∧ j.dir = .close ∧ (s.cfg.channels.get 0).cls = .windowLow := by decide

theorem witness_SettledJobStartsOrDrops_opening :
    let j := { closeJob 1 with dir := .opening, state := .settling }
    let s := { withEntries [ownClaim 1 1 (.settling 0)] with jobs := [j] }
    Settled s ∧ jobOf 1 s = some j ∧ s.drivers.get 1 = .idle .part ∧ openingAllowed 1 s = true := by decide

theorem witness_SettledJobStartsOrDrops_dropped :
    let j := { closeJob 0 with state := .settling }
    let s := { withEntries [ownClaim 0 1 (.settling 0)] with jobs := [j], drivers := run.drivers.set 0 (.idle .closed) }
    Settled s ∧ ownEntry 0 s = some (ownClaim 0 1 (.settling 0)) ∧ jobOf 0 s = some j
      ∧ s.drivers.get 0 = .idle .closed := by decide

theorem witness_RefreshRenewsHeldClaim :
    let e := { ownClaim 0 1 .held with ageMs := 6000 }
    let s := withEntries [e]
    Settled s ∧ ownEntry 0 s = some e ∧ e.state = .held
      ∧ (∀ x ∈ s.supply.entries, x.own = true → x.chan = 0 → s.cfg.lifetimeS * 500 ≤ x.ageMs)
      ∧ s.link.state = .active ∧ e.refreshBarred = false ∧ (∀ f ∈ s.line.queue, f.sending = true) := by decide

theorem witness_RefreshRenewsHeldClaim_barred :
    let e := { ownClaim 0 1 .held with ageMs := 6000, refreshBarred := true }
    let s := withEntries [e]
    let q := { withEntries [{ e with refreshBarred := false }] with
      line := { run.line with queue := [queued 1 (.claim 1 false) false] } }
    Settled s ∧ ownEntry 0 s = some e ∧ e.state = .held ∧ s.link.state = .active
      ∧ (∃ f ∈ q.line.queue, f.sending = false ∧ f.owner = .claim 1 false) ∧ Settled q := by decide

theorem witness_PeerClaimEntersTable :
    PeerFrame fromPeer [2, 15, 8, 0, 255, 0, 2] run ∧ (2 : Byte).toNat = run.cfg.circuit ∧ (15 : Byte).toNat ≤ 15
      ∧ (8 : Byte).toNat = (7 : Channel).val + 1 ∧ run.supply.entries.length < 24 ∧ totalT run + 1 ≤ run.cfg.budget := by
  decide

theorem witness_PeerClaimEntersTable_full :
    let s := withEntries ((List.range 24).map (fun n => { peerClaim (n % 16) 1 .held with station := 10 + n }))
    PeerFrame fromPeer [2, 0, 1, 1, 1, 12, 1] s ∧ 24 ≤ s.supply.entries.length ∧ totalT s ≤ s.cfg.budget
      ∧ (∀ x ∈ s.supply.entries, x.station ≠ fromPeer.source.toNat) := by decide

theorem witness_PeerClaimEntersTable_known :
    let s := withEntries [peerClaim 15 20 .yielding]
    let t := after (.claimReceived fromPeer [2, 15, 1, 20, 1, 12, 1]) s
    PeerFrame fromPeer [2, 15, 1, 20, 1, 12, 1] s
      ∧ (∃ x ∈ s.supply.entries, x.own = false ∧ x.station = 9 ∧ x.tag = 15)
      ∧ t.supply.entries.map Entry.state = [.settling 250] := by decide

theorem witness_PeerClaimEntersTable_superseding :
    let s := withEntries [peerClaim 3 20 .held]
    let t := after (.claimReceived fromPeer [2, 15, 1, 20, 1, 12, 2]) s
    PeerFrame fromPeer [2, 15, 1, 20, 1, 12, 2] s
      ∧ (∀ x ∈ s.supply.entries, (!x.own && decide (x.station = 9) && decide (x.tag = 15)) = false)
      ∧ t.supply.entries.map (fun e => (e.tag, e.state)) = [(15, .held)] := by decide

theorem witness_PeerClaimEntersTable_other_and_malformed :
    PeerFrame fromPeer [3] run ∧ (3 : Byte).toNat ≠ run.cfg.circuit ∧ PeerFrame fromPeer [2, 16, 1, 1, 1, 12, 1] run
      ∧ 15 < (([16, 1, 1, 1, 12, 1] : List Byte).getD 0 0).toNat ∧ PeerFrame fromPeer [2, 16] run
      ∧ 15 < (([16] : List Byte).getD 0 0).toNat := by decide

theorem witness_PeerClaimEntersTable_empty :
    PeerFrame fromPeer [] run ∧ (after (.claimReceived fromPeer []) run).status.errorCode = some .rxLength
      ∧ (after (.releaseReceived fromPeer []) run).status.errorCode = some .rxLength := by decide

theorem witness_PeerEntriesSettleAndLeave :
    let s := { withEntries [peerClaim 15 20 (.settling 0)] with
      supply := { run.supply with entries := [peerClaim 15 20 (.settling 0)], tableFull := some 0 } }
    PeerFrame fromPeer [2, 15] s ∧ (∃ x ∈ s.supply.entries, x.own = false ∧ x.station = 9 ∧ x.tag = 15)
      ∧ s.supply.tableFull ≠ none := by decide

theorem witness_ContentionSettlesOrMarksExcess :
    let s := withEntries [peerClaim 1 50 .held, { peerClaim 2 50 .held with station := 10 }]
    totalT run ≤ run.cfg.budget ∧ run.cfg.budget < totalT (contention 9 s)
      ∧ s.cfg.budget < heldTotal (contention 9 s) ∧ heldTotal (contention 9 run) ≤ run.cfg.budget := by decide

theorem witness_ContentionSettlesOrMarksExcess_stages :
    let s := { withEntries [ownClaim 0 1 .announcing, peerClaim 1 50 .held] with
      jobs := [{ closeJob 0 with state := .announcing }] }
    let s2 := withEntries [peerClaim 2 30 (.settling 100), peerClaim 1 50 .held, ownClaim 0 1 (.settling 100)]
    s.cfg.budget < totalT s ∧ s2.cfg.budget < totalT s2 ∧ totalT run ≤ run.cfg.budget
      ∧ (contention 9 s).jobs.map Job.state = [.waiting] ∧ totalT (contention 9 s) = 50
      ∧ (ownClaim 0 1 (.settling 100)).reasserted = false ∧ isSettling (ownClaim 0 1 (.settling 100)) = true := by decide

/-- A reassertion: the peer's entry yields, the own one of the lower station number survives and is announced again. -/
theorem witness_ContentionSettlesOrMarksExcess_reassert :
    let s := withEntries [peerClaim 2 50 (.settling 100), ownClaim 0 1 (.settling 100)]
    let t := contention 9 s
    s.cfg.budget < totalT s ∧ t.supply.entries.map (fun e => (e.own, e.reasserted)) = [(false, false), (true, true)]
      ∧ t.line.queue.map (fun f => f.frame.payload) = [[2, 1, 1, 15, 1, 12, 1]] := by decide

theorem witness_ContentionSettlesOrMarksExcess_third_stage :
    let s := { withEntries [ownClaim 0 1 .held, { peerClaim 1 50 .held with cls := 2 }] with
      drivers := run.drivers.set 0 (.closing closeMotion 9000 none) }
    s.cfg.budget < heldTotal s ∧ s.drivers.get 0 = .closing closeMotion 9000 none
      ∧ (contention 9 s).drivers.get 0 = .idle .part ∧ (contention 9 s).jobs.map Job.cause = [.wind]
      ∧ heldTotal run ≤ run.cfg.budget := by decide

/-- A pause in BACKOFF makes no job (R105) and no restore request (R130), whatever its marker and the demand. -/
theorem witness_ContentionSettlesOrMarksExcess_backoff :
    let m := { closeMotion with attempt := some 1, stopAtEnd := true }
    let s := { withDriver (.backoff m true 500) with
      supply := { run.supply with entries := [ownClaim 0 1 .held] }
      eval := { run.eval with
        chans := run.eval.chans.set 0 { exposure := some 75, demand := some ⟨.wind, 1⟩, calm := none } } }
    s.drivers.get 0 = .backoff m true 500 ∧ 1 = m.attempt.getD (m.retry + 1) ∧ 1 ≤ s.cfg.obstrRetries
      ∧ s.cfg.obstrRetries < 4 ∧ (pauseMotion 0 9 s).drivers.get 0 = .idle .part ∧ (pauseMotion 0 9 s).jobs = [] := by
  decide

theorem witness_ContentionSettlesOrMarksExcess_pause :
    let s := withDriver (.opening openMotion 9000 none)
    let u := raiseError .overBudget .overBudget 9 (removeOwn 0 true { s with drivers := s.drivers.set 0 (.idle .part) })
    s.drivers.get 0 = .opening openMotion 9000 none ∧ openingAllowed 0 u = true ∧ jobOf 0 u = none
      ∧ openingAllowed 0 { u with requests := { u.requests with hold := some 5 } } = false
      ∧ (withDriver (.warning .part closeMotion 5)).drivers.get 0 = .warning .part closeMotion 5
      ∧ (withDriver (.brake closeMotion 5)).drivers.get 0 = .brake closeMotion 5 := by decide

theorem witness_DriverTimersMoveOn :
    Settled run ∧ (withDriver (.warning .part closeMotion 0)).drivers.get 0 = .warning .part closeMotion 0
      ∧ (withDriver (.brake closeMotion 0)).drivers.get 0 = .brake closeMotion 0 := by decide

theorem witness_DriverTimersMoveOn_lamps :
    lampFault run = false ∧ lampFault (withDriver (.faulted .part .travel)) = true ∧ lampFault (withLink .mute) = true
      ∧ lampHold run = false
      ∧ lampHold { run with requests := { run.requests with hold := some 60000 } } = true := by decide

theorem witness_OvercurrentBacksOffOrBlocks :
    let s := withDriver (.closing closeMotion 9000 none)
    Settled s ∧ s.drivers.get 0 = .closing closeMotion 9000 none ∧ (s.cfg.channels.get 0).threshold ≤ 25
      ∧ 24 < (s.cfg.channels.get 0).threshold
      ∧ (withDriver (.opening openMotion 9000 (some 0))).drivers.get 0 = .opening openMotion 9000 (some 0) := by decide

theorem witness_BackoffAndRetryEnd :
    let s := withDriver (.backoff { closeMotion with attempt := some 3 } true 0)
    let s' := withDriver (.blocked { closeMotion with attempt := some 3 } 0)
    Settled s ∧ s.drivers.get 0 = .backoff { closeMotion with attempt := some 3 } true 0 ∧ 3 ≤ s.cfg.obstrRetries
      ∧ s.cfg.obstrRetries < 4 ∧ Settled s' ∧ s'.drivers.get 0 = .blocked { closeMotion with attempt := some 3 } 0
      ∧ jobOf 0 s' = none ∧ (s'.eval.chans.get 0).demand = none := by decide

/-- Each way the limits of a channel can stand as it comes to rest. -/
theorem witness_BackoffAndRetryEnd_settled :
    let s := setLimit 0 .closed true run
    let s' := setLimit 0 .opened true run
    (run.cfg.channels.get 0).timed = false ∧ limitOn 0 .closed s = true ∧ limitOn 0 .opened s = false
      ∧ limitOn 0 .closed s' = false ∧ limitOn 0 .opened s' = true ∧ limitOn 0 .closed run = limitOn 0 .opened run
      ∧ (run.cfg.channels.get 1).timed = true ∧ settled 0 .part s = .closed ∧ settled 0 .part s' = .opened := by decide

theorem witness_TravelTimerEndsOrFaults :
    let s := withDriver (.closing closeMotion 0 none)
    Settled s ∧ s.drivers.get 0 = .closing closeMotion 0 none ∧ (s.cfg.channels.get 0).timed = false
      ∧ (s.cfg.channels.get 1).timed = true
      ∧ (run.drivers.set 1 (.opening openMotion 0 none)).get 1 = .opening openMotion 0 none := by decide

theorem witness_LimitActiveByChannelState :
    Settled run ∧ limitOn 0 .closed run = false ∧ limitOn 0 .opened run = false
      ∧ (run.cfg.channels.get 0).timed = false ∧ (run.cfg.channels.get 1).timed = true
      ∧ limitOn 0 .opened (setLimit 0 .opened true run) = true ∧ run.drivers.get 0 = .idle .part := by decide

theorem witness_LimitActiveByChannelState_drives :
    let s := withDriver (.closing closeMotion 9000 none)
    Settled s ∧ motionOf (s.drivers.get 0) = some closeMotion ∧ inMotion (s.drivers.get 0) = true
      ∧ limitOn 0 .closed s = false ∧ limitOn 0 .opened s = false := by decide

theorem witness_LimitInactiveCreepsOffEnd :
    let s := setLimit 0 .closed true (withDriver (.idle .closed))
    Settled s ∧ limitOn 0 .closed s = true ∧ (s.cfg.channels.get 0).timed = false ∧ s.drivers.get 0 = .idle .closed
      ∧ limitOn 0 .closed run = false := by decide

theorem witness_QueueKeepsPriorityAndDropsLowest :
    let s := withQueue (List.replicate 8 (queued 0 .release false))
    8 ≤ s.line.queue.length ∧ s.line.queue = [] ++ queued 0 .release false :: List.replicate 7 (queued 0 .release false)
      ∧ (queued 0 .release false).sending = false ∧ 0 < (queued 3 .release false).frame.prio
      ∧ (∀ g ∈ List.replicate 7 (queued 0 .release false), g.sending = false → 0 ≤ g.frame.prio) := by decide

/-- A replaced OBS leaves the queue: the barred entry may refresh again and a scan is called for (log 36). -/
theorem witness_QueueKeepsPriorityAndDropsLowest_replaced :
    let s := { withQueue [queued 0 .obs false] with
      jobs := [{ closeJob 0 with heldBack := true }]
      supply := { run.supply with entries := [{ ownClaim 1 1 .held with refreshBarred := true }] } }
    let t := enqueue (queued 2 .obs false) s
    (∃ g ∈ s.line.queue, (decide (g.owner = .obs) && !g.sending) = true) ∧ t.line.queue = [queued 2 .obs false]
      ∧ t.work.scan = true ∧ t.supply.entries.map Entry.refreshBarred = [false] := by decide

theorem witness_QueueKeepsPriorityAndDropsLowest_refused :
    let s := withQueue (List.replicate 8 (queued 3 .release false))
    8 ≤ s.line.queue.length ∧ (∀ g ∈ s.line.queue, g.sending = false → (queued 3 .release false).frame.prio ≤ g.frame.prio) := by
  decide

/-- A CLAIM dropped from a full queue: its ANNOUNCING entry is withdrawn with the job held back, its HELD or SETTLING
one barred; a SETTLING one stays barred when its settle interval makes it HELD (R86). -/
theorem witness_QueueKeepsPriorityAndDropsLowest_told :
    let s := { withEntries [ownClaim 0 1 .announcing, ownClaim 1 2 .held, ownClaim 2 3 (.settling 9)] with
      jobs := [{ closeJob 0 with state := .announcing }] }
    ownTagged 1 s = some (ownClaim 0 1 .announcing) ∧ ownTagged 2 s = some (ownClaim 1 2 .held)
      ∧ ownTagged 3 s = some (ownClaim 2 3 (.settling 9)) ∧ ownTagged 4 s = none
      ∧ (tellDropped (.claim 1 true) true s).jobs = [{ closeJob 0 with heldBack := true }] := by decide

theorem witness_QueueKeepsPriorityAndDropsLowest_settling :
    let s := { withEntries [ownClaim 2 3 (.settling 9)] with jobs := [{ closeJob 2 with state := .settling }] }
    let t := after (.ownSettleExpiry 2) (tellDropped (.claim 3 true) true s)
    (ownEntry 2 t).map (fun e => (e.state, e.refreshBarred)) = some (.held, true)
      ∧ (after (.claimRefreshDue 2) t).line.queue = [] := by decide

theorem witness_ValidFrameCountedAndJudged :
    PeerFrame fromPeer [] run ∧ ¬ ToStation { fromPeer with target := 6 } run ∧ ¬ ToGroup { fromPeer with target := 6 } run := by
  decide

theorem witness_ValidFrameCountedAndJudged_isolated :
    Ready (withLink .isolated) ∧ (withLink .isolated).link.state = .isolated ∧ fromPeer.source.toNat ≠ 5
      ∧ (withLink .mute).link.state = .mute ∧ 1 ≤ run.cfg.station ∧ run.cfg.station ≤ 63 := by decide

theorem witness_BytesAssembleIntoFrames :
    let f : Frame := { kind := .release, prio := 3, source := 9, target := 0, groups := 0, payload := [2, 3] }
    let s := { run with line := { run.line with rx := .assembling (frameBody f) } }
    Settled s ∧ s.link.state ≠ .offline ∧ (∀ g ∈ s.line.queue, g.sending = false) ∧ f.prio ≤ 3 ∧ 1 ≤ f.source.toNat
      ∧ f.source.toNat ≤ 63 ∧ f.payload.length ≤ 24 ∧ s.line.rx = .assembling (frameBody f)
      ∧ run.line.rx = .idle ∧ 1 ≤ (0xA3 : Byte).toNat / 16 ∧ (0xA3 : Byte).toNat / 16 ≤ 10 := by decide

theorem witness_BytesAssembleIntoFrames_bytes :
    let s := fun bs => { run with line := { run.line with rx := .assembling bs } }
    Settled (s [0x43]) ∧ (s [0x43]).line.rx = .assembling [0x43] ∧ (63 : Byte).toNat ≤ 63 ∧ (24 : Byte).toNat ≤ 24
      ∧ ([0x43, 9, 0, 0] : List Byte).length = 4 ∧ ([0x43, 9, 0, 0, 2, 2] : List Byte).length < 5 + 2
      ∧ (after (.lineByteArrival 63) (s [0x43])).line.rx = .assembling [0x43, 63]
      ∧ (after (.lineByteArrival 24) (s [0x43, 9, 0, 0])).line.rx = .assembling [0x43, 9, 0, 0, 24]
      ∧ (after (.lineByteArrival 3) (s [0x43, 9, 0, 0, 2, 2])).line.rx = .assembling [0x43, 9, 0, 0, 2, 2, 3] := by
  decide

theorem witness_FaultyFrameDiscarded :
    Settled run ∧ run.link.state ≠ .offline ∧ (∀ f ∈ run.line.queue, f.sending = false) ∧ run.line.rx = .idle
      ∧ 11 ≤ (0xB0 : Byte).toNat / 16 ∧ 4 ≤ (0xA4 : Byte).toNat % 16 ∧ 64 ≤ (64 : Byte).toNat ∧ 25 ≤ (25 : Byte).toNat
      ∧ ([0x43, 9, 0, 0, 2, 2, 3] : List Byte).length = 5 + (([0x43, 9, 0, 0, 2, 2, 3] : List Byte).getD 4 0).toNat := by
  decide

theorem witness_HeadFrameStartsAtItsSlot :
    let s := withQueue [queued 0 .obs false]
    Settled s ∧ s.line.queue = queued 0 .obs false :: [] ∧ (∀ g ∈ s.line.queue, g.sending = false)
      ∧ s.link.state = .active ∧ 197 = (3 - (queued 0 .obs false).frame.prio) * 64 + s.cfg.station := by decide

theorem witness_TransmissionEndsByEchoCheck :
    let f := queued 1 (.claim 1 true) true
    let s := { withEntries [ownClaim 0 1 .announcing] with line := { run.line with queue := [f] } }
    Settled s ∧ s.line.queue = [] ++ f :: [] ∧ f.sending = true ∧ ownTagged 1 s = some (ownClaim 0 1 .announcing)
      ∧ f.attempts + 1 ≤ s.cfg.txRetries ∧ hasNewer f [] = false := by decide

theorem witness_TransmissionEndsByEchoCheck_dropped :
    let f := { queued 2 .obs true with attempts := 3 }
    let s := { withQueue [f] with link := { run.link with drops := 7 } }
    Settled s ∧ s.cfg.txRetries < f.attempts + 1 ∧ s.link.drops = 7 ∧ s.link.state = .active
      ∧ s.requests.pendingRestart = false ∧ run.link.drops + 1 < 8 := by decide

theorem witness_TransmissionEndsByEchoCheck_restart :
    let f := queued 1 (.reply true) true
    let s := { withQueue [f] with requests := { run.requests with pendingRestart := true } }
    Settled s ∧ s.line.queue = [] ++ f :: [] ∧ f.owner = .reply true ∧ s.requests.pendingRestart = true := by decide

theorem witness_TransmissionEndsByEchoCheck_other_states :
    let f := queued 1 (.claim 1 true) true
    let s := { withEntries [ownClaim 0 1 (.settling 100)] with line := { run.line with queue := [f] } }
    Settled s ∧ s.line.queue = [] ++ f :: [] ∧ ownTagged 1 s = some (ownClaim 0 1 (.settling 100))
      ∧ (ownClaim 0 1 (.settling 100)).state ≠ .announcing ∧ ownTagged 1 run = none := by decide

/-- A mismatch with a newer CLAIM waiting, and a drop that withdraws the entry and cancels it. -/
theorem witness_TransmissionEndsByEchoCheck_newer :
    let f := queued 1 (.claim 1 true) true
    let g := queued 2 (.claim 1 true) false
    let s := { withEntries [ownClaim 0 1 .announcing] with
      line := { run.line with queue := [g, f] }, jobs := [{ closeJob 0 with state := .announcing }] }
    let d := { s with line := { run.line with queue := [g, { f with attempts := 3 }] }, cfg := { cfg with budget := 10 } }
    Settled s ∧ f.attempts + 1 ≤ s.cfg.txRetries ∧ (after .echoMismatch s).line.queue.map (fun x => x.sending) = [false]
      ∧ d.cfg.txRetries < 3 + 1 ∧ d.link.drops + 1 < 8 ∧ (after .echoMismatch d).line.queue = []
      ∧ (after .echoMismatch d).supply.entries = [] := by decide

theorem witness_TransmissionEndsByEchoCheck_newer_pres :
    let f := queued 0 .pres true
    let s := withQueue [f, queued 0 .pres false]
    Settled s ∧ f.attempts + 1 ≤ s.cfg.txRetries ∧ (∃ g ∈ [queued 0 .pres false], g.owner = f.owner)
      ∧ (after .echoMismatch s).line.queue = [queued 0 .pres false] := by decide

theorem witness_TransmissionEndsByEchoCheck_restart_dropped :
    let f := { queued 1 (.reply true) true with attempts := 3 }
    let s := { withQueue [f] with requests := { run.requests with pendingRestart := true } }
    Settled s ∧ s.cfg.txRetries < f.attempts + 1 ∧ s.requests.pendingRestart = true
      ∧ (after .echoMismatch s).phase = .warmLoad := by decide

/-- The eighth drop, of a RESTART's REPLY, with the restart pending and without. -/
theorem witness_TransmissionEndsByEchoCheck_eighth_drop :
    let f := { queued 1 (.reply true) true with attempts := 3 }
    let s := { withQueue [f] with
      link := { run.link with drops := 7 }, requests := { run.requests with pendingRestart := true } }
    let n := { withQueue [f] with link := { run.link with drops := 7 } }
    Settled s ∧ s.cfg.txRetries < f.attempts + 1 ∧ s.link.drops = 7 ∧ s.link.state = .active
      ∧ (after .echoMismatch s).phase = .warmLoad ∧ Settled n ∧ n.requests.pendingRestart = false
      ∧ (after .echoMismatch n).link.state = .mute ∧ (after .transmitComplete n).phase = .running := by decide

theorem witness_LinkTimersChangeLinkState :
    Ready run ∧ run.link.isolation ≠ none ∧ run.link.presence ≠ none ∧ run.link.join = none
      ∧ ({ run with link := { run.link with join := some 0 } } : State).link.join ≠ none := by decide

/-- An entry into ISOLATED: the ANNOUNCING job is withdrawn, the event is raised and the policy dealt. -/
theorem witness_LinkTimersChangeLinkState_entries :
    let s := { withEntries [ownClaim 0 1 .announcing] with jobs := [{ closeJob 0 with state := .announcing }] }
    JobsOrdered s.jobs ∧ jobOf 0 s = some { closeJob 0 with state := .announcing }
      ∧ (enterLink .isolated s).status.flags = 0x40 ∧ ownEntry 0 (enterLink .isolated s) = none
      ∧ (enterLink .isolated s).work.scan = true
      ∧ (enterLink .active s).line.queue.map (fun f => f.frame.prio) = [0]
      ∧ (enterLink .mute { s with requests := { s.requests with pendingRestart := true } }).work.restart = true :=
  ⟨⟨by decide, by decide⟩, by decide, by decide, by decide, by decide, by decide, by decide⟩

theorem witness_CommandsJudgedChannelByChannel :
    PeerFrame toStation [7, 1, 0, 0] run ∧ ToStation toStation run ∧ 9 ∈ run.cfg.authority
      ∧ ToGroup { fromPeer with groups := 1 } run ∧ ¬ (10 ∈ run.cfg.authority)
      ∧ PeerFrame { toStation with source := 10 } [7, 2, 0, 0] run ∧ 5 < (6 : Byte).toNat := by decide

theorem witness_CommandsJudgedChannelByChannel_each :
    let f := closeChannel .command (.station 9)
    (f 7 run).1 = .refused .noChannel ∧ (f 0 run).1 = .accepted
      ∧ (judgeEach f [0, 6, 7] Tally.none run).1 = { accepted := [0], refused := [6, 7], code := some .noChannel }
      ∧ listMask [6, 7] = 0xC0 := by decide

theorem witness_CommandsJudgedChannelByChannel_length :
    PeerFrame toStation [] run ∧ PeerFrame toStation [7, 1, 0] run ∧ ToStation toStation run
      ∧ ([1, 0] : List Byte).length ≠ 3 ∧ PeerFrame { fromPeer with groups := 1 } [] run
      ∧ ToGroup { fromPeer with groups := 1 } run
      ∧ (after (.take toStation []) run).status.errorCode = some .rxLength
      ∧ (after (.cmdClose toStation [7, 1, 0]) run).line.queue.map (fun f => f.frame.payload) = [[7, 1, 9, 0, 0]] := by
  decide

theorem witness_CloseOpenStopByChannelState :
    run.drivers.get 7 = .disabled ∧ (withDriver (.faulted .part .travel)).drivers.get 0 = .faulted .part .travel
      ∧ bothLimits 0 run = false ∧ jobOf 0 run = none ∧ (run.eval.chans.get 0).demand = none
      ∧ run.drivers.get 0 = .idle .part ∧ run.link.state = .active ∧ run.requests.hold = none
      ∧ run.eval.storm = false ∧ run.picture.fused.g ≠ none ∧ run.picture.fused.r ≠ .unknown := by decide

/-- CLOSE and STOP of a FAULTED channel whose demand is SET, and of one with a job. -/
theorem witness_CloseOpenStopByChannelState_faulted :
    let s := { withDriver (.faulted .part .travel) with eval := { run.eval with
      chans := run.eval.chans.set 0 { exposure := some 5, demand := some ⟨.storm, 3⟩, calm := none } } }
    let j := { s with jobs := [closeJob 0] }
    bothLimits 0 s = false ∧ (s.eval.chans.get 0).demand = some ⟨.storm, 3⟩ ∧ jobOf 0 s = none
      ∧ (closeChannel .command (.station 9) 0 s).2.jobs.map (fun k => (k.cls, k.cause, k.requester))
          = [(3, .storm, .station 9)]
      ∧ jobOf 0 j = some (closeJob 0) ∧ (closeJob 0).cause = .command ∧ (stopChannel 0 j).2.jobs = [] := by decide

theorem witness_CloseOpenStopByChannelState_stop :
    let m := { closeMotion with cause := .command }
    (withDriver (.closing m 9000 none)).drivers.get 0 = .closing m 9000 none
      ∧ (withDriver (.backoff m true 5)).drivers.get 0 = .backoff m true 5
      ∧ (withDriver (.blocked m 5)).drivers.get 0 = .blocked m 5
      ∧ (stopMotion 0 (withDriver (.warning .unknown m 5))).drivers.get 0 = .idle .unknown := by decide

theorem witness_HoldSetLengthenedAndEnded :
    let s := { run with requests := { run.requests with hold := some 60000 } }
    PeerFrame toStation [7, 4, 0, 255] run ∧ ToStation toStation run ∧ run.requests.hold = none
      ∧ PeerFrame toStation [7, 5, 0, 0] s ∧ s.requests.hold = some 60000 ∧ toStation.source.toNat ∈ s.cfg.authority
      ∧ ¬ (∀ x ∈ s.cfg.authority, x = 0) := by decide

theorem witness_ReadAnswersStatusWords :
    PeerFrame toStation [7, 41, 9] run ∧ ToStation toStation run ∧ (41 : Byte).toNat + (9 : Byte).toNat - 1 ≤ 49
      ∧ PeerFrame toStation [7, 42, 9] run ∧ 49 < (42 : Byte).toNat + (9 : Byte).toNat - 1
      ∧ PeerFrame toStation [7, 0, 10] run ∧ 9 < (10 : Byte).toNat := by decide

/-- R77: a queue for channels 5, 3 and 6, of which channel 5 leads, shows length 3 and head channel 5. -/
theorem witness_ReadAnswersStatusWords_words :
    let s := { run with
      jobs := [closeJob 4, closeJob 2, closeJob 5]
      loader := { run.loader with result := some .clamped }
      requests := { run.requests with hold := some 60001 }
      status := { run.status with errorCode := some .range, errorSource := 9 } }
    statusWord s 7 = 0x0305 ∧ statusWord s 2 = 0x0201 ∧ statusWord s 10 = 2 ∧ 60001 ≤ 2 * 60000 ∧ 2 * 60000 < 60001 + 60000
      ∧ s.picture.fused.g = some 50 ∧ (run.eval.chans.get 7).exposure = none ∧ run.jobs = []
      ∧ statusWord s 36 = 0x0809 ∧ run.status.errorCode = none ∧ run.requests.hold = none := by decide

theorem witness_ReadAnswersStatusWords_events :
    let s := { run with status := { run.status with counters := { run.status.counters with storm := 255 } } }
    eventNumber .requestRefused % 2 = 0 ∧ eventNumber .storm = eventNumber .requestRefused + 1
      ∧ counterOf s.status.counters .storm = 255 ∧ counterOf s.status.counters .obstruction < 255
      ∧ statusWord (raiseEvent .storm s) 35 = 0x00FF ∧ statusWord (raiseEvent .storm s) 27 = 0x8000 := by decide

theorem witness_TakeClearAndRestart :
    PeerFrame toStation [7] run ∧ ToStation toStation run ∧ toStation.source.toNat ∈ run.cfg.authority
      ∧ run.cfg.remoteRestart = true ∧ run.link.state ≠ .mute ∧ run.line.queue.length < 8
      ∧ PeerFrame toStation [7] (withLink .mute) ∧ (withLink .mute).link.state = .mute := by decide

/-- In MUTE the restart begins at the end of the command. -/
theorem witness_TakeClearAndRestart_mute :
    (withLink .mute).cfg.remoteRestart = true ∧ toStation.source.toNat ∈ (withLink .mute).cfg.authority
      ∧ (after (.restart toStation [7]) (withLink .mute)).phase = .warmLoad := by decide

theorem witness_SwitchDebouncedFor50Ms :
    Settled run ∧ (switchOf .swClose (withClose false (some 0))).input = false
      ∧ (switchOf .swClose (withClose false (some 0))).debounce ≠ none := by decide

theorem witness_PressStopsClosesOrOpens :
    let s := withClose true (some 0)
    Settled s ∧ (switchOf .swClose s).input = true ∧ (switchOf .swClose s).debounce ≠ none
      ∧ allChannels.filter (fun c => (s.cfg.channels.get c).localSwitch) = [0] ∧ begunByPerson 0 s = false
      ∧ begunByPerson 0 { s with jobs := [{ closeJob 0 with cause := .wall }] } = true := by decide

theorem witness_PressStopsClosesOrOpens_begun :
    let d := withDriver (.blocked openMotion 5)
    d.drivers.get 0 = .blocked openMotion 5 ∧ begunByPerson 0 d = true
      ∧ begunByPerson 0 (withDriver (.closing closeMotion 9000 none)) = false
      ∧ run.drivers.get 0 = .idle .part ∧ run.drivers.get 7 = .disabled
      ∧ jobOf 0 { run with jobs := [closeJob 0] } = some (closeJob 0) := by decide

theorem witness_OwnTotalStaysWithinBudget :
    let s := withEntries [ownClaim 0 1 .held]
    WithinBudget s ∧ EmptyUntilLoaded s ∧ step s = .next (elapse s) :=
  ⟨⟨by decide, by decide, by decide⟩, fun h => absurd rfl h, rfl⟩

theorem witness_ClaimsFitMotionsAndJobs :
    let s := { withEntries [ownClaim 0 1 .held] with drivers := run.drivers.set 0 (.closing closeMotion 9000 none) }
    (∀ c, ClaimFits c s) ∧ JobsOrdered s.jobs ∧ EmptyUntilLoaded s := by
  refine ⟨fun c => ?_, ⟨List.nodup_nil, List.Pairwise.nil⟩, fun h => absurd rfl h⟩
  fin_cases c
  · exact ⟨rfl, _, rfl, rfl⟩
  all_goals exact .inl ⟨rfl, .inl rfl⟩

theorem witness_OpeningOnlyWhileAllowed :
    let s := withDriver (.opening openMotion 9000 none)
    (∀ c, OpeningGuarded c s) ∧ JobsOrdered s.jobs ∧ EnabledByLoad s ∧ EmptyUntilLoaded s ∧ Opens 0 s := by
  refine ⟨fun c => ?_, ⟨List.nodup_nil, List.Pairwise.nil⟩, fun _ c => ?_, fun h => absurd rfl h, .inl rfl⟩
  · fin_cases c <;> rintro (h | ⟨j, hj, _⟩) <;> first | rfl | cases h | cases hj
  · fin_cases c <;> intro h <;> first | rfl | exact absurd rfl h

theorem witness_QueuesRecordsAndTimersStaySound :
    let s := { withEntries [ownClaim 0 1 .held] with line := { run.line with queue := [queued 2 .obs true] } }
    TxOrdered s.line.queue ∧ TableBounded s ∧ RecordsBounded s.status ∧ LinkTimersFit s.link ∧ PictureFollows s
      ∧ OwnEntriesCarry s ∧ EmptyUntilLoaded s ∧ MarksClear s := by
  refine ⟨⟨by decide, by simp, by decide, by decide, by decide⟩, (by decide : _ ≤ 24),
    ⟨fun e => by cases e <;> decide, by decide, by decide, by decide, by decide⟩,
    ⟨by decide, by decide, by decide⟩, fun _ => by decide, fun e he _ => ?_, fun h => absurd rfl h, ⟨rfl, rfl⟩⟩
  obtain rfl : e = ownClaim 0 1 .held := by simpa [withEntries] using he
  decide

end Sys2Proof.Tests
end

section
/-! The sub-count ring (chapter 1): what leaves the local weather record alone, what a sub-window expiry makes of the
ring, and the statement about R2. -/

namespace Sys2Proof.Machine

/-! ### The full evaluation leaves the local weather record alone (R38) -/

theorem foldl_sensing {α : Type} {f : State → α → State} (hf : ∀ s a, (f s a).sensing = s.sensing)
    (l : List α) (s : State) : (l.foldl f s).sensing = s.sensing :=
  foldl_rel (r := fun s t : State => t.sensing = s.sensing) (fun _ => rfl) (fun h k => k.trans h) hf l s

theorem reexpose_sensing (s : State) (c : Channel) : (reexpose s c).sensing = s.sensing := by
  unfold reexpose
  split
  · exact setExposed_sensing ..
  · rfl

theorem reorderJobs_sensing (s : State) : (reorderJobs s).sensing = s.sensing := setJobs_sensing ..

theorem judgeStorm_sensing (s : State) : (judgeStorm s).sensing = s.sensing := by
  unfold judgeStorm
  dsimp only
  split
  · split <;> rfl
  · split
    · exact raiseEvent_sensing ..
    · rfl

theorem judgeChannel_sensing (s : State) (c : Channel) : (judgeChannel s c).sensing = s.sensing := by
  unfold judgeChannel
  split
  · exact setExposed_sensing ..
  · rfl

theorem judgeAll_sensing (s : State) : (judgeAll s).sensing = s.sensing := by
  unfold judgeAll
  dsimp only
  rw [foldl_sensing fun t c => (askChannel_step _ t c).sensing, (rejudgeAll_step _).sensing,
    foldl_sensing judgeChannel_sensing]

theorem evaluatePicture_sensing (s : State) : (evaluatePicture s).sensing = s.sensing := by
  unfold evaluatePicture
  rw [judgeAll_sensing, judgeStorm_sensing, reorderJobs_sensing, foldl_sensing reexpose_sensing]

theorem tableChanged_sensing (x : Eight Slot) (s : State) : (tableChanged x s).sensing = s.sensing := by
  unfold tableChanged
  dsimp only
  split
  · rfl
  · exact evaluatePicture_sensing _

/-- R13: the SELF refresh reads the local weather record and leaves it as it is. -/
theorem selfRefresh_sensing (s : State) : (selfRefresh s).sensing = s.sensing := by
  unfold selfRefresh
  split
  · unfold refreshSelf
    split
    · rfl
    · exact tableChanged_sensing ..
  · rfl

/-! ### The ring (R2) -/

/-- The sub-count ring of 1.1, oldest to newest. -/
def Sensing.ring (x : Sensing) : Nat × Nat × Nat := (x.ring1, x.ring2, x.ring3)

theorem Sensing.ring_eq {x : Sensing} {a b c : Nat} :
    x.ring = (a, b, c) ↔ x.ring1 = a ∧ x.ring2 = b ∧ x.ring3 = c := by
  simp [Sensing.ring]

theorem windowed_ring_present {k : Settings} (v : BitVec 4) (x : Sensing) (h : k.hasAnemometer = true) :
    (windowed k v x).ring = (x.ring2, x.ring3, x.pulses) := by
  simp [windowed, h, Sensing.ring]

theorem windowed_ring_absent {k : Settings} (v : BitVec 4) (x : Sensing) (h : k.hasAnemometer = false) :
    (windowed k v x).ring = x.ring := by
  simp [windowed, h, Sensing.ring]

/-- R12: a queued OBS moves the published gust and the peak, never the ring. -/
theorem queueObs_ring (prio trigger : Nat) (s : State) :
    (queueObs prio trigger s).sensing.ring = s.sensing.ring := by
  unfold queueObs
  split
  · dsimp only
    rw [(enqueue_step rfl _).sensing, setSensing_sensing]
    split <;> rfl
  · rfl

/-- The steps of an expiry that come after the ring's update leave it alone. -/
theorem subWindow_ring (v : BitVec 4) {s : State} (h : s.sensing.subWindow.isSome = true) :
    (subWindow v s).sensing.ring = (windowed s.cfg v s.sensing).ring := by
  unfold subWindow
  dsimp only
  rw [if_pos h, selfRefresh_sensing]
  split
  · exact queueObs_ring ..
  · rfl

/-! ### The command -/

/-- On a running part with no restart pending, neither the scans nor a restart that end the command reach the ring. -/
theorem exec_subWindowExpiry_ring (v : BitVec 4) {s : State} (hs : Ready s)
    (h : s.sensing.subWindow.isSome = true) :
    ∃ t, exec (.subWindowExpiry v) s = .next t
      ∧ t.sensing.ring = (windowed s.cfg v s.sensing).ring := by
  obtain ⟨⟨hphase, -, hrestart⟩, hpending⟩ := hs
  obtain ⟨hpending', hwork⟩ := (subWindow_step v s).restart trivial hpending
  refine ⟨finish (subWindow v s), ?_, ?_⟩
  · exact congrArg Host.Outcome.next (whileRunning_running hphase)
  · rw [(finish_step hpending' (hwork.trans hrestart)).sensing, subWindow_ring v h]

end Sys2Proof.Machine

open Sys2Proof Sys2Proof.Machine

/-- Settles O13: the expiry's own update shifts the ring by one, no later step of the command reaches it, and a start
sets it to zeros. -/
theorem subCountEntersRing : Obligations.SubCountEntersRing := by
  refine ⟨fun s v hs h => ?_, fun _ _ => ⟨rfl, rfl, rfl⟩⟩
  obtain ⟨t, ht, hring⟩ := exec_subWindowExpiry_ring v hs h
  refine ⟨t, ht, fun hp => ?_, fun ha => ?_⟩
  · rw [windowed_ring_present v _ hp] at hring
    exact Sensing.ring_eq.1 hring
  · rw [windowed_ring_absent v _ ha] at hring
    exact Sensing.ring_eq.1 hring

end

section
/-! The fused picture (chapter 2): what one slot brings to the wind and to the rain, what the two folds over the table
make of it, and the statements about R26, R27 and R28. -/

namespace Sys2Proof.Machine

/-! ### The slots of the table, in order -/

theorem toList_eq_map_get {α : Type} (v : Eight α) : v.toList = allChannels.map v.get := rfl

theorem mem_toList_iff {α : Type} {v : Eight α} {x : α} : x ∈ v.toList ↔ ∃ k, v.get k = x := by
  rw [toList_eq_map_get, List.mem_map]
  exact exists_congr fun k => and_iff_right (mem_allChannels k)

/-- The table around slot `k`: lower-numbered slots, slot `k`, higher-numbered slots. -/
theorem toList_split {α : Type} (v : Eight α) (k : Fin 8) :
    ∃ before after : List (Fin 8),
      v.toList = before.map v.get ++ v.get k :: after.map v.get ∧ ∀ j ∈ before, j < k := by
  obtain ⟨before, after, hsplit⟩ := List.append_of_mem (mem_allChannels k)
  refine ⟨before, after, by simp [toList_eq_map_get, hsplit], fun j hj => ?_⟩
  have hsorted : allChannels.Pairwise (· < ·) := by decide
  rw [hsplit, List.pairwise_append] at hsorted
  obtain ⟨-, -, hacross⟩ := hsorted
  exact hacross j hj k List.mem_cons_self

/-! ### The wind (R26, R27) -/

/-- R26: the gust and the sector with which a slot takes part in the wind; only a FRESH entry that carries a gust
does. -/
def windOf (x : Slot) : Option (Nat × Nat) :=
  (freshObs x.entry).bind fun o => o.gust.map fun g => (g, o.sector)

theorem windOf_eq_some_iff {x : Slot} {g w : Nat} :
    windOf x = some (g, w) ↔ ∃ o a, x.entry = .fresh o a ∧ o.gust = some g ∧ o.sector = w := by
  cases h : x.entry <;> simp [windOf, freshObs, h]

theorem windOf_eq_none {x : Slot} (h : ∀ o a, x.entry = .fresh o a → o.gust = none) : windOf x = none := by
  refine Option.eq_none_iff_forall_ne_some.2 fun ⟨g, w⟩ hw => ?_
  obtain ⟨o, a, he, hg, -⟩ := windOf_eq_some_iff.1 hw
  exact absurd ((h o a he).symm.trans hg) nofun

/-- One more slot in the search, by what it brings. -/
theorem bestGust_eq (b : Option (Nat × Nat)) (x : Slot) :
    bestGust b x = (windOf x).elim b fun p => some (b.elim p fun q => if q.1 < p.1 then p else q) := by
  unfold bestGust windOf
  cases freshObs x.entry with
  | none => rfl
  | some o =>
    obtain ⟨gust, sector, rain⟩ := o
    cases gust with
    | none => rfl
    | some g =>
      cases b with
      | none => rfl
      | some q => exact (apply_ite some _ _ _).symm

theorem bestGust_of_windOf_none {x : Slot} (b : Option (Nat × Nat)) (h : windOf x = none) : bestGust b x = b := by
  rw [bestGust_eq, h]; rfl

/-- A gust larger than all before it is taken, with its sector. -/
theorem bestGust_of_lt {x : Slot} {b : Option (Nat × Nat)} {p : Nat × Nat} (h : windOf x = some p)
    (hb : ∀ q ∈ b, q.1 < p.1) : bestGust b x = some p := by
  rw [bestGust_eq, h]
  cases b with
  | none => rfl
  | some q => exact congrArg some (if_pos (hb q rfl))

/-- A gust no larger than the one held, an equal one among them, does not displace it. -/
theorem bestGust_of_le {x : Slot} {p : Nat × Nat} (h : ∀ q ∈ windOf x, q.1 ≤ p.1) :
    bestGust (some p) x = some p := by
  rw [bestGust_eq]
  cases hx : windOf x with
  | none => rfl
  | some q => exact congrArg some (if_neg (h q hx).not_gt)

/-- The wind after one more slot is the wind before it or the slot's own. -/
theorem mem_bestGust {x : Slot} {b : Option (Nat × Nat)} {p : Nat × Nat} (h : p ∈ bestGust b x) :
    p ∈ b ∨ p ∈ windOf x := by
  rw [bestGust_eq] at h
  cases hx : windOf x with
  | none => rw [hx] at h; exact .inl h
  | some q =>
    rw [hx] at h
    cases b with
    | none => exact .inr h
    | some r =>
      obtain rfl : (if r.1 < q.1 then q else r) = p := Option.some.inj h
      split
      · exact .inr rfl
      · exact .inl rfl

theorem strongest_eq_none {v : Eight Slot} (h : ∀ k, windOf (v.get k) = none) : strongest v = none := by
  refine List.foldlRecOn (motive := (· = none)) v.toList bestGust rfl fun b hb x hx => ?_
  obtain ⟨k, rfl⟩ := mem_toList_iff.1 hx
  rw [bestGust_of_windOf_none b (h k), hb]

/-- R26, R27: the search ends with the wind of slot `k` where no slot brings a larger gust and no lower-numbered one an
equal gust: up to slot `k` every gust found is smaller, slot `k` takes over, and no later slot displaces it. -/
theorem strongest_eq_some {v : Eight Slot} {k : SlotId} {p : Nat × Nat} (hk : windOf (v.get k) = some p)
    (hle : ∀ j, ∀ q ∈ windOf (v.get j), q.1 ≤ p.1) (hlt : ∀ j < k, ∀ q ∈ windOf (v.get j), q.1 < p.1) :
    strongest v = some p := by
  obtain ⟨before, after, hsplit, hbefore⟩ := toList_split v k
  have below : ∀ q ∈ (before.map v.get).foldl bestGust none, q.1 < p.1 := by
    refine List.foldlRecOn (motive := fun b => ∀ q ∈ b, q.1 < p.1) _ bestGust (b := none) (by simp)
      fun b hb x hx q hq => ?_
    obtain ⟨j, hj, rfl⟩ := List.mem_map.1 hx
    exact (mem_bestGust hq).elim (hb q) (hlt j (hbefore j hj) q)
  unfold strongest
  rw [hsplit, List.foldl_append, List.foldl_cons, bestGust_of_lt hk below]
  refine List.foldlRecOn (motive := (· = some p)) _ bestGust rfl fun b hb x hx => ?_
  obtain ⟨j, -, rfl⟩ := List.mem_map.1 hx
  rw [hb, bestGust_of_le (hle j)]

theorem fuse_wind_of_none {v : Eight Slot} (h : strongest v = none) : (fuse v).g = none ∧ (fuse v).w = none := by
  simp [fuse, h]

/-- R27: sectors 16 (UNKNOWN) and 17 (no vane) give no W. -/
theorem fuse_wind_of_some {v : Eight Slot} {g w : Nat} (h : strongest v = some (g, w)) :
    (fuse v).g = some g ∧ (fuse v).w = if w = 16 ∨ 17 ≤ w then none else some w := by
  refine ⟨by simp [fuse, h], ?_⟩
  have hw : (fuse v).w = if w ≤ 15 then some w else none := by simp [fuse, h]
  rw [hw, ← ite_not]
  exact if_congr (by omega) rfl rfl

/-! ### The rain (R28) -/

theorem rainOf_eq_some_iff {x : Slot} {r : RainReport} :
    rainOf x = some r ↔ ∃ o a, (x.entry = .fresh o a ∨ x.entry = .stale o a) ∧ o.rain = some r := by
  cases h : x.entry <;> simp [rainOf, heldObs, h]

/-- R28: some FRESH or STALE entry of the table reports `r`. -/
def ReportsRain (v : Eight Slot) (r : RainReport) : Prop :=
  ∃ k o a, ((v.get k).entry = .fresh o a ∨ (v.get k).entry = .stale o a) ∧ o.rain = some r

theorem mem_rains_iff {v : Eight Slot} {r : RainReport} : r ∈ v.toList.filterMap rainOf ↔ ReportsRain v r := by
  simp only [List.mem_filterMap, mem_toList_iff, exists_exists_eq_and, rainOf_eq_some_iff, ReportsRain]

theorem any_rains_iff {v : Eight Slot} :
    (v.toList.filterMap rainOf).any (fun r => r == .wet || r == .fault) = true ↔
      ReportsRain v .wet ∨ ReportsRain v .fault := by
  simp only [List.any_eq_true, Bool.or_eq_true, beq_iff_eq, mem_rains_iff, and_or_left, exists_or,
    exists_eq_right]

theorem isEmpty_rains_iff {v : Eight Slot} :
    (v.toList.filterMap rainOf).isEmpty = true ↔ ∀ r, ¬ ReportsRain v r := by
  simp only [List.isEmpty_iff, List.eq_nil_iff_forall_not_mem, mem_rains_iff]

theorem fuseRain_of_wet {v : Eight Slot} (h : ReportsRain v .wet ∨ ReportsRain v .fault) : fuseRain v = .wet :=
  if_pos (any_rains_iff.2 h)

theorem fuseRain_of_dry {v : Eight Slot} (hd : ReportsRain v .dry)
    (hn : ¬ (ReportsRain v .wet ∨ ReportsRain v .fault)) : fuseRain v = .dry :=
  (if_neg (any_rains_iff.not.2 hn)).trans (if_neg (isEmpty_rains_iff.not.2 fun h => h .dry hd))

theorem fuseRain_of_none {v : Eight Slot} (h : ∀ r, ¬ ReportsRain v r) : fuseRain v = .unknown :=
  (if_neg (any_rains_iff.not.2 (not_or.2 ⟨h .wet, h .fault⟩))).trans (if_pos (isEmpty_rains_iff.2 h))

end Sys2Proof.Machine

open Sys2Proof Sys2Proof.Machine

/-- Settles O17: the search over the slots ends with the first of the largest FRESH gusts, and G and W are read off
it. -/
theorem fusedGustAndItsSector : Obligations.FusedGustAndItsSector := by
  refine fun v => ⟨fun h => ?_, fun k o a g he hg hmax => ?_⟩
  · exact fuse_wind_of_none (strongest_eq_none fun k => windOf_eq_none (h k))
  · have hwind : ∀ j, ∀ q ∈ windOf (v.get j), q.1 ≤ g ∧ (q.1 = g → k ≤ j) := by
      rintro j ⟨g', w'⟩ hq
      obtain ⟨o', a', he', hg', -⟩ := windOf_eq_some_iff.1 hq
      exact hmax j o' a' g' he' hg'
    have hbest : strongest v = some (g, o.sector) :=
      strongest_eq_some (windOf_eq_some_iff.2 ⟨o, a, he, hg, rfl⟩) (fun j q hq => (hwind j q hq).1)
        fun j hj q hq => lt_of_le_of_ne (hwind j q hq).1 fun e => hj.not_ge ((hwind j q hq).2 e)
    obtain ⟨hG, hW⟩ := fuse_wind_of_some hbest
    exact ⟨hG, hW, fun hbound => hbound k o a g he hg⟩

/-- Settles O18: a WET or FAULT report decides first; without one, R is DRY or UNKNOWN as any rain is carried or
none. -/
theorem fusedRain : Obligations.FusedRain := by
  intro v reports hreports
  obtain rfl : reports = ReportsRain v := funext fun x => propext (hreports x)
  exact ⟨fuseRain_of_wet, fun hd hw hf => fuseRain_of_dry hd (not_or.2 ⟨hw, hf⟩), fuseRain_of_none⟩

end

section
/-! Exposure (chapter 3): the circular distance of two sectors, the facing factor it gives, what the first stage of a
full evaluation stores for one channel, and the statement about R34. -/

namespace Sys2Proof.Machine

/-! ### The facing factor (R34) -/

theorem sectorDistance_eq (w f : Nat) :
    sectorDistance w f = min (max w f - min w f) (16 - (max w f - min w f)) := by
  unfold sectorDistance
  split
  case isTrue h => rw [max_eq_right h, min_eq_left h]
  case isFalse h => rw [max_eq_left (not_le.1 h).le, min_eq_right (not_le.1 h).le]

/-- An arc and the rest of a circle of 16 sectors cannot both pass half of it. -/
theorem sectorDistance_le (w f : Nat) : sectorDistance w f ≤ 8 := by
  rw [sectorDistance_eq]
  omega

theorem factorOf_eq_ite (d : Nat) :
    factorOf d =
      if d = 0 then 16 else if d = 1 then 15 else if d = 2 then 12 else if d = 3 then 7
      else if d = 4 then 3 else 0 := by
  match d with
  | 0 | 1 | 2 | 3 | 4 => rfl
  | _ + 5 => simp [factorOf]

@[simp] theorem facingFactor_roof (w : Option Nat) : facingFactor .roof w = 16 := rfl

@[simp] theorem facingFactor_sector_none (f : Nat) : facingFactor (.sector f) none = 16 := rfl

theorem facingFactor_sector_some (f w : Nat) :
    facingFactor (.sector f) (some w) = factorOf (sectorDistance w f) := rfl

/-! ### The exposure of one channel (R35, R36) -/

theorem ChannelCfg.enabled_iff {r : ChannelCfg} : r.enabled = true ↔ r.cls ≠ .unused := bne_iff_ne

theorem exposureOf_of_gust {p : Picture} {g : Nat} (facing : Facing) (hg : p.g = some g) :
    exposureOf facing p = some (g * facingFactor facing p.w / 16) :=
  congrArg (Option.map _) hg

theorem reexpose_enabled {s : State} {c : Channel} (h : (chanCfg c s).enabled = true) :
    reexpose s c =
      setExposed c
        { s.eval.chans.get c with exposure := exposureOf (chanCfg c s).facing s.picture.fused } s :=
  if_pos h

theorem reexpose_exposure {s : State} {c : Channel} (h : (chanCfg c s).enabled = true) :
    ((reexpose s c).eval.chans.get c).exposure = exposureOf (chanCfg c s).facing s.picture.fused := by
  rw [reexpose_enabled h, setExposed_get_same]

end Sys2Proof.Machine

open Sys2Proof Sys2Proof.Machine

/-- Settles O21: the model's distance is the smaller arc, its table the factor of each distance, and the first stage
stores the exposure that the factor gives. -/
theorem facingFactorByDistance : Obligations.FacingFactorByDistance := by
  refine ⟨fun w f d _ _ hd => ?_, facingFactor_roof, facingFactor_sector_none, fun c g s r hr hcls hg => ?_⟩
  · obtain rfl : d = sectorDistance w f := hd.trans (sectorDistance_eq w f).symm
    exact ⟨sectorDistance_le w f, (facingFactor_sector_some f w).trans (factorOf_eq_ite _)⟩
  · subst hr
    rw [reexpose_exposure (ChannelCfg.enabled_iff.2 hcls), exposureOf_of_gust _ hg]
    rfl

end

section
/-! Tags of own entries (5.3): what the search for a free tag answers, that the CLAIM queued for an admitted entry
leaves the tag counter alone, and the statement about R83. -/

namespace Sys2Proof.Machine

/-! ### The search for a free tag (R83) -/

/-- The search passes only taken tags, and where it ends before its last try it ends on a free one. -/
theorem freeTag_spec (used : List Nat) : ∀ n b : Nat, ∃ k ≤ n,
    freeTag used n (b % 16) = (b + k) % 16 ∧ (∀ m < k, (b + m) % 16 ∈ used)
      ∧ (k < n → (b + k) % 16 ∉ used)
  | 0, b => ⟨0, le_rfl, rfl, fun _ h => absurd h (Nat.not_lt_zero _), fun h => absurd h (Nat.lt_irrefl _)⟩
  | n + 1, b => by
    by_cases hb : b % 16 ∈ used
    · obtain ⟨k, hk, htag, htaken, hfree⟩ := freeTag_spec used n (b + 1)
      refine ⟨k + 1, Nat.succ_le_succ hk, ?_, fun m hm => ?_, fun h => ?_⟩
      · rw [freeTag, if_pos hb, Nat.mod_add_mod, htag, Nat.add_right_comm, Nat.add_assoc]
      · cases m with
        | zero => exact hb
        | succ m =>
          rw [← Nat.add_assoc, Nat.add_right_comm]
          exact htaken m (Nat.lt_of_succ_lt_succ hm)
      · rw [← Nat.add_assoc, Nat.add_right_comm]
        exact hfree (Nat.lt_of_succ_lt_succ h)
    · exact ⟨0, Nat.zero_le _, if_neg hb, fun _ h => absurd h (Nat.not_lt_zero _), fun _ => hb⟩

/-- Consecutive values modulo 16, 16 at most, are distinct, so a list that holds them all is at least as long. -/
theorem le_length_of_taken {used : List Nat} {b k : Nat} (hk : k ≤ 16)
    (htaken : ∀ m < k, (b + m) % 16 ∈ used) : k ≤ used.length := by
  have hnodup : ((List.range k).map fun m => (b + m) % 16).Nodup :=
    List.nodup_range.map_on fun x hx y hy hxy => by
      rw [List.mem_range] at hx hy
      omega
  have hsub : ((List.range k).map fun m => (b + m) % 16) ⊆ used := fun x hx => by
    obtain ⟨m, hm, rfl⟩ := List.mem_map.1 hx
    exact htaken m (List.mem_range.1 hm)
  simpa using (hnodup.subperm hsub).length_le

/-- With more tries than taken tags, the search ends on a free one. -/
theorem freeTag_free {used : List Nat} {n : Nat} (hn : n ≤ 15) (hused : used.length ≤ n) (b : Nat) :
    ∃ k ≤ n, freeTag used (n + 1) (b % 16) = (b + k) % 16 ∧ (b + k) % 16 ∉ used
      ∧ ∀ m < k, (b + m) % 16 ∈ used := by
  obtain ⟨k, hk, htag, htaken, hfree⟩ := freeTag_spec used (n + 1) b
  have hkn : k ≤ n := (le_length_of_taken (by omega) htaken).trans hused
  exact ⟨k, hkn, htag, hfree (Nat.lt_succ_of_le hkn), htaken⟩

theorem nextTag_of_no_own {s : State} (hown : ∀ e ∈ s.supply.entries, e.own = false) :
    nextTag s = (s.supply.tagCounter + 1) % 16 := by
  have hnil : s.supply.entries.filter Entry.own = [] :=
    List.filter_eq_nil_iff.2 fun e he => by simp [hown e he]
  rw [nextTag, hnil]
  rfl

/-! ### The tag counter under the operations on claims and frames -/

@[simp] theorem changeEntries_tagCounter (p : Entry → Bool) (f : Entry → Entry) (s : State) :
    (changeEntries p f s).supply.tagCounter = s.supply.tagCounter := rfl

@[simp] theorem removeEntries_tagCounter (p : Entry → Bool) (s : State) :
    (removeEntries p s).supply.tagCounter = s.supply.tagCounter := rfl

@[simp] theorem frameLeft_tagCounter (s : State) : (frameLeft s).supply.tagCounter = s.supply.tagCounter := by
  unfold frameLeft
  dsimp only
  split <;> rfl

@[simp] theorem cancelClaim_tagCounter (tag : Nat) (s : State) :
    (cancelClaim tag s).supply.tagCounter = s.supply.tagCounter := by
  unfold cancelClaim
  split
  · exact frameLeft_tagCounter _
  · rfl

@[simp] theorem withdrawOwn_tagCounter (e : Entry) (b : Bool) (s : State) :
    (withdrawOwn e b s).supply.tagCounter = s.supply.tagCounter :=
  cancelClaim_tagCounter e.tag (removeEntries (isOwnOf e.chan) s)

@[simp] theorem claimDropped_tagCounter (tag : Nat) (b : Bool) (s : State) :
    (claimDropped tag b s).supply.tagCounter = s.supply.tagCounter := by
  unfold claimDropped
  split
  · rfl
  · split
    case h_1 => exact withdrawOwn_tagCounter ..
    case h_2 | h_3 => split <;> rfl
    case h_4 => rfl

@[simp] theorem wantRestart_tagCounter (s : State) :
    (wantRestart s).supply.tagCounter = s.supply.tagCounter := by
  unfold wantRestart
  split <;> rfl

@[simp] theorem tellDropped_tagCounter (o : FrameOwner) (b : Bool) (s : State) :
    (tellDropped o b s).supply.tagCounter = s.supply.tagCounter := by
  unfold tellDropped
  split
  · exact claimDropped_tagCounter ..
  · exact wantRestart_tagCounter s
  all_goals rfl

/-- R143, R144: a full transmit queue can cost an entry its CLAIM, never a tag. -/
@[simp] theorem enqueue_tagCounter (f : TxFrame) (s : State) :
    (enqueue f s).supply.tagCounter = s.supply.tagCounter := by
  unfold enqueue
  dsimp only
  split
  · simp
  · split
    · rfl
    · split <;> simp

@[simp] theorem queueClaim_tagCounter (e : Entry) (n : Bool) (s : State) :
    (queueClaim e n s).supply.tagCounter = s.supply.tagCounter := by
  simp [queueClaim]

/-! ### The admission (R71, R84) -/

@[simp] theorem admitted_tagCounter (j : Job) (s : State) :
    (admitted j s).supply.tagCounter = nextTag s := rfl

@[simp] theorem admitted_entries (j : Job) (s : State) :
    (admitted j s).supply.entries = s.supply.entries ++ [admittedEntry j s] := rfl

theorem admitJob_mute {j : Job} {s : State} (h : s.link.state = .mute) : admitJob j s = admitted j s := by
  rw [admit_eq, if_pos (beq_iff_eq.2 h)]

theorem admitJob_tagCounter (j : Job) (s : State) : (admitJob j s).supply.tagCounter = nextTag s := by
  rw [admit_eq]
  split <;> simp

end Sys2Proof.Machine

open Sys2Proof Sys2Proof.Machine

/-- Settles O29: nine tries find a tag that none of eight own entries holds, and the CLAIM queued for the new entry
leaves the counter at its tag. -/
theorem tagCounterSkipsOwnTags : Obligations.TagCounterSkipsOwnTags := by
  refine ⟨fun s own hown hlen => ?_, fun j s hmute => ?_, admitJob_tagCounter, rfl, fun s hzero hown => ?_⟩
  · subst hown
    obtain ⟨n, hn, (htag : nextTag s = _), hfree, htaken⟩ :=
      freeTag_free (by decide) hlen (s.supply.tagCounter + 1)
    exact ⟨n, hn, htag, htag ▸ hfree, htaken⟩
  · rw [admitJob_mute hmute]
    exact ⟨admitted_tagCounter j s, admittedEntry j s, admitted_entries j s, rfl, rfl⟩
  · rw [nextTag_of_no_own hown, hzero]

end

section
/-! The invariants: what a step can be, said once; what a property must survive to be kept by every step; and the
statements about the own total, the fit of jobs and claims, opening, and the other records. -/

namespace Sys2Proof.Machine

/-! ### What a step can be -/

/-- A change of the waiting commands, the input lines and the switches alone. -/
def InputsChange (s t : State) : Prop :=
  ∃ q p a b, t = { s with pending := q, pins := p, requests := { s.requests with swClose := a, swOpen := b } }

/-- A step is a command run with what is left of the queue, or a tick. -/
theorem step_cases {s t : State} (h : step s = .next t) :
    (∃ i q, exec i { s with pending := q } = .next t) ∨ t = elapse s := by
  unfold step idleStep at h
  split at h
  · exact .inl ⟨_, _, h⟩
  · next hp =>
    split at h
    · next i es _ => exact .inl ⟨i, s.pending, h⟩
    · cases h; exact .inr rfl

/-- What a command can be: a start, the completion of a load, a change of inputs on a part that does not run, or a
block's effect on a running part with or without the end of a command after it. -/
inductive CommandCase (s t : State) : Prop where
  | start (p : Phase) (h : t = coldStart p s)
  | load (warm : Bool) (im : List Byte) (hs : s.phase ≠ .running) (h : t = finish (completeLoad warm im s))
  | inputs (h : InputsChange s t) (hq : t.pending = s.pending) (hw : t.work = s.work)
  | block (r : Prop) (u : State) (hs : s.phase = .running) (hu : BlockStep r s u) (hk : Keeps s t)
      (h : t = finish u ∨ t = u ∧ u.work = s.work)

theorem InputsChange.same (s : State) : InputsChange s s :=
  ⟨s.pending, s.pins, s.requests.swClose, s.requests.swOpen, rfl⟩

theorem exec_loadComplete_cases {im : List Byte} {s t : State} (h : exec (.loadComplete im) s = .next t) :
    CommandCase s t := by
  have h' := Host.Outcome.next.inj (show execLoadComplete im s = .next t from h)
  split at h'
  · next hp => exact .load false im (by rw [hp]; decide) h'.symm
  · next hp => exact .load true im (by rw [hp]; decide) h'.symm
  all_goals
    subst h'
    exact .inputs (.same s) rfl rfl

theorem exec_cases {i : Instr} {s t : State} (h : exec i s = .next t) : CommandCase s t := by
  by_cases h1 : i = .coldStart
  · subst h1; exact .start .coldLoad (Host.Outcome.next.inj h).symm
  by_cases h2 : i = .resetAsserted
  · subst h2; exact .start .held (Host.Outcome.next.inj h).symm
  by_cases h3 : ∃ im, i = .loadComplete im
  · obtain ⟨im, rfl⟩ := h3; exact exec_loadComplete_cases h
  have h3 : ∀ im, i ≠ .loadComplete im := fun im e => h3 ⟨im, e⟩
  by_cases hs : s.phase = .running
  · have hk : Keeps s t := exec_keeps h1 h2 h3 h
    obtain ⟨u, hu, ⟨ht, hw⟩ | ⟨-, ht⟩⟩ := exec_comes i s h1 h2 h3
    · exact .block _ u hs hu hk (.inr ⟨Host.Outcome.next.inj (h.symm.trans ht), hw⟩)
    · exact .block _ u hs hu hk (.inl (Host.Outcome.next.inj (h.symm.trans ht)))
  · obtain ⟨p, a, b, rfl⟩ := exec_away hs h1 h2 h3 h
    exact .inputs ⟨s.pending, p, a, b, rfl⟩ rfl rfl

/-! ### What a property must survive to be kept by every step -/

/-- The parts of a step, each of which keeps `P`. The end of a command is a `QueueStep` of a running part with a warm
restart after it or none; a load is `LoadKeeps` and the entry of the link, which guards every opening. -/
structure KeptBySteps (P : State → Prop) : Prop where
  inputs : ∀ {s t}, InputsChange s t → P s → P t
  start : ∀ p s, P s → P (coldStart p s)
  block : ∀ {r s t}, BlockStep r s t → s.phase = .running → P s → P t
  queue : ∀ {s t}, QueueStep s t → s.phase = .running → P s → P t
  restart : ∀ s, P s → P (warmRestart s)
  load : ∀ {im s v u}, s.phase ≠ .running → LoadKeeps im s v → BlockStep False v u →
    (JobsOrdered v.jobs → ∀ c, OpeningGuarded c u) → P s → P u
  tick : ∀ s, P s → P (elapse s)

theorem KeptBySteps.finish {P : State → Prop} (k : KeptBySteps P) {s : State} (hs : s.phase = .running)
    (h : P s) : P (Machine.finish s) := by
  have hq : P (runScans 16 s) := k.queue (runScans_step 16 s) hs h
  obtain ⟨he, -⟩ | he := finish_cases s
  · rw [he]; exact hq
  · rw [he]; exact k.restart _ hq

theorem KeptBySteps.completeLoad {P : State → Prop} (k : KeptBySteps P) (warm : Bool) (im : List Byte)
    {s : State} (hs : s.phase ≠ .running) (h : P s) : P (Machine.finish (Machine.completeLoad warm im s)) := by
  rw [completeLoad_eq]
  have hv : LoadKeeps im s (loadedBase warm im s) := loadedBase_keeps warm im s
  have hu : BlockStep False _ (enterLink _ (loadedBase warm im s)) := loadEntry_step (loadedBase warm im s)
  exact k.finish (hu.phase.trans hv.phase) (k.load hs hv hu (enterLink_guarded _) h)

theorem KeptBySteps.exec {P : State → Prop} (k : KeptBySteps P) {i : Instr} {s t : State}
    (h : Machine.exec i s = .next t) (hp : P s) : P t := by
  cases exec_cases h with
  | start p h => rw [h]; exact k.start p s hp
  | load warm im hs h => rw [h]; exact k.completeLoad warm im hs hp
  | inputs h _ _ => exact k.inputs h hp
  | block r u hs hu _ h =>
    have hpu : P u := k.block hu hs hp
    obtain rfl | ⟨rfl, -⟩ := h
    · exact k.finish (hu.phase.trans hs) hpu
    · exact hpu

theorem KeptBySteps.step {P : State → Prop} (k : KeptBySteps P) {s t : State}
    (h : Machine.step s = .next t) (hp : P s) : P t := by
  obtain ⟨i, q, h⟩ | rfl := step_cases h
  · exact k.exec h (k.inputs ⟨q, s.pins, s.requests.swClose, s.requests.swOpen, rfl⟩ hp)
  · exact k.tick s hp

/-! ### Each property kept -/

/-- A part that runs has loaded, so nothing is claimed of it; one that does not has what its start left. -/
theorem emptyUntilLoaded_kept : KeptBySteps EmptyUntilLoaded where
  inputs := by rintro s _ ⟨q, p, a, b, rfl⟩ h; exact h
  start _ _ _ _ := ⟨rfl, rfl⟩
  block hb hs _ ht := absurd (hb.phase.trans hs) ht
  queue hq hs _ ht := absurd (hq.phase.trans hs) ht
  restart _ _ _ := ⟨rfl, rfl⟩
  load _ hv hu _ _ ht := absurd (hu.phase.trans hv.phase) ht
  tick s h ht := by
    obtain ⟨hj, he⟩ := h ht
    exact ⟨hj, by rw [elapse_entries, he]; rfl⟩

theorem withinBudget_of_empty {s : State} (he : s.supply.entries = [])
    (hi : s.cfg.isoShare ≤ s.cfg.budget) : WithinBudget s := by
  refine ⟨?_, hi, fun e h => ?_⟩
  · simp [ownTotal, he, drawSum_nil]
  · rw [he] at h; cases h

theorem withinBudget_kept : KeptBySteps (fun s => WithinBudget s ∧ EmptyUntilLoaded s) where
  inputs := by rintro s _ ⟨q, p, a, b, rfl⟩ h; exact h
  start p s h := ⟨withinBudget_of_empty rfl (show 0 ≤ 100 by decide), emptyUntilLoaded_kept.start p s h.2⟩
  block hb hs h := ⟨hb.budget h.1, emptyUntilLoaded_kept.block hb hs h.2⟩
  queue hq hs h := ⟨hq.budget h.1, emptyUntilLoaded_kept.queue hq hs h.2⟩
  restart s h := ⟨withinBudget_of_empty rfl h.1.2.1, emptyUntilLoaded_kept.restart s h.2⟩
  load hs hv hu hg h :=
    ⟨hu.budget (hv.budget (h.2 hs).2), emptyUntilLoaded_kept.load hs hv hu hg h.2⟩
  tick s h := ⟨(elapse_step (r := False) s).budget h.1, emptyUntilLoaded_kept.tick s h.2⟩

theorem jobsOrdered_kept : KeptBySteps (fun s => JobsOrdered s.jobs) where
  inputs := by rintro s _ ⟨q, p, a, b, rfl⟩ h; exact h
  start _ _ _ := JobsOrdered.nil
  block hb _ h := hb.jobs h
  queue hq _ h := hq.jobs h
  restart _ _ := JobsOrdered.nil
  load _ hv hu _ h := hu.jobs (hv.jobs h)
  tick _ h := h

theorem enabledByLoad_kept : KeptBySteps EnabledByLoad where
  inputs := by rintro s _ ⟨q, p, a, b, rfl⟩ h; exact h
  start _ _ _ _ c hc := absurd (Eight.get_fill (α := Driver) _ c) hc
  block hb hs h _ := hb.live (h hs)
  queue hq hs h _ := (hq.block (r := False)).live (h hs)
  restart _ _ hr := by cases hr
  load _ hv hu _ _ _ := hu.live hv.live
  tick s h hr := (elapse_step (r := False) s).live (h hr)

theorem not_opens_of_rest {c : Channel} {s : State} (hd : isOpening (s.drivers.get c) = false)
    (hj : s.jobs = []) : ¬ Opens c s := by
  rintro (h | ⟨j, h, -⟩)
  · rw [hd] at h; cases h
  · rw [hj] at h; cases h

theorem isOpening_restarted (d : Driver) : isOpening (restarted d) = false := by cases d <;> rfl

theorem openingGuarded_kept :
    KeptBySteps (fun s => (∀ c, OpeningGuarded c s) ∧ JobsOrdered s.jobs ∧ EnabledByLoad s) where
  inputs := by rintro s _ ⟨q, p, a, b, rfl⟩ h; exact h
  start p s h :=
    ⟨fun c ho => absurd ho (not_opens_of_rest (congrArg isOpening (Eight.get_fill (α := Driver) _ c)) rfl),
      jobsOrdered_kept.start p s h.2.1, enabledByLoad_kept.start p s h.2.2⟩
  block hb hs h :=
    ⟨hb.guard h.2.1 (h.2.2 hs) h.1, hb.jobs h.2.1, enabledByLoad_kept.block hb hs h.2.2⟩
  queue hq hs h :=
    ⟨(hq.block (r := False)).guard h.2.1 (h.2.2 hs) h.1, hq.jobs h.2.1,
      enabledByLoad_kept.queue hq hs h.2.2⟩
  restart s h :=
    ⟨fun c ho => absurd ho (not_opens_of_rest (by simp [warmRestart, isOpening_restarted]) rfl),
      JobsOrdered.nil, enabledByLoad_kept.restart s h.2.2⟩
  load hs hv hu hg h :=
    ⟨hg (hv.jobs h.2.1), hu.jobs (hv.jobs h.2.1), enabledByLoad_kept.load hs hv hu hg h.2.2⟩
  tick s h := ⟨fun c => elapse_guarded (h.1 c), h.2.1, enabledByLoad_kept.tick s h.2.2⟩

theorem txOrdered_kept : KeptBySteps (fun s => TxOrdered s.line.queue) where
  inputs := by rintro s _ ⟨q, p, a, b, rfl⟩ h; exact h
  start _ _ _ := TxOrdered.nil
  block hb _ h := hb.tx h
  queue hq _ h := hq.tx h
  restart _ _ := TxOrdered.nil
  load _ hv hu _ h := hu.tx (hv.tx h)
  tick _ h := h

theorem tableBounded_kept : KeptBySteps TableBounded where
  inputs := by rintro s _ ⟨q, p, a, b, rfl⟩ h; exact h
  start _ _ _ := Nat.zero_le _
  block hb _ h := hb.table h
  queue hq _ h := hq.table h
  restart _ _ := Nat.zero_le _
  load _ hv hu _ h := hu.table (hv.table h)
  tick s h := (elapse_step (r := False) s).table h

theorem recordsBounded_reset : RecordsBounded Status.reset :=
  ⟨fun e => by cases e <;> decide, by decide, by decide, by decide, by decide⟩

theorem recordsBounded_kept : KeptBySteps (fun s => RecordsBounded s.status) where
  inputs := by rintro s _ ⟨q, p, a, b, rfl⟩ h; exact h
  start _ _ _ := recordsBounded_reset
  block hb _ h := hb.records h
  queue hq _ h := hq.records h
  restart _ h := h
  load _ hv hu _ h := hu.records (hv.records h)
  tick _ h := h

theorem linkTimersFit_start : LinkTimersFit Link.start := by
  refine ⟨?_, ?_, ?_⟩ <;> simp [Link.start]

theorem linkTimersFit_kept : KeptBySteps (fun s => LinkTimersFit s.link) where
  inputs := by rintro s _ ⟨q, p, a, b, rfl⟩ h; exact h
  start _ _ _ := linkTimersFit_start
  block hb _ h := hb.timers h
  queue hq _ h := by rw [hq.link]; exact h
  restart _ _ := linkTimersFit_start
  load _ hv hu _ h := hu.timers (by rw [hv.link]; exact h)
  tick s h := (elapse_step (r := False) s).timers h

theorem pictureFollows_kept : KeptBySteps PictureFollows where
  inputs := by rintro s _ ⟨q, p, a, b, rfl⟩ h; exact h
  start _ _ _ _ := (by decide : Picture.unknown = fuse PictureUnit.start.slots)
  block hb hs h _ := hb.fused (h hs)
  queue hq hs h _ := by rw [hq.picture]; exact h hs
  restart _ _ hr := by cases hr
  load _ hv hu _ _ _ := hu.fused (by rw [hv.slots]; exact (fuse_filled _).symm)
  tick s h hr := (elapse_step (r := False) s).fused (h hr)

theorem ownEntriesCarry_kept : KeptBySteps (fun s => OwnEntriesCarry s ∧ EmptyUntilLoaded s) where
  inputs := by rintro s _ ⟨q, p, a, b, rfl⟩ h; exact h
  start p s h := ⟨fun e he _ => absurd he (List.not_mem_nil), emptyUntilLoaded_kept.start p s h.2⟩
  block hb hs h := ⟨hb.own h.1, emptyUntilLoaded_kept.block hb hs h.2⟩
  queue hq hs h := ⟨hq.own h.1, emptyUntilLoaded_kept.queue hq hs h.2⟩
  restart s h := ⟨fun e he _ => absurd he (List.not_mem_nil), emptyUntilLoaded_kept.restart s h.2⟩
  load hs hv hu hg h := ⟨hu.own (hv.own (h.2 hs).2), emptyUntilLoaded_kept.load hs hv hu hg h.2⟩
  tick s h := ⟨(elapse_step (r := False) s).own h.1, emptyUntilLoaded_kept.tick s h.2⟩

/-- The end of a command clears both marks, and a command without one touches neither. -/
theorem step_marks {s t : State} (h : step s = .next t) (hm : MarksClear s) : MarksClear t := by
  obtain ⟨i, q, h⟩ | rfl := step_cases h
  · cases exec_cases h with
    | start p h => rw [h]; exact ⟨rfl, rfl⟩
    | load warm im _ h => rw [h]; exact finish_marks _
    | inputs _ _ hw => unfold MarksClear; rw [hw]; exact hm
    | block r u _ _ _ h =>
      obtain rfl | ⟨rfl, hw⟩ := h
      · exact finish_marks _
      · unfold MarksClear; rw [hw]; exact hm
  · exact hm

/-! ### The fit of jobs and claims -/

/-- The completion of a load finds nothing claimed and so nothing in motion. -/
theorem completeLoad_fits (warm : Bool) (im : List Byte) {s : State} (he : s.supply.entries = [])
    (hf : ∀ c, ClaimFits c s) : ∀ c, ClaimFits c (finish (completeLoad warm im s)) := by
  rw [completeLoad_eq]
  have hb : Keeps s (loadedBase warm im s) := loadedBase_fits warm im s (rest_of_empty he hf)
  exact (hb.trans ((enterLink_keeps _ _).trans (finish_keeps _))).all hf

theorem exec_fits {i : Instr} {s t : State} (h : exec i s = .next t) (he : EmptyUntilLoaded s)
    (hf : ∀ c, ClaimFits c s) : ∀ c, ClaimFits c t := by
  cases exec_cases h with
  | start p h => rw [h]; exact coldStart_fits p s
  | load warm im hs h => rw [h]; exact completeLoad_fits warm im (he hs).2 hf
  | inputs h _ _ =>
    obtain ⟨q, p, a, b, rfl⟩ := h
    exact hf
  | block r u _ _ hk _ => exact hk.all hf

end Sys2Proof.Machine

open Sys2Proof Sys2Proof.Machine

/-- Settles O56: each part of a step keeps the own total within the budget; a load finds the table empty. -/
theorem ownTotalStaysWithinBudget : Obligations.OwnTotalStaysWithinBudget :=
  fun _ _ hb he h => withinBudget_kept.step h ⟨hb, he⟩

/-- Settles O57: a command keeps the fit of every channel, the order of the jobs and the emptiness before a load. -/
theorem claimsFitMotionsAndJobs : Obligations.ClaimsFitMotionsAndJobs := by
  intro s t hf hj he h
  refine ⟨?_, jobsOrdered_kept.step h hj, emptyUntilLoaded_kept.step h he⟩
  obtain ⟨i, q, h⟩ | rfl := step_cases h
  · exact exec_fits h he hf
  · exact (elapse_keeps s).all hf

/-- Settles O58: a re-judgement follows whatever bars opening, in every part of a step. -/
theorem openingOnlyWhileAllowed : Obligations.OpeningOnlyWhileAllowed := by
  intro s t hg hj hl he h
  obtain ⟨hg', hj', hl'⟩ := openingGuarded_kept.step h ⟨hg, hj, hl⟩
  exact ⟨hg', hj', hl', emptyUntilLoaded_kept.step h he⟩

/-- Settles O59: each of the eight properties is kept by every part of a step. -/
theorem queuesRecordsAndTimersStaySound : Obligations.QueuesRecordsAndTimersStaySound := by
  intro s t htx htab hrec htim hpic hown he hm h
  obtain ⟨hown', he'⟩ := ownEntriesCarry_kept.step h ⟨hown, he⟩
  exact ⟨txOrdered_kept.step h htx, tableBounded_kept.step h htab, recordsBounded_kept.step h hrec,
    linkTimersFit_kept.step h htim, pictureFollows_kept.step h hpic, hown', he', step_marks h hm⟩

/-- Settles O60: at reset the queues and the table are empty, every channel is DISABLED and every timer stopped. -/
theorem invariantsHoldAtReset : Obligations.InvariantsHoldAtReset := by
  have hd : ∀ c, State.reset.drivers.get c = .disabled := fun c => Eight.get_fill _ c
  refine ⟨withinBudget_of_empty rfl (by decide), fun _ => ⟨rfl, rfl⟩, coldStart_fits .coldLoad State.reset,
    JobsOrdered.nil, fun c ho => absurd ho (not_opens_of_rest (congrArg isOpening (hd c)) rfl),
    fun h => (by cases h), TxOrdered.nil, Nat.zero_le _, recordsBounded_reset, linkTimersFit_start,
    fun h => (by cases h), fun e he => absurd he List.not_mem_nil, rfl, rfl⟩

end

section
/-! Commands and their end: how a command is read off its effect, what the end of a command keeps, and the statements
about steps, commands before a load, the admission scan and the idle part. -/

namespace Sys2Proof.Machine

/-! ### A command read off its effect -/

/-- On a settled part a command is its effect and the end of a command. -/
theorem exec_settled {i : Instr} {f : State → State} {s : State} (hi : exec i s = .next (whileRunning f s))
    (hs : Settled s) : exec i s = .next (finish (f s)) := by
  rw [hi, whileRunning_running hs.1]

theorem finish_of_work {s t : State} (hs : Settled s) (hw : t.work = s.work) : finish t = t :=
  finish_quiet (by rw [hw]; exact hs.2.1) (by rw [hw]; exact hs.2.2)

/-- A command whose effect calls for neither a scan nor a restart is its effect. -/
theorem exec_plain {i : Instr} {f : State → State} {s : State} (hi : exec i s = .next (whileRunning f s))
    (hs : Settled s) (hw : (f s).work = s.work) : exec i s = .next (f s) := by
  rw [exec_settled hi hs, finish_of_work hs hw]

/-- A command without effect. -/
theorem exec_nothing {i : Instr} {f : State → State} {s : State} (hi : exec i s = .next (whileRunning f s))
    (hs : Settled s) (hf : f s = s) : exec i s = .next s := by
  rw [exec_plain hi hs (by rw [hf]), hf]

theorem finish_pending (s : State) : (finish s).pending = s.pending := by
  obtain ⟨h, -⟩ | h := finish_cases s
  · rw [h]; exact (runScans_step 16 s).pending
  · rw [h]; exact (runScans_step 16 s).pending

theorem exec_next (i : Instr) (s : State) : ∃ t, exec i s = .next t := by
  cases i <;> exact ⟨_, rfl⟩

theorem exec_pending {i : Instr} {s t : State} (h : exec i s = .next t) : t.pending = s.pending := by
  cases exec_cases h with
  | start p h => rw [h]; rfl
  | load warm im _ h =>
    rw [h, finish_pending, completeLoad_eq, (loadEntry_step (r := False) (loadedBase warm im s)).pending,
      (loadedBase_keeps warm im s).pending]
  | inputs _ hq _ => exact hq
  | block r u _ hu _ h =>
    obtain rfl | ⟨rfl, -⟩ := h
    · rw [finish_pending, hu.pending]
    · exact hu.pending

/-! ### Limit contacts (R108) -/

theorem reads_contactFor (r : ChannelCfg) (on : Bool) : reads r (contactFor r on) = on := by
  unfold reads contactFor
  cases on <;> cases r.openingContacts <;> rfl

theorem contactFor_reads (r : ChannelCfg) (x : Bool) : contactFor r (reads r x) = x := by
  unfold reads contactFor
  cases x <;> cases r.openingContacts <;> rfl

theorem limitOn_setLimit (c : Channel) (l : Limit) (on : Bool) (s : State) :
    limitOn c l (setLimit c l on s) = on := by
  cases l <;> simp only [limitOn, setLimit, Eight.get_set_same] <;> exact reads_contactFor _ on

theorem pins_set_get (c : Channel) (s : State) :
    { s with pins := { s.pins with chans := s.pins.chans.set c (s.pins.chans.get c) } } = s := by
  rw [Eight.set_get]

/-- A limit that reads as it is set leaves the inputs as they are. -/
theorem setLimit_of_limitOn {c : Channel} {l : Limit} {on : Bool} {s : State} (h : limitOn c l s = on) :
    setLimit c l on s = s := by
  subst h
  cases l <;> simp only [limitOn, setLimit, contactFor_reads] <;> exact pins_set_get c s

/-! ### Before a load (R189) -/

theorem exec_rainLevelChange_away {s : State} (hs : s.phase ≠ .running) (level : RainLevel) :
    exec (.rainLevelChange level) s = .next { s with pins := { s.pins with rain := level } } := by
  refine congrArg Host.Outcome.next ?_
  split
  · next h => rw [← h]
  · exact whileRunning_away hs

theorem exec_limit_away {s : State} (hs : s.phase ≠ .running) (c : Channel) (l : Limit) :
    exec (.limitActive c l) s = .next (setLimit c l true s)
      ∧ exec (.limitInactive c l) s = .next (setLimit c l false s) := by
  refine ⟨congrArg Host.Outcome.next ?_, congrArg Host.Outcome.next ?_⟩
  · split
    · next h => exact (setLimit_of_limitOn h).symm
    · exact whileRunning_away hs
  · split
    · exact whileRunning_away hs
    · next h => exact (setLimit_of_limitOn (Bool.eq_false_iff.2 h)).symm

theorem setSwitch_switchOf (w : SwitchId) (s : State) : setSwitch w (switchOf w s) s = s := by
  cases w <;> rfl

theorem exec_switchInputChange_away {s : State} (hs : s.phase ≠ .running) (w : SwitchId) (on : Bool) :
    exec (.switchInputChange w on) s = .next (setSwitch w { switchOf w s with input := on } s) := by
  refine congrArg Host.Outcome.next ?_
  split
  · next h => subst h; exact (setSwitch_switchOf w s).symm
  · exact whileRunning_away (by cases w <;> exact hs)

/-- The commands that a held or loading part does not take. -/
theorem exec_nothing_away {i : Instr} {s : State} (hs : s.phase ≠ .running) (h1 : i ≠ .coldStart)
    (h2 : i ≠ .resetAsserted) (h3 : ∀ im, i = .loadComplete im → s.phase = .held)
    (h4 : ∀ level, i ≠ .rainLevelChange level)
    (h5 : ∀ c l, i ≠ .limitActive c l ∧ i ≠ .limitInactive c l)
    (h6 : ∀ w on, i ≠ .switchInputChange w on) : exec i s = .next s := by
  cases i
  case coldStart => exact absurd rfl h1
  case resetAsserted => exact absurd rfl h2
  case rainLevelChange level => exact absurd rfl (h4 level)
  case limitActive c l => exact absurd rfl (h5 c l).1
  case limitInactive c l => exact absurd rfl (h5 c l).2
  case switchInputChange w on => exact absurd rfl (h6 w on)
  case loadComplete im =>
    refine congrArg Host.Outcome.next ?_
    rw [h3 im rfl]
  all_goals exact congrArg Host.Outcome.next (whileRunning_away hs)

end Sys2Proof.Machine

open Sys2Proof Sys2Proof.Machine

/-- Settles O1: the step's own first case. -/
theorem stepTakesFrontCommand : Obligations.StepTakesFrontCommand := by
  intro i rest s h
  simp only [step, h]

/-- Settles O2: every arm answers a next state, and no part of a command reaches the commands that wait. -/
theorem commandsNeverStopOrTouchQueue : Obligations.CommandsNeverStopOrTouchQueue := by
  intro i s
  obtain ⟨t, h⟩ := exec_next i s
  exact ⟨t, h, exec_pending h⟩

/-- Settles O3: where the part does not run, a command's effect and its end fall away and its input alone follows. -/
theorem nothingTakenBeforeLoad : Obligations.NothingTakenBeforeLoad := by
  intro i s hs
  refine ⟨exec_nothing_away hs, ?_, ?_, ?_⟩
  · rintro level rfl
    exact exec_rainLevelChange_away hs level
  · rintro c l on contact (⟨rfl, rfl⟩ | ⟨rfl, rfl⟩) rfl
    · rw [(exec_limit_away hs c l).1]; cases l <;> rfl
    · rw [(exec_limit_away hs c l).2]; cases l <;> rfl
  · rintro w on rfl
    rw [exec_switchInputChange_away hs w on]
    cases w <;> rfl

end

section
/-! The end of a command: a restart once marked stays marked through every operation on jobs, claims, frames and channels
(R172), what a scan does with one job, and the statements about the end of a command and the scan. -/

namespace Sys2Proof.Machine

/-! ### A restart once marked stays marked (R172) -/

/-- From `s` to `t` the mark of a warm restart has not been taken back. -/
structure RestartStands (s t : State) : Prop where
  stands : s.work.restart = true → t.work.restart = true

theorem RestartStands.refl (s : State) : RestartStands s s := ⟨id⟩

theorem RestartStands.trans {a b c : State} (h : RestartStands a b) (k : RestartStands b c) :
    RestartStands a c := ⟨k.stands ∘ h.stands⟩

theorem RestartStands.of_work {s t : State} (h : t.work.restart = s.work.restart) : RestartStands s t :=
  ⟨fun hs => h.trans hs⟩

/-- A change that no mark sees comes first. -/
theorem RestartStands.after {s t u : State} (h : RestartStands t u)
    (hw : t.work.restart = s.work.restart) : RestartStands s u := (RestartStands.of_work hw).trans h

/-- A change that no mark sees comes last. -/
theorem RestartStands.before {s t u : State} (h : RestartStands s t)
    (hw : u.work.restart = t.work.restart) : RestartStands s u := h.trans (.of_work hw)

theorem frameLeft_stands (s : State) : RestartStands s (frameLeft s) := by
  unfold frameLeft
  dsimp only
  split <;> exact .of_work rfl

theorem cancelClaim_stands (tag : Nat) (s : State) : RestartStands s (cancelClaim tag s) := by
  unfold cancelClaim
  split
  · exact (frameLeft_stands _).after rfl
  · exact .refl s

theorem withdrawOwn_stands (e : Entry) (b : Bool) (s : State) : RestartStands s (withdrawOwn e b s) :=
  ⟨(cancelClaim_stands e.tag (removeEntries (isOwnOf e.chan) s)).stands⟩

theorem claimDropped_stands (tag : Nat) (b : Bool) (s : State) : RestartStands s (claimDropped tag b s) := by
  unfold claimDropped
  split
  · exact .refl s
  · split
    case h_1 => exact withdrawOwn_stands ..
    case h_2 | h_3 => split <;> exact .of_work rfl
    case h_4 => exact .refl s

theorem wantRestart_stands (s : State) : RestartStands s (wantRestart s) := by
  unfold wantRestart
  split
  · exact ⟨fun _ => rfl⟩
  · exact .refl s

theorem tellDropped_stands (o : FrameOwner) (b : Bool) (s : State) : RestartStands s (tellDropped o b s) := by
  unfold tellDropped
  split
  · exact claimDropped_stands ..
  · exact wantRestart_stands s
  all_goals exact .refl s

theorem enqueue_stands (f : TxFrame) (s : State) : RestartStands s (enqueue f s) := by
  unfold enqueue
  dsimp only
  split
  · exact (frameLeft_stands _).after rfl
  · split
    · exact .of_work rfl
    · split
      · have hleft := frameLeft_stands (setQueue (placeFrame f (withoutVictim s.line.queue)) s)
        exact RestartStands.trans ⟨hleft.stands⟩ ((tellDropped_stands ..).after rfl)
      · exact (tellDropped_stands ..).after rfl

theorem queueClaim_stands (e : Entry) (n : Bool) (s : State) : RestartStands s (queueClaim e n s) :=
  (cancelClaim_stands e.tag s).trans (enqueue_stands ..)

theorem queueRelease_stands (tag : Nat) (s : State) : RestartStands s (queueRelease tag s) := by
  unfold queueRelease
  split
  · exact .refl s
  · exact enqueue_stands ..

theorem removeOwn_stands (c : Channel) (r : Bool) (s : State) : RestartStands s (removeOwn c r s) := by
  unfold removeOwn
  split
  · exact .refl s
  · next e _ =>
    have h : RestartStands s (wantScan (cancelClaim e.tag (removeEntries (isOwnOf c) s))) :=
      ⟨(cancelClaim_stands e.tag (removeEntries (isOwnOf c) s)).stands⟩
    dsimp only
    split
    · exact h.trans (queueRelease_stands ..)
    · exact h

theorem giveUpClaim_stands (j : Job) (s : State) : RestartStands s (giveUpClaim j s) := by
  unfold giveUpClaim
  split
  · exact .refl s
  all_goals exact removeOwn_stands ..

theorem admitJob_stands (j : Job) (s : State) : RestartStands s (admitJob j s) := by
  rw [admit_eq]
  split
  · exact .of_work rfl
  · exact (queueClaim_stands _ _ (admitted j s)).after rfl

theorem raiseEntry_stands (c : Channel) (n : Nat) (b : Bool) (s : State) :
    RestartStands s (raiseEntry c n b s) := by
  unfold raiseEntry
  split
  · exact .refl s
  · split
    · exact .refl s
    · dsimp only
      split
      · exact .of_work rfl
      · exact (queueClaim_stands ..).after rfl

theorem endMotion_stands (c : Channel) (d : Driver) (s : State) : RestartStands s (endMotion c d s) :=
  ⟨(removeOwn_stands c true (setDriver c d s)).stands⟩

theorem halt_stands (c : Channel) (s : State) : RestartStands s (halt c s) := by
  unfold halt
  split
  · exact endMotion_stands ..
  · exact .refl s

theorem reverse_stands (c : Channel) (n : Nat) (k : Cause) (w : Requester) (s : State) :
    RestartStands s (reverse c n k w s) := by
  unfold reverse
  split
  · exact (raiseEntry_stands ..).after rfl
  all_goals exact .refl s

theorem removeOpenJob_stands (c : Channel) (s : State) : RestartStands s (removeOpenJob c s) := by
  unfold removeOpenJob
  split
  · exact .refl s
  · split
    · exact (giveUpClaim_stands _ s).before rfl
    · exact .refl s

theorem rejudge_stands (c : Channel) (s : State) : RestartStands s (rejudge c s) := by
  unfold rejudge
  split
  · exact .refl s
  · dsimp only
    split
    · exact (removeOpenJob_stands c s).trans (reverse_stands ..)
    · exact (removeOpenJob_stands c s).trans (halt_stands ..)

theorem rejudgeAll_stands (s : State) : RestartStands s (rejudgeAll s) :=
  foldl_rel RestartStands.refl RestartStands.trans (fun s c => rejudge_stands c s) _ s

theorem queueClose_stands (c : Channel) (r : CloseReq) (s : State) : RestartStands s (queueClose c r s) := by
  unfold queueClose
  split
  · exact .of_work rfl
  · split
    · exact (giveUpClaim_stands _ s).before rfl
    · dsimp only
      split
      · exact (raiseEntry_stands ..).after rfl
      · exact .of_work rfl

theorem closeForIsolation_stands (s : State) (c : Channel) : RestartStands s (closeForIsolation s c) := by
  unfold closeForIsolation
  dsimp only
  split
  case h_1 _ _ _ hd => unfold closeRequest; rw [hd]; exact reverse_stands ..
  case h_2 _ hd =>
    split
    · exact .refl s
    · unfold closeRequest; rw [hd]; exact queueClose_stands ..
  case h_3 | h_4 => exact .of_work rfl
  all_goals exact .refl s

theorem applyPolicy_stands (s : State) : RestartStands s (applyPolicy s) := by
  unfold applyPolicy
  split
  · exact foldl_rel RestartStands.refl RestartStands.trans closeForIsolation_stands _ s
  · exact foldl_rel RestartStands.refl RestartStands.trans (fun s c => halt_stands c s) _ s

theorem withdrawAnnouncing_stands (s : State) (c : Channel) : RestartStands s (withdrawAnnouncing s c) := by
  unfold withdrawAnnouncing
  split
  · exact .refl s
  · split
    · exact (removeOwn_stands c false s).before rfl
    · exact .refl s

theorem withdrawAll_stands (s : State) : RestartStands s (withdrawAll s) :=
  foldl_rel RestartStands.refl RestartStands.trans withdrawAnnouncing_stands _ s

theorem entryEffect_stands (new : LinkState) (s : State) : RestartStands s (entryEffect new s) := by
  cases new
  case active => exact enqueue_stands _ s
  case mute => exact wantRestart_stands s
  case isolated => exact .of_work rfl
  all_goals exact .refl s

theorem handOn_stands (new : LinkState) (s : State) : RestartStands s (handOn new s) := by
  cases new
  case isolated | mute => exact (withdrawAll_stands s).trans (applyPolicy_stands _)
  case listen => exact withdrawAll_stands s
  all_goals exact .refl s

theorem scanOnEntry_stands (new : LinkState) (s : State) : RestartStands s (scanOnEntry new s) := by
  cases new <;> exact .of_work rfl

theorem enterLink_stands (new : LinkState) (s : State) : RestartStands s (enterLink new s) := by
  have hl : RestartStands s { s with link := linkEntered s.cfg new s.link } := .of_work rfl
  exact hl.trans ((entryEffect_stands new _).trans ((handOn_stands new _).trans
    ((rejudgeAll_stands _).trans (scanOnEntry_stands new _))))

/-! ### The scan of one job (R69, R70, R86) -/

/-- The queue with the mark of a held-back job of a channel cleared (R86). -/
def unheld (c : Channel) (s : State) : State :=
  setJobs (s.jobs.map (fun k => if k.chan = c then { k with heldBack := false } else k)) s

theorem scanJob_left {c : Channel} {j : Job} {s : State} (hj : jobOf c s = some j)
    (h : j.state ≠ .waiting ∨ passedOver j s = true) : scanJob s c = s := by
  unfold scanJob
  rw [hj]
  exact if_pos h

theorem scanJob_idle {c : Channel} {j : Job} {s : State} (hj : jobOf c s = some j)
    (h : ¬ (j.state ≠ .waiting ∨ passedOver j s = true)) (hi : idleJob j (s.drivers.get c) = true) :
    scanJob s c = dropJob c s := by
  unfold scanJob
  rw [hj]
  exact (if_neg h).trans (if_pos hi)

theorem scanJob_tried {c : Channel} {j : Job} {s : State} (hj : jobOf c s = some j)
    (h : ¬ (j.state ≠ .waiting ∨ passedOver j s = true)) (hi : ¬ idleJob j (s.drivers.get c) = true) :
    scanJob s c = if j.dir = .opening ∧ closeWaiting (unheld c s) = true then unheld c s
      else if admits (drawOf c (unheld c s)) (unheld c s) then admitJob j (unheld c s) else unheld c s := by
  unfold scanJob
  rw [hj]
  exact (if_neg h).trans (if_neg hi)

theorem scanJob_stands (s : State) (c : Channel) : RestartStands s (scanJob s c) := by
  cases hj : jobOf c s with
  | none => unfold scanJob; rw [hj]; exact .refl s
  | some j =>
    by_cases h : j.state ≠ .waiting ∨ passedOver j s = true
    · rw [scanJob_left hj h]; exact .refl s
    by_cases hi : idleJob j (s.drivers.get c) = true
    · rw [scanJob_idle hj h hi]; exact .of_work rfl
    rw [scanJob_tried hj h hi]
    split
    · exact .of_work rfl
    · split
      · exact (admitJob_stands j (unheld c s)).after rfl
      · exact .of_work rfl

theorem runScans_stands : ∀ (n : Nat) (s : State), RestartStands s (runScans n s)
  | 0, _ => .of_work rfl
  | n + 1, s => by
    unfold runScans
    split
    · have hscan := foldl_rel RestartStands.refl RestartStands.trans scanJob_stands (s.jobs.map Job.chan)
        { s with work := { s.work with scan := false } }
      exact (hscan.trans (runScans_stands n _)).after rfl
    · exact .refl s

/-- A command that marks the restart ends in it. -/
theorem finish_of_restart {s : State} (h : s.work.restart = true) :
    finish s = warmRestart (runScans 16 s) := by
  unfold finish
  rw [if_pos ((runScans_stands 16 s).stands h)]

theorem passedOver_iff (j : Job) (s : State) :
    passedOver j s = true ↔ j.heldBack = true ∧ 8 ≤ s.line.queue.length := by
  unfold passedOver Config.txSize
  rw [Bool.and_eq_true, decide_eq_true_iff]

theorem idleJob_iff (j : Job) (d : Driver) : idleJob j d = true ↔
    isFaulted d = true ∨ (j.dir = .close ∧ d = .idle .closed) ∨ (j.dir = .opening ∧ d = .idle .opened) := by
  cases hd : j.dir <;> simp [idleJob, hd, restsClosed, restsOpen]

theorem closeWaiting_iff (s : State) :
    closeWaiting s = true ↔ ∃ k ∈ s.jobs, k.dir = .close ∧ k.state = .waiting := by
  simp [closeWaiting]

theorem closeWaiting_unheld (c : Channel) (s : State) : closeWaiting (unheld c s) = closeWaiting s := by
  unfold closeWaiting unheld
  rw [setJobs_jobs, List.any_map]
  congr 1
  funext k
  simp only [Function.comp]
  split <;> rfl

theorem admits_unheld (d : Nat) (c : Channel) (s : State) : admits d (unheld c s) = admits d s := rfl

/-! ### The scan of the queue -/

theorem scan_of_none_waiting {s : State} (h : ∀ j ∈ s.jobs, j.state ≠ .waiting) : scan s = s := by
  have hone : ∀ c, scanJob s c = s := fun c => by
    cases hj : jobOf c s with
    | none => unfold scanJob; rw [hj]
    | some j => exact scanJob_left hj (.inl (h j (jobOf_some hj).1))
  exact foldl_keeps (p := (· = s)) (fun t c ht => by rw [ht]; exact hone c) _ s rfl

theorem runScans_succ_of_scan {n : Nat} {s : State} (h : s.work.scan = true) :
    runScans (n + 1) s = runScans n (scan { s with work := { s.work with scan := false } }) := by
  conv_lhs => unfold runScans
  rw [if_pos h]

theorem runScans_succ_of_not {n : Nat} {s : State} (h : s.work.scan = false) : runScans (n + 1) s = s := by
  conv_lhs => unfold runScans
  rw [h]
  rfl

theorem runScans_of_none_waiting {n : Nat} {s : State} (h : ∀ j ∈ s.jobs, j.state ≠ .waiting) :
    runScans n s = { s with work := { s.work with scan := false } } := by
  cases n with
  | zero => rfl
  | succ n =>
    cases hs : s.work.scan with
    | false => rw [runScans_succ_of_not hs, ← hs]
    | true =>
      rw [runScans_succ_of_scan hs,
        scan_of_none_waiting (s := { s with work := { s.work with scan := false } }) h]
      cases n with
      | zero => rfl
      | succ n => exact runScans_succ_of_not rfl

/-- The first job of a channel among jobs of distinct channels is any of them. -/
theorem jobOf_of_mem {c : Channel} {j : Job} {s : State} (hs : JobsOrdered s.jobs) (hj : j ∈ s.jobs)
    (hc : j.chan = c) : jobOf c s = some j := by
  cases h : jobOf c s with
  | none => exact absurd hc (jobOf_none h j hj)
  | some k =>
    obtain ⟨hk, hkc⟩ := jobOf_some h
    exact congrArg some (List.inj_on_of_nodup_map hs.1 hk hj (hkc.trans hc.symm))

theorem jobOf_ne_none_iff {c : Channel} {s : State} : jobOf c s ≠ none ↔ c ∈ s.jobs.map Job.chan := by
  constructor
  · intro h
    obtain ⟨j, hj⟩ := Option.ne_none_iff_exists'.1 h
    exact List.mem_map.2 ⟨j, (jobOf_some hj).1, (jobOf_some hj).2⟩
  · rintro h hn
    obtain ⟨j, hj, hc⟩ := List.mem_map.1 h
    exact jobOf_none hn j hj hc

/-- In a queue in key order, a job that ranks ahead of another stands before it. -/
theorem jobAhead_sublist {a b : Job} : ∀ {js : List Job}, js.Pairwise (fun x y => jobAhead y x = false) →
    a ∈ js → b ∈ js → jobAhead a b = true → [a, b].Sublist js
  | [], _, h, _, _ => by cases h
  | x :: xs, hp, ha, hb, hab => by
    rw [List.pairwise_cons] at hp
    obtain ⟨hx, hxs⟩ := hp
    rcases List.mem_cons.1 ha with rfl | ha
    · rcases List.mem_cons.1 hb with rfl | hb
      · exact absurd (jobAhead_asymm hab) (by rw [hab]; decide)
      · exact (List.singleton_sublist.2 hb).cons_cons a
    · rcases List.mem_cons.1 hb with rfl | hb
      · exact absurd (hx a ‹a ∈ xs›) (by rw [hab]; decide)
      · exact (jobAhead_sublist hxs ha hb hab).cons x

end Sys2Proof.Machine

open Sys2Proof Sys2Proof.Machine

/-- Settles O4: a scan touches what a `QueueStep` may, nothing where no job is WAITING, and never takes a restart's mark
back. -/
theorem commandEndsWithItsScan : Obligations.CommandEndsWithItsScan := by
  refine ⟨fun s hp hr => ⟨?_, fun hw => ?_, fun hs => finish_quiet hs hr⟩, ?_, fun n s => ?_⟩
  · have h := finish_step hp hr
    exact ⟨h.pending, h.phase, h.loader, h.cfg, h.pins, h.sensing, h.picture, h.eval, h.drivers, h.chirp, h.rx,
      h.link, h.requests, h.free, finish_marks s⟩
  · unfold finish
    rw [runScans_of_none_waiting hw]
    simp [hr]
  · rintro s u rfl
    refine ⟨fun h => if_pos h, fun h => if_neg (by rw [h]; decide), finish_of_restart⟩
  · exact ⟨rfl, runScans_succ_of_not, runScans_succ_of_scan, rfl⟩

/-- Settles O5: the scan folds over the channels of the queue as it stands, and one job is treated by its state. -/
theorem scanTreatsOneJob : Obligations.ScanTreatsOneJob := by
  refine ⟨fun s hs => ⟨s.jobs.map Job.chan, rfl, hs.1, fun c => jobOf_ne_none_iff.symm, ?_⟩, ?_⟩
  · intro a b ja jb ha hb hab
    obtain ⟨hja, rfl⟩ := jobOf_some ha
    obtain ⟨hjb, rfl⟩ := jobOf_some hb
    exact (jobAhead_sublist hs.2 hja hjb hab).map Job.chan
  · rintro c j s u hj (rfl : u = unheld c s)
    refine ⟨fun h => scanJob_left hj (.inl h), fun _ hb hq => scanJob_left hj (.inr ?_), fun hw hroom => ?_⟩
    · exact (passedOver_iff j s).2 ⟨hb, hq⟩
    have hturn : ¬ (j.state ≠ .waiting ∨ passedOver j s = true) := by
      rw [passedOver_iff]
      rintro (h | ⟨hb, hq⟩)
      · exact h hw
      · rcases hroom with h | h
        · rw [hb] at h; cases h
        · omega
    refine ⟨fun hi => scanJob_idle hj hturn ((idleJob_iff ..).2 hi), fun hf hc ho => ?_⟩
    have hi : ¬ idleJob j (s.drivers.get c) = true := by
      rw [idleJob_iff, hf]
      rintro (h | ⟨hd, h⟩ | ⟨hd, h⟩)
      · cases h
      · exact hc hd h
      · exact ho hd h
    rw [scanJob_tried hj hturn hi, closeWaiting_unheld]
    refine ⟨fun h => if_pos ⟨h.1, (closeWaiting_iff s).2 h.2⟩, fun h => if_neg ?_⟩
    rintro ⟨hd, hw⟩
    obtain ⟨k, hk, hkd, hkw⟩ := (closeWaiting_iff s).1 hw
    rcases h with h | h
    · rw [hd] at h; cases h
    · exact h k hk hkd hkw

end

section
/-! The idle part (log 2): which expiries are due, block by block, what a tick leaves as it is, and the statement about a
step on an empty queue. -/

namespace Sys2Proof.Machine

/-! ### Due expiries -/

theorem mem_dueIf {b : Bool} {i j : Instr} : i ∈ dueIf b j ↔ b = true ∧ i = j := by
  cases b <;> simp [dueIf]

theorem isDue_iff {t : Option Nat} : isDue t = true ↔ t = some 0 := by simp [isDue]

theorem mem_dueTimer {t : Option Nat} {i j : Instr} : i ∈ dueIf (isDue t) j ↔ t = some 0 ∧ i = j := by
  rw [mem_dueIf, isDue_iff]

theorem confirm_left_iff {x : Option Confirm} {p : Prop} :
    x.map Confirm.left = some 0 ∧ p ↔ ∃ k, x = some k ∧ k.left = 0 ∧ p := by
  cases x <;> simp

theorem mem_sourceDue {k : SlotId} {stale : Nat} {x : SourceEntry} {i : Instr} :
    i ∈ sourceDue k stale x ↔
      (∃ o age, x = .fresh o age ∧ stale ≤ age ∧ i = .sourceStale k)
        ∨ ∃ o age, x = .stale o age ∧ 4 * stale ≤ age ∧ i = .sourceLost k := by
  cases x <;> simp [sourceDue, mem_dueIf]

theorem refreshes_iff {l : LinkState} :
    refreshes l = true ↔ l = .active ∨ l = .isolated ∨ l = .listen := by
  cases l <;> simp [refreshes]

/-- A frame is the waiting CLAIM of a tag: it is one, and not under transmission. -/
theorem isWaitingClaim_iff {tag : Nat} {f : TxFrame} :
    isWaitingClaim tag f = true ↔ (∃ n, f.owner = .claim tag n) ∧ f.sending = false := by
  unfold isWaitingClaim isWaiting
  split
  · next t n h =>
    rw [h]
    constructor
    · intro hf
      obtain ⟨hs, ht⟩ := Bool.and_eq_true_iff.1 hf
      exact ⟨⟨n, by rw [of_decide_eq_true ht]⟩, by simpa using hs⟩
    · rintro ⟨⟨m, hm⟩, hs⟩
      cases hm
      simp [hs]
  all_goals next h => simp [h]

theorem no_waitingClaim_iff {tag : Nat} {q : List TxFrame} :
    q.any (isWaitingClaim tag) = false ↔ ∀ f ∈ q, ∀ n, f.owner = .claim tag n → f.sending = true := by
  rw [List.any_eq_false]
  refine forall₂_congr fun f _ => ?_
  rw [isWaitingClaim_iff]
  constructor
  · intro h n hn
    exact Bool.not_eq_false _ |>.mp fun hs => h ⟨⟨n, hn⟩, hs⟩
  · rintro h ⟨⟨n, hn⟩, hs⟩
    rw [h n hn] at hs
    cases hs

theorem isHeld_iff {e : Entry} : isHeld e = true ↔ e.state = .held := by simp [isHeld]

theorem refreshDue_iff {s : State} {e : Entry} : refreshDue s e = true ↔
    e.state = .held ∧ e.refreshBarred = false ∧ s.cfg.lifetimeS * 500 ≤ e.ageMs
      ∧ (s.link.state = .active ∨ s.link.state = .isolated ∨ s.link.state = .listen)
      ∧ ∀ f ∈ s.line.queue, ∀ n, f.owner = .claim e.tag n → f.sending = true := by
  unfold refreshDue
  rw [← no_waitingClaim_iff, ← refreshes_iff, ← isHeld_iff]
  simp only [Bool.and_eq_true, Bool.not_eq_true', decide_eq_true_eq]
  tauto

theorem mem_entryDue {s : State} {e : Entry} {i : Instr} : i ∈ entryDue s e ↔
    e.own = true ∧ e.state = .settling 0 ∧ i = .ownSettleExpiry e.chan
    ∨ e.own = true ∧ e.state = .held ∧ e.refreshBarred = false ∧ s.cfg.lifetimeS * 500 ≤ e.ageMs
      ∧ (s.link.state = .active ∨ s.link.state = .isolated ∨ s.link.state = .listen)
      ∧ (∀ f ∈ s.line.queue, ∀ n, f.owner = .claim e.tag n → f.sending = true)
      ∧ i = .claimRefreshDue e.chan
    ∨ e.own = false ∧ e.state = .settling 0 ∧ i = .peerSettleExpiry e.station e.tag
    ∨ e.own = false ∧ e.lifetimeS * 1000 ≤ e.ageMs ∧ i = .claimExpired e.station e.tag := by
  unfold entryDue
  split
  · next h =>
    rw [List.mem_append, mem_dueIf, mem_dueIf, refreshDue_iff, beq_iff_eq]
    simp [h, and_assoc]
  · next h =>
    rw [List.mem_append, mem_dueIf, mem_dueIf, beq_iff_eq, decide_eq_true_iff]
    simp [h]

theorem mem_driverDue {c : Channel} {current : Nat} {d : Driver} {i : Instr} :
    i ∈ driverDue c current d ↔
      (∃ p m, d = .warning p m 0) ∧ i = .warningTimerExpiry c
      ∨ (∃ m t, d = .closing m t (some 0) ∨ d = .opening m t (some 0)) ∧ i = .blankingExpiry c current
      ∨ (∃ m b, d = .closing m 0 b ∨ d = .opening m 0 b) ∧ i = .travelTimerExpiry c
      ∨ (∃ m, d = .brake m 0) ∧ i = .brakeExpiry c
      ∨ (∃ m on, d = .backoff m on 0) ∧ i = .backoffExpiry c
      ∨ (∃ m, d = .blocked m 0) ∧ i = .retryTimerExpiry c := by
  cases d <;> simp [driverDue, mem_dueIf, isDue_iff]

theorem mem_switchDue {w : SwitchId} {x : Switch} {i press : Instr}
    (hp : press = match w with | .swClose => .swClosePress | .swOpen => .swOpenPress) :
    i ∈ switchDue w x ↔
      x.debounce = some 0 ∧ i = if x.input then press else .switchReleaseDebounce w := by
  subst hp
  unfold switchDue
  by_cases h : isDue x.debounce = true
  · rw [if_pos h]
    cases x.input <;> cases w <;> simp [isDue_iff.1 h]
  · rw [if_neg h]
    exact ⟨fun hm => absurd hm List.not_mem_nil, fun hd => absurd (isDue_iff.2 hd.1) h⟩

/-- The due expiries by block, in the order in which the idle part takes them. -/
theorem mem_dueEvents {s : State} {i : Instr} : i ∈ dueEvents s ↔
    s.sensing.subWindow = some 0 ∧ i = .subWindowExpiry s.pins.vane
    ∨ s.sensing.obsPeriod = some 0 ∧ i = .observationPeriodExpiry
    ∨ (∃ k, s.sensing.confirm = some k ∧ k.left = 0 ∧ i = .rainConfirmExpiry)
    ∨ (∃ k, i ∈ sourceDue k (staleMs s.cfg) (s.picture.slots.get k).entry)
    ∨ s.eval.stormRelease = some 0 ∧ i = .stormReleaseExpiry
    ∨ (∃ c, (s.eval.chans.get c).calm = some 0 ∧ i = .calmHoldExpiry c)
    ∨ (∃ e ∈ s.supply.entries, i ∈ entryDue s e)
    ∨ s.supply.tableFull = some 0 ∧ i = .tableFullExpiry
    ∨ (∃ c, i ∈ driverDue c (s.pins.chans.get c).current (s.drivers.get c))
    ∨ s.chirp = some 0 ∧ i = .chirpExpiry
    ∨ s.link.join = some 0 ∧ i = .joinTimerExpiry
    ∨ s.link.isolation = some 0 ∧ i = .isolationTimerExpiry
    ∨ s.link.presence = some 0 ∧ i = .presenceTimerExpiry
    ∨ s.requests.hold = some 0 ∧ i = .holdExpiry
    ∨ i ∈ switchDue .swClose s.requests.swClose
    ∨ i ∈ switchDue .swOpen s.requests.swOpen := by
  simp only [dueEvents, List.mem_append, List.mem_flatMap, mem_dueTimer, confirm_left_iff, mem_allChannels,
    true_and, or_assoc]

/-! ### A tick -/

theorem drawSum_ticked (p : Entry → Bool) (es : List Entry) (h : ∀ e, p (tickedEntry e) = p e) :
    drawSum p (es.map tickedEntry) = drawSum p es :=
  drawSum_map es fun e _ => ⟨h e, fun _ => rfl⟩

theorem counts_ticked (e : Entry) : counts (tickedEntry e) = counts e := by
  unfold counts tickedEntry
  cases e.state <;> rfl

theorem isHeld_ticked (e : Entry) : isHeld (tickedEntry e) = isHeld e := by
  unfold isHeld tickedEntry
  cases e.state <;> rfl

theorem drives_ticked (d : Driver) :
    openDrive (tickedDriver d) = openDrive d ∧ closeDrive (tickedDriver d) = closeDrive d := by
  cases d <;> exact ⟨rfl, rfl⟩

theorem elapse_demand (c : Channel) (s : State) :
    ((elapse s).eval.chans.get c).demand = (s.eval.chans.get c).demand := by
  simp only [elapse, Eight.get_map]

/-- What a tick leaves of totals, drives and demands. -/
theorem elapse_leaves (s : State) :
    totalT (elapse s) = totalT s ∧ ownTotal (elapse s) = ownTotal s ∧ heldTotal (elapse s) = heldTotal s
      ∧ ∀ c, openDrive ((elapse s).drivers.get c) = openDrive (s.drivers.get c)
          ∧ closeDrive ((elapse s).drivers.get c) = closeDrive (s.drivers.get c)
          ∧ ((elapse s).eval.chans.get c).demand = (s.eval.chans.get c).demand := by
  refine ⟨drawSum_ticked _ _ counts_ticked, drawSum_ticked _ _ fun _ => rfl, drawSum_ticked _ _ isHeld_ticked,
    fun c => ?_⟩
  rw [elapse_driver]
  exact ⟨(drives_ticked _).1, (drives_ticked _).2, elapse_demand c s⟩

theorem step_idle {s : State} (h : s.pending = []) : step s = idleStep s := by
  unfold step
  rw [h]

end Sys2Proof.Machine

open Sys2Proof Sys2Proof.Machine

/-- Settles O6: `elapse` is the tick written out, and the due expiries are listed block by block. -/
theorem idleTickMovesOnlyTime : Obligations.IdleTickMovesOnlyTime := by
  refine ⟨fun s hp hd => ⟨elapse s, ?_, rfl, elapse_leaves s⟩, fun s i es hp hd => ?_, fun s i => ?_⟩
  · rw [step_idle hp, idleStep, hd]
  · rw [step_idle hp, idleStep, hd]
  · rw [mem_dueEvents, mem_switchDue rfl, mem_switchDue rfl]
    simp only [mem_sourceDue, mem_driverDue, mem_entryDue, exists_or, or_assoc]
    rfl

end

section
/-! The Configuration Loader (10.1 to 10.3): ranges, the fields that depend on one another, the clamps counted, and the
statements about start values, images and settings. -/

namespace Sys2Proof.Machine

/-! ### Images (R183) -/

theorem imageValid_iff {im : List Byte} : imageValid im = true ↔
    im.getD 0 0 = 0xB8 ∧ (im.take 127).foldl (· ^^^ ·) 0 = im.getD 127 0 := by
  simp only [imageValid, Bool.and_eq_true, beq_iff_eq]

theorem judgeImage_valid {im : List Byte} (h : imageValid im = true) :
    judgeImage im =
      { result := if clampCount im = 0 then .loaded else .clamped
        clamps := min Config.counterMax (clampCount im)
        events := clampCount im
        settings := settingsIn im } := if_pos h

theorem judgeImage_invalid {im : List Byte} (h : ¬ imageValid im = true) :
    judgeImage im = { result := .defaulted, clamps := 0, events := 1, settings := Settings.defaults } :=
  if_neg h

theorem imageCopy_length (answered : List Byte) : (imageCopy answered).length = 128 := by
  simp [imageCopy]

/-- A byte the memory does not answer reads as 0xFF (log 9). -/
theorem imageCopy_getD {answered : List Byte} {n : Nat} (hn : n < 128) :
    (imageCopy answered).getD n 0 = answered.getD n 0xFF := by
  rw [imageCopy, List.getD_eq_getElem?_getD, List.getElem?_take_of_lt hn, List.getD_eq_getElem?_getD]
  by_cases h : n < answered.length
  · rw [List.getElem?_append_left h, List.getElem?_eq_getElem h]
    rfl
  · have hr : n - answered.length < 128 := by omega
    rw [List.getElem?_append_right (Nat.le_of_not_lt h), List.getElem?_replicate, if_pos hr,
      List.getElem?_eq_none (Nat.le_of_not_lt h)]
    rfl

/-! ### Ranges (R184) -/

theorem taken_clampTo {lo hi : Nat} (h : lo ≤ hi) (v : Nat) : Taken lo hi v (clampTo lo hi v) := by
  unfold Taken clampTo
  omega

theorem clampTo_range {lo hi : Nat} (h : lo ≤ hi) (v : Nat) : lo ≤ clampTo lo hi v ∧ clampTo lo hi v ≤ hi := by
  unfold clampTo
  omega

theorem taken_clampTo_ten {lo hi : Nat} (h : lo ≤ hi) (v : Nat) :
    Taken (lo * 10) (hi * 10) (v * 10) (clampTo lo hi v * 10) := by
  unfold Taken clampTo
  omega

theorem byteIn_range (im : List Byte) (i : Nat) {lo hi : Nat} (h : lo ≤ hi) :
    lo ≤ byteIn im i lo hi ∧ byteIn im i lo hi ≤ hi := clampTo_range h _

theorem byteIn_le (im : List Byte) (i hi : Nat) : byteIn im i 0 hi ≤ hi :=
  (byteIn_range im i (Nat.zero_le hi)).2

theorem byteIn_ten (im : List Byte) (i : Nat) {lo hi : Nat} (h : lo ≤ hi) :
    lo * 10 ≤ byteIn im i lo hi * 10 ∧ byteIn im i lo hi * 10 ≤ hi * 10 :=
  ⟨Nat.mul_le_mul_right 10 (byteIn_range im i h).1, Nat.mul_le_mul_right 10 (byteIn_range im i h).2⟩

theorem wordIn_range (im : List Byte) (i : Nat) {lo hi : Nat} (h : lo ≤ hi) :
    lo ≤ wordIn im i lo hi ∧ wordIn im i lo hi ≤ hi := clampTo_range h _

theorem stationIn_le (im : List Byte) (i : Nat) : stationIn im i ≤ 63 := by
  unfold stationIn
  split
  · assumption
  · exact Nat.zero_le _

theorem outside_eq_one {lo hi v : Nat} : outside lo hi v = 1 ↔ v < lo ∨ hi < v := by
  unfold outside
  split <;> simp_all

theorem outside_toNat (lo hi v : Nat) :
    outside lo hi v = (decide (v < lo) || decide (hi < v)).toNat := by
  unfold outside
  by_cases h1 : v < lo <;> by_cases h2 : hi < v <;> simp [h1, h2]

theorem ite_one_zero {p : Prop} [Decidable p] {b : Bool} (h : p ↔ b = true) :
    (if p then 1 else 0) = b.toNat := by
  cases b <;> simp_all

/-! ### Channel records (R185) -/

theorem enabled_iff (r : ChannelCfg) : r.enabled = true ↔ r.cls ≠ .unused := by
  simp [ChannelCfg.enabled]

theorem enabled_eq_false_iff (r : ChannelCfg) : r.enabled = false ↔ r.cls = .unused := by
  rw [← Bool.not_eq_true, enabled_iff, not_not]

theorem classOf_eq (n : Nat) :
    classOf n = if n = 1 then .skylight else if n = 2 then .windowHigh else if n = 3 then .windowLow
      else .unused := by
  unfold classOf
  split
  · rfl
  · rfl
  · rfl
  · next h1 h2 h3 => rw [if_neg h1, if_neg h2, if_neg h3]

theorem classOf_unused_iff (n : Nat) : classOf n = .unused ↔ n = 0 ∨ 3 < n := by
  rw [classOf_eq]
  split
  · next h => simp [h]
  · split
    · next h => simp [h]
    · split
      · next h => simp [h]
      · simp; omega

theorem facingOf_sector {m n : Nat} (h : facingOf m = .sector n) : n ≤ 15 := by
  unfold facingOf at h
  split at h
  · next hm => cases h; exact hm
  · cases h

theorem recordIn_unused {im : List Byte} {c : Channel}
    (h : classOf (imageByte im (recordAt c)) = .unused) : recordIn im c = ChannelCfg.unused := if_pos h

/-- The record of a channel that is not UNUSED, field by field. -/
theorem recordIn_used {im : List Byte} {c : Channel} (h : classOf (imageByte im (recordAt c)) ≠ .unused) :
    recordIn im c =
      { cls := classOf (imageByte im (recordAt c)), facing := facingOf (imageByte im (recordAt c + 1))
        zone := min 3 (imageByte im (recordAt c + 2))
        draw := min (byteIn im (recordAt c + 3) 1 50) (budgetIn im)
        travelS := byteIn im (recordAt c + 4) 5 250, threshold := byteIn im (recordAt c + 5) 2 60
        groups := im.getD (recordAt c + 6) 0, timed := imageFlag im (recordAt c + 7) 0
        openingContacts := imageFlag im (recordAt c + 7) 1, localSwitch := imageFlag im (recordAt c + 7) 2 } :=
  if_neg h

theorem recordIn_cls (im : List Byte) (c : Channel) :
    (recordIn im c).cls = classOf (imageByte im (recordAt c)) := by
  by_cases h : classOf (imageByte im (recordAt c)) = .unused
  · rw [recordIn_unused h, h]; rfl
  · rw [recordIn_used h]

theorem recordsIn_get (im : List Byte) (c : Channel) : (recordsIn im).get c = recordIn im c :=
  Eight.get_tabulate _ c

/-- R185, R186: a record that is in use lies in its ranges. -/
theorem recordIn_ranges {im : List Byte} {c : Channel} (h : (recordIn im c).enabled = true) :
    (1 ≤ (recordIn im c).draw ∧ (recordIn im c).draw ≤ 50) ∧ (recordIn im c).draw ≤ budgetIn im
      ∧ (recordIn im c).zone ≤ 3 ∧ (5 ≤ (recordIn im c).travelS ∧ (recordIn im c).travelS ≤ 250)
      ∧ (2 ≤ (recordIn im c).threshold ∧ (recordIn im c).threshold ≤ 60)
      ∧ ∀ n, (recordIn im c).facing = .sector n → n ≤ 15 := by
  rw [enabled_iff, recordIn_cls] at h
  rw [recordIn_used h]
  have hb : 10 ≤ budgetIn im := (wordIn_range im 3 (by decide)).1
  have hd := byteIn_range im (recordAt c + 3) (lo := 1) (hi := 50) (by decide)
  exact ⟨⟨by simp only; omega, by simp only; omega⟩, Nat.min_le_right _ _, Nat.min_le_left _ _,
    byteIn_range _ _ (by decide), byteIn_range _ _ (by decide), fun n hn => facingOf_sector hn⟩

/-! ### The isolated share (R81, R186) -/

theorem foldl_max_spec (rs : List ChannelCfg) : ∀ m : Nat,
    let d := rs.foldl (fun m r => if r.enabled then max m r.draw else m) m
    (m ≤ d ∧ ∀ r ∈ rs, r.enabled = true → r.draw ≤ d)
      ∧ (d = m ∨ ∃ r ∈ rs, r.enabled = true ∧ r.draw = d) := by
  induction rs with
  | nil => exact fun m => ⟨⟨le_rfl, fun r h => absurd h List.not_mem_nil⟩, .inl rfl⟩
  | cons x rs ih =>
    intro m
    obtain ⟨⟨hle, hall⟩, hone⟩ := ih (if x.enabled then max m x.draw else m)
    simp only [List.foldl_cons]
    refine ⟨⟨le_trans ?_ hle, fun r hr he => ?_⟩, ?_⟩
    · split <;> omega
    · rcases List.mem_cons.1 hr with rfl | hr
      · rw [if_pos he] at hle ⊢; omega
      · exact hall r hr he
    · rcases hone with h | ⟨r, hr, he, hd⟩
      · rw [h]
        by_cases he : x.enabled = true
        · rw [if_pos he]
          by_cases hm : x.draw ≤ m
          · exact .inl (by omega)
          · exact .inr ⟨x, List.mem_cons_self, he, by omega⟩
        · exact .inl (if_neg he)
      · exact .inr ⟨r, List.mem_cons_of_mem _ hr, he, hd⟩

theorem mem_toList {α : Type} {v : Eight α} {x : α} : x ∈ v.toList ↔ ∃ c, v.get c = x := by
  constructor
  · intro h
    simp only [Eight.toList, List.mem_cons, List.not_mem_nil, or_false] at h
    rcases h with rfl | rfl | rfl | rfl | rfl | rfl | rfl | rfl
    exacts [⟨0, rfl⟩, ⟨1, rfl⟩, ⟨2, rfl⟩, ⟨3, rfl⟩, ⟨4, rfl⟩, ⟨5, rfl⟩, ⟨6, rfl⟩, ⟨7, rfl⟩]
  · rintro ⟨c, rfl⟩
    induction c using eight_cases <;> simp [Eight.toList, Eight.get]

/-- R81: the largest draw of the enabled channels, and 0 where none is enabled. -/
theorem largestDraw_spec (rs : Eight ChannelCfg) :
    (∀ c, (rs.get c).enabled = true → (rs.get c).draw ≤ largestDraw rs)
      ∧ (largestDraw rs = 0 ∨ ∃ c, (rs.get c).enabled = true ∧ (rs.get c).draw = largestDraw rs) := by
  obtain ⟨⟨-, hall⟩, hone⟩ := foldl_max_spec rs.toList 0
  refine ⟨fun c he => hall _ (mem_toList.2 ⟨c, rfl⟩) he, hone.imp id ?_⟩
  rintro ⟨r, hr, he, hd⟩
  obtain ⟨c, rfl⟩ := mem_toList.1 hr
  exact ⟨c, he, hd⟩

theorem largestDraw_le (im : List Byte) : largestDraw (recordsIn im) ≤ budgetIn im := by
  obtain h | ⟨c, he, hd⟩ := (largestDraw_spec (recordsIn im)).2
  · rw [h]; exact Nat.zero_le _
  · rw [← hd, recordsIn_get]
    rw [recordsIn_get] at he
    exact (recordIn_ranges he).2.1

/-! ### Source slots (R16) -/

theorem repeatsSource_iff {im : List Byte} {k : SlotId} : repeatsSource im k = true ↔
    stationIn im (36 + k.val) ≠ 0 ∧ ∃ j < k, stationIn im (36 + j.val) = stationIn im (36 + k.val) := by
  simp [repeatsSource, List.any_filter, mem_allChannels]

/-- The byte of a slot repeats that of an earlier slot, in terms of the bytes themselves. -/
theorem repeatsSource_bytes {im : List Byte} {k : SlotId} (h : imageByte im (36 + k.val) ≤ 63) :
    repeatsSource im k = true ↔ imageByte im (36 + k.val) ≠ 0
      ∧ ∃ j < k, imageByte im (36 + j.val) = imageByte im (36 + k.val) := by
  rw [repeatsSource_iff]
  have hk : stationIn im (36 + k.val) = imageByte im (36 + k.val) := if_pos h
  rw [hk]
  refine and_congr_right fun h0 => exists_congr fun j => and_congr_right fun _ => ?_
  unfold stationIn
  split
  · rfl
  · omega

theorem sourceIn_eq (im : List Byte) (n : SlotId) : sourceIn im n =
    if imageByte im (36 + n.val) ≤ 63 ∧ ∀ m < n, imageByte im (36 + m.val) ≠ imageByte im (36 + n.val) then
      imageByte im (36 + n.val) else 0 := by
  unfold sourceIn
  by_cases h : imageByte im (36 + n.val) ≤ 63
  · have hs : stationIn im (36 + n.val) = imageByte im (36 + n.val) := if_pos h
    by_cases h0 : imageByte im (36 + n.val) = 0
    · rw [hs, h0, ite_self, ite_self]
    · by_cases hr : repeatsSource im n = true
      · obtain ⟨-, j, hj, he⟩ := (repeatsSource_bytes h).1 hr
        rw [if_pos hr, if_neg fun ha => ha.2 j hj he]
      · rw [if_neg hr, hs, if_pos ⟨h, fun m hm he => hr ((repeatsSource_bytes h).2 ⟨h0, m, hm, he⟩)⟩]
  · have hs : stationIn im (36 + n.val) = 0 := if_neg h
    rw [hs, ite_self, if_neg fun ha => h ha.1]

theorem sourceIn_le (im : List Byte) (n : SlotId) : sourceIn im n ≤ 63 := by
  unfold sourceIn
  split
  · exact Nat.zero_le _
  · exact stationIn_le im _

/-- R16: of two slots with the same station, the later would repeat it. -/
theorem sourceIn_distinct {im : List Byte} {n m : SlotId} (hlt : n < m)
    (h : sourceIn im n = sourceIn im m) : sourceIn im m = 0 := by
  by_contra h0
  rw [sourceIn_eq] at h h0
  rw [sourceIn_eq] at h
  by_cases hm : imageByte im (36 + m.val) ≤ 63 ∧ ∀ j < m, imageByte im (36 + j.val) ≠ imageByte im (36 + m.val)
  · rw [if_pos hm] at h h0
    split at h
    · exact hm.2 n hlt h
    · exact h0 h.symm
  · rw [if_neg hm] at h0
    exact h0 rfl

/-! ### Settings (R184 to R187) -/

/-- What every settings of a load satisfy, whatever the image: the ranges of 10.1. -/
def SettingsInRange (k : Settings) : Prop :=
  k.circuit ≤ 7 ∧ (10 ≤ k.budget ∧ k.budget ≤ 2000) ∧ k.isoShare ≤ k.budget ∧ k.rateCode ≤ 3
  ∧ (2 ≤ k.presenceS ∧ k.presenceS ≤ 30) ∧ (5 ≤ k.isolationS ∧ k.isolationS ≤ 250)
  ∧ (4 ≤ k.lifetimeS ∧ k.lifetimeS ≤ 60) ∧ (100 ≤ k.settleMs ∧ k.settleMs ≤ 1000)
  ∧ k.txRetries ≤ 5 ∧ (5 ≤ k.obsPeriodS ∧ k.obsPeriodS ≤ 60)
  ∧ (10 ≤ k.publishStep ∧ k.publishStep ≤ 200) ∧ (10 ≤ k.staleS ∧ k.staleS ≤ 250)
  ∧ (100 ≤ k.anemK ∧ k.anemK ≤ 2000) ∧ k.dirMinSpeed ≤ 100
  ∧ (50 ≤ k.tWind ∧ k.tWind ≤ 600) ∧ k.tRain ≤ 300
  ∧ (100 ≤ k.tStorm ∧ k.tStorm ≤ 999) ∧ k.tWind ≤ k.tStorm ∧ k.hyst ≤ 100
  ∧ (1 ≤ k.wetConfirmS ∧ k.wetConfirmS ≤ 30) ∧ (1 ≤ k.dryConfirmMin ∧ k.dryConfirmMin ≤ 60)
  ∧ (1 ≤ k.calmHoldMin ∧ k.calmHoldMin ≤ 60) ∧ (1 ≤ k.warningS ∧ k.warningS ≤ 10)
  ∧ (100 ≤ k.blankingMs ∧ k.blankingMs ≤ 2000) ∧ k.obstrRetries ≤ 5
  ∧ (5 ≤ k.retryBaseS ∧ k.retryBaseS ≤ 120)
  ∧ (∀ a ∈ k.authority, a ≤ 63) ∧ (∀ n, k.sources.get n ≤ 63)
  ∧ (∀ n m, n ≠ m → k.sources.get n = k.sources.get m → k.sources.get n = 0)
  ∧ ∀ c, (k.channels.get c).enabled = true →
      (1 ≤ (k.channels.get c).draw ∧ (k.channels.get c).draw ≤ 50)
      ∧ (k.channels.get c).draw ≤ k.budget ∧ (k.channels.get c).zone ≤ 3
      ∧ (5 ≤ (k.channels.get c).travelS ∧ (k.channels.get c).travelS ≤ 250)
      ∧ (2 ≤ (k.channels.get c).threshold ∧ (k.channels.get c).threshold ≤ 60)
      ∧ ∀ n, (k.channels.get c).facing = .sector n → n ≤ 15

theorem stormIn_range (im : List Byte) :
    (100 ≤ stormIn im ∧ stormIn im ≤ 999) ∧ wordIn im 22 50 600 ≤ stormIn im := by
  have h1 := wordIn_range im 26 (lo := 100) (hi := 999) (by decide)
  have h2 := wordIn_range im 22 (lo := 50) (hi := 600) (by decide)
  unfold stormIn
  omega

theorem settingsIn_authority_le (im : List Byte) : ∀ a ∈ (settingsIn im).authority, a ≤ 63 := by
  simp only [settingsIn, List.mem_cons, List.not_mem_nil, or_false]
  rintro a (rfl | rfl | rfl | rfl) <;> exact stationIn_le im _

theorem settingsIn_sources (im : List Byte) (n : SlotId) : (settingsIn im).sources.get n = sourceIn im n :=
  Eight.get_tabulate _ n

theorem settingsIn_channels (im : List Byte) (c : Channel) :
    (settingsIn im).channels.get c = recordIn im c := recordsIn_get im c

theorem settingsIn_inRange (im : List Byte) : SettingsInRange (settingsIn im) := by
  refine ⟨byteIn_le _ _ _, wordIn_range _ _ (by decide), Nat.min_le_right _ _, byteIn_le _ _ _,
    byteIn_range _ _ (by decide), byteIn_range _ _ (by decide), byteIn_range _ _ (by decide),
    byteIn_ten im 11 (lo := 10) (hi := 100) (by decide), byteIn_le _ _ _, byteIn_range _ _ (by decide),
    byteIn_range _ _ (by decide), byteIn_range _ _ (by decide), wordIn_range _ _ (by decide), byteIn_le _ _ _,
    wordIn_range _ _ (by decide), (wordIn_range im 24 (lo := 0) (hi := 300) (by decide)).2,
    (stormIn_range im).1, (stormIn_range im).2, byteIn_le _ _ _,
    byteIn_range _ _ (by decide), byteIn_range _ _ (by decide), byteIn_range _ _ (by decide),
    byteIn_range _ _ (by decide), byteIn_ten im 45 (lo := 10) (hi := 200) (by decide), byteIn_le _ _ _,
    byteIn_range _ _ (by decide), settingsIn_authority_le im, fun n => ?_, fun n m hne he => ?_, fun c hc => ?_⟩
  · rw [settingsIn_sources]; exact sourceIn_le im n
  · rw [settingsIn_sources, settingsIn_sources] at he
    rw [settingsIn_sources]
    rcases lt_or_gt_of_ne hne with h | h
    · rw [he]; exact sourceIn_distinct h he
    · exact sourceIn_distinct h he.symm
  · rw [settingsIn_channels] at hc ⊢
    exact recordIn_ranges hc

theorem defaults_sources (n : SlotId) : Settings.defaults.sources.get n = 0 := Eight.get_fill 0 n

theorem defaults_channels (c : Channel) : Settings.defaults.channels.get c = ChannelCfg.unused :=
  Eight.get_fill _ c

theorem defaults_inRange : SettingsInRange Settings.defaults := by
  refine ⟨by decide, by decide, by decide, by decide, by decide, by decide, by decide, by decide, by decide,
    by decide, by decide, by decide, by decide, by decide, by decide, by decide, by decide, by decide,
    by decide, by decide, by decide, by decide, by decide, by decide, by decide, by decide, by decide,
    fun n => ?_, fun n m _ _ => defaults_sources n, fun c hc => ?_⟩
  · rw [defaults_sources]; decide
  · rw [defaults_channels] at hc; cases hc

theorem judgeImage_inRange (im : List Byte) : SettingsInRange (judgeImage im).settings := by
  by_cases h : imageValid im = true
  · rw [judgeImage_valid h]; exact settingsIn_inRange im
  · rw [judgeImage_invalid h]; exact defaults_inRange

/-- R81: a configured share of 0 stands for the largest draw. -/
theorem isoIn_spec (im : List Byte) : ∃ x, Taken 0 2000 (imageWord im 5) x
    ∧ (x ≠ 0 → isoIn im = min x (budgetIn im))
    ∧ (x = 0 → (∀ c, (recordIn im c).enabled = true → (recordIn im c).draw ≤ isoIn im)
      ∧ (isoIn im = 0 ∨ ∃ c, (recordIn im c).enabled = true ∧ (recordIn im c).draw = isoIn im)) := by
  refine ⟨wordIn im 5 0 2000, taken_clampTo (by decide) _, fun h => ?_, fun h => ?_⟩
  · rw [isoIn, resolvedIso, if_neg h]
  · have hi : isoIn im = largestDraw (recordsIn im) := by
      rw [isoIn, resolvedIso, if_pos h, Nat.min_eq_left (largestDraw_le im)]
    have hs := largestDraw_spec (recordsIn im)
    simp only [recordsIn_get, ← hi] at hs
    exact hs

theorem recordIn_zone_taken (im : List Byte) (i : Nat) : Taken 0 3 (imageByte im i) (min 3 (imageByte im i)) := by
  unfold Taken
  omega

/-- R185: the record of a channel, field by field as the image has it. -/
theorem recordIn_taken (im : List Byte) (c : Channel) {n : Nat} (hn : n = 48 + 8 * c.val) :
    (recordIn im c).cls = (if imageByte im n = 1 then .skylight else if imageByte im n = 2 then .windowHigh
        else if imageByte im n = 3 then .windowLow else .unused)
      ∧ ((recordIn im c).cls ≠ .unused →
          (recordIn im c).facing =
            (if imageByte im (n + 1) ≤ 15 then .sector (imageByte im (n + 1)) else .roof)
          ∧ Taken 0 3 (imageByte im (n + 2)) (recordIn im c).zone
          ∧ (∃ x, Taken 1 50 (imageByte im (n + 3)) x ∧ (recordIn im c).draw = min x (budgetIn im))
          ∧ Taken 5 250 (imageByte im (n + 4)) (recordIn im c).travelS
          ∧ Taken 2 60 (imageByte im (n + 5)) (recordIn im c).threshold
          ∧ (recordIn im c).groups = im.getD (n + 6) 0
          ∧ (recordIn im c).timed = (im.getD (n + 7) 0).getLsbD 0
          ∧ (recordIn im c).openingContacts = (im.getD (n + 7) 0).getLsbD 1
          ∧ (recordIn im c).localSwitch = (im.getD (n + 7) 0).getLsbD 2) := by
  obtain rfl : n = recordAt c := hn
  refine ⟨by rw [recordIn_cls, classOf_eq], fun h => ?_⟩
  rw [recordIn_cls] at h
  rw [recordIn_used h]
  exact ⟨rfl, recordIn_zone_taken im _, ⟨_, taken_clampTo (by decide) _, rfl⟩, taken_clampTo (by decide) _,
    taken_clampTo (by decide) _, rfl, rfl, rfl, rfl⟩

/-! ### Clamps (R184 to R186) -/

theorem stormClamp_eq (im : List Byte) : stormClamp im =
    ((decide (imageWord im 26 < 100) || decide (999 < imageWord im 26))
      || decide (min 999 (max 100 (imageWord im 26)) < (settingsIn im).tWind)).toNat :=
  ite_one_zero (by
    simp only [outside_eq_one, Bool.or_eq_true, decide_eq_true_eq]
    rfl)

theorem isoClamp_eq (im : List Byte) : isoClamp im =
    ((decide (imageWord im 5 < 0) || decide (2000 < imageWord im 5))
      || decide (imageWord im 5 ≠ 0 ∧ (settingsIn im).budget < imageWord im 5)).toNat := by
  refine ite_one_zero ?_
  rw [outside_eq_one, Bool.or_eq_true, Bool.or_eq_true, decide_eq_true_iff, decide_eq_true_iff,
    decide_eq_true_iff]
  refine or_congr_right' fun hin => ?_
  have hw : wordIn im 5 0 2000 = imageWord im 5 := by unfold wordIn clampTo; omega
  unfold resolvedIso
  rw [hw]
  split
  · next h0 => exact ⟨fun h => absurd h (Nat.not_lt.2 (largestDraw_le im)), fun h => absurd h0 h.1⟩
  · next h0 => exact ⟨fun h => ⟨h0, h⟩, fun h => h.2⟩

theorem sourceClamp_eq (im : List Byte) (n : Channel) : sourceClamp im n =
    Bool.toNat (decide (63 < imageByte im (36 + n.val)
      ∨ imageByte im (36 + n.val) ≠ 0 ∧ ∃ m < n, imageByte im (36 + m.val) = imageByte im (36 + n.val))) := by
  refine ite_one_zero ?_
  rw [decide_eq_true_iff]
  exact or_congr_right' fun h => repeatsSource_bytes (Nat.le_of_not_lt h)

theorem drawClamp_eq (im : List Byte) (i : Nat) :
    (if outside 1 50 (imageByte im i) = 1 ∨ budgetIn im < byteIn im i 1 50 then 1 else 0) =
      ((decide (imageByte im i < 1) || decide (50 < imageByte im i))
        || decide (budgetIn im < imageByte im i)).toNat := by
  refine ite_one_zero ?_
  rw [outside_eq_one, Bool.or_eq_true, Bool.or_eq_true, decide_eq_true_iff, decide_eq_true_iff,
    decide_eq_true_iff]
  refine or_congr_right' fun hin => ?_
  have hb : byteIn im i 1 50 = imageByte im i := by unfold byteIn clampTo; omega
  rw [hb]

theorem recordClamps_eq (im : List Byte) (c : Channel) (out : Nat → Nat → Nat → Bool)
    (hout : ∀ lo hi v, out lo hi v = (decide (v < lo) || decide (hi < v))) : recordClamps im c =
    if 3 < imageByte im (48 + 8 * c.val) then 1
    else if imageByte im (48 + 8 * c.val) = 0 then 0
    else
      ([out 0 16 (imageByte im (49 + 8 * c.val)), out 0 3 (imageByte im (50 + 8 * c.val)),
        out 1 50 (imageByte im (51 + 8 * c.val)) || decide ((settingsIn im).budget < imageByte im (51 + 8 * c.val)),
        out 5 250 (imageByte im (52 + 8 * c.val)), out 2 60 (imageByte im (53 + 8 * c.val))].map
          Bool.toNat).sum := by
  unfold recordClamps
  have h1 : recordAt c + 1 = 49 + 8 * c.val := by unfold recordAt; omega
  have h2 : recordAt c + 2 = 50 + 8 * c.val := by unfold recordAt; omega
  have h3 : recordAt c + 3 = 51 + 8 * c.val := by unfold recordAt; omega
  have h4 : recordAt c + 4 = 52 + 8 * c.val := by unfold recordAt; omega
  have h5 : recordAt c + 5 = 53 + 8 * c.val := by unfold recordAt; omega
  dsimp only
  rw [h1, h2, h3, h4, h5, drawClamp_eq]
  split
  · next h => exact (if_pos h).symm
  · next h =>
    refine Eq.trans ?_ (if_neg h).symm
    have hcls : classOf (imageByte im (recordAt c)) = .unused ↔ imageByte im (48 + 8 * c.val) = 0 :=
      (classOf_unused_iff _).trans (or_iff_left h)
    by_cases h0 : imageByte im (48 + 8 * c.val) = 0
    · rw [if_pos h0, if_pos (hcls.2 h0)]
    · rw [if_neg h0, if_neg fun hu => h0 (hcls.1 hu)]
      simp only [hout, outside_toNat, List.map_cons, List.map_nil, List.sum_cons, List.sum_nil]
      have hb : (settingsIn im).budget = budgetIn im := rfl
      rw [hb]
      omega

end Sys2Proof.Machine

open Sys2Proof Sys2Proof.Machine

/-- Settles O7: both commands are `coldStart`, whose fields are those of a reset but for the field lines. -/
theorem coldStartTakesStartValues : Obligations.ColdStartTakesStartValues := by
  intro i ph s h
  have ht : exec i s = .next (coldStart ph s) := by
    rcases h with ⟨rfl, rfl⟩ | ⟨rfl, rfl⟩ <;> rfl
  refine ⟨coldStart ph s, ht, rfl, rfl, rfl, rfl, fun c => Eight.get_fill _ c, rfl, rfl, rfl, rfl, rfl,
    fun k => Eight.get_fill _ k, rfl, rfl, rfl, fun c => Eight.get_fill _ c, rfl, rfl, rfl, rfl, rfl, rfl,
    fun w => ?_, rfl, fun e => ?_, rfl, rfl, rfl, rfl, rfl, rfl, rfl, rfl⟩
  · cases w <;> exact ⟨rfl, rfl, rfl⟩
  · cases e <;> rfl

/-- Settles O8: the judgement of an image by its two checks, case by case. -/
theorem imageJudgedByFormatAndCheck : Obligations.ImageJudgedByFormatAndCheck := by
  refine ⟨fun im => ⟨fun h => ?_, fun h => ?_⟩, ?_, rfl, defaults_sources, fun c => ?_,
    fun answered => ⟨imageCopy_length answered, fun n hn => imageCopy_getD hn⟩⟩
  · rw [judgeImage_valid (imageValid_iff.2 h)]
    refine ⟨rfl, ?_, ?_, rfl, rfl⟩
    · by_cases h0 : clampCount im = 0 <;> simp [h0]
    · by_cases h0 : clampCount im = 0
      · simp [h0]
      · simp [h0, Nat.one_le_iff_ne_zero]
  · rw [judgeImage_invalid fun hv => h (imageValid_iff.1 hv)]
    exact ⟨rfl, rfl, rfl, rfl⟩
  · rw [judgeImage_invalid (by decide)]
  · rw [defaults_channels]; rfl

/-- Settles O9: `SettingsInRange` holds of every load, each field is its clamp, and each clamp counts once. -/
theorem settingsSettledInRange : Obligations.SettingsSettledInRange := by
  refine ⟨?_, ?_, ?_⟩
  · rintro im k rfl
    exact judgeImage_inRange im
  · rintro im k b w rfl hb hw
    obtain rfl : b = imageByte im := funext hb
    obtain rfl : w = imageWord im := funext hw
    have clamps : ∀ {lo hi v : Nat}, lo ≤ hi → Taken lo hi v (clampTo lo hi v) := fun h => taken_clampTo h _
    refine ⟨rfl, clamps (by decide), clamps (by decide), clamps (by decide), clamps (by decide),
      clamps (by decide), clamps (by decide), taken_clampTo_ten (lo := 10) (hi := 100) (by decide) _,
      clamps (by decide), clamps (by decide), clamps (by decide), clamps (by decide), clamps (by decide),
      clamps (by decide), rfl, rfl, rfl, clamps (by decide), clamps (by decide), clamps (by decide),
      clamps (by decide), ⟨_, clamps (by decide), rfl⟩, clamps (by decide), clamps (by decide), rfl, rfl, rfl,
      rfl, clamps (by decide), taken_clampTo_ten (lo := 10) (hi := 200) (by decide) _, clamps (by decide),
      clamps (by decide), fun n => ?_, ?_, ?_⟩
    · rw [settingsIn_sources, sourceIn_eq]
    · simp only [settingsIn_channels]
      exact isoIn_spec im
    · rintro c n r hn rfl
      rw [settingsIn_channels]
      exact recordIn_taken im c hn
  · rintro im k b w out rfl hb hw hout
    obtain rfl : b = imageByte im := funext hb
    obtain rfl : w = imageWord im := funext hw
    have hrec := List.map_congr_left (l := allChannels) fun c _ => recordClamps_eq im c out hout
    have hsrc := List.map_congr_left (l := allChannels) fun n _ => sourceClamp_eq im n
    unfold clampCount
    rw [hrec, hsrc, stormClamp_eq, isoClamp_eq]
    simp only [numFields, rawNum, hout, outside_toNat, List.map_cons, List.map_nil, List.sum_cons, List.sum_nil,
      Bool.false_eq_true, if_true, if_false]
    omega

end

section
/-! PROOFS. The completion of a load and the warm restart (O10, O11): what each block is set to, and how the channels are
set one after the other. -/

namespace Sys2Proof.Machine

/-! ### Events raised several times (R178, R186) -/

theorem raiseTimes_eq (e : Event) : ∀ (n : Nat) (s : State),
    raiseTimes e n s = { s with status :=
      { s.status with
        flags := (raiseTimes e n s).status.flags, counters := (raiseTimes e n s).status.counters } }
  | 0, _ => rfl
  | n + 1, s => by
    show raiseTimes e n (raiseEvent e s) = _
    rw [raiseTimes_eq e n (raiseEvent e s)]
    rfl

theorem raiseTimes_status {e : Event} : ∀ {n : Nat} {s t : State}, s.status = t.status →
    (raiseTimes e n s).status = (raiseTimes e n t).status
  | 0, _, _, h => h
  | n + 1, s, t, h =>
    raiseTimes_status (n := n) (s := raiseEvent e s) (t := raiseEvent e t) (by simp only [raiseEvent, h])

theorem eventNumber_lt (e : Event) : eventNumber e < 16 := by cases e <;> decide

theorem eventFlag_bit (e : Event) {b : Nat} (hb : b < 16) :
    (eventFlag e).getLsbD b = decide (b = eventNumber e) := by
  unfold eventFlag
  rw [BitVec.getLsbD_ofNat, Nat.testBit_two_pow]
  simp [hb, eq_comm]

theorem raiseTimes_flags (e : Event) {b : Nat} (hb : b < 16) : ∀ (n : Nat) (s : State),
    (raiseTimes e n s).status.flags.getLsbD b
      = (s.status.flags.getLsbD b || decide (0 < n ∧ b = eventNumber e))
  | 0, s => by simp [raiseTimes]
  | n + 1, s => by
    show (raiseTimes e n (raiseEvent e s)).status.flags.getLsbD b = _
    rw [raiseTimes_flags e hb n, raiseEvent_flags, BitVec.getLsbD_or, eventFlag_bit e hb]
    by_cases hn : b = eventNumber e <;> simp [hn]

theorem raiseTimes_counter_ne {e a : Event} (h : a ≠ e) : ∀ (n : Nat) (s : State),
    counterOf (raiseTimes e n s).status.counters a = counterOf s.status.counters a
  | 0, _ => rfl
  | n + 1, s => by
    show counterOf (raiseTimes e n (raiseEvent e s)).status.counters a = _
    rw [raiseTimes_counter_ne h n, raiseEvent_counters, counterOf_bump, if_neg h]

theorem raiseTimes_counter (e : Event) : ∀ (n : Nat) (s : State), counterOf s.status.counters e ≤ 255 →
    counterOf (raiseTimes e n s).status.counters e = min 255 (counterOf s.status.counters e + n)
  | 0, s, h => (Nat.min_eq_right h).symm
  | n + 1, s, h => by
    have h1 : counterOf (raiseEvent e s).status.counters e = min 255 (counterOf s.status.counters e + 1) := by
      rw [raiseEvent_counters, counterOf_bump, if_pos rfl]
      unfold satSucc Config.counterMax
      split <;> omega
    show counterOf (raiseTimes e n (raiseEvent e s)).status.counters e = _
    rw [raiseTimes_counter e n _ (h1 ▸ Nat.min_le_left ..), h1]
    omega

/-! ### Channels at rest -/

/-- A channel that nothing of a load or of an entry of the link sets in motion or ends. -/
def AtRest (d : Driver) : Prop := d = .disabled ∨ (∃ p, d = .idle p) ∨ ∃ p k, d = .faulted p k

theorem halt_atRest {c : Channel} {s : State} (h : AtRest (s.drivers.get c)) : halt c s = s := by
  unfold halt
  refine if_neg fun ho => ?_
  rcases h with hd | ⟨p, hd⟩ | ⟨p, k, hd⟩ <;> rw [hd] at ho <;> cases ho

theorem reverse_atRest {c : Channel} {s : State} (n : Nat) (k : Cause) (w : Requester)
    (h : AtRest (s.drivers.get c)) : reverse c n k w s = s := by
  unfold reverse
  rcases h with hd | ⟨p, hd⟩ | ⟨p, k, hd⟩ <;> rw [hd]

theorem rejudge_atRest {c : Channel} {s : State} (h : AtRest (s.drivers.get c)) :
    (rejudge c s).drivers = s.drivers := by
  have hj : (removeOpenJob c s).drivers = s.drivers := (removeOpenJob_step c s).drivers
  have hr : AtRest ((removeOpenJob c s).drivers.get c) := by rw [hj]; exact h
  unfold rejudge
  split
  · rfl
  · dsimp only
    split
    · rw [reverse_atRest _ _ _ hr]; exact hj
    · rw [halt_atRest hr]; exact hj

theorem closeForIsolation_atRest {c : Channel} {s : State} (h : AtRest (s.drivers.get c)) :
    (closeForIsolation s c).drivers = s.drivers := by
  unfold closeForIsolation
  dsimp only
  rcases h with hd | ⟨p, hd⟩ | ⟨p, k, hd⟩ <;> rw [hd]
  dsimp only
  split
  · rfl
  · rw [closeRequest, hd]
    exact (queueClose_step ..).drivers

/-- Folding over the channels leaves the driver of a channel at rest, where each step leaves its own so and touches no
other. -/
theorem foldl_atRest {f : State → Channel → State}
    (hf : ∀ s c, AtRest (s.drivers.get c) → (f s c).drivers.get c = s.drivers.get c)
    (ho : ∀ s x c, c ≠ x → (f s x).drivers.get c = s.drivers.get c) {c : Channel} :
    ∀ (l : List Channel) (s : State), AtRest (s.drivers.get c) →
      (l.foldl f s).drivers.get c = s.drivers.get c
  | [], _, _ => rfl
  | x :: l, s, h => by
    have hx : (f s x).drivers.get c = s.drivers.get c := by
      by_cases hc : c = x
      · subst hc; exact hf s c h
      · exact ho s x c hc
    rw [List.foldl_cons, foldl_atRest hf ho l (f s x) (by rw [hx]; exact h), hx]

theorem applyPolicy_atRest {c : Channel} {s : State} (h : AtRest (s.drivers.get c)) :
    (applyPolicy s).drivers.get c = s.drivers.get c := by
  unfold applyPolicy
  split
  · exact foldl_atRest (fun s c h => by rw [closeForIsolation_atRest h])
      (fun s x c hx => (closeForIsolation_step s x).others c hx) _ _ h
  · exact foldl_atRest (fun s c h => by rw [halt_atRest h])
      (fun s x c hx => (halt_step x s).others c hx) _ _ h

theorem handOn_atRest {c : Channel} {s : State} (new : LinkState) (h : AtRest (s.drivers.get c)) :
    (handOn new s).drivers.get c = s.drivers.get c := by
  have hw : (withdrawAll s).drivers = s.drivers := (withdrawAll_step s).drivers
  cases new with
  | isolated | mute => exact (applyPolicy_atRest (by rw [hw]; exact h)).trans (by rw [hw])
  | listen => exact congrArg (fun v => v.get c) hw
  | active | offline => rfl

theorem rejudgeAll_atRest {c : Channel} {s : State} (h : AtRest (s.drivers.get c)) :
    (rejudgeAll s).drivers.get c = s.drivers.get c :=
  foldl_atRest (fun s c h => by rw [rejudge_atRest h]) (fun s x c hx => (rejudge_step x s).others c hx) _ _ h

/-- R156: an entry of the link, past the link's own fields. -/
theorem enterLink_channel (new : LinkState) (s : State) :
    ChannelStep (fun _ => True) { s with link := linkEntered s.cfg new s.link } (enterLink new s) :=
  ((entryEffect_step ..).channel.trans (handOn_step ..)).trans
    ((rejudgeAll_step _).trans (scanOnEntry_step ..).channel)

theorem enterLink_atRest {c : Channel} {s : State} (new : LinkState) (h : AtRest (s.drivers.get c)) :
    (enterLink new s).drivers.get c = s.drivers.get c := by
  let a := entryEffect new { s with link := linkEntered s.cfg new s.link }
  have ha : a.drivers.get c = s.drivers.get c := by rw [(entryEffect_step new _).drivers]
  have hb : (handOn new a).drivers.get c = s.drivers.get c :=
    (handOn_atRest new (by rw [ha]; exact h)).trans ha
  have hc : (rejudgeAll (handOn new a)).drivers.get c = s.drivers.get c :=
    (rejudgeAll_atRest (by rw [hb]; exact h)).trans hb
  show (scanOnEntry new (rejudgeAll (handOn new a))).drivers.get c = _
  rw [(scanOnEntry_step new _).drivers, hc]

theorem linkEntered_state (k : Settings) (new : LinkState) (l : Link) : (linkEntered k new l).state = new := by
  cases new <;> rfl

/-! ### One channel set (R135, R136) -/

theorem bothLimits_congr {c : Channel} {s t : State} (h1 : t.cfg = s.cfg) (h2 : t.pins = s.pins) :
    bothLimits c t = bothLimits c s := by
  simp only [bothLimits, limitOn, chanCfg, h1, h2]

theorem coldChannel_unused {c : Channel} {s : State} (h : (chanCfg c s).cls = .unused) :
    coldChannel s c = setDriver c .disabled s := by
  unfold coldChannel
  rw [if_pos (by simpa using (enabled_eq_false_iff _).2 h)]

theorem coldChannel_both {c : Channel} {s : State} (h : (chanCfg c s).cls ≠ .unused)
    (hb : bothLimits c s = true) : coldChannel s c =
      faultRaised .limit 0
        (setDriver c (.faulted (Config.freePosition s.free) .limit) { s with free := s.free + 1 }) := by
  unfold coldChannel
  rw [if_neg (by simpa using (enabled_iff _).2 h), if_pos hb]

theorem coldChannel_fresh {c : Channel} {s : State} (h : (chanCfg c s).cls ≠ .unused)
    (hb : bothLimits c s = false) : coldChannel s c = setDriver c (.idle (freshPosition c s)) s := by
  unfold coldChannel
  rw [if_neg (by simpa using (enabled_iff _).2 h), if_neg (by simp [hb])]

theorem freshPosition_eq {c : Channel} {s : State} (hb : bothLimits c s = false) : freshPosition c s =
    if (chanCfg c s).timed then .part else if limitOn c .closed s then .closed
      else if limitOn c .opened s then .opened else .unknown := by
  unfold freshPosition settled
  unfold bothLimits at hb
  cases ht : (chanCfg c s).timed <;> cases hc : limitOn c .closed s <;> cases ho : limitOn c .opened s <;>
    simp_all

/-- What a cold start makes of a channel, of its record and how its limits read. -/
def coldDriver (r : ChannelCfg) (closedOn openOn : Bool) (free : Nat) : Driver :=
  if r.cls = .unused then .disabled
  else if r.timed then .idle .part
  else
    match closedOn, openOn with
    | true, false => .idle .closed
    | false, true => .idle .opened
    | false, false => .idle .unknown
    | true, true => .faulted (Config.freePosition free) .limit

theorem coldDriver_unused {r : ChannelCfg} {closedOn openOn : Bool} {free : Nat} (h : r.cls = .unused) :
    coldDriver r closedOn openOn free = .disabled := if_pos h

theorem coldDriver_used {r : ChannelCfg} {closedOn openOn : Bool} {free : Nat} (h : r.cls ≠ .unused) :
    coldDriver r closedOn openOn free =
      if r.timed then .idle .part
      else
        match closedOn, openOn with
        | true, false => .idle .closed
        | false, true => .idle .opened
        | false, false => .idle .unknown
        | true, true => .faulted (Config.freePosition free) .limit := if_neg h

theorem coldDriver_atRest (r : ChannelCfg) (closedOn openOn : Bool) (free : Nat) :
    AtRest (coldDriver r closedOn openOn free) := by
  unfold coldDriver AtRest
  split
  · exact .inl rfl
  · split
    · exact .inr (.inl ⟨_, rfl⟩)
    · cases closedOn <;> cases openOn <;> simp

theorem coldChannel_driver (c : Channel) (s : State) : (coldChannel s c).drivers.get c =
    coldDriver (chanCfg c s) (limitOn c .closed s) (limitOn c .opened s) s.free := by
  by_cases h : (chanCfg c s).cls = .unused
  · rw [coldChannel_unused h, setDriver_get_same, coldDriver_unused h]
  · rw [coldDriver_used h]
    cases hb : bothLimits c s
    · rw [coldChannel_fresh h hb, setDriver_get_same, freshPosition_eq hb]
      unfold bothLimits at hb
      cases ht : (chanCfg c s).timed <;> cases hc : limitOn c .closed s <;>
        cases ho : limitOn c .opened s <;> simp_all
    · rw [coldChannel_both h hb, faultRaised_drivers, setDriver_get_same]
      simp only [bothLimits, Bool.and_eq_true, Bool.not_eq_true'] at hb
      obtain ⟨⟨ht, hc⟩, ho⟩ := hb
      rw [ht, hc, ho]
      rfl

theorem warmChannel_used {c : Channel} {s : State} (h : (chanCfg c s).cls ≠ .unused) : warmChannel s c =
    match s.drivers.get c with
    | .disabled => coldChannel s c
    | .idle p => if bothLimits c s then limitFault c s else setDriver c (.idle (settled c p s)) s
    | .warning _ _ _ | .closing _ _ _ | .opening _ _ _ | .brake _ _ | .backoff _ _ _
    | .blocked _ _ | .faulted _ _ => if bothLimits c s then limitFault c s else s := by
  unfold warmChannel
  exact if_neg (by simpa using (enabled_iff _).2 h)

theorem warmChannel_unused {c : Channel} {s : State} (h : (chanCfg c s).cls = .unused) :
    warmChannel s c = setDriver c .disabled s := by
  unfold warmChannel
  rw [if_pos (by simpa using (enabled_eq_false_iff _).2 h)]

theorem warmChannel_new {c : Channel} {s : State} (h : (chanCfg c s).cls ≠ .unused)
    (hd : s.drivers.get c = .disabled) : warmChannel s c = coldChannel s c := by
  rw [warmChannel_used h, hd]

theorem warmChannel_idle {c : Channel} {p : Position} {s : State} (h : (chanCfg c s).cls ≠ .unused)
    (hd : s.drivers.get c = .idle p) (hb : bothLimits c s = false) :
    warmChannel s c = setDriver c (.idle (settled c p s)) s := by
  rw [warmChannel_used h, hd]
  simp only [hb, Bool.false_eq_true, if_false]

theorem warmChannel_idle_both {c : Channel} {p : Position} {s : State} (h : (chanCfg c s).cls ≠ .unused)
    (hd : s.drivers.get c = .idle p) (hb : bothLimits c s = true) :
    warmChannel s c = rejudge c (faultRaised .limit 0 (setDriver c (.faulted p .limit) s)) := by
  rw [warmChannel_used h, hd]
  simp only [hb, if_true]
  rw [limitFault, hd]
  simp only [becomeFaulted, hd, inMotion, heldPosition, faultSource, Bool.false_eq_true, if_false]

theorem warmChannel_faulted {c : Channel} {p : Position} {k : FaultKind} {s : State}
    (h : (chanCfg c s).cls ≠ .unused) (hd : s.drivers.get c = .faulted p k) :
    warmChannel s c = if bothLimits c s = true ∧ k ≠ .limit then
      faultRaised .limit 0 (setDriver c (.faulted p .limit) s) else s := by
  rw [warmChannel_used h, hd]
  cases hb : bothLimits c s
  · simp
  · simp only [if_true, limitFault, hd, true_and]
    by_cases hk : k = .limit <;> simp [hk]

/-! ### The channels set one after the other -/

/-- The setting of one channel at the completion of a load. -/
def setChannel (warm : Bool) : State → Channel → State := if warm then warmChannel else coldChannel

theorem setChannel_cold : setChannel false = coldChannel := rfl

theorem setChannel_warm : setChannel true = warmChannel := rfl

theorem setChannel_load (warm : Bool) (s : State) (c : Channel) :
    LoadFrame (· = c) s (setChannel warm s c) := by
  cases warm
  · exact coldChannel_load s c
  · exact warmChannel_load s c

theorem setChannels_load (warm : Bool) : ∀ (l : List Channel) (s : State),
    LoadFrame (· ∈ l) s (l.foldl (setChannel warm) s)
  | [], s => .refl _ s
  | c :: l, s =>
    ((setChannel_load warm s c).mono fun _ h => h ▸ List.mem_cons_self ..).trans
      ((setChannels_load warm l _).mono fun _ h => List.mem_cons_of_mem _ h)

/-- A channel set as at a cold start with both limits active, which takes a free position (log 32). -/
def takesFree (warm : Bool) (s : State) (c : Channel) : Bool :=
  (chanCfg c s).enabled && (!warm || decide (s.drivers.get c = .disabled)) && bothLimits c s

theorem takesFree_congr {warm : Bool} {s t : State} {c : Channel} (h1 : t.cfg = s.cfg) (h2 : t.pins = s.pins)
    (h3 : t.drivers.get c = s.drivers.get c) : takesFree warm t c = takesFree warm s c := by
  simp only [takesFree, chanCfg, bothLimits_congr h1 h2, h1, h3]

theorem coldChannel_free (s : State) (c : Channel) :
    (coldChannel s c).free = s.free + (takesFree false s c).toNat := by
  by_cases h : (chanCfg c s).cls = .unused
  · rw [coldChannel_unused h]; simp [takesFree, (enabled_eq_false_iff _).2 h]
  · cases hb : bothLimits c s
    · rw [coldChannel_fresh h hb]; simp [takesFree, hb]
    · rw [coldChannel_both h hb, faultRaised_free]; simp [takesFree, hb, (enabled_iff _).2 h]

theorem warmChannel_free (s : State) (c : Channel) :
    (warmChannel s c).free = s.free + (takesFree true s c).toNat := by
  by_cases h : (chanCfg c s).cls = .unused
  · rw [warmChannel_unused h]; simp [takesFree, (enabled_eq_false_iff _).2 h]
  · by_cases hd : s.drivers.get c = .disabled
    · rw [warmChannel_new h hd, coldChannel_free]; simp [takesFree, hd]
    · have hn : takesFree true s c = false := by simp [takesFree, hd]
      have hl : (limitFault c s).free = s.free := (limitFault_step c s).free
      rw [warmChannel_used h, hn]
      split
      case h_1 h => exact absurd h hd
      case h_2 => split <;> [exact hl; rfl]
      all_goals split <;> [exact hl; rfl]

theorem setChannel_free (warm : Bool) (s : State) (c : Channel) :
    (setChannel warm s c).free = s.free + (takesFree warm s c).toNat := by
  cases warm
  · exact coldChannel_free s c
  · exact warmChannel_free s c

theorem setChannels_free (warm : Bool) : ∀ (l : List Channel) (s : State), l.Nodup →
    (l.foldl (setChannel warm) s).free = s.free + (l.filter (takesFree warm s)).length
  | [], _, _ => rfl
  | c :: l, s, h => by
    obtain ⟨hc, hl⟩ := List.nodup_cons.1 h
    have hf := setChannel_load warm s c
    have hsame : l.filter (takesFree warm (setChannel warm s c)) = l.filter (takesFree warm s) :=
      List.filter_congr fun x hx => takesFree_congr hf.cfg hf.pins (hf.others x fun e => hc (e ▸ hx))
    rw [List.foldl_cons, setChannels_free warm l _ hl, hsame, setChannel_free, List.filter_cons]
    cases takesFree warm s c
    · rfl
    · simp only [Bool.toNat_true, if_true, List.length_cons]; omega

theorem allChannels_split (c : Channel) :
    allChannels = allChannels.filter (fun x => decide (x < c)) ++ c :: allChannels.filter (fun x => decide (c < x)) := by
  revert c
  decide

/-- What the setting of all channels makes of one: what its own setting makes of it, in a state with the same settings
and lines and as many free positions taken as the channels before it take. -/
theorem setChannels_driver (warm : Bool) (s : State) (c : Channel) : ∃ u : State,
    (allChannels.foldl (setChannel warm) s).drivers.get c = (setChannel warm u c).drivers.get c
      ∧ u.cfg = s.cfg ∧ u.pins = s.pins ∧ u.drivers.get c = s.drivers.get c
      ∧ u.free = s.free + (allChannels.filter (fun x => decide (x < c) && takesFree warm s x)).length := by
  have hnd : allChannels.Nodup := by decide
  have hsplit := allChannels_split c
  refine ⟨(allChannels.filter (fun x => decide (x < c))).foldl (setChannel warm) s, ?_⟩
  have hb := setChannels_load warm (allChannels.filter (fun x => decide (x < c))) s
  refine ⟨?_, hb.cfg, hb.pins, hb.others c (by simp), ?_⟩
  · conv_lhs => rw [hsplit]
    rw [List.foldl_append, List.foldl_cons]
    exact (setChannels_load warm _ _).others c (by simp)
  · rw [setChannels_free warm _ _ (hnd.filter _), List.filter_filter]
    simp only [Bool.and_comm]

/-! ### What the completion of a load leaves -/

theorem loadedBase_driver (warm : Bool) (im : List Byte) (s : State) (c : Channel) : ∃ u : State,
    (loadedBase warm im s).drivers.get c = (setChannel warm u c).drivers.get c
      ∧ u.cfg = (judgeImage (imageCopy im)).settings ∧ u.pins = s.pins ∧ u.drivers.get c = s.drivers.get c
      ∧ ∀ (t : State) (both : Channel → Bool), t.cfg = (judgeImage (imageCopy im)).settings → t.pins = s.pins →
        (∀ x, both x = true ↔ (t.cfg.channels.get x).cls ≠ .unused
          ∧ (warm = true → s.drivers.get x = .disabled) ∧ bothLimits x t = true) →
        u.free = s.free + (allChannels.filter (fun x => decide (x < c) && both x)).length := by
  let a := raiseTimes .configClamped (judgeImage (imageCopy im)).events
    (settle (imageCopy im) (judgeImage (imageCopy im)) s)
  let k : State := { a with
    sensing := sensingAtStart a.cfg a.pins.rain
    picture := { slots := filledSlots a.cfg, fused := Picture.unknown } }
  have ha : QueueStep (settle (imageCopy im) (judgeImage (imageCopy im)) s) a := raiseTimes_step ..
  obtain ⟨u, hu, hcfg, hpins, hdrv, hfree⟩ := setChannels_driver warm k c
  refine ⟨u, hu, hcfg.trans ha.cfg, hpins.trans ha.pins,
    hdrv.trans (congrArg (fun v => v.get c) ha.drivers), fun t both ht hp hboth => ?_⟩
  have hk : k.free = s.free := ha.free
  rw [hfree, hk]
  have hsame : ∀ x, takesFree warm k x = both x := fun x => by
    have hl : bothLimits x t = bothLimits x k := bothLimits_congr (ht.trans ha.cfg.symm) (hp.trans ha.pins.symm)
    have hd : k.drivers.get x = s.drivers.get x := congrArg (fun v => v.get x) ha.drivers
    have hc : chanCfg x k = t.cfg.channels.get x := congrArg (fun v => v.channels.get x) (ha.cfg.trans ht.symm)
    rw [Bool.eq_iff_iff, hboth, hl]
    unfold takesFree
    rw [hd, hc]
    simp only [Bool.and_eq_true, Bool.or_eq_true, Bool.not_eq_true', decide_eq_true_eq, enabled_iff]
    cases warm <;> simp [and_assoc]
  simp only [hsame]

/-- R189, R190: past the fields the load itself sets, its completion leaves what the entry of the link and the scan of
the command's end leave. -/
theorem completeLoad_finish (warm : Bool) (im : List Byte) {s : State} (hm : MarksClear s)
    (hr : s.requests.pendingRestart = false) :
    ChannelFrame (fun _ => True)
      { loadedBase warm im s with
        link := linkEntered (loadedBase warm im s).cfg (linkAtLoad (loadedBase warm im s)) (loadedBase warm im s).link }
      (finish (completeLoad warm im s))
    ∧ ∀ c, AtRest ((loadedBase warm im s).drivers.get c) →
      (finish (completeLoad warm im s)).drivers.get c = (loadedBase warm im s).drivers.get c := by
  have hk := loadedBase_keeps warm im s
  have hb : (loadedBase warm im s).requests.pendingRestart = false := hk.pendingRestart.trans hr
  have he := (loadEntry_step (r := True) (loadedBase warm im s)).restart trivial hb
  have hw : (loadedBase warm im s).work.restart = false := (hk.restart hr).trans hm.2
  have hfin := finish_step he.1 (he.2.trans hw)
  rw [completeLoad_eq]
  refine ⟨((enterLink_channel ..).trans hfin.channel).toChannelFrame, fun c hc => ?_⟩
  rw [hfin.drivers, enterLink_atRest _ hc]

theorem sensingAtStart_eq (k : Settings) (level : RainLevel) : sensingAtStart k level =
    { running := true, pulses := 0, ring1 := 0, ring2 := 0, ring3 := 0
      gust := if k.hasAnemometer then some 0 else none
      peak := if k.hasAnemometer then some 0 else none
      published := 0, vane := if k.hasVane then 16 else 17
      rain := if k.hasRain then .dry else .noSensor
      confirm :=
        if k.hasRain then
          (match level with
           | .dry => none
           | .wet => some { target := .wet, left := k.wetConfirmS * 1000 }
           | .fault => some { target := .fault, left := 2000 })
        else none
      subWindow := some 1000
      obsPeriod :=
        if k.hasAnemometer = true ∨ k.hasVane = true ∨ k.hasRain = true then
          some (k.obsPeriodS * 1000) else none } := by
  have hc : confirmFor k level .dry = (match level with
      | .dry => none
      | .wet => some { target := .wet, left := k.wetConfirmS * 1000 }
      | .fault => some { target := .fault, left := 2000 }) := by
    cases level <;> rfl
  have ha : anySensor k = true ↔ k.hasAnemometer = true ∨ k.hasVane = true ∨ k.hasRain = true := by
    simp [anySensor, or_assoc]
  simp only [sensingAtStart, hc, ha]
  rfl

theorem linkAtLoad_eq (s : State) : linkAtLoad s =
    if s.loader.result = some .defaulted ∨ s.cfg.station = 0 ∨ 63 < s.cfg.station then .mute else .listen := by
  have h : validStation s.cfg = false ↔ s.cfg.station = 0 ∨ 63 < s.cfg.station := by
    unfold validStation
    rw [Bool.and_eq_false_iff, decide_eq_false_iff_not, decide_eq_false_iff_not]
    omega
  simp only [linkAtLoad, h]

theorem filledSlots_eq (k : Settings) : filledSlots k =
    k.sources.map (fun n => { station := n, isSelf := decide (n ≠ 0 ∧ n = k.station), entry := .absent }) := by
  unfold filledSlots
  have h : ∀ n : Nat, (n != 0 && decide (n = k.station)) = decide (n ≠ 0 ∧ n = k.station) := fun n => by
    rw [Bool.eq_iff_iff]; simp
  simp only [h]

theorem exec_loadComplete_cold {im : List Byte} {s : State} (h : s.phase = .coldLoad) :
    exec (.loadComplete im) s = .next (finish (completeLoad false im s)) := by
  show execLoadComplete im s = _
  rw [execLoadComplete, h]

theorem exec_loadComplete_warm {im : List Byte} {s : State} (h : s.phase = .warmLoad) :
    exec (.loadComplete im) s = .next (finish (completeLoad true im s)) := by
  show execLoadComplete im s = _
  rw [execLoadComplete, h]

theorem settled_switches {c : Channel} {p : Position} {s : State} (h : (chanCfg c s).timed = false) :
    settled c p s =
      match limitOn c .closed s, limitOn c .opened s with
      | true, false => .closed
      | false, true => .opened
      | true, true => p
      | false, false => p := by
  unfold settled
  rw [h]
  rfl

theorem settled_timed {c : Channel} {p : Position} {s : State} (h : (chanCfg c s).timed = true) :
    settled c p s = p := if_pos h

theorem raiseTimes_statusOnly (e : Event) (n : Nat) (s : State) :
    raiseTimes e n s = { s with status := (raiseTimes e n s).status } := by
  rw [raiseTimes_eq]

/-- The state the channels of a completing load are set in. -/
def beforeChannels (im : List Byte) (s : State) : State :=
  { settle (imageCopy im) (judgeImage (imageCopy im)) s with
    status := (raiseTimes .configClamped (judgeImage (imageCopy im)).events s).status
    sensing := sensingAtStart (judgeImage (imageCopy im)).settings s.pins.rain
    picture := { slots := filledSlots (judgeImage (imageCopy im)).settings, fused := Picture.unknown } }

theorem loadedBase_eq (warm : Bool) (im : List Byte) (s : State) : loadedBase warm im s =
    { allChannels.foldl (setChannel warm) (beforeChannels im s) with
      requests :=
        { (allChannels.foldl (setChannel warm) (beforeChannels im s)).requests with
          swClose := switchAtLoad (allChannels.foldl (setChannel warm) (beforeChannels im s)).requests.swClose
          swOpen := switchAtLoad (allChannels.foldl (setChannel warm) (beforeChannels im s)).requests.swOpen } } := by
  have ha := raiseTimes_statusOnly .configClamped (judgeImage (imageCopy im)).events
    (settle (imageCopy im) (judgeImage (imageCopy im)) s)
  have hst := raiseTimes_status (e := .configClamped) (n := (judgeImage (imageCopy im)).events)
    (s := settle (imageCopy im) (judgeImage (imageCopy im)) s) (t := s) rfl
  rw [hst] at ha
  unfold loadedBase
  dsimp only
  rw [ha]
  rfl

/-! ### Warm restart (R136, R190) -/

theorem warmRestart_driver (s : State) (c : Channel) :
    (warmRestart s).drivers.get c = restarted (s.drivers.get c) := Eight.get_map ..

theorem restarted_opening {d : Driver} (h : isOpening d = true) : restarted d = .idle .part := by
  cases d with
  | opening => rfl
  | _ => exact absurd h Bool.false_ne_true

theorem restarted_closing {d : Driver} (h : closeDrive d = true) : restarted d = .idle .part := by
  cases d with
  | closing => rfl
  | _ => exact absurd h Bool.false_ne_true

theorem isWarning_restarted (d : Driver) : isWarning (restarted d) = false := by cases d <;> rfl

theorem sounder_warmRestart (s : State) : sounder (warmRestart s) = false := by
  unfold sounder
  rw [Bool.or_eq_false_iff, List.any_eq_false]
  refine ⟨fun d hd => ?_, rfl⟩
  obtain ⟨c, rfl⟩ := mem_toList.1 hd
  rw [warmRestart_driver, isWarning_restarted]
  exact Bool.false_ne_true

/-- What the reload makes of a channel kept at rest: both limits judged, its position settled. -/
theorem setChannel_idle_driver {c : Channel} {p : Position} {s : State} (h : (chanCfg c s).cls ≠ .unused)
    (hd : s.drivers.get c = .idle p) : (setChannel true s c).drivers.get c =
      if bothLimits c s then .faulted p .limit else .idle (settled c p s) := by
  rw [setChannel_warm]
  cases hb : bothLimits c s
  · rw [warmChannel_idle h hd hb, setDriver_get_same]; rfl
  · rw [warmChannel_idle_both h hd hb, rejudge_atRest, faultRaised_drivers, setDriver_get_same]
    · rfl
    · rw [faultRaised_drivers, setDriver_get_same]
      exact .inr (.inr ⟨_, _, rfl⟩)

theorem setChannel_faulted_driver {c : Channel} {p : Position} {k : FaultKind} {s : State}
    (h : (chanCfg c s).cls ≠ .unused) (hd : s.drivers.get c = .faulted p k) :
    (setChannel true s c).drivers.get c = .faulted p (if bothLimits c s then .limit else k) := by
  rw [setChannel_warm, warmChannel_faulted h hd]
  cases hb : bothLimits c s
  · simpa using hd
  · by_cases hk : k = .limit
    · simpa [hk] using hd
    · simp [hk]

end Sys2Proof.Machine

open Sys2Proof Sys2Proof.Machine

/-- Settles O10: the frame of a completed load, and each channel by its own setting in the order of their numbers. -/
theorem coldLoadSetsThePart : Obligations.ColdLoadSetsThePart := by
  refine ⟨fun im s hs hm hr => ?_, fun warm im s k u l start hl hk hu hst => ?_, fun e n s t ht => ?_,
    sensingAtStart_eq, fun c s r hrc => ?_⟩
  · have hk := loadedBase_keeps false im s
    obtain ⟨hf, hrest⟩ := completeLoad_finish false im hm hr
    have hbase := loadedBase_driver false im s
    refine ⟨_, exec_loadComplete_cold hs, rfl, ?_⟩
    generalize finish (completeLoad false im s) = t at hf hrest ⊢
    generalize loadedBase false im s = b at hk hf hrest hbase
    have hcfg := hf.cfg.trans hk.cfg
    have hpins := hf.pins.trans hk.pins
    have hstate : t.link.state = linkAtLoad b := by
      rw [hf.link]; exact linkEntered_state ..
    have hsens : t.sensing
        = sensingAtStart t.cfg s.pins.rain := by
      rw [hf.sensing, hf.cfg]; exact hk.sensing
    have hslots : t.picture
        = { slots := filledSlots t.cfg, fused := Picture.unknown } := by
      rw [hf.picture, hf.cfg]; exact hk.slots
    rw [sensingAtStart_eq] at hsens
    refine ⟨hf.phase.trans hk.phase,
      hf.pending.trans hk.pending, hcfg, hpins, hf.loader.trans hk.loader, ?_, fun hl => ?_,
      by rw [hsens], by rw [hsens], by rw [hsens], by rw [hsens], by rw [hsens], by rw [hsens], by rw [hsens],
      by rw [hsens], congrArg Sensing.confirm hsens, by rw [hsens], by rw [hslots]; rfl, fun n => ?_, ?_⟩
    · rw [hstate, linkAtLoad_eq, hf.loader, hf.cfg]
    · rw [hstate] at hl
      rw [hf.link, hl, hf.cfg]
      rfl
    · rw [hslots]
      simp [filledSlots]
    · intro c r closedOn openOn both hrc hco hoo hboth
      obtain ⟨u, hu, ucfg, upins, -, ufree⟩ := hbase c
      have hfree := ufree _ both hcfg hpins fun x => by simpa using hboth x
      have hr : chanCfg c u = r := by rw [hrc, hcfg, ← ucfg]; rfl
      have hc : limitOn c .closed u = closedOn := by rw [hco, ← hr, ← upins]; rfl
      have ho : limitOn c .opened u = openOn := by rw [hoo, ← hr, ← upins]; rfl
      have hd : b.drivers.get c = coldDriver r closedOn openOn u.free := by
        rw [hu, setChannel_cold, coldChannel_driver, hr, hc, ho]
      rw [hrest c (hd ▸ coldDriver_atRest ..), hd, ← hfree]
      refine ⟨coldDriver_unused, fun h ht => ?_, fun h ht => ?_⟩
      · rw [coldDriver_used h, ht]; rfl
      · rw [coldDriver_used h, ht]
        refine ⟨?_, ?_, ?_, ?_⟩ <;> rintro rfl rfl <;> rfl
  · have hb := loadedBase_keeps warm im s
    have hk' : k = beforeChannels im s := by rw [hk, hl, beforeChannels, filledSlots_eq]; rfl
    have hu' : u = allChannels.foldl (setChannel warm) (beforeChannels im s) := by rw [hu, hk']; rfl
    rw [completeLoad_eq, linkAtLoad_eq, hb.loader, hb.cfg, loadedBase_eq, ← hu', hst, hl]
    simp only [Option.some.injEq]
    rfl
  · subst ht
    exact ⟨raiseTimes_eq e n s, fun b hb => raiseTimes_flags e hb n s,
      fun a ha => raiseTimes_counter_ne ha n s, raiseTimes_counter e n s⟩
  · subst hrc
    refine ⟨fun h => coldChannel_unused h, fun h hb => coldChannel_both h hb, fun h hb => ?_⟩
    rw [coldChannel_fresh h hb, freshPosition_eq hb]
    rfl

/-- Settles O11: what a restart keeps by its definition, and each channel at the reload by its own setting. -/
theorem warmRestartKeepsRecordsAndChannels : Obligations.WarmRestartKeepsRecordsAndChannels := by
  refine ⟨fun s => ?_, fun s => ?_, fun c s r hrc => ?_, fun im s hs hm hr => ?_⟩
  · refine ⟨rfl, rfl, rfl, rfl, rfl, rfl, rfl, rfl, rfl, rfl, rfl, rfl, rfl, rfl, rfl, rfl, sounder_warmRestart s,
      fun c => Eight.get_fill _ c, fun c => ?_⟩
    rw [warmRestart_driver]
    refine ⟨fun p hd => by rw [hd]; rfl, fun p m l hd => by rw [hd]; rfl, fun hd => ?_,
      fun p k hd => by rw [hd]; rfl⟩
    rcases hd with hd | hd | ⟨m, l, hd⟩ | ⟨m, o, l, hd⟩ | ⟨m, l, hd⟩
    · exact restarted_opening hd
    · exact restarted_closing hd
    all_goals rw [hd]; rfl
  · refine ⟨rfl, rfl, rfl, rfl, rfl, fun n => Eight.get_fill _ n, fun c hd => ?_⟩
    rw [warmRestart_driver, hd]
    rfl
  · subst hrc
    refine ⟨fun h => warmChannel_unused h, fun h hd => warmChannel_new h hd, fun h p hd => ⟨fun hb => ?_, fun hb => ?_⟩,
      fun h p k hd => ⟨fun hn => ?_, fun hb hk => ?_⟩⟩
    · exact warmChannel_idle h hd hb
    · exact warmChannel_idle_both h hd hb
    · rw [warmChannel_faulted h hd]
      refine if_neg fun ⟨hb, hk⟩ => ?_
      rcases hn with hn | hn
      · rw [hn] at hb; cases hb
      · exact hk hn
    · rw [warmChannel_faulted h hd, if_pos ⟨hb, hk⟩]
      rfl
  · have hk := loadedBase_keeps true im s
    obtain ⟨hf, hrest⟩ := completeLoad_finish true im hm hr
    have hbase := loadedBase_driver true im s
    refine ⟨_, exec_loadComplete_warm hs, rfl, ?_⟩
    generalize finish (completeLoad true im s) = t at hf hrest ⊢
    generalize loadedBase true im s = b at hk hf hrest hbase
    have hcfg := hf.cfg.trans hk.cfg
    have hpins := hf.pins.trans hk.pins
    refine ⟨hf.phase.trans hk.phase, hf.loader.trans hk.loader, hcfg, ?_⟩
    intro c r closedOn openOn both hrc hco hoo hboth
    obtain ⟨u, hu, ucfg, upins, udrv, ufree⟩ := hbase c
    have hfree := ufree _ both hcfg hpins fun x => by simpa using hboth x
    have hr : chanCfg c u = r := by rw [hrc, hcfg, ← ucfg]; rfl
    have hc : limitOn c .closed u = closedOn := by rw [hco, ← hr, ← upins]; rfl
    have ho : limitOn c .opened u = openOn := by rw [hoo, ← hr, ← upins]; rfl
    have hb : bothLimits c u = (!r.timed && closedOn && openOn) := by rw [bothLimits, hr, hc, ho]
    have hends : ∀ d, (setChannel true u c).drivers.get c = d → AtRest d → t.drivers.get c = d :=
      fun d hd har => by rw [hrest c (by rw [hu, hd]; exact har), hu, hd]
    refine ⟨fun h => ?_, fun h p hd => ?_, fun h p k hd => ?_, fun h hd => ?_⟩
    · exact hends _ (by rw [setChannel_warm, warmChannel_unused (hr ▸ h), setDriver_get_same]) (.inl rfl)
    · have hset := setChannel_idle_driver (hr.symm ▸ h) (udrv.trans hd)
      rw [hb] at hset
      refine ⟨fun ht => ?_, fun ht => ?_⟩
      · rw [ht, settled_timed (hr.symm ▸ ht)] at hset
        exact hends _ hset (.inr (.inl ⟨_, rfl⟩))
      · rw [ht, settled_switches (hr.symm ▸ ht), hc, ho] at hset
        refine ⟨?_, ?_, ?_, ?_⟩ <;> rintro rfl rfl
        · exact hends _ hset (.inr (.inl ⟨_, rfl⟩))
        · exact hends _ hset (.inr (.inl ⟨_, rfl⟩))
        · exact hends _ hset (.inr (.inl ⟨_, rfl⟩))
        · exact hends _ hset (.inr (.inr ⟨_, _, rfl⟩))
    · have hset := setChannel_faulted_driver (hr.symm ▸ h) (udrv.trans hd)
      have hif : (if bothLimits c u then FaultKind.limit else k)
          = if r.timed = false ∧ closedOn = true ∧ openOn = true then FaultKind.limit else k := by
        rw [hb]; simp [and_assoc]
      rw [hif] at hset
      exact hends _ hset (.inr (.inr ⟨_, _, rfl⟩))
    · have hset : (setChannel true u c).drivers.get c = coldDriver r closedOn openOn u.free := by
        rw [setChannel_warm, warmChannel_new (hr.symm ▸ h) (udrv.trans hd), coldChannel_driver, hr, hc, ho]
      have hend := hends _ hset (coldDriver_atRest ..)
      rw [hend, ← hfree, coldDriver_used h]
      refine ⟨fun ht => by rw [ht]; rfl, fun ht => ?_⟩
      rw [ht]
      refine ⟨?_, ?_, ?_, ?_⟩ <;> rintro rfl rfl <;> rfl

end

section
/-! PROOFS. Local sensing and the sources (O12, O14, O15, O16, O19, O20), with what a valid frame of a peer comes to. -/

namespace Sys2Proof.Machine

/-! ### A pulse, a sub-window and an OBS (R1 to R13) -/

theorem vaneSector_eq (k : Settings) (gust : Option Nat) (v : BitVec 4) : vaneSector k gust v =
    if k.hasVane = false then 17
    else if ∃ g, gust = some g ∧ g < k.dirMinSpeed then 16 else graySector v := by
  unfold vaneSector
  cases k.hasVane <;> cases gust <;> simp

theorem anySensor_eq_false {k : Settings} : anySensor k = false ↔
    k.hasAnemometer = false ∧ k.hasVane = false ∧ k.hasRain = false := by
  simp [anySensor, and_assoc]

theorem anySensor_eq_true {k : Settings} : anySensor k = true ↔
    k.hasAnemometer = true ∨ k.hasVane = true ∨ k.hasRain = true := by
  simp [anySensor, or_assoc]

/-- R8: queuing an OBS touches the published gust and the peak of the local record alone. -/
theorem queueObs_sensing (prio trigger : Nat) (s : State) :
    (queueObs prio trigger s).sensing =
      { s.sensing with
        published := (queueObs prio trigger s).sensing.published
        peak := (queueObs prio trigger s).sensing.peak } := by
  unfold queueObs
  split
  · dsimp only
    rw [(enqueue_step rfl _).sensing]
    cases s.cfg.hasAnemometer <;> rfl
  · rfl

theorem queueObs_none {prio trigger : Nat} {s : State} (h : anySensor s.cfg = false) :
    queueObs prio trigger s = s := by
  unfold queueObs
  rw [h]
  rfl

theorem queueObs_some {prio trigger : Nat} {s : State} (h : anySensor s.cfg = true) :
    queueObs prio trigger s =
      enqueue
        (ownFrame .obs prio 0
          (obsPayload (if s.cfg.hasAnemometer then s.sensing.peak else none) s.sensing.vane s.sensing.rain trigger)
          .obs s)
        (if s.cfg.hasAnemometer then
          { s with sensing := { s.sensing with
              published := (if s.cfg.hasAnemometer then s.sensing.peak else none).getD 0, peak := s.sensing.gust } }
         else s) := by
  unfold queueObs
  rw [if_pos h]
  cases s.cfg.hasAnemometer <;> rfl

/-- R2 to R4, R7: the local record a sub-window leaves, with gust `g` and vane sector `sector`. -/
theorem windowed_eq {k : Settings} {v : BitVec 4} {x : Sensing} {g sector : Nat}
    (hg : g = min 999 ((x.ring2 + x.ring3 + x.pulses) * k.anemK / 300))
    (hv : sector = if k.hasVane = false then 17
      else if k.hasAnemometer = true ∧ g < k.dirMinSpeed then 16 else graySector v) :
    windowed k v x =
      if k.hasAnemometer then
        { x with
          pulses := 0, ring1 := x.ring2, ring2 := x.ring3, ring3 := x.pulses
          gust := some g, peak := some (max (x.peak.getD 0) g), vane := sector, subWindow := some 1000 }
      else { x with pulses := 0, gust := none, peak := none, vane := sector, subWindow := some 1000 } := by
  have hgust : gustOf k.anemK x.ring2 x.ring3 x.pulses = g := hg.symm
  unfold windowed
  rw [hv, hgust]
  cases k.hasAnemometer <;> simp [vaneSector_eq] <;> rfl

theorem confirmFor_eq {k : Settings} {level : RainLevel} {target : RainState} {ms : Nat} (state : RainState)
    (ht : rainTarget level = target) (hms : confirmMs k level = ms) :
    confirmFor k level state = if state = target then none else some { target := target, left := ms } := by
  subst ht hms
  unfold confirmFor
  by_cases h : state = rainTarget level
  · rw [if_pos h, if_pos h.symm]
  · rw [if_neg h, if_neg fun e => h e.symm]

/-! ### Slots (R18 to R21) -/

theorem slotWhere_some {p : Slot → Bool} {s : State} {k : SlotId} (hk : p (s.picture.slots.get k) = true)
    (hn : ∀ j < k, p (s.picture.slots.get j) = false) : slotWhere p s = some k := by
  unfold slotWhere
  rw [allChannels_split k, List.find?_append, List.find?_cons_of_pos (p := fun n => p (s.picture.slots.get n)) hk]
  have hbefore : (allChannels.filter (fun x => decide (x < k))).find? (fun n => p (s.picture.slots.get n)) = none :=
    List.find?_eq_none.2 fun j hj => by
      have hlt : j < k := by simpa using (List.mem_filter.1 hj).2
      rw [hn j hlt]
      exact Bool.false_ne_true
  rw [hbefore]
  rfl

theorem slotWhere_none {p : Slot → Bool} {s : State} (hn : ∀ j, p (s.picture.slots.get j) = false) :
    slotWhere p s = none :=
  List.find?_eq_none.2 fun j _ => by rw [hn j]; exact Bool.false_ne_true

theorem slotWhere_ne_none {p : Slot → Bool} {s : State} {k : SlotId} (hk : p (s.picture.slots.get k) = true) :
    slotWhere p s ≠ none := fun h =>
  List.find?_eq_none.1 h k (mem_allChannels k) hk

/-- R18: a slot takes the observations of a peer where it lists the peer's number and is not SELF. -/
theorem listsPeer_iff {x : Slot} {n : Nat} (h0 : n ≠ 0) :
    (x.station != 0 && decide (x.station = n) && !x.isSelf) = true ↔ x.station = n ∧ x.isSelf = false := by
  simp only [Bool.and_eq_true, bne_iff_ne, decide_eq_true_eq, Bool.not_eq_true']
  exact ⟨fun ⟨⟨_, h1⟩, h2⟩ => ⟨h1, h2⟩, fun ⟨h1, h2⟩ => ⟨⟨h1 ▸ h0, h1⟩, h2⟩⟩

/-- R19: the rain byte of an OBS. -/
theorem rainReport_eq (b : Byte) : (match b.toNat with
      | 0 => some RainReport.dry
      | 1 => some .wet
      | 2 => some .fault
      | 3 => none
      | _ => some .fault) =
    if b = 0 then some .dry else if b = 1 then some .wet else if b = 3 then none else some .fault := by
  have h : ∀ n : Nat, n < 256 → (b = BitVec.ofNat 8 n ↔ b.toNat = n) := fun n hn => by
    rw [← BitVec.toNat_inj, BitVec.toNat_ofNat, Nat.mod_eq_of_lt hn]
  rw [show (0 : Byte) = BitVec.ofNat 8 0 from rfl, show (1 : Byte) = BitVec.ofNat 8 1 from rfl,
    show (3 : Byte) = BitVec.ofNat 8 3 from rfl]
  simp only [h 0 (by decide), h 1 (by decide), h 3 (by decide)]
  rcases b.toNat with _ | _ | _ | _ | n <;> simp

theorem decodeObs_of_length {p : List Byte} (h : p.length ≠ 5) : decodeObs p = none := by
  unfold decodeObs
  split
  · exact absurd rfl h
  · rfl

/-! ### A valid frame of a peer (R139, R141, R152) -/

theorem goodSource_iff {b : Byte} : goodSource b = true ↔ 1 ≤ b.toNat ∧ b.toNat ≤ 63 := by
  simp [goodSource]

theorem heardPeer_counted {s : State} (h : Takes s) : heardPeer (countReceived (setRx .idle s)) = counted s := by
  have hl : (countReceived (setRx .idle s)).link.state = s.link.state := rfl
  unfold heardPeer counted
  rw [hl]
  rcases h with h | h | h <;> rw [h] <;> rfl

/-- A frame of a peer is counted and acted on by its kind. -/
theorem frameHeard_peer {k : FrameKind} {h : Header} {p : List Byte} {s : State} (hf : PeerFrame h p s) :
    frameHeard (heard k h p) s = dispatch (heard k h p) (counted s) := by
  obtain ⟨-, ht, h1, h63, hown, hlen⟩ := hf
  have hoff : s.link.state ≠ .offline := by rcases ht with h | h | h <;> rw [h] <;> decide
  have hdup : isDuplicate h.source (countReceived (setRx .idle s)) = false := by
    simp only [isDuplicate, Bool.and_eq_false_iff, decide_eq_false_iff_not]
    exact .inr hown
  have hsrc : goodSource (heard k h p).source = true := goodSource_iff.2 ⟨h1, h63⟩
  unfold frameHeard
  rw [if_neg hoff, hsrc, if_neg (by decide), 
    if_neg (show ¬ 24 < (heard k h p).payload.length from Nat.not_lt.2 hlen)]
  unfold validFrame
  dsimp only
  rw [if_neg (by rw [show (heard k h p).source = h.source from rfl, hdup]; decide), heardPeer_counted ht]

theorem exec_peer {i : Instr} {k : FrameKind} {h : Header} {p : List Byte} {s : State}
    (hi : exec i s = .next (whileRunning (frameHeard (heard k h p)) s)) (hf : PeerFrame h p s) :
    exec i s = .next (finish (dispatch (heard k h p) (counted s))) := by
  rw [exec_settled hi hf.1, frameHeard_peer hf]

/-- A frame of a peer whose effect calls for neither a scan nor a restart. -/
theorem exec_peer_plain {i : Instr} {k : FrameKind} {h : Header} {p : List Byte} {s t : State}
    (hi : exec i s = .next (whileRunning (frameHeard (heard k h p)) s)) (hf : PeerFrame h p s)
    (ht : dispatch (heard k h p) (counted s) = t) (hw : t.work = s.work) : exec i s = .next t := by
  rw [exec_peer hi hf, ht, finish_of_work hf.1 hw]

end Sys2Proof.Machine

open Sys2Proof Sys2Proof.Machine

/-- Settles O12: the saturating count of a pulse, where the anemometer is present. -/
theorem pulseCountedUpTo1023 : Obligations.PulseCountedUpTo1023 := by
  intro s hs hr
  have hp : pulse s = if s.cfg.hasAnemometer then
      { s with
        sensing := { s.sensing with
          pulses := if s.sensing.pulses < 1023 then s.sensing.pulses + 1 else s.sensing.pulses } }
      else s := by
    unfold pulse
    rw [hr]
    cases s.cfg.hasAnemometer <;> rfl
  rw [exec_plain (f := pulse) rfl hs (by rw [hp]; split <;> rfl), hp]

/-- Settles O14: the record of the sub-window, then the gust step, then the SELF refresh. -/
theorem subWindowMeasuresAndPublishes : Obligations.SubWindowMeasuresAndPublishes := by
  refine ⟨fun s v g sector x u u' hs hw hg hsec hx hu hu' => ?_, by decide, rfl⟩
  rw [exec_settled (f := subWindow v) rfl hs]
  have hwin : windowed s.cfg v s.sensing = x := (windowed_eq hg hsec).trans hx.symm
  have hrain : u.sensing.rain = s.sensing.rain := by
    rw [hu, hx]; cases s.cfg.hasAnemometer <;> rfl
  have hvane : u.sensing.vane = sector := by
    rw [hu, hx]; cases s.cfg.hasAnemometer <;> rfl
  have hstep : gustStep u = true ↔ s.cfg.hasAnemometer = true ∧ s.sensing.published + s.cfg.publishStep ≤ g := by
    rw [hu, hx]; cases ha : s.cfg.hasAnemometer <;> simp [gustStep, ha]
  have hsub : subWindow v s = selfRefresh u' := by
    unfold subWindow
    dsimp only
    rw [if_pos hw, hwin]
    have hu0 : setSensing x { s with pins := { s.pins with vane := v } } = u := hu.symm
    rw [hu0, hu']
    simp only [hstep]
  have hcfg : u'.cfg = s.cfg := by
    rw [hu']; split
    · rw [(queueObs_step (r := True) 2 2 u).cfg, hu]
    · rw [hu]
  have hsens : u'.sensing.rain = s.sensing.rain ∧ u'.sensing.vane = sector := by
    rw [hu']; split
    · rw [queueObs_sensing]; exact ⟨hrain, hvane⟩
    · exact ⟨hrain, hvane⟩
  rw [hsub]
  unfold selfRefresh
  rw [hcfg, hsens.1, hsens.2]
  cases ha : anySensor s.cfg
  · rw [if_neg Bool.false_ne_true, if_pos (anySensor_eq_false.1 ha)]
  · rw [if_pos rfl, if_neg fun h => Bool.false_ne_true ((anySensor_eq_false.2 h).symm.trans ha)]

/-- Settles O15: the frame and the record of a queued OBS, and the period that queues one. -/
theorem obsQueuedAsBuilt : Obligations.ObsQueuedAsBuilt := by
  refine ⟨fun prio trigger s => ⟨fun h1 h2 h3 => queueObs_none (anySensor_eq_false.2 ⟨h1, h2, h3⟩),
    fun carried g hany hc hg => ?_⟩, fun s hs => ?_, rfl⟩
  · rw [queueObs_some (anySensor_eq_true.2 hany), hg, hc]
    rfl
  · cases h : s.sensing.obsPeriod.isSome
    · rw [if_neg Bool.false_ne_true]
      exact exec_nothing (f := obsPeriod) rfl hs (by rw [obsPeriod, h]; rfl)
    · rw [exec_settled (f := obsPeriod) rfl hs, obsPeriod, h]
      rfl

/-- Settles O16: the confirm a level starts, and the state a confirm gives. -/
theorem rainConfirmStartedAndExpired : Obligations.RainConfirmStartedAndExpired := by
  have hchange : ∀ {s : State} {level : RainLevel}, Settled s → level ≠ s.pins.rain →
      exec (.rainLevelChange level) s
        = .next (finish (rainLevel level { s with pins := { s.pins with rain := level } })) := by
    intro s level hs hne
    show execRainLevelChange level s = _
    rw [execRainLevelChange, if_neg fun h => hne h.symm]
    exact congrArg _ (whileRunning_running hs.1)
  refine ⟨fun s level target ms hs hr hh hne hl => ?_, fun s level hs hh hne => ?_, fun s level he => ?_,
    fun s hs => ⟨fun hc => ?_, fun k hk => ?_⟩⟩
  · have hconf : confirmFor s.cfg level s.sensing.rain =
        if s.sensing.rain = target then none else some { target := target, left := ms } := by
      rcases hl with ⟨rfl, rfl, rfl⟩ | ⟨rfl, rfl, rfl⟩ | ⟨rfl, rfl, rfl⟩ <;> exact confirmFor_eq _ rfl rfl
    rw [hchange hs hne, ← hconf]
    have hlev : rainLevel level { s with pins := { s.pins with rain := level } } =
        { s with
          pins := { s.pins with rain := level }
          sensing := { s.sensing with confirm := confirmFor s.cfg level s.sensing.rain } } := by
      unfold rainLevel
      rw [if_pos (by rw [hr, hh]; rfl)]
      rfl
    rw [hlev]
    exact congrArg _ (finish_of_work hs rfl)
  · rw [hchange hs hne]
    have hlev : rainLevel level { s with pins := { s.pins with rain := level } } =
        { s with pins := { s.pins with rain := level } } := by
      unfold rainLevel
      rw [if_neg (by simp [hh])]
    rw [hlev]
    exact congrArg _ (finish_of_work hs rfl)
  · show execRainLevelChange level s = _
    rw [execRainLevelChange, if_pos he.symm]
  · exact exec_nothing (f := rainConfirmed) rfl hs (by rw [rainConfirmed, hc])
  · rw [exec_settled (f := rainConfirmed) rfl hs, rainConfirmed, hk]
    dsimp only
    split <;> rfl

/-- Settles O19: a frame of a peer reaches its slot, by the first slot that lists its station. -/
theorem obsFillsItsEntry : Obligations.ObsFillsItsEntry := by
  refine ⟨fun h hi lo sector rain trigger s k x o hf hx hst hself hn ho => ?_, fun h p s hf hn => ?_,
    fun h p s k hf hlen hst hself => ?_, fun o s => ⟨fun hn => ?_, fun k hk hn => ?_⟩⟩
  · have h0 : h.source.toNat ≠ 0 := Nat.one_le_iff_ne_zero.1 hf.2.2.1
    have hslot : peerSlot h.source.toNat (counted s) = some k :=
      slotWhere_some (hx ▸ (listsPeer_iff h0).2 ⟨hst, hself⟩)
        (fun j hj => Bool.eq_false_iff.2 fun hp => hn j hj ((listsPeer_iff h0).1 hp).1)
    have hdec : decodeObs [hi, lo, sector, rain, trigger] = some o := by
      rw [ho]
      exact congrArg (fun r => some (Obs.mk _ _ r)) (rainReport_eq rain)
    rw [exec_peer (k := .obs) rfl hf]
    show Host.Outcome.next (finish (takeObs h.source.toNat [hi, lo, sector, rain, trigger] (counted s))) = _
    rw [takeObs, hslot]
    dsimp only
    rw [hdec, hx]
    rfl
  · refine exec_peer_plain (k := .obs) rfl hf ?_ rfl
    show takeObs h.source.toNat p (counted s) = counted s
    have hslot : peerSlot h.source.toNat (counted s) = none :=
      slotWhere_none fun k => Bool.eq_false_iff.2 fun hp => by
        obtain ⟨hst, hself⟩ := (listsPeer_iff (Nat.one_le_iff_ne_zero.1 hf.2.2.1)).1 hp
        exact Bool.false_ne_true (hself.symm.trans (hn k hst))
    rw [takeObs, hslot]
  · refine exec_peer_plain (k := .obs) rfl hf ?_ rfl
    have h0 : h.source.toNat ≠ 0 := Nat.one_le_iff_ne_zero.1 hf.2.2.1
    show takeObs h.source.toNat p (counted s) = _
    have hslot : peerSlot h.source.toNat (counted s) ≠ none :=
      slotWhere_ne_none (k := k) ((listsPeer_iff h0).2 ⟨hst, hself⟩)
    unfold takeObs
    split
    · next hnone => exact absurd hnone hslot
    · rw [decodeObs_of_length hlen]
      rfl
  · rw [refreshSelf, slotWhere_none hn]
  · rw [refreshSelf, slotWhere_some hk hn]
    rfl

/-- Settles O20: a changed table by its picture, and an entry by its state. -/
theorem entriesAgeToStaleAndLost : Obligations.EntriesAgeToStaleAndLost := by
  refine ⟨fun v s => ⟨fun h => ?_, fun h => ?_⟩, fun k s x hs hx => ?_⟩
  · unfold tableChanged
    dsimp only
    rw [if_pos h, h]
  · unfold tableChanged
    dsimp only
    rw [if_neg h]
  · subst hx
    refine ⟨fun o age h => ?_, fun hn => ?_, fun o age h => ?_, fun hn => ?_⟩
    · rw [exec_settled (f := sourceStale k) rfl hs, sourceStale, h]
      rfl
    · refine exec_nothing (f := sourceStale k) rfl hs ?_
      unfold sourceStale
      split
      · next o age h => exact absurd h (hn o age)
      all_goals rfl
    · rw [exec_settled (f := sourceLost k) rfl hs, sourceLost, h]
      rfl
    · refine exec_nothing (f := sourceLost k) rfl hs ?_
      unfold sourceLost
      split
      · next o age h => exact absurd h (hn o age)
      all_goals rfl

end

section
/-! PROOFS. The full evaluation of a picture and the two timers of the demands (O22, O23): each stage by the channel, and
what the stages leave. -/

namespace Sys2Proof.Machine

/-! ### Stages that touch what is held of the channels alone -/

/-- What the evaluator holds of the channels, replaced. -/
def withChans (v : Eight Exposed) (s : State) : State := { s with eval := { s.eval with chans := v } }

/-- A stage that makes `g c` of what is held of each channel `c`, taken over some channels. -/
theorem foldl_withChans {f : State → Channel → State} {g : Channel → Exposed → Exposed} {s : State}
    (hf : ∀ v c, f (withChans v s) c = withChans (v.set c (g c (v.get c))) s) :
    ∀ (l : List Channel) (v : Eight Exposed), l.Nodup →
      ∃ w, l.foldl f (withChans v s) = withChans w s
        ∧ ∀ c, w.get c = if c ∈ l then g c (v.get c) else v.get c
  | [], v, _ => ⟨v, rfl, fun _ => rfl⟩
  | x :: l, v, h => by
    obtain ⟨hx, hl⟩ := List.nodup_cons.1 h
    obtain ⟨w, hw, hget⟩ := foldl_withChans hf l (v.set x (g x (v.get x))) hl
    refine ⟨w, by rw [List.foldl_cons, hf, hw], fun c => ?_⟩
    rw [hget]
    by_cases hc : c = x
    · subst hc
      rw [if_neg hx, if_pos (List.mem_cons_self ..), Eight.get_set_same]
    · simp only [List.mem_cons, hc, false_or, Eight.get_set_ne _ _ hc]

/-- Such a stage over all channels. -/
theorem foldl_allChannels {f : State → Channel → State} {g : Channel → Exposed → Exposed} {s : State}
    (hf : ∀ v c, f (withChans v s) c = withChans (v.set c (g c (v.get c))) s) :
    ∃ w, allChannels.foldl f s = withChans w s ∧ ∀ c, w.get c = g c (s.eval.chans.get c) := by
  obtain ⟨w, hw, hget⟩ := foldl_withChans hf allChannels s.eval.chans (by decide)
  exact ⟨w, hw, fun c => by rw [hget, if_pos (mem_allChannels c)]⟩

/-! ### Tests of known values (R46) -/

theorem atLeast_iff {x : Option Nat} {n : Nat} : atLeast x n = true ↔ ∃ v, x = some v ∧ n ≤ v := by
  cases x <;> simp [atLeast]

theorem below_iff {x : Option Nat} {n : Nat} : below x n = true ↔ ∃ v, x = some v ∧ v < n := by
  cases x <;> simp [below]

theorem isWindow_iff {k : ChannelClass} (h : k ≠ .unused) : isWindow k = true ↔ k ≠ .skylight := by
  cases k with
  | unused => exact absurd rfl h
  | skylight | windowHigh | windowLow => decide

/-! ### Stage 1: exposures (R34 to R36, R60) -/

theorem facingFactor_le (f : Facing) (w : Option Nat) : facingFactor f w ≤ 16 := by
  have h : ∀ d, factorOf d ≤ 16 := fun d => by rw [factorOf_eq_ite]; split_ifs <;> omega
  cases f with
  | roof => exact le_rfl
  | sector n =>
    cases w with
    | none => exact le_rfl
    | some v => exact h _

theorem exposure_le (g : Nat) (f : Facing) (w : Option Nat) : g * facingFactor f w / 16 ≤ g :=
  Nat.div_le_of_le_mul (by rw [Nat.mul_comm 16]; exact Nat.mul_le_mul_left g (facingFactor_le f w))

/-- R36: the exposure stage of one channel. -/
def exposedAnew (s : State) (c : Channel) (x : Exposed) : Exposed :=
  if (chanCfg c s).cls = .unused then x
  else { x with exposure :=
    s.picture.fused.g.map (fun g => g * facingFactor (chanCfg c s).facing s.picture.fused.w / 16) }

theorem exposedAnew_unused {s : State} {c : Channel} {x : Exposed} (h : (chanCfg c s).cls = .unused) :
    exposedAnew s c x = x := if_pos h

theorem exposedAnew_used {s : State} {c : Channel} {x : Exposed} (h : (chanCfg c s).cls ≠ .unused) :
    exposedAnew s c x =
      { x with
        exposure :=
          s.picture.fused.g.map (fun g => g * facingFactor (chanCfg c s).facing s.picture.fused.w / 16) } :=
  if_neg h

theorem reexpose_withChans (s : State) (v : Eight Exposed) (c : Channel) :
    reexpose (withChans v s) c = withChans (v.set c (exposedAnew s c (v.get c))) s := by
  unfold reexpose exposedAnew
  by_cases h : (chanCfg c s).cls = .unused
  · rw [if_pos h, if_neg, Eight.set_get]
    exact fun he => enabled_iff _ |>.1 he h
  · rw [if_neg h, if_pos]
    · rfl
    · exact (enabled_iff _).2 h

theorem reexposeAll (s : State) : ∃ w, allChannels.foldl reexpose s = withChans w s
    ∧ ∀ c, w.get c = exposedAnew s c (s.eval.chans.get c) :=
  foldl_allChannels (reexpose_withChans s)

/-! ### Stage 2: the storm flag (R39, R40) -/

theorem judgeStorm_set {s : State} (h : s.eval.storm = true) : judgeStorm s =
    { s with
      eval := { s.eval with
        stormRelease :=
          if ∃ g, s.picture.fused.g = some g ∧ g < s.cfg.tStorm - s.cfg.hyst then
            some (s.eval.stormRelease.getD (s.cfg.calmHoldMin * 60000)) else none } } := by
  have hlev : stormReleaseLevel s.cfg = s.cfg.tStorm - s.cfg.hyst := rfl
  unfold judgeStorm
  dsimp only
  rw [if_pos h, hlev]
  by_cases hb : ∃ g, s.picture.fused.g = some g ∧ g < s.cfg.tStorm - s.cfg.hyst
  · rw [if_pos (below_iff.2 hb), if_pos hb]; rfl
  · rw [if_neg fun hx => hb (below_iff.1 hx), if_neg hb]

theorem judgeStorm_rises {s : State} (h : s.eval.storm = false)
    (hg : ∃ g, s.picture.fused.g = some g ∧ s.cfg.tStorm ≤ g) :
    judgeStorm s = raiseEvent .storm { s with eval := { s.eval with storm := true, stormRelease := none } } := by
  unfold judgeStorm
  dsimp only
  rw [if_neg (by rw [h]; exact Bool.false_ne_true), if_pos (atLeast_iff.2 hg)]

theorem judgeStorm_clear {s : State} (h : s.eval.storm = false)
    (hg : ¬ ∃ g, s.picture.fused.g = some g ∧ s.cfg.tStorm ≤ g) :
    judgeStorm s = { s with eval := { s.eval with stormRelease := none } } := by
  unfold judgeStorm
  dsimp only
  rw [if_neg (by rw [h]; exact Bool.false_ne_true), if_neg fun hx => hg (atLeast_iff.1 hx)]

/-- What the storm stage leaves of the state, and the flag and timer it judges. -/
theorem judgeStorm_spec (s : State) :
    (judgeStorm s).cfg = s.cfg ∧ (judgeStorm s).picture = s.picture
      ∧ (judgeStorm s).eval.chans = s.eval.chans
      ∧ ((judgeStorm s).eval.storm = true ↔
          s.eval.storm = true ∨ ∃ g, s.picture.fused.g = some g ∧ s.cfg.tStorm ≤ g)
      ∧ (judgeStorm s).eval.stormRelease =
          (if s.eval.storm = true ∧ (∃ g, s.picture.fused.g = some g ∧ g < s.cfg.tStorm - s.cfg.hyst) then
            some (s.eval.stormRelease.getD (s.cfg.calmHoldMin * 60000)) else none) := by
  cases h : s.eval.storm
  · by_cases hg : ∃ g, s.picture.fused.g = some g ∧ s.cfg.tStorm ≤ g
    · rw [judgeStorm_rises h hg]
      exact ⟨rfl, rfl, rfl, iff_of_true rfl (.inr hg), (if_neg fun hx => Bool.false_ne_true hx.1).symm⟩
    · rw [judgeStorm_clear h hg]
      refine ⟨rfl, rfl, rfl, iff_of_false ?_ ?_, (if_neg fun hx => Bool.false_ne_true hx.1).symm⟩
      · show s.eval.storm ≠ true
        rw [h]; exact Bool.false_ne_true
      · exact fun hx => hx.elim Bool.false_ne_true hg
  · rw [judgeStorm_set h]
    refine ⟨rfl, rfl, rfl, iff_of_true h (.inl rfl), ?_⟩
    simp only [true_and]

/-! ### Stage 3: demands and calm holds (R42 to R45) -/

theorem judgedChannel_exposure (k : Settings) (cls : ChannelClass) (storm : Bool) (r : RainPicture) (x : Exposed) :
    (judgedChannel k cls storm r x).exposure = x.exposure := rfl

theorem judgedChannel_demand {k : Settings} {cls : ChannelClass} {storm : Bool} {r : RainPicture} {x : Exposed}
    (hc : cls ≠ .unused) : (judgedChannel k cls storm r x).demand =
      if storm then some ⟨.storm, 3⟩
      else if r = .wet ∧ cls = .skylight then some ⟨.rain, 2⟩
      else if ∃ v, x.exposure = some v ∧ k.tWind ≤ v then some ⟨.wind, 1⟩
      else if r = .wet ∧ cls ≠ .skylight ∧ (∃ v, x.exposure = some v ∧ k.tRain ≤ v) then some ⟨.rain, 1⟩
      else x.demand := by
  unfold judgedChannel closingCondition
  dsimp only
  cases storm
  · by_cases h1 : r = .wet ∧ cls = .skylight
    · simp only [Bool.false_eq_true, if_false, if_pos h1]
    · by_cases h2 : ∃ v, x.exposure = some v ∧ k.tWind ≤ v
      · simp only [Bool.false_eq_true, if_false, if_neg h1, if_pos h2, if_pos (atLeast_iff.2 h2)]
      · by_cases h3 : r = .wet ∧ cls ≠ .skylight ∧ ∃ v, x.exposure = some v ∧ k.tRain ≤ v
        · have h3' : r = .wet ∧ isWindow cls = true ∧ atLeast x.exposure k.tRain = true :=
            ⟨h3.1, (isWindow_iff hc).2 h3.2.1, atLeast_iff.2 h3.2.2⟩
          simp only [Bool.false_eq_true, if_false, if_neg h1, if_neg h2,
            if_neg fun hx => h2 (atLeast_iff.1 hx), if_pos h3, if_pos h3']
        · have h3' : ¬ (r = .wet ∧ isWindow cls = true ∧ atLeast x.exposure k.tRain = true) :=
            fun ⟨a, b, d⟩ => h3 ⟨a, (isWindow_iff hc).1 b, atLeast_iff.1 d⟩
          simp only [Bool.false_eq_true, if_false, if_neg h1, if_neg h2,
            if_neg fun hx => h2 (atLeast_iff.1 hx), if_neg h3, if_neg h3']
  · rfl

theorem releaseCondition_iff {k : Settings} {cls : ChannelClass} {storm : Bool} {r : RainPicture}
    {e : Option Nat} (hc : cls ≠ .unused) : releaseCondition k cls storm r e = true ↔
      storm = false
        ∧ (r = .dry ∨ (cls ≠ .skylight ∧ ∃ v, e = some v ∧ v < k.tRain - k.hyst))
        ∧ ∃ v, e = some v ∧ v < k.tWind - k.hyst := by
  simp only [releaseCondition, Bool.and_eq_true, Bool.or_eq_true, Bool.not_eq_true', beq_iff_eq,
    isWindow_iff hc, below_iff, rainRelease, windRelease, and_assoc]

theorem judgedChannel_calm {k : Settings} {cls : ChannelClass} {storm : Bool} {r : RainPicture} {x : Exposed}
    (hc : cls ≠ .unused) : (judgedChannel k cls storm r x).calm =
      if (judgedChannel k cls storm r x).demand ≠ none ∧ storm = false
          ∧ (r = .dry ∨ (cls ≠ .skylight ∧ ∃ v, x.exposure = some v ∧ v < k.tRain - k.hyst))
          ∧ (∃ v, x.exposure = some v ∧ v < k.tWind - k.hyst) then
        some (x.calm.getD (k.calmHoldMin * 60000))
      else none := by
  have h : ∀ d : Option Demand, (d.isSome && releaseCondition k cls storm r x.exposure) = true ↔
      d ≠ none ∧ storm = false
        ∧ (r = .dry ∨ (cls ≠ .skylight ∧ ∃ v, x.exposure = some v ∧ v < k.tRain - k.hyst))
        ∧ ∃ v, x.exposure = some v ∧ v < k.tWind - k.hyst := fun d => by
    rw [Bool.and_eq_true, releaseCondition_iff hc]
    cases d <;> simp
  by_cases hx : (judgedChannel k cls storm r x).demand ≠ none ∧ storm = false
        ∧ (r = .dry ∨ (cls ≠ .skylight ∧ ∃ v, x.exposure = some v ∧ v < k.tRain - k.hyst))
        ∧ ∃ v, x.exposure = some v ∧ v < k.tWind - k.hyst
  · rw [if_pos hx]
    exact if_pos ((h _).2 hx)
  · rw [if_neg hx]
    exact if_neg fun hy => hx ((h _).1 hy)

/-- R42 to R45: the demand stage of one channel. -/
def demandedAnew (s : State) (c : Channel) (x : Exposed) : Exposed :=
  if (chanCfg c s).cls = .unused then x
  else judgedChannel s.cfg (chanCfg c s).cls s.eval.storm s.picture.fused.r x

theorem judgeChannel_withChans (s : State) (v : Eight Exposed) (c : Channel) :
    judgeChannel (withChans v s) c = withChans (v.set c (demandedAnew s c (v.get c))) s := by
  unfold judgeChannel demandedAnew
  by_cases h : (chanCfg c s).cls = .unused
  · rw [if_pos h, if_neg, Eight.set_get]
    exact fun he => enabled_iff _ |>.1 he h
  · rw [if_neg h, if_pos]
    · rfl
    · exact (enabled_iff _).2 h

theorem judgeChannels (s : State) : ∃ w, allChannels.foldl judgeChannel s = withChans w s
    ∧ ∀ c, w.get c = demandedAnew s c (s.eval.chans.get c) :=
  foldl_allChannels (judgeChannel_withChans s)

/-! ### Stage 4 and the whole (R38, R47) -/

/-- R65, R47: past the demands, an evaluation re-judges opening and asks the channels. -/
theorem judgeAll_channel (s : State) :
    ChannelStep (fun _ => True) (allChannels.foldl judgeChannel s) (judgeAll s) :=
  (rejudgeAll_step _).trans
    (foldl_rel (ChannelStep.refl _) ChannelStep.trans (fun s c => askChannel_step _ s c) _ _)

theorem judgeAll_eval (s : State) : ∃ w, (judgeAll s).eval = { s.eval with chans := w }
    ∧ ∀ c, w.get c = demandedAnew s c (s.eval.chans.get c) := by
  obtain ⟨w, hw, hget⟩ := judgeChannels s
  refine ⟨w, ?_, hget⟩
  rw [(judgeAll_channel s).eval, hw]
  rfl

/-- R38: the storm flag, its timer and what is held of each channel after an evaluation. -/
theorem evaluatePicture_eval (s : State) :
    ((evaluatePicture s).eval.storm = true ↔
      s.eval.storm = true ∨ ∃ g, s.picture.fused.g = some g ∧ s.cfg.tStorm ≤ g)
    ∧ (evaluatePicture s).eval.stormRelease =
        (if s.eval.storm = true ∧ (∃ g, s.picture.fused.g = some g ∧ g < s.cfg.tStorm - s.cfg.hyst) then
          some (s.eval.stormRelease.getD (s.cfg.calmHoldMin * 60000)) else none)
    ∧ ∀ c, (evaluatePicture s).eval.chans.get c =
        if (chanCfg c s).cls = .unused then s.eval.chans.get c
        else judgedChannel s.cfg (chanCfg c s).cls (evaluatePicture s).eval.storm s.picture.fused.r
          (exposedAnew s c (s.eval.chans.get c)) := by
  obtain ⟨x, hx, hxget⟩ := reexposeAll s
  obtain ⟨hcfg, hpic, hch, hst, hrel⟩ := judgeStorm_spec (reorderJobs (withChans x s))
  obtain ⟨w, hw, hwget⟩ := judgeAll_eval (judgeStorm (reorderJobs (withChans x s)))
  rw [evaluatePicture, hx, hw]
  refine ⟨hst, hrel, fun c => ?_⟩
  show w.get c = if _ then _ else judgedChannel s.cfg _ (judgeStorm (reorderJobs (withChans x s))).eval.storm _ _
  have hcc : chanCfg c (judgeStorm (reorderJobs (withChans x s))) = chanCfg c s :=
    congrArg (fun k => k.channels.get c) hcfg
  have hxc : (reorderJobs (withChans x s)).eval.chans.get c = exposedAnew s c (s.eval.chans.get c) := hxget c
  rw [hwget, hch, hxc, demandedAnew, hcc, hcfg, hpic]
  by_cases hu : (chanCfg c s).cls = .unused
  · rw [if_pos hu, if_pos hu, exposedAnew_unused hu]
  · rw [if_neg hu, if_neg hu]
    rfl

theorem askChannel_none {before : Eight Exposed} {c : Channel} {s : State}
    (h : (s.eval.chans.get c).demand = none) : askChannel before s c = s := by
  unfold askChannel
  dsimp only
  rw [h]
  cases (before.get c).demand <;> rfl

theorem askChannel_some {before : Eight Exposed} {c : Channel} {s : State} {d : Demand}
    (h : (s.eval.chans.get c).demand = some d) : askChannel before s c =
      if risen (before.get c).demand (some d) then askDemand c d s else s := by
  unfold askChannel
  dsimp only
  rw [h]

/-! ### The two timers (R41, R45, R48) -/

theorem removeOpenJob_of_close {c : Channel} {s : State} (h : ∀ j, jobOf c s = some j → j.dir = .close) :
    removeOpenJob c s = s := by
  unfold removeOpenJob
  split
  · rfl
  · next j hj => rw [if_neg (by rw [h j hj]; decide)]

theorem halt_of_not_opening {c : Channel} {s : State} (h : isOpening (s.drivers.get c) = false) : halt c s = s := by
  unfold halt
  rw [if_neg (by rw [h]; exact Bool.false_ne_true)]

theorem reverse_of_not_opening {c : Channel} {n : Nat} {k : Cause} {w : Requester} {s : State}
    (h : isOpening (s.drivers.get c) = false) : reverse c n k w s = s := by
  unfold reverse
  split
  · next hd => rw [hd] at h; cases h
  all_goals rfl

/-- A channel that neither opens nor waits to is left alone. -/
theorem rejudge_of_not_opens {c : Channel} {s : State} (h : isOpening (s.drivers.get c) = false)
    (hj : ∀ j, jobOf c s = some j → j.dir = .close) : rejudge c s = s := by
  unfold rejudge
  split
  · rfl
  · dsimp only
    rw [removeOpenJob_of_close hj]
    split
    · exact reverse_of_not_opening h
    · exact halt_of_not_opening h

end Sys2Proof.Machine

open Sys2Proof Sys2Proof.Machine

/-- Settles O22: the stages by their lemmas, in the order `evaluatePicture` takes them. -/
theorem fullEvaluationJudgesChannels : Obligations.FullEvaluationJudgesChannels := by
  refine ⟨fun s t ht => ?_, rfl, fun s u v hu hv => ?_, fun s => ⟨judgeStorm_set, judgeStorm_rises, fun h hg => ?_⟩,
    fun s x hx => ?_, fun before c s => ⟨askChannel_none, fun d hd => ⟨fun h => ?_, fun b hb hle => ?_⟩⟩⟩
  · obtain ⟨hst, hrel, hget⟩ := evaluatePicture_eval s
    rw [← ht] at hst hrel hget
    refine ⟨hst, hrel, fun c r e d hr => ?_⟩
    have hc := hget c
    rw [show chanCfg c s = r from hr.symm] at hc
    refine ⟨fun hu => hc.trans (if_pos hu), fun hn he hd => ?_⟩
    have hcfg : chanCfg c s = r := hr.symm
    have hx := exposedAnew_used (s := s) (c := c) (x := s.eval.chans.get c) (by rw [hcfg]; exact hn)
    rw [hcfg] at hx
    rw [if_neg hn, hx] at hc
    have hexp : e = s.picture.fused.g.map (fun g => g * facingFactor r.facing s.picture.fused.w / 16) := by
      rw [he, hc, judgedChannel_exposure]
    rw [← hexp] at hc
    refine ⟨fun hg => by rw [hexp, hg]; rfl, fun g hg => ⟨by rw [hexp, hg]; rfl, exposure_le ..⟩, ?_, ?_⟩
    · rw [hd, hc]
      exact judgedChannel_demand hn
    · rw [hd, hc]
      exact judgedChannel_calm hn
  · obtain ⟨w, hw, hget⟩ := reexposeAll s
    have hev : evaluatePicture s = judgeAll (judgeStorm v) := by rw [hv, hu]; rfl
    rw [hw] at hu
    clear hw
    refine ⟨hev, by rw [hu]; rfl, fun c r hr => ?_, by rw [hv]; rfl, ?_, ?_⟩
    · rw [hu, hr]
      exact hget c
    · rw [hv, show s.jobs = u.jobs by rw [hu]; rfl]
      exact sortJobs_perm _
    · rw [hv]
      exact sortJobs_sorted _
  · exact judgeStorm_clear h fun ⟨g, hg', hle⟩ => Nat.not_lt.2 hle (hg g hg')
  · obtain ⟨w, hw, hget⟩ := judgeChannels s
    have heval := (judgeAll_channel s).eval
    have hask : judgeAll s = allChannels.foldl (askChannel s.eval.chans) (rejudgeAll x) := by rw [hx]; rfl
    rw [← hx] at heval
    rw [hw] at hx
    clear hw
    refine ⟨hask, heval, by rw [hx]; rfl, fun c r e d hr he hd => ?_⟩
    have hc := hget c
    rw [demandedAnew, show chanCfg c s = r from hr.symm] at hc
    rw [hx]
    refine Eq.trans hc ?_
    by_cases hu : r.cls = .unused
    · rw [if_pos hu, if_pos hu]
    · rw [if_neg hu, if_neg hu]
      have hdem := judgedChannel_demand (k := s.cfg) (storm := s.eval.storm) (r := s.picture.fused.r)
        (x := s.eval.chans.get c) hu
      rw [← he, ← hd] at hdem
      have hcalm := judgedChannel_calm (k := s.cfg) (storm := s.eval.storm) (r := s.picture.fused.r)
        (x := s.eval.chans.get c) hu
      rw [hdem, ← he] at hcalm
      rw [he] at hcalm ⊢
      exact congrArg₂ (Exposed.mk (s.eval.chans.get c).exposure) hdem hcalm
  · rw [askChannel_some hd, if_pos]
    rcases h with h | ⟨b, h, hlt⟩
    · rw [h]; rfl
    · rw [h]; exact decide_eq_true hlt
  · rw [askChannel_some hd, if_neg]
    rw [hb]
    simpa [risen] using hle

/-- Settles O23: the evaluation after the flag has cleared, and the one field a calm hold ends. -/
theorem stormReleaseAndCalmHoldExpire : Obligations.StormReleaseAndCalmHoldExpire := by
  refine ⟨fun s hs => ⟨fun hn => ?_, fun hn => ?_⟩, fun c s hs => ⟨fun hn => ?_, fun hn ho hj => ?_⟩⟩
  · exact exec_nothing (f := fun s => if s.eval.stormRelease.isSome then stormReleased s else s) rfl hs.1
      (by rw [hn]; rfl)
  · have hsome : s.eval.stormRelease.isSome = true := Option.isSome_iff_ne_none.2 hn
    have hexec := exec_settled (f := fun s => if s.eval.stormRelease.isSome then stormReleased s else s)
      (i := .stormReleaseExpiry) (s := s) rfl hs.1
    rw [if_pos hsome] at hexec
    obtain ⟨x, hx, -⟩ := judgeChannels { s with eval := { s.eval with storm := false, stormRelease := none } }
    obtain ⟨w, hw, hget⟩ := judgeAll_eval { s with eval := { s.eval with storm := false, stormRelease := none } }
    have hch := judgeAll_channel { s with eval := { s.eval with storm := false, stormRelease := none } }
    rw [hx] at hch
    have hreq := hch.requests
    have hfin := finish_step (s := stormReleased s) (by rw [stormReleased, hreq]; exact hs.2)
      ((hch.restart hs.2).trans hs.1.2.2)
    have heval : (finish (stormReleased s)).eval = { s.eval with storm := false, stormRelease := none, chans := w } :=
      hfin.eval.trans hw
    refine ⟨_, hexec, by rw [heval], by rw [heval], rfl, hfin.picture.trans hch.picture,
      hfin.sensing.trans hch.sensing, hfin.link.trans hch.link, hfin.requests.trans hreq, ?_⟩
    intro c r e hr he
    rw [heval]
    have hc := hget c
    have hcfg : chanCfg c { s with eval := { s.eval with storm := false, stormRelease := none } } = r := hr.symm
    rw [demandedAnew, hcfg] at hc
    show (w.get c).exposure = e ∧ (_ → w.get c = _) ∧ (_ → (w.get c).demand = _)
    rw [hc]
    refine ⟨?_, fun hu => if_pos hu, fun hu => ?_⟩
    · rw [he]; split <;> rfl
    · rw [if_neg hu, he]
      exact judgedChannel_demand hu
  · exact exec_nothing (f := calmExpired c) rfl hs (by rw [calmExpired, hn]; rfl)
  · have hcalm : calmExpired c s =
        setExposed c { s.eval.chans.get c with demand := none, calm := none } s := by
      rw [calmExpired, if_pos (Option.isSome_iff_ne_none.2 hn)]
      exact rejudge_of_not_opens ho fun j hjob => hj j (jobOf_some hjob).1 (jobOf_some hjob).2
    rw [exec_plain (f := calmExpired c) rfl hs (by rw [hcalm]; rfl), hcalm]
    rfl

end

section
/-! PROOFS. Opening re-judged and the isolation policy (O24, O25): what each channel's part is, and what the operations on
claims and frames keep of the queue. -/

namespace Sys2Proof.Machine

/-! ### Channels and directions of the queue

No operation on claims and frames makes or removes a job, or turns one around. -/

/-- The channels of the queued jobs, with their directions. -/
def jobSlots (js : List Job) : List (Channel × Direction) := js.map (fun j => (j.chan, j.dir))

theorem jobSlots_map {f : Job → Job} (js : List Job) (h : ∀ j, (f j).chan = j.chan ∧ (f j).dir = j.dir) :
    jobSlots (js.map f) = jobSlots js := by
  unfold jobSlots
  rw [List.map_map]
  exact List.map_congr_left fun j _ => Prod.ext (h j).1 (h j).2

theorem mem_jobSlots {js : List Job} {c : Channel} {d : Direction} :
    (c, d) ∈ jobSlots js ↔ ∃ j ∈ js, j.chan = c ∧ j.dir = d := by
  simp [jobSlots]

theorem frameLeft_jobs (s : State) : (frameLeft s).jobs = s.jobs := by
  unfold frameLeft
  dsimp only
  split <;> rfl

theorem cancelClaim_jobs (tag : Nat) (s : State) : (cancelClaim tag s).jobs = s.jobs := by
  unfold cancelClaim
  split
  · exact frameLeft_jobs _
  · rfl

theorem withdrawOwn_slots (e : Entry) (b : Bool) (s : State) :
    jobSlots (withdrawOwn e b s).jobs = jobSlots s.jobs := by
  have hj : (cancelClaim e.tag (removeEntries (isOwnOf e.chan) s)).jobs = s.jobs := cancelClaim_jobs ..
  rw [← hj]
  exact jobSlots_map _ fun j => by split <;> exact ⟨rfl, rfl⟩

theorem claimDropped_slots (tag : Nat) (b : Bool) (s : State) :
    jobSlots (claimDropped tag b s).jobs = jobSlots s.jobs := by
  unfold claimDropped
  split
  · rfl
  · split
    case h_1 => exact withdrawOwn_slots ..
    case h_2 | h_3 => split <;> rfl
    case h_4 => rfl

theorem tellDropped_slots (o : FrameOwner) (b : Bool) (s : State) :
    jobSlots (tellDropped o b s).jobs = jobSlots s.jobs := by
  unfold tellDropped
  split
  · exact claimDropped_slots ..
  · unfold wantRestart; split <;> rfl
  all_goals rfl

theorem enqueue_slots (f : TxFrame) (s : State) : jobSlots (enqueue f s).jobs = jobSlots s.jobs := by
  unfold enqueue
  dsimp only
  split
  · rw [frameLeft_jobs]; rfl
  · split
    · rfl
    · split
      · rw [tellDropped_slots]
        show jobSlots (frameLeft _).jobs = _
        rw [frameLeft_jobs]; rfl
      · exact tellDropped_slots ..

theorem queueClaim_slots (e : Entry) (n : Bool) (s : State) :
    jobSlots (queueClaim e n s).jobs = jobSlots s.jobs :=
  (enqueue_slots ..).trans (by rw [cancelClaim_jobs])

theorem removeOwn_slots (c : Channel) (r : Bool) (s : State) :
    jobSlots (removeOwn c r s).jobs = jobSlots s.jobs := by
  unfold removeOwn
  split
  · rfl
  · next e _ =>
    have h : (wantScan (cancelClaim e.tag (removeEntries (isOwnOf c) s))).jobs = s.jobs := cancelClaim_jobs ..
    dsimp only
    split
    · unfold queueRelease
      split
      · rw [h]
      · rw [enqueue_slots, h]
    · rw [h]

theorem giveUpClaim_slots (j : Job) (s : State) : jobSlots (giveUpClaim j s).jobs = jobSlots s.jobs := by
  unfold giveUpClaim
  split
  · rfl
  all_goals exact removeOwn_slots ..

theorem raiseEntry_slots (c : Channel) (n : Nat) (b : Bool) (s : State) :
    jobSlots (raiseEntry c n b s).jobs = jobSlots s.jobs := by
  unfold raiseEntry
  split
  · rfl
  · split
    · rfl
    · dsimp only
      split
      · rfl
      · exact queueClaim_slots ..

theorem halt_slots (c : Channel) (s : State) : jobSlots (halt c s).jobs = jobSlots s.jobs := by
  unfold halt
  split
  · exact removeOwn_slots ..
  · rfl

theorem reverse_slots (c : Channel) (n : Nat) (k : Cause) (w : Requester) (s : State) :
    jobSlots (reverse c n k w s).jobs = jobSlots s.jobs := by
  unfold reverse
  split
  · exact raiseEntry_slots ..
  all_goals rfl

/-! ### Opening re-judged (R50, R51, R65, R125, R129) -/

theorem isFaulted_eq_false {d : Driver} : isFaulted d = false ↔ ∀ p k, d ≠ .faulted p k := by
  cases d <;> simp [isFaulted]

theorem removeOpenJob_some {c : Channel} {j : Job} {s : State} (hj : jobOf c s = some j) (hd : j.dir = .opening) :
    removeOpenJob c s = dropJob c (giveUpClaim j s) := by
  rw [removeOpenJob, hj]
  exact if_pos hd

theorem rejudge_allowed {c : Channel} {s : State} (h : openingAllowed c s = true) : rejudge c s = s := if_pos h

theorem rejudge_clear {c : Channel} {s : State} (h : openingAllowed c s = false)
    (hd : (s.eval.chans.get c).demand = none) : rejudge c s = halt c (removeOpenJob c s) := by
  have he : ((removeOpenJob c s).eval.chans.get c).demand = none := by rw [(removeOpenJob_step c s).eval]; exact hd
  unfold rejudge
  rw [if_neg (by rw [h]; exact Bool.false_ne_true)]
  dsimp only
  rw [he]

theorem rejudge_set {c : Channel} {s : State} {d : Demand} (h : openingAllowed c s = false)
    (hd : (s.eval.chans.get c).demand = some d) :
    rejudge c s = reverse c d.cls d.cause .absent (removeOpenJob c s) := by
  have he : ((removeOpenJob c s).eval.chans.get c).demand = some d := by
    rw [(removeOpenJob_step c s).eval]; exact hd
  unfold rejudge
  rw [if_neg (by rw [h]; exact Bool.false_ne_true)]
  dsimp only
  rw [he]

theorem removeOpenJob_driver (c x : Channel) (s : State) :
    (removeOpenJob c s).drivers.get x = s.drivers.get x := by rw [(removeOpenJob_step c s).drivers]

theorem reverse_opening {c : Channel} {n : Nat} {k : Cause} {w : Requester} {m : Motion} {t : Nat}
    {b : Option Nat} {s : State} (h : s.drivers.get c = .opening m t b) : reverse c n k w s =
      raiseEntry c n true (setDriver c (.brake
        { m with dir := .close, cls := n, cause := k, requester := w, retry := 0, attempt := none }
        Config.brakeMs) s) := by
  rw [reverse, h]

theorem halt_opening {c : Channel} {s : State} (h : isOpening (s.drivers.get c) = true) :
    halt c s = wantScan (removeOwn c true (setDriver c (.idle (settled c .part s)) s)) := if_pos h

theorem settled_congr {c : Channel} {p : Position} {s t : State} (h1 : t.cfg = s.cfg) (h2 : t.pins = s.pins) :
    settled c p t = settled c p s := by
  have hc : chanCfg c t = chanCfg c s := by simp only [chanCfg, h1]
  have hl : ∀ l, limitOn c l t = limitOn c l s := fun l => by cases l <;> simp only [limitOn, hc, h2]
  unfold settled
  rw [hc, hl .closed, hl .opened]

theorem halt_driver (c : Channel) (s : State) : (halt c s).drivers.get c =
    if isOpening (s.drivers.get c) then .idle (settled c .part s) else s.drivers.get c := by
  cases h : isOpening (s.drivers.get c)
  · rw [halt_of_not_opening h]; rfl
  · rw [halt_opening h, (wantScan_step _).drivers, (removeOwn_step ..).drivers, setDriver_get_same]
    rfl

/-! ### The isolation policy (R52 to R54) -/

/-- A pass over all channels that sets each by its own driver, the settings and the lines alone. -/
theorem foldl_drivers {f : State → Channel → State} (hf : ∀ s c, ChannelFrame (· = c) s (f s c)) (s : State)
    (c : Channel) : ∃ u, (allChannels.foldl f s).drivers.get c = (f u c).drivers.get c
      ∧ u.cfg = s.cfg ∧ u.pins = s.pins ∧ u.drivers.get c = s.drivers.get c := by
  have hpass : ∀ (l : List Channel) (s : State), ChannelFrame (· ∈ l) s (l.foldl f s) := by
    intro l
    induction l with
    | nil => exact .refl _
    | cons x l ih =>
      exact fun s => ((hf s x).mono fun _ h => h ▸ List.mem_cons_self ..).trans
        ((ih _).mono fun _ h => List.mem_cons_of_mem _ h)
  have hb := hpass (allChannels.filter (fun x => decide (x < c))) s
  refine ⟨(allChannels.filter (fun x => decide (x < c))).foldl f s, ?_, hb.cfg, hb.pins, hb.others c (by simp)⟩
  conv_lhs => rw [allChannels_split c]
  rw [List.foldl_append, List.foldl_cons]
  exact (hpass _ _).others c (by simp)

theorem foldl_slots {f : State → Channel → State} (hf : ∀ s c, jobSlots (f s c).jobs = jobSlots s.jobs) :
    ∀ (l : List Channel) (s : State), jobSlots (l.foldl f s).jobs = jobSlots s.jobs
  | [], _ => rfl
  | c :: l, s => (foldl_slots hf l (f s c)).trans (hf s c)

/-- R53: the close request of the policy. -/
def isolationReq : CloseReq := { cls := 1, cause := .isolation, who := .absent, retry := 0, clears := false }

theorem closeForIsolation_opening {c : Channel} {m : Motion} {t : Nat} {b : Option Nat} {s : State}
    (h : s.drivers.get c = .opening m t b) : closeForIsolation s c =
      raiseEntry c 1 true (setDriver c (.brake
        { m with dir := .close, cls := 1, cause := .isolation, requester := .absent, retry := 0, attempt := none }
        Config.brakeMs) s) := by
  have hr : closeForIsolation s c = closeRequest c isolationReq s := by
    unfold closeForIsolation
    rw [h]
    rfl
  rw [hr, closeRequest, h]
  exact reverse_opening h

theorem closeForIsolation_idle {c : Channel} {p : Position} {s : State} (h : s.drivers.get c = .idle p) :
    closeForIsolation s c = if p = .closed then s else queueClose c isolationReq s := by
  have hr : closeForIsolation s c = if p = .closed then s else closeRequest c isolationReq s := by
    unfold closeForIsolation
    rw [h]
    rfl
  rw [hr, closeRequest, h]

theorem closeForIsolation_backoff {c : Channel} {m : Motion} {o : Bool} {t : Nat} {s : State}
    (h : s.drivers.get c = .backoff m o t) :
    closeForIsolation s c = setDriver c (.backoff (isolatedMotion m) o t) s := by
  unfold closeForIsolation
  rw [h]

theorem closeForIsolation_blocked {c : Channel} {m : Motion} {t : Nat} {s : State}
    (h : s.drivers.get c = .blocked m t) :
    closeForIsolation s c = setDriver c (.blocked (isolatedMotion m) t) s := by
  unfold closeForIsolation
  rw [h]

theorem isolatedMotion_weather {m : Motion} (h : m.cause = .storm ∨ m.cause = .rain ∨ m.cause = .wind) :
    isolatedMotion m = { m with cause := .isolation } := by
  refine if_pos ?_
  rcases h with h | h | h <;> rw [h] <;> rfl

theorem isolatedMotion_other {m : Motion} (h : m.cause = .command ∨ m.cause = .wall ∨ m.cause = .isolation) :
    isolatedMotion m = m := by
  refine if_neg ?_
  rcases h with h | h | h <;> rw [h] <;> exact Bool.false_ne_true

theorem setDriver_eq_self {c : Channel} {d : Driver} {s : State} (h : s.drivers.get c = d) : setDriver c d s = s := by
  rw [← h, setDriver_self]

/-! ### A CLOSE job once queued stays (R61 to R63) -/

/-- A close request leaves its channel a CLOSE job. -/
theorem queueClose_has (c : Channel) (r : CloseReq) (s : State) :
    (c, Direction.close) ∈ jobSlots (queueClose c r s).jobs := by
  unfold queueClose
  split
  · exact mem_jobSlots.2 ⟨_, mem_placeJob.2 (.inl rfl), rfl, rfl⟩
  · next j hj =>
    obtain ⟨hmem, hc⟩ := jobOf_some hj
    split
    · exact mem_jobSlots.2 ⟨_, mem_placeJob.2 (.inl rfl), rfl, rfl⟩
    · next hd =>
      have hch : (c, Direction.close) ∈ jobSlots (changeJob c (mergedJob r) s).jobs := by
        refine mem_jobSlots.2 ⟨mergedJob r j, (sortJobs_perm _).mem_iff.2 (List.mem_map.2 ⟨j, hmem, ?_⟩), hc, hd⟩
        rw [if_pos hc]
      dsimp only
      split
      · rw [raiseEntry_slots]; exact hch
      · exact hch

/-- A close request of another channel takes no job away. -/
theorem queueClose_keeps_slot {c x : Channel} {d : Direction} {r : CloseReq} {s : State} (hx : c ≠ x)
    (h : (c, d) ∈ jobSlots s.jobs) : (c, d) ∈ jobSlots (queueClose x r s).jobs := by
  unfold queueClose
  split
  · obtain ⟨j, hj, hc⟩ := mem_jobSlots.1 h
    exact mem_jobSlots.2 ⟨j, mem_placeJob.2 (.inr hj), hc⟩
  · next k _ =>
    split
    · rw [← giveUpClaim_slots k s] at h
      obtain ⟨j, hj, hc, hd⟩ := mem_jobSlots.1 h
      exact mem_jobSlots.2 ⟨j, mem_placeJob.2 (.inr (List.mem_filter.2 ⟨hj, by simpa [hc] using hx⟩)), hc, hd⟩
    · have hch : (c, d) ∈ jobSlots (changeJob x (mergedJob r) s).jobs := by
        obtain ⟨j, hj, hc, hd⟩ := mem_jobSlots.1 h
        refine mem_jobSlots.2 ⟨j, (sortJobs_perm _).mem_iff.2 (List.mem_map.2 ⟨j, hj, ?_⟩), hc, hd⟩
        rw [if_neg (by rw [hc]; exact hx)]
      dsimp only
      split
      · rw [raiseEntry_slots]; exact hch
      · exact hch

theorem closeForIsolation_keeps_slot {c x : Channel} {d : Direction} {s : State} (hx : c ≠ x)
    (h : (c, d) ∈ jobSlots s.jobs) : (c, d) ∈ jobSlots (closeForIsolation s x).jobs := by
  unfold closeForIsolation
  dsimp only
  split
  case h_1 _ _ _ hd => unfold closeRequest; rw [hd]; dsimp only; rw [reverse_slots]; exact h
  case h_2 _ hd =>
    split
    · exact h
    · unfold closeRequest; rw [hd]; exact queueClose_keeps_slot hx h
  all_goals exact h

theorem closeForIsolation_fold_keeps {c : Channel} {d : Direction} : ∀ (l : List Channel) (s : State), c ∉ l →
    (c, d) ∈ jobSlots s.jobs → (c, d) ∈ jobSlots (l.foldl closeForIsolation s).jobs
  | [], _, _, h => h
  | x :: l, s, hl, h => by
    have hx : c ≠ x := fun e => hl (e ▸ List.mem_cons_self ..)
    exact closeForIsolation_fold_keeps l _ (fun hm => hl (List.mem_cons_of_mem _ hm))
      (closeForIsolation_keeps_slot hx h)

/-- R53: CLOSE_ALL asks a close of a channel at rest that is not CLOSED. -/
theorem closeAll_queues {c : Channel} {p : Position} {s : State} (h : s.drivers.get c = .idle p) (hp : p ≠ .closed) :
    (c, Direction.close) ∈ jobSlots (allChannels.foldl closeForIsolation s).jobs := by
  rw [allChannels_split c, List.foldl_append, List.foldl_cons]
  refine closeForIsolation_fold_keeps _ _ (by simp) ?_
  have hd : ((allChannels.filter (fun x => decide (x < c))).foldl closeForIsolation s).drivers.get c = .idle p := by
    have hrest := foldl_atRest (c := c) (fun s c h => by rw [closeForIsolation_atRest h])
      (fun s x c hx => (closeForIsolation_step s x).others c hx) (allChannels.filter (fun x => decide (x < c))) s
      (.inr (.inl ⟨p, h⟩))
    exact hrest.trans h
  rw [closeForIsolation_idle hd, if_neg hp]
  exact queueClose_has ..

end Sys2Proof.Machine

open Sys2Proof Sys2Proof.Machine

/-- Settles O24: the re-judgement by permission and demand. -/
theorem openingRejudgedAtOnce : Obligations.OpeningRejudgedAtOnce := by
  refine ⟨fun c s => ?_, fun c s => ⟨fun j u hj hd hu => ?_, removeOpenJob_of_close, rejudge_allowed,
    fun hn u hu => ⟨fun hd => ?_, fun d hd => ⟨fun ho => ?_, fun m t b ho => ?_⟩⟩⟩,
    fun c s hjobs => ⟨rejudge_allowed, fun hn => ?_⟩⟩
  · rw [openingAllowed_iff, isFaulted_eq_false, enabled_iff]
    simp only [demandSet, Option.isSome_eq_false_iff, Option.isNone_iff_eq_none, Option.isSome_iff_ne_none]
    exact ⟨fun ⟨h1, h2, h3, h⟩ => ⟨h1, h3, h2, h⟩, fun ⟨h1, h3, h2, h⟩ => ⟨h1, h2, h3, h⟩⟩
  · rw [removeOpenJob_some hj hd, ← hu]
    rfl
  · rw [rejudge_clear hn hd, hu]
  · rw [rejudge_set hn hd, hu]
    exact reverse_of_not_opening (by rw [removeOpenJob_driver]; exact ho)
  · rw [rejudge_set hn hd, ← hu]
    exact reverse_opening (by rw [hu, removeOpenJob_driver]; exact ho)
  · refine ⟨fun j hj hc => ?_, fun x hx => (rejudge_step c s).others x hx, fun ho => ?_, fun m t b ho =>
      ⟨fun d hd => ?_, fun hd => ?_⟩⟩
    · have hnone := removeOpenJob_none (c := c) hjobs
      have hslots : jobSlots (rejudge c s).jobs = jobSlots (removeOpenJob c s).jobs := by
        cases hd : (s.eval.chans.get c).demand with
        | none => rw [rejudge_clear hn hd, halt_slots]
        | some d => rw [rejudge_set hn hd, reverse_slots]
      have hmem : (c, j.dir) ∈ jobSlots (removeOpenJob c s).jobs := hslots ▸ mem_jobSlots.2 ⟨j, hj, hc, rfl⟩
      obtain ⟨k, hk, hkc, hkd⟩ := mem_jobSlots.1 hmem
      have hno := hnone k hk hkc
      rw [hkd] at hno
      cases hdir : j.dir
      · rfl
      · exact absurd hdir hno
    · have hr : isOpening ((removeOpenJob c s).drivers.get c) = false := by rw [removeOpenJob_driver]; exact ho
      cases hd : (s.eval.chans.get c).demand with
      | none => rw [rejudge_clear hn hd, halt_of_not_opening hr, removeOpenJob_driver]
      | some d => rw [rejudge_set hn hd, reverse_of_not_opening hr, removeOpenJob_driver]
    · rw [rejudge_set hn hd, reverse_opening (by rw [removeOpenJob_driver]; exact ho),
        (raiseEntry_step ..).drivers, setDriver_get_same]
      rfl
    · rw [rejudge_clear hn hd, halt_driver, removeOpenJob_driver, ho,
        if_pos (show isOpening (.opening m t b) = true from rfl),
        settled_congr (removeOpenJob_step c s).cfg (removeOpenJob_step c s).pins]

/-- Settles O25: the policy as a pass over the channels, each by its own driver. -/
theorem isolationPolicyByChannelState : Obligations.IsolationPolicyByChannelState := by
  have hclose : ∀ {s : State}, s.cfg.policy = .closeAll → applyPolicy s = allChannels.foldl closeForIsolation s :=
    fun h => by rw [applyPolicy, h]
  have hhold : ∀ {s : State}, s.cfg.policy = .holdPosition →
      applyPolicy s = allChannels.foldl (fun t c => halt c t) s := fun h => by rw [applyPolicy, h]
  refine ⟨fun s => ⟨hclose, fun h => ⟨hhold h, fun c => ?_, ?_⟩, fun h c => ⟨fun m t b ho => ?_, fun p hd => ?_⟩⟩,
    fun c s => ⟨fun m t b ho => halt_opening (by rw [ho]; rfl), halt_of_not_opening⟩, fun c s r hr => ?_⟩
  · obtain ⟨u, hu, hcfg, hpins, hdrv⟩ := foldl_drivers (fun s c => (halt_step c s).toChannelFrame) s c
    rw [hhold h, hu, halt_driver, hdrv, settled_congr hcfg hpins]
  · rw [hhold h]
    exact foldl_slots (fun s c => halt_slots c s) allChannels s
  · obtain ⟨u, hu, -, -, hdrv⟩ := foldl_drivers (fun s c => (closeForIsolation_step s c).toChannelFrame) s c
    rw [hclose h, hu, closeForIsolation_opening (hdrv.trans ho), (raiseEntry_step ..).drivers, setDriver_get_same]
    rfl
  · have hrest : (applyPolicy s).drivers.get c = .idle p :=
      (applyPolicy_atRest (.inr (.inl ⟨p, hd⟩))).trans hd
    refine ⟨hrest, fun hp => ?_⟩
    rw [hclose h]
    exact mem_jobSlots.1 (closeAll_queues hd hp)
  · subst hr
    refine ⟨fun m t b ho => closeForIsolation_opening ho, fun p hd hp => ?_, fun hd => ?_, fun m o t hd => ⟨fun h => ?_,
      fun h => ?_⟩, fun m t hd => ⟨fun h => ?_, fun h => ?_⟩, fun h => ?_⟩
    · rw [closeForIsolation_idle hd]
      exact if_neg hp
    · rw [closeForIsolation_idle hd]
      exact if_pos rfl
    · rw [closeForIsolation_backoff hd, isolatedMotion_weather h]
      rfl
    · rw [closeForIsolation_backoff hd, isolatedMotion_other h, setDriver_eq_self hd]
    · rw [closeForIsolation_blocked hd, isolatedMotion_weather h]
      rfl
    · rw [closeForIsolation_blocked hd, isolatedMotion_other h, setDriver_eq_self hd]
    · unfold closeForIsolation
      cases hd : s.drivers.get c <;> simp_all [isWarning, closeDrive, isFaulted]

end

section
/-! PROOFS. The motion queue (O26, O27): the two orders, and what a close request makes of queue and motion. -/

namespace Sys2Proof.Machine

theorem jobAhead_irrefl (a : Job) : jobAhead a a = false :=
  Bool.eq_false_iff.2 fun h => Bool.false_ne_true ((jobAhead_asymm h).symm.trans h)

/-! ### The precedence of the claims (R99) -/

theorem outranks_iff (a b : Entry) : outranks a b = true ↔
    b.cls < a.cls
    ∨ (b.cls = a.cls ∧ (a.station < b.station ∨ (a.station = b.station ∧ a.tag < b.tag))) := by
  unfold outranks
  split
  · rw [decide_eq_true_iff]; omega
  · split <;> rw [decide_eq_true_iff] <;> omega

theorem outranks_trans {a b c : Entry} (h : outranks a b = true) (h' : outranks b c = true) :
    outranks a c = true := by
  rw [outranks_iff] at *
  omega

theorem outranks_total {a b : Entry} (h : a.station ≠ b.station ∨ a.tag ≠ b.tag) :
    outranks a b = true ∨ outranks b a = true := by
  rw [outranks_iff, outranks_iff]
  omega

/-! ### Requests to the queue (R58, R61 to R63) -/

theorem mergedJob_eq (r : CloseReq) (k : Job) : mergedJob r k =
    { k with
      cls := if k.cls < r.cls then r.cls else k.cls
      cause := if k.cls < r.cls then r.cause else k.cause
      requester := if k.requester = .absent then r.who else k.requester
      retry := if r.clears then 0 else if k.retry < r.retry then r.retry else k.retry } := by
  have hmax : ∀ a b : Nat, max a b = if a < b then b else a := fun a b => by split <;> omega
  unfold mergedJob
  rw [hmax, hmax]

theorem queueClose_none {c : Channel} {r : CloseReq} {s : State} (h : jobOf c s = none) :
    queueClose c r s = enterJob (newJob c .close r.cls r.cause r.who r.retry s) s := by
  rw [queueClose, h]

theorem queueClose_open {c : Channel} {r : CloseReq} {s : State} {j : Job} (h : jobOf c s = some j)
    (hd : j.dir = .opening) : queueClose c r s =
      enterJob (newJob c .close r.cls r.cause r.who r.retry s) (dropJob c (giveUpClaim j s)) := by
  have hg := giveUpClaim_step j s
  have hnew : newJob c .close r.cls r.cause r.who r.retry (dropJob c (giveUpClaim j s))
      = newJob c .close r.cls r.cause r.who r.retry s := by
    simp only [newJob, chanCfg, dropJob_cfg, dropJob_eval, hg.cfg, hg.eval]
  rw [queueClose, h]
  dsimp only
  rw [hd, ← hnew]

theorem queueClose_merge {c : Channel} {r : CloseReq} {s : State} {j : Job} (h : jobOf c s = some j)
    (hd : j.dir = .close) : queueClose c r s =
      if j.state ≠ .waiting then raiseEntry c (max j.cls r.cls) true (changeJob c (mergedJob r) s)
      else changeJob c (mergedJob r) s := by
  rw [queueClose, h]
  dsimp only
  rw [hd]

theorem restore_some {c : Channel} {s : State} {d : Demand} {p : Position}
    (hd : (s.eval.chans.get c).demand = some d) (hp : s.drivers.get c = .idle p) (hj : jobOf c s = none) :
    restore c s = if p = .closed then s else queueClose c (demandReq d) s := by
  rw [restore, hd, hp, hj]

theorem restore_nothing {c : Channel} {s : State}
    (h : (s.eval.chans.get c).demand = none ∨ jobOf c s ≠ none ∨ ∀ p, s.drivers.get c ≠ .idle p) :
    restore c s = s := by
  unfold restore
  split
  · next hd hp hj =>
    rcases h with h | h | h
    · rw [hd] at h; cases h
    · exact absurd hj h
    · exact absurd hp (h _)
  · rfl

/-! ### Requests to a motion (R47, R125, R127) -/

theorem raisedMotion_eq (r : CloseReq) (m : Motion) : raisedMotion r.cls r.cause r.who m =
    { m with
      cls := r.cls, cause := r.cause
      requester := if r.who = .absent then m.requester else r.who
      stopAtEnd := m.stopAtEnd && decide (r.cause = .command ∨ r.cause = .wall) } := by
  have h : (r.cause == .command || r.cause == .wall) = decide (r.cause = .command ∨ r.cause = .wall) := by
    cases r.cause <;> rfl
  rw [raisedMotion, h]

theorem closeRequest_rest {c : Channel} {r : CloseReq} {s : State}
    (h : (∃ p, s.drivers.get c = .idle p) ∨ ∃ p k, s.drivers.get c = .faulted p k) :
    closeRequest c r s = queueClose c r s := by
  rcases h with ⟨p, h⟩ | ⟨p, k, h⟩ <;> rw [closeRequest, h]

theorem closeRequest_opening {c : Channel} {r : CloseReq} {s : State} {m : Motion} {t : Nat} {b : Option Nat}
    (h : s.drivers.get c = .opening m t b) : closeRequest c r s =
      raiseEntry c r.cls true (setDriver c (.brake
        { m with dir := .close, cls := r.cls, cause := r.cause, requester := r.who, retry := 0, attempt := none }
        Config.brakeMs) s) := by
  rw [closeRequest, h]
  exact reverse_opening h

/-- A motion of a class as high is left alone. -/
theorem closeRequest_no_raise {c : Channel} {r : CloseReq} {s : State} {m : Motion}
    (hm : motionOf (s.drivers.get c) = some m) (ho : isOpening (s.drivers.get c) = false) (hle : r.cls ≤ m.cls) :
    closeRequest c r s = s := by
  have hn : ¬ m.cls < r.cls := Nat.not_lt.2 hle
  unfold closeRequest raiseMotion
  cases hd : s.drivers.get c with
  | disabled | idle | faulted => rewrite [hd] at hm; cases hm
  | opening => rewrite [hd] at ho; cases ho
  | warning | closing | brake | backoff | blocked =>
    rewrite [hd] at hm
    obtain rfl := Option.some.inj hm
    exact if_neg hn

theorem askDemand_asks {c : Channel} {d : Demand} {s : State} (h1 : s.drivers.get c ≠ .disabled)
    (h2 : s.drivers.get c ≠ .idle .closed) (h3 : ∀ p k, s.drivers.get c ≠ .faulted p k) :
    askDemand c d s = closeRequest c (demandReq d) s := by
  unfold askDemand
  split
  · next h => exact absurd h h1
  · next h => exact absurd h (h3 _ _)
  · next h => exact if_neg fun hp => h2 (by rw [h, hp])
  all_goals rfl

theorem askDemand_nothing {c : Channel} {d : Demand} {s : State}
    (h : s.drivers.get c = .disabled ∨ s.drivers.get c = .idle .closed ∨ ∃ p k, s.drivers.get c = .faulted p k) :
    askDemand c d s = s := by
  unfold askDemand
  rcases h with h | h | ⟨p, k, h⟩ <;> rw [h]
  exact if_pos rfl

/-! ### The own entry of a raised job or motion (R89) -/

theorem raiseEntry_none {c : Channel} {n : Nat} {b : Bool} {s : State} (h : ownEntry c s = none) :
    raiseEntry c n b s = s := by
  rw [raiseEntry, h]

theorem raiseEntry_some {c : Channel} {n : Nat} {b : Bool} {s : State} {e : Entry} (h : ownEntry c s = some e) :
    raiseEntry c n b s =
      if n ≤ e.cls then s
      else if s.link.state = .mute ∨ (isHeld e = true ∧ b = false) then
        changeEntries (isOwnOf c) (fun x => { x with cls := n }) s
      else queueClaim { e with cls := n } true (changeEntries (isOwnOf c) (fun x => { x with cls := n }) s) := by
  rw [raiseEntry, h]
  rfl

/-- A CLAIM with NEW replaces the one still waiting (R84). -/
theorem queueClaim_new (e : Entry) (s : State) : queueClaim e true s =
    enqueue
      { frame :=
          { kind := .claim, prio := e.cls, source := BitVec.ofNat 8 s.cfg.station, target := 0
            groups := 0
            payload := [BitVec.ofNat 8 s.cfg.circuit, BitVec.ofNat 8 e.tag,
              BitVec.ofNat 8 (e.chan.val + 1), BitVec.ofNat 8 e.draw, BitVec.ofNat 8 e.cls,
              BitVec.ofNat 8 e.lifetimeS, 1] }
        owner := .claim e.tag true, attempts := 0, sending := false } (cancelClaim e.tag s) := by
  have h := (cancelClaim_step e.tag s).cfg
  unfold queueClaim ownFrame
  dsimp only
  rw [h]
  rfl

end Sys2Proof.Machine

open Sys2Proof Sys2Proof.Machine

/-- Settles O26: both orders by their keys, and the queue by insertion. -/
theorem keyAndPrecedenceAreTotal : Obligations.KeyAndPrecedenceAreTotal :=
  ⟨jobAhead_iff, jobAhead_irrefl, fun _ _ _ => jobAhead_trans, fun _ _ => jobAhead_total, outranks_iff, fun _ _ _ => outranks_trans,
    fun _ _ => outranks_total, fun j js => ⟨placeJob_perm j js, placeJob_sorted j js⟩,
    fun js => ⟨sortJobs_perm js, sortJobs_sorted js⟩⟩

/-- Settles O27: a close request by the job and the driver of its channel. -/
theorem closeRequestInsertsOrMerges : Obligations.CloseRequestInsertsOrMerges := by
  refine ⟨fun c r s new hnew => ⟨fun hj => ?_, fun j u hj hd hu => ?_, fun j u hj hd hu => ⟨fun hw => ?_, fun hw => ?_⟩,
      fun d p hd hp hj => ⟨fun hc => ?_, fun hc h1 h2 h3 h4 => ?_⟩, restore_nothing⟩,
    fun c s => ⟨⟨jobOf_none, fun h => ?_⟩, fun j => jobOf_some⟩,
    fun c r s raised hr => ⟨fun hd => by rw [closeRequest, hd], closeRequest_rest, fun m t b => closeRequest_opening,
      fun m => closeRequest_no_raise, fun m hm hlt => ?_⟩,
    fun c d s => ⟨askDemand_nothing, fun ⟨h1, h2, h3⟩ => askDemand_asks h1 h2 h3⟩,
    fun c n b s => ⟨raiseEntry_none, fun e u he hu => ⟨fun hle => ?_, fun hlt hm => ?_, fun hlt hm hh => ?_⟩⟩⟩
  · rw [queueClose_none hj, hnew]
    rfl
  · rw [queueClose_open hj hd, hnew, ← hu]
    rfl
  · have hmerge : changeJob c (mergedJob r) s = u := by
      rw [hu]; simp only [changeJob, mergedJob_eq]; rfl
    rw [queueClose_merge hj hd, if_neg (not_not.2 hw), hmerge]
  · have hmerge : changeJob c (mergedJob r) s = u := by
      rw [hu]; simp only [changeJob, mergedJob_eq]; rfl
    rw [queueClose_merge hj hd, if_pos hw, hmerge]
  · rw [restore_some hd hp hj, if_pos hc]
  · rw [restore_some hd hp hj, if_neg hc, queueClose_none hj, hnew, h1, h2, h3, h4]
    rfl
  · exact List.find?_eq_none.2 fun j hj => by simpa using h j hj
  · obtain rfl : raised = raisedMotion r.cls r.cause r.who := by
      rw [hr]; exact funext fun m => (raisedMotion_eq r m).symm
    refine ⟨fun p t hd => ?_, fun t b hd => ?_, fun t hd => ?_, fun o t hd => ?_, fun t hd => ?_⟩ <;>
      rw [closeRequest, hd] <;> dsimp only <;> rw [raiseMotion, hd] <;> exact if_pos hlt
  · rw [raiseEntry_some he, if_pos hle]
  · rw [raiseEntry_some he, if_neg (Nat.not_le.2 hlt), if_pos, hu]
    · rfl
    · exact hm.imp_right fun h => ⟨isHeld_iff.2 h.1, h.2⟩
  · rw [raiseEntry_some he, if_neg (Nat.not_le.2 hlt), if_neg, queueClaim_new, hu]
    · rfl
    · rintro (h | ⟨h, hf⟩)
      · exact hm h
      · rcases hh with hh | hh
        · exact hh (isHeld_iff.1 h)
        · rw [hf] at hh; cases hh

end

section
/-! PROOFS. Own claims (O28, O30, O31, O32): the admission limit, how an own entry is made and given up, and what its
timers do. -/

namespace Sys2Proof.Machine

/-! ### Totals and limits (R80 to R82) -/

theorem counts_eq : counts = fun e => decide (e.state ≠ .yielding) := by
  funext e
  rw [Bool.eq_iff_iff]
  simp [counts]

theorem isHeld_eq : isHeld = fun e => decide (e.state = .held) := by
  funext e
  rw [Bool.eq_iff_iff]
  simp [isHeld]

theorem isSettling_iff {e : Entry} : isSettling e = true ↔ ∃ n, e.state = .settling n := by
  unfold isSettling
  cases e.state <;> simp

theorem admits_iff (d : Nat) (s : State) : admits d s = true ↔
    (s.link.state = .active ∧ totalT s + d ≤ s.cfg.budget ∧ s.supply.tableFull = none
        ∧ s.supply.entries.length < 24)
    ∨ (s.link.state = .isolated ∧ totalT s + d ≤ s.cfg.isoShare ∧ s.supply.entries.length < 24)
    ∨ (s.link.state = .mute ∧ totalT s + d ≤ s.cfg.budget ∧ ownTotal s + d ≤ s.cfg.isoShare
        ∧ s.supply.entries.length < 24) := by
  have htable : Config.tableSize = 24 := rfl
  rw [← htable]
  unfold admits
  cases s.link.state <;> simp [and_assoc]

/-! ### Frames that leave the queue (R86, log 36) -/

theorem frameLeft_eq (s : State) : frameLeft s =
    { s with
      supply := { s.supply with
        entries := s.supply.entries.map (fun x =>
          if x.refreshBarred then { x with refreshBarred := false } else x) }
      work := { s.work with scan := s.work.scan || s.jobs.any Job.heldBack } } := by
  unfold frameLeft
  dsimp only
  have hj : (changeEntries Entry.refreshBarred (fun e => { e with refreshBarred := false }) s).jobs = s.jobs := rfl
  rw [hj]
  cases s.jobs.any Job.heldBack
  · rw [Bool.or_false]; rfl
  · rw [Bool.or_true]; rfl

theorem cancelClaim_waiting {tag : Nat} {s : State} (h : s.line.queue.any (isWaitingClaim tag) = true) :
    cancelClaim tag s = frameLeft (setQueue (s.line.queue.filter (fun f => !isWaitingClaim tag f)) s) := if_pos h

theorem cancelClaim_none {tag : Nat} {s : State} (h : s.line.queue.any (isWaitingClaim tag) = false) :
    cancelClaim tag s = s := if_neg (by rw [h]; exact Bool.false_ne_true)

theorem isWaitingClaim_eq (tag : Nat) : isWaitingClaim tag = fun f =>
    !f.sending && (decide (f.owner = .claim tag true) || decide (f.owner = .claim tag false)) := by
  funext f
  rw [Bool.eq_iff_iff, isWaitingClaim_iff, Bool.exists_bool]
  simp only [Bool.and_eq_true, Bool.or_eq_true, Bool.not_eq_true', decide_eq_true_eq]
  tauto

theorem carriesNew_waiting (tag : Nat) (f : TxFrame) : (isWaitingClaim tag f && carriesNew f) = true ↔
    f.sending = false ∧ f.owner = .claim tag true := by
  unfold isWaitingClaim carriesNew isWaiting
  cases f.owner <;> simp
  tauto

/-- The CLAIM queued for an entry, NEW or REFRESH (R84). -/
def claimFrame (e : Entry) (isNew : Bool) (k : Settings) : TxFrame :=
  { frame :=
      { kind := .claim, prio := e.cls, source := BitVec.ofNat 8 k.station, target := 0
        groups := 0
        payload := [BitVec.ofNat 8 k.circuit, BitVec.ofNat 8 e.tag,
          BitVec.ofNat 8 (e.chan.val + 1), BitVec.ofNat 8 e.draw, BitVec.ofNat 8 e.cls,
          BitVec.ofNat 8 e.lifetimeS, if isNew then 1 else 2] }
    owner := .claim e.tag isNew, attempts := 0, sending := false }

theorem queueClaim_eq {e : Entry} {isNew flag : Bool} {s : State}
    (h : flag = true ↔ isNew = true ∨ ∃ f ∈ s.line.queue, f.sending = false ∧ f.owner = .claim e.tag true) :
    queueClaim e isNew s = enqueue (claimFrame e flag s.cfg) (cancelClaim e.tag s) := by
  have hflag : (isNew || s.line.queue.any (fun f => isWaitingClaim e.tag f && carriesNew f)) = flag := by
    rw [Bool.eq_iff_iff, Bool.or_eq_true, List.any_eq_true, h]
    simp only [carriesNew_waiting]
  have hcfg := (cancelClaim_step e.tag s).cfg
  unfold queueClaim ownFrame
  dsimp only
  rw [hflag, hcfg]
  rfl

/-! ### Own entries (R79, R90) -/

theorem ownEntry_eq_none_iff {c : Channel} {s : State} :
    ownEntry c s = none ↔ ∀ e ∈ s.supply.entries, e.own = true → e.chan ≠ c := by
  unfold ownEntry
  simp [List.find?_eq_none, isOwnOf]

theorem ownEntry_spec {c : Channel} {s : State} {e : Entry} (h : ownEntry c s = some e) :
    e ∈ s.supply.entries ∧ e.own = true ∧ e.chan = c := by
  refine ⟨List.mem_of_find?_eq_some h, ?_⟩
  simpa [isOwnOf] using List.find?_some h

theorem ownTagged_eq_none_iff {tag : Nat} {s : State} :
    ownTagged tag s = none ↔ ∀ e ∈ s.supply.entries, e.own = true → e.tag ≠ tag := by
  unfold ownTagged
  simp [List.find?_eq_none]

theorem ownTagged_spec {tag : Nat} {s : State} {e : Entry} (h : ownTagged tag s = some e) :
    e ∈ s.supply.entries ∧ e.own = true ∧ e.tag = tag := by
  refine ⟨List.mem_of_find?_eq_some h, ?_⟩
  simpa using List.find?_some h

theorem removeOwn_none {c : Channel} {owed : Bool} {s : State} (h : ownEntry c s = none) :
    removeOwn c owed s = s := by
  rw [removeOwn, h]

/-- The RELEASE of a tag. -/
def releaseFrame (tag : Nat) (k : Settings) : TxFrame :=
  { frame :=
      { kind := .release, prio := 3, source := BitVec.ofNat 8 k.station, target := 0
        groups := 0, payload := [BitVec.ofNat 8 k.circuit, BitVec.ofNat 8 tag] }
    owner := .release, attempts := 0, sending := false }

theorem removeOwn_some {c : Channel} {owed : Bool} {s u : State} {e : Entry} (h : ownEntry c s = some e)
    (hu : u = wantScan (cancelClaim e.tag (removeEntries (isOwnOf c) s))) : removeOwn c owed s =
      if owed = false ∨ s.link.state = .mute then u else enqueue (releaseFrame e.tag s.cfg) u := by
  have hc := cancelClaim_step e.tag (removeEntries (isOwnOf c) s)
  have hlink : u.link = s.link := by rw [hu]; exact hc.link
  have hcfg : u.cfg = s.cfg := by rw [hu]; exact hc.cfg
  rw [removeOwn, h]
  dsimp only
  rw [← hu, queueRelease, hlink, ← hcfg]
  cases owed
  · rw [if_neg Bool.false_ne_true, if_pos (.inl rfl)]
  · rw [if_pos rfl]
    by_cases hm : s.link.state = .mute
    · rw [if_pos hm, if_pos (.inr hm)]
    · rw [if_neg hm, if_neg (by simp [hm])]
      rfl

/-! ### The settle interval of an own entry (R75, R87) -/

/-- The own entry of a channel HELD. -/
def ownHeld (c : Channel) (s : State) : State := changeEntries (isOwnOf c) (fun x => { x with state := .held }) s

theorem ownSettled_job {c : Channel} {s : State} {e : Entry} {j : Job} (he : ownEntry c s = some e)
    (hs : ∃ n, e.state = .settling n) (hj : jobOf c s = some j) : ownSettled c s =
      if dropsAtHandover j (ownHeld c s) then removeOwn c true (dropJob c (ownHeld c s))
      else handOver j (ownHeld c s) := by
  have hj' : jobOf c (changeEntries (isOwnOf c) (fun x => { x with state := .held }) s) = some j := hj
  rw [ownSettled, he]
  dsimp only
  rw [if_pos (isSettling_iff.2 hs)]
  rw [hj']
  rfl

theorem ownSettled_nothing {c : Channel} {s : State}
    (h : ownEntry c s = none ∨ ∃ e, ownEntry c s = some e ∧ isSettling e = false) : ownSettled c s = s := by
  rcases h with h | ⟨e, h, hs⟩
  · rw [ownSettled, h]
  · rw [ownSettled, h]
    exact if_neg (by rw [hs]; exact Bool.false_ne_true)

theorem openingAllowed_ownHeld (c x : Channel) (s : State) : openingAllowed x (ownHeld c s) = openingAllowed x s :=
  openingAllowed_congr rfl rfl rfl rfl rfl rfl

theorem restsClosed_iff {d : Driver} : restsClosed d = true ↔ d = .idle .closed := by
  simp [restsClosed]

theorem restsOpen_iff {d : Driver} : restsOpen d = true ↔ d = .idle .opened := by
  simp [restsOpen]

theorem dropsAtHandover_iff (j : Job) (s : State) : dropsAtHandover j s = true ↔
    isFaulted (s.drivers.get j.chan) = true ∨ s.drivers.get j.chan = .disabled
      ∨ (j.dir = .close ∧ s.drivers.get j.chan = .idle .closed)
      ∨ (j.dir = .opening ∧ s.drivers.get j.chan = .idle .opened)
      ∨ (j.dir = .opening ∧ openingAllowed j.chan s = false) := by
  unfold dropsAtHandover
  cases j.dir <;> simp [restsClosed_iff, restsOpen_iff, or_assoc]

/-! ### A refresh due (R88) -/

theorem changeEntries_of_same {p : Entry → Bool} {f : Entry → Entry} {s : State}
    (h : ∀ x ∈ s.supply.entries, p x = true → f x = x) : changeEntries p f s = s := by
  have hm : s.supply.entries.map (fun x => if p x then f x else x) = s.supply.entries := by
    refine (List.map_congr_left fun x hx => ?_).trans (List.map_id _)
    split
    · next hp => exact h x hx hp
    · rfl
  show setEntries _ s = s
  rw [hm]
  rfl

/-- A refresh that is due at its time changes no age. -/
theorem claimRefresh_due {c : Channel} {s : State} {e : Entry} (he : ownEntry c s = some e) (hh : e.state = .held)
    (hage : ∀ x ∈ s.supply.entries, x.own = true → x.chan = c → s.cfg.lifetimeS * 500 ≤ x.ageMs) :
    claimRefresh c s =
      if refreshes s.link.state && !s.line.queue.any (isWaitingClaim e.tag) && !e.refreshBarred then
        queueClaim { e with ageMs := max e.ageMs (s.cfg.lifetimeS * 500) } false s
      else s := by
  have hsame : changeEntries (isOwnOf c) (fun x => { x with ageMs := max x.ageMs (s.cfg.lifetimeS * 500) }) s = s :=
    changeEntries_of_same fun x hx hp => by
      simp only [isOwnOf, Bool.and_eq_true, decide_eq_true_eq] at hp
      rw [Nat.max_eq_left (hage x hx hp.1 hp.2)]
  rw [claimRefresh, he]
  dsimp only
  rw [if_pos (isHeld_iff.2 hh), hsame]

end Sys2Proof.Machine

open Sys2Proof Sys2Proof.Machine

/-- Settles O28: the limit by the link state, and the totals as sums over the table. -/
theorem admissionLimitByLinkState : Obligations.AdmissionLimitByLinkState := by
  refine ⟨admits_iff, fun s sum hsum => ?_⟩
  have hsum' : ∀ p, sum p = drawSum p s.supply.entries := hsum
  refine ⟨?_, (hsum' _).symm, ?_, fun c => rfl, fun e => ⟨isHeld_iff, isSettling_iff⟩⟩
  · rw [hsum', ← counts_eq]; rfl
  · rw [hsum', ← isHeld_eq]; rfl

/-- Settles O30: claims by their waiting frames, entries by their jobs. -/
theorem ownEntryMadeAndGivenUp : Obligations.OwnEntryMadeAndGivenUp := by
  refine ⟨fun tag s waits hw => ?_, fun j s e he => ⟨fun hm => ?_, fun hm => ?_⟩,
    fun c tag s => ⟨ownEntry_eq_none_iff, fun e => ownEntry_spec, ownTagged_eq_none_iff, fun e => ownTagged_spec⟩,
    fun c owed s => ⟨removeOwn_none, fun e u h hu => removeOwn_some h hu, fun j hc => ?_⟩⟩
  · obtain rfl : waits = isWaitingClaim tag := hw.trans (isWaitingClaim_eq tag).symm
    refine ⟨fun h => cancelClaim_none (List.any_eq_false.2 fun f hf => by rw [h f hf]; exact Bool.false_ne_true),
      fun h => ?_, fun e isNew flag htag hflag => ?_⟩
    · rw [cancelClaim_waiting (List.any_eq_true.2 h), frameLeft_eq]
      rfl
    · subst htag
      exact queueClaim_eq hflag
  · have hb : (s.link.state == LinkState.mute) = true := by rw [hm]; rfl
    rw [admitJob_mute hm, he, if_pos hm]
    unfold admitted admittedEntry
    simp only [hb, if_true]
    rfl
  · have hb : (s.link.state == LinkState.mute) = false := by simpa using hm
    have hent : admittedEntry j s = e := by
      rw [he, if_neg hm, admittedEntry, hb]
      rfl
    have hadm : admitted j s =
        { s with
          supply := { s.supply with entries := s.supply.entries ++ [e], tagCounter := nextTag s }
          jobs := s.jobs.map (fun k =>
            if k.chan = j.chan then { k with state := .announcing, heldBack := false } else k) } := by
      unfold admitted
      rw [hb, hent]
      rfl
    rw [admit_eq, hb, if_neg Bool.false_ne_true, queueClaim_new, hent, hadm, he]
  · subst hc
    refine ⟨fun h => ?_, fun h => ?_, fun h => ?_⟩ <;> rw [giveUpClaim, h]

/-- Settles O31: the hand-over of a settled job, by whether it is dropped and by its direction. -/
theorem settledJobStartsOrDrops : Obligations.SettledJobStartsOrDrops := by
  refine ⟨fun c s e j p m d hs he hn hj hp hm h => ?_, fun c s e j hs he hn hj h => ?_, fun c s hs h =>
    exec_nothing (f := ownSettled c) rfl hs (ownSettled_nothing h)⟩
  · obtain ⟨-, rfl⟩ := jobOf_some hj
    have hdrop : dropsAtHandover j (ownHeld j.chan s) = false := by
      rw [Bool.eq_false_iff]
      intro hx
      rw [dropsAtHandover_iff, openingAllowed_ownHeld] at hx
      have hdrv : (ownHeld j.chan s).drivers.get j.chan = .idle p := hp
      rw [hdrv] at hx
      rcases hx with hx | hx | ⟨hd, hx⟩ | ⟨hd, hx⟩ | ⟨hd, hx⟩
      · cases hx
      · cases hx
      · rcases h with h | h | h
        · exact h.2.1 (Driver.idle.inj hx)
        · exact h.2.1 (Driver.idle.inj hx)
        · rw [h.1] at hd; cases hd
      · rcases h with h | h | h
        · rw [h.1] at hd; cases hd
        · rw [h.1] at hd; cases hd
        · exact h.2.1 (Driver.idle.inj hx)
      · rcases h with h | h | h
        · rw [h.1] at hd; cases hd
        · rw [h.1] at hd; cases hd
        · rw [h.2.2.1] at hx; cases hx
    have hpos : heldPosition ((ownHeld j.chan s).drivers.get j.chan) = p := by
      show heldPosition (s.drivers.get j.chan) = p
      rw [hp]; rfl
    have hstart : handOver j (ownHeld j.chan s) = setDriver j.chan d (dropJob j.chan (ownHeld j.chan s)) := by
      unfold handOver
      dsimp only
      rw [hpos, ← hm]
      rcases h with ⟨hd, -, hc, rfl⟩ | ⟨hd, -, hc, rfl⟩ | ⟨hd, -, -, rfl⟩ <;> rw [hd]
      · exact if_pos hc
      · exact if_neg hc
      · rfl
    have heff : ownSettled j.chan s = setDriver j.chan d (dropJob j.chan (ownHeld j.chan s)) := by
      rw [ownSettled_job he hn hj, hdrop, if_neg Bool.false_ne_true, hstart]
    rw [exec_plain (f := ownSettled j.chan) rfl hs (by rw [heff]; rfl), heff]
    rfl
  · obtain ⟨-, rfl⟩ := jobOf_some hj
    have hdrop : dropsAtHandover j (ownHeld j.chan s) = true := by
      rw [dropsAtHandover_iff, openingAllowed_ownHeld]
      exact h
    rw [exec_settled (f := ownSettled j.chan) rfl hs, ownSettled_job he hn hj, if_pos hdrop]
    rfl

/-- Settles O32: the refresh of a HELD entry at its time. -/
theorem refreshRenewsHeldClaim : Obligations.RefreshRenewsHeldClaim := by
  intro c s e hs he hh hage
  have heff := claimRefresh_due he hh hage
  refine ⟨fun h => exec_nothing (f := claimRefresh c) rfl hs ?_, fun hl hb hq => ?_⟩
  · rw [heff]
    refine if_neg fun hx => ?_
    simp only [Bool.and_eq_true, Bool.not_eq_true'] at hx
    obtain ⟨⟨hl, hq⟩, hb⟩ := hx
    rcases h with h | h | h | ⟨f, hf, hsend, n, how⟩
    · rw [h] at hl; cases hl
    · rw [h] at hl; cases hl
    · rw [h] at hb; cases hb
    · exact List.any_eq_false.1 hq f hf (isWaitingClaim_iff.2 ⟨⟨n, how⟩, hsend⟩)
  · have hnone : s.line.queue.any (isWaitingClaim e.tag) = false := by
      rw [List.any_eq_false]
      intro f hf hw
      obtain ⟨⟨n, how⟩, hsend⟩ := isWaitingClaim_iff.1 hw
      exact Bool.false_ne_true (hsend.symm.trans (hq f hf n how))
    have hcond : (refreshes s.link.state && !s.line.queue.any (isWaitingClaim e.tag) && !e.refreshBarred) = true := by
      rw [hnone, hb, refreshes_iff.2 hl]
      rfl
    rw [exec_settled (f := claimRefresh c) rfl hs, heff, if_pos hcond,
      queueClaim_eq (flag := false) (by
        refine iff_of_false Bool.false_ne_true ?_
        rintro (h | ⟨f, hf, hsend, how⟩)
        · cases h
        · exact Bool.false_ne_true (hsend.symm.trans (hq f hf true how))),
      cancelClaim_none (tag := e.tag) hnone]
    obtain ⟨-, -, rfl⟩ := ownEntry_spec he
    rfl

end

section
/-! PROOFS. Peer claims (O33, O34): a CLAIM or RELEASE decoded and applied by its key, and the timers of peer entries. -/

namespace Sys2Proof.Machine

/-! ### Decoding (R92, log 24) -/

theorem channelOfNumber_eq (c : Channel) : channelOfNumber (c.val + 1) = some c := by
  revert c
  decide

theorem channelOfNumber_none_iff {n : Nat} : channelOfNumber n = none ↔ n = 0 ∨ 8 < n := by
  unfold channelOfNumber
  split <;> simp_all <;> omega

theorem byte_eq_zero_iff {b : Byte} : b = 0 ↔ b.toNat = 0 := by
  rw [← BitVec.toNat_inj]; rfl

/-- R92: the fields of a CLAIM brought into range. -/
def claimFields (tag : Byte) (c : Channel) (draw cls life flag : Byte) : ClaimFields :=
  { tag := tag.toNat, chan := c, draw := clampTo 1 50 draw.toNat
    cls := min 3 cls.toNat, lifetimeS := clampTo 4 60 life.toNat, isNew := flag == 1 }

theorem decodeClaim_fields {k : Nat} {circuit tag chan draw cls life flag : Byte} {c : Channel}
    (hk : circuit.toNat = k) (ht : tag.toNat ≤ 15) (hc : chan.toNat = c.val + 1) (hf : flag = 1 ∨ flag = 2) :
    decodeClaim k [circuit, tag, chan, draw, cls, life, flag] = .fields (claimFields tag c draw cls life flag) := by
  have hflag : ¬ (flag ≠ 1 ∧ flag ≠ 2) := fun h => hf.elim h.1 h.2
  unfold decodeClaim
  dsimp only
  rw [if_neg (not_not.2 hk), hc, channelOfNumber_eq]
  dsimp only
  rw [if_neg (Nat.not_lt.2 ht), if_neg hflag]
  rfl

theorem decodeClaim_other {k : Nat} {b : Byte} {rest : List Byte} (h : b.toNat ≠ k) :
    decodeClaim k (b :: rest) = .otherCircuit := if_pos h

theorem decodeRelease_other {k : Nat} {b : Byte} {rest : List Byte} (h : b.toNat ≠ k) :
    decodeRelease k (b :: rest) = .otherCircuit := if_pos h

theorem decodeClaim_malformed {k : Nat} {b : Byte} {rest : List Byte} (hk : b.toNat = k)
    (h : rest.length ≠ 6 ∨ 15 < (rest.getD 0 0).toNat ∨ rest.getD 1 0 = 0 ∨ 8 < (rest.getD 1 0).toNat
      ∨ (rest.getD 5 0 ≠ 1 ∧ rest.getD 5 0 ≠ 2)) : decodeClaim k (b :: rest) = .malformed := by
  unfold decodeClaim
  dsimp only
  rw [if_neg (not_not.2 hk)]
  split
  · next tag chan draw cls life flag =>
    split
    · rfl
    · next c hc =>
      have hn : ¬ (chan.toNat = 0 ∨ 8 < chan.toNat) := fun hx => by
        rw [channelOfNumber_none_iff.2 hx] at hc; cases hc
      rcases h with h | h | h | h | h
      · exact absurd rfl h
      · exact if_pos h
      · exact absurd (.inl (byte_eq_zero_iff.1 h)) hn
      · exact absurd (.inr h) hn
      · split
        · rfl
        · exact if_pos h
  · rfl

theorem decodeRelease_fields {k : Nat} {circuit tag : Byte} (hk : circuit.toNat = k) (ht : tag.toNat ≤ 15) :
    decodeRelease k [circuit, tag] = .fields tag.toNat := by
  unfold decodeRelease
  dsimp only
  rw [if_neg (not_not.2 hk), if_neg (Nat.not_lt.2 ht)]

theorem decodeRelease_malformed {k : Nat} {b : Byte} {rest : List Byte} (hk : b.toNat = k)
    (h : rest.length ≠ 1 ∨ 15 < (rest.getD 0 0).toNat) : decodeRelease k (b :: rest) = .malformed := by
  unfold decodeRelease
  dsimp only
  rw [if_neg (not_not.2 hk)]
  split
  · rcases h with h | h
    · exact absurd rfl h
    · exact if_pos h
  · rfl

/-! ### A CLAIM applied to the table (R93, R94, R98) -/

theorem supersede_eq (n : Nat) (k : ClaimFields) (s : State) : supersede n k s =
    { s with
      supply := { s.supply with entries := s.supply.entries.filter (fun e => !superseded n k e) }
      work := { s.work with scan := s.work.scan || s.supply.entries.any (superseded n k) } } := by
  unfold supersede
  cases h : s.supply.entries.any (superseded n k)
  · have hf : s.supply.entries.filter (fun e => !superseded n k e) = s.supply.entries :=
      List.filter_eq_self.2 fun e he => by simpa using List.any_eq_false.1 h e he
    rw [hf, Bool.or_false]
    rfl
  · rw [Bool.or_true]
    rfl

theorem supersede_of_none {n : Nat} {k : ClaimFields} {s : State}
    (h : ∀ x ∈ s.supply.entries, superseded n k x = false) : supersede n k s = s :=
  if_neg fun ha => by
    obtain ⟨x, hx, hx'⟩ := List.any_eq_true.1 ha
    exact Bool.false_ne_true ((h x hx).symm.trans hx')

theorem applyClaim_known {n : Nat} {k : ClaimFields} {s : State}
    (h : ∃ x ∈ s.supply.entries, isPeerKey n k.tag x = true) :
    applyClaim n k s = changeEntries (isPeerKey n k.tag) (refreshedEntry k s.cfg.settleMs) s := by
  have hp : peerEntry n k.tag s ≠ none := fun hx => by
    obtain ⟨x, hm, hx'⟩ := h
    exact List.find?_eq_none.1 hx x hm hx'
  unfold applyClaim
  split
  · rfl
  · next hx => exact absurd hx hp

theorem applyClaim_unknown {n : Nat} {k : ClaimFields} {s : State}
    (h : ∀ x ∈ s.supply.entries, isPeerKey n k.tag x = false) :
    applyClaim n k s =
      if (s.supply.entries.filter (fun e => !superseded n k e)).length < 24 then
        setEntries ((supersede n k s).supply.entries ++ [newPeerEntry n k s.cfg.settleMs]) (supersede n k s)
      else refuseClaim n (supersede n k s) := by
  have hp : peerEntry n k.tag s = none :=
    List.find?_eq_none.2 fun x hm => by rw [h x hm]; exact Bool.false_ne_true
  have hent : (supersede n k s).supply.entries = s.supply.entries.filter (fun e => !superseded n k e) := by
    rw [supersede_eq]
  have hcfg : (supersede n k s).cfg = s.cfg := by rw [supersede_eq]
  unfold applyClaim
  rw [hp]
  dsimp only
  rw [hent, hcfg]
  rfl

/-- An entry that neither has the key of a CLAIM nor names its channel for the same station. -/
theorem unmatched_of {n : Nat} {tag : Byte} {c : Channel} {draw cls life flag : Byte} {x : Entry}
    (h : x.own = false → x.station = n → x.tag ≠ tag.toNat ∧ x.chan ≠ c) :
    isPeerKey n tag.toNat x = false ∧ superseded n (claimFields tag c draw cls life flag) x = false := by
  constructor <;> rw [Bool.eq_false_iff] <;> intro hp <;>
    simp only [isPeerKey, superseded, Bool.and_eq_true, Bool.not_eq_true', decide_eq_true_eq] at hp
  · exact (h hp.1.1 hp.1.2).1 hp.2
  · exact (h hp.1.1.1 hp.1.1.2).2 hp.1.2

theorem clampTo_draw (b : Byte) : clampTo 1 50 b.toNat = if b = 0 then 1 else if 50 < b.toNat then 50 else b.toNat := by
  simp only [byte_eq_zero_iff]
  unfold clampTo
  split_ifs <;> omega

theorem min_class (b : Byte) : min 3 b.toNat = if 3 < b.toNat then 3 else b.toNat := by
  split <;> omega

theorem clampTo_life (b : Byte) :
    clampTo 4 60 b.toNat = if b.toNat < 4 then 4 else if 60 < b.toNat then 60 else b.toNat := by
  unfold clampTo
  split_ifs <;> omega

/-- R93, R94: the new entry of a CLAIM, field by field. -/
theorem newPeerEntry_eq (n : Nat) (tag : Byte) (c : Channel) (draw cls life flag : Byte) (ms : Nat) :
    newPeerEntry n (claimFields tag c draw cls life flag) ms =
      { station := n, tag := tag.toNat, chan := c
        draw := if draw = 0 then 1 else if 50 < draw.toNat then 50 else draw.toNat
        cls := if 3 < cls.toNat then 3 else cls.toNat
        lifetimeS := if life.toNat < 4 then 4 else if 60 < life.toNat then 60 else life.toNat
        state := if flag = 1 then .settling ms else .held
        ageMs := 0, own := false, reasserted := false, refreshBarred := false } := by
  unfold newPeerEntry claimFields
  dsimp only
  rw [clampTo_draw, min_class, clampTo_life]
  simp only [beq_iff_eq]

theorem counts_newPeerEntry (n : Nat) (k : ClaimFields) (ms : Nat) : counts (newPeerEntry n k ms) = true := by
  unfold counts newPeerEntry
  cases k.isNew <;> rfl

theorem stateAfterClaim_eq {flag : Byte} (hf : flag = 1 ∨ flag = 2) (ms : Nat) (st : ClaimState) :
    stateAfterClaim (flag == 1) ms st =
      if flag = 2 then .held else if st = .yielding then .settling ms else st := by
  rcases hf with rfl | rfl
  · cases st <;> rfl
  · rfl

/-- R93, R94: a known entry after a CLAIM, field by field. -/
theorem refreshedEntry_eq {tag : Byte} {c : Channel} {draw cls life flag : Byte} (hf : flag = 1 ∨ flag = 2)
    (n ms : Nat) (x : Entry) : refreshedEntry (claimFields tag c draw cls life flag) ms x =
      { x with
        chan := c
        draw := (newPeerEntry n (claimFields tag c draw cls life flag) ms).draw
        cls := (newPeerEntry n (claimFields tag c draw cls life flag) ms).cls
        lifetimeS := (newPeerEntry n (claimFields tag c draw cls life flag) ms).lifetimeS, ageMs := 0
        state := if flag = 2 then .held else if x.state = .yielding then .settling ms else x.state } := by
  rw [← stateAfterClaim_eq hf]
  rfl

/-! ### A check that finds T within B (R100) -/

theorem drawSum_append_one (p : Entry → Bool) (es : List Entry) (e : Entry) :
    drawSum p (es ++ [e]) = drawSum p es + if p e then e.draw else 0 := by
  rw [drawSum_append, drawSum_cons, drawSum_nil, Nat.add_zero]

theorem heldTotal_le_totalT (s : State) : heldTotal s ≤ totalT s :=
  drawSum_mono fun e _ h => by
    have hh := isHeld_iff.1 h
    simp [counts, hh]

theorem foldl_same {α : Type} {f : State → α → State} {s : State} (h : ∀ a, f s a = s) :
    ∀ l : List α, l.foldl f s = s
  | [] => rfl
  | a :: l => by rw [List.foldl_cons, h a, foldl_same h l]

theorem firstStage_within {s : State} {c : Channel} (h : totalT s ≤ s.cfg.budget) : firstStage s c = s :=
  if_neg (Nat.not_lt.2 h)

theorem secondStage_within {s : State} {e : Entry} (h : totalT s ≤ s.cfg.budget) : secondStage s e = s :=
  if_neg (Nat.not_lt.2 h)

theorem thirdStage_within {n : Nat} {s : State} (h : heldTotal s ≤ s.cfg.budget) :
    ∀ es, thirdStage n es s = s
  | [] => rfl
  | _ :: _ => if_neg (Nat.not_lt.2 h)

theorem contention_within {n : Nat} {s : State} (h : totalT s ≤ s.cfg.budget) :
    contention n s = { s with supply := { s.supply with heldExcess := false } } := by
  have hheld := (heldTotal_le_totalT s).trans h
  unfold contention
  dsimp only
  rw [foldl_same fun c => firstStage_within h, foldl_same fun e => secondStage_within h,
    if_neg (Nat.lt_irrefl _), thirdStage_within hheld]
  exact if_pos hheld

/-! ### Frames of claims taken (R92, R96) -/

theorem dispatch_claim {h : Header} {p : List Byte} {s : State} :
    dispatch (heard .claim h p) s = takeClaim h.source.toNat p s := rfl

theorem dispatch_release {h : Header} {p : List Byte} {s : State} :
    dispatch (heard .release h p) s = takeRelease h.source.toNat p s := rfl

theorem takeClaim_fields {n : Nat} {p : List Byte} {k : ClaimFields} {s : State}
    (h : decodeClaim s.cfg.circuit p = .fields k) : takeClaim n p s = contention n (applyClaim n k s) := by
  rw [takeClaim, h]

theorem takeClaim_malformed {n : Nat} {p : List Byte} {s : State}
    (h : decodeClaim s.cfg.circuit p = .malformed) : takeClaim n p s = raiseError .rxError .rxLength n s := by
  rw [takeClaim, h]

theorem takeClaim_other {n : Nat} {p : List Byte} {s : State}
    (h : decodeClaim s.cfg.circuit p = .otherCircuit) : takeClaim n p s = s := by
  rw [takeClaim, h]

theorem takeRelease_malformed {n : Nat} {p : List Byte} {s : State}
    (h : decodeRelease s.cfg.circuit p = .malformed) : takeRelease n p s = raiseError .rxError .rxLength n s := by
  rw [takeRelease, h]

theorem takeRelease_other {n : Nat} {p : List Byte} {s : State}
    (h : decodeRelease s.cfg.circuit p = .otherCircuit) : takeRelease n p s = s := by
  rw [takeRelease, h]

theorem peerEntry_some_iff {n tag : Nat} {s : State} :
    peerEntry n tag s ≠ none ↔ ∃ x ∈ s.supply.entries, x.own = false ∧ x.station = n ∧ x.tag = tag := by
  unfold peerEntry
  rw [Ne, List.find?_eq_none]
  simp [isPeerKey, and_assoc]

theorem takeRelease_known {n tag : Nat} {p : List Byte} {s : State} (h : decodeRelease s.cfg.circuit p = .fields tag)
    (hp : peerEntry n tag s ≠ none) : takeRelease n p s = wantScan (removeEntries (isPeerKey n tag) s) := by
  rw [takeRelease, h]
  dsimp only
  split
  · next hx => exact absurd hx hp
  · rfl

theorem takeRelease_unknown {n tag : Nat} {p : List Byte} {s : State}
    (h : decodeRelease s.cfg.circuit p = .fields tag) (hp : peerEntry n tag s = none) : takeRelease n p s = s := by
  rw [takeRelease, h]
  dsimp only
  rw [hp]

theorem claimLapsed_known {n tag : Nat} {s : State} (hp : peerEntry n tag s ≠ none) :
    claimLapsed n tag s =
      wantScan (raiseError .claimExpired .claimExpired n (removeEntries (isPeerKey n tag) s)) := by
  unfold claimLapsed
  split
  · next hx => exact absurd hx hp
  · rfl

end Sys2Proof.Machine

open Sys2Proof Sys2Proof.Machine

/-- Settles O33: the decoded CLAIM by its key, and the check that follows. -/
theorem peerClaimEntersTable : Obligations.PeerClaimEntersTable := by
  refine ⟨fun h circuit tag chan draw cls life flag s c e hf hk ht hc hfl hno he => ⟨fun hlen htot => ?_,
      fun hlen htot => ?_⟩,
    fun h circuit tag chan draw cls life flag s c e known old hf hk ht hc hfl he hknown hold => ⟨fun hx => ?_,
      fun hx => ?_⟩, fun h s hf => ⟨?_, ?_⟩,
    fun h circuit rest s hf => ⟨fun hk => ⟨?_, ?_⟩, fun hk hbad => ?_, fun hk hbad => ?_⟩⟩
  · have he' := he.trans (newPeerEntry_eq h.source.toNat tag c draw cls life flag s.cfg.settleMs).symm
    have hun := fun x hx => unmatched_of (c := c) (draw := draw) (cls := cls) (life := life) (flag := flag)
      (hno x hx)
    have hfilter : (counted s).supply.entries.filter
        (fun x => !superseded h.source.toNat (claimFields tag c draw cls life flag) x) = s.supply.entries :=
      List.filter_eq_self.2 fun x hx => by rw [(hun x hx).2]; rfl
    have happly : applyClaim h.source.toNat (claimFields tag c draw cls life flag) (counted s) =
        setEntries (s.supply.entries ++ [e]) (counted s) := by
      rw [applyClaim_unknown (s := counted s) fun x hx => (hun x hx).1,
        supersede_of_none (s := counted s) fun x hx => (hun x hx).2, he']
      exact if_pos (by rw [hfilter]; exact hlen)
    have htotal : totalT (setEntries (s.supply.entries ++ [e]) (counted s)) ≤ s.cfg.budget := by
      show drawSum counts (s.supply.entries ++ [e]) ≤ _
      rw [drawSum_append_one, he', counts_newPeerEntry, if_pos rfl, ← he']
      exact htot
    refine exec_peer_plain (k := .claim) rfl hf ?_ rfl
    rw [dispatch_claim, takeClaim_fields (s := counted s) (decodeClaim_fields hk ht hc hfl), happly,
      contention_within htotal]
    rfl
  · have hun := fun x hx => unmatched_of (c := c) (draw := draw) (cls := cls) (life := life) (flag := flag)
      (hno x hx)
    have hfilter : (counted s).supply.entries.filter
        (fun x => !superseded h.source.toNat (claimFields tag c draw cls life flag) x) = s.supply.entries :=
      List.filter_eq_self.2 fun x hx => by rw [(hun x hx).2]; rfl
    have happly : applyClaim h.source.toNat (claimFields tag c draw cls life flag) (counted s) =
        refuseClaim h.source.toNat (counted s) := by
      rw [applyClaim_unknown (s := counted s) fun x hx => (hun x hx).1,
        supersede_of_none (s := counted s) fun x hx => (hun x hx).2]
      exact if_neg (by rw [hfilter]; exact Nat.not_lt.2 hlen)
    refine exec_peer_plain (k := .claim) rfl hf ?_ rfl
    rw [dispatch_claim, takeClaim_fields (s := counted s) (decodeClaim_fields hk ht hc hfl), happly,
      contention_within (s := refuseClaim h.source.toNat (counted s)) htot]
    rfl
  · have he' := he.trans (newPeerEntry_eq h.source.toNat tag c draw cls life flag s.cfg.settleMs).symm
    obtain rfl : known = isPeerKey h.source.toNat tag.toNat := hknown
    rw [exec_peer (k := .claim) rfl hf, dispatch_claim,
      takeClaim_fields (s := counted s) (decodeClaim_fields hk ht hc hfl),
      applyClaim_known (s := counted s) (k := claimFields tag c draw cls life flag) hx]
    have hfields : refreshedEntry (claimFields tag c draw cls life flag) s.cfg.settleMs = fun x =>
        { x with
          chan := c, draw := e.draw, cls := e.cls, lifetimeS := e.lifetimeS, ageMs := 0
          state :=
            if flag = 2 then .held
            else if x.state = .yielding then .settling s.cfg.settleMs else x.state } := by
      rw [he']
      exact funext fun x => refreshedEntry_eq hfl h.source.toNat s.cfg.settleMs x
    show Host.Outcome.next (finish (contention _ (changeEntries _
      (refreshedEntry (claimFields tag c draw cls life flag) s.cfg.settleMs) (counted s)))) = _
    rw [hfields]
    rfl
  · have he' := he.trans (newPeerEntry_eq h.source.toNat tag c draw cls life flag s.cfg.settleMs).symm
    obtain rfl : old = superseded h.source.toNat (claimFields tag c draw cls life flag) := hold
    have hknown' : ∀ x ∈ s.supply.entries, isPeerKey h.source.toNat tag.toNat x = false := fun x hm => by
      rw [← hx x hm, hknown]; rfl
    have hsup := supersede_eq h.source.toNat (claimFields tag c draw cls life flag) (counted s)
    have hscan : (counted s).work.scan = false := hf.1.2.1
    rw [hscan, Bool.false_or] at hsup
    rw [exec_peer (k := .claim) rfl hf, dispatch_claim,
      takeClaim_fields (s := counted s) (decodeClaim_fields hk ht hc hfl),
      applyClaim_unknown (s := counted s) (k := claimFields tag c draw cls life flag) hknown', hsup, he']
    rfl
  · exact exec_peer_plain (k := .claim) rfl hf rfl rfl
  · exact exec_peer_plain (k := .release) rfl hf rfl rfl
  · exact exec_peer_plain (k := .claim) rfl hf (takeClaim_other (decodeClaim_other hk)) rfl
  · exact exec_peer_plain (k := .release) rfl hf (takeRelease_other (decodeRelease_other hk)) rfl
  · exact exec_peer_plain (k := .claim) rfl hf (takeClaim_malformed (decodeClaim_malformed hk hbad)) rfl
  · exact exec_peer_plain (k := .release) rfl hf (takeRelease_malformed (decodeRelease_malformed hk hbad)) rfl

/-- Settles O34: a RELEASE by its key, and the timers of the peer entries. -/
theorem peerEntriesSettleAndLeave : Obligations.PeerEntriesSettleAndLeave := by
  refine ⟨fun h circuit tag s hf hk ht => ⟨fun hx => ?_, fun hx => ?_⟩,
    fun n tag s hs => ⟨?_, fun hx => ?_, fun hx => ?_, fun ht => ?_, fun ht => ?_⟩⟩
  · rw [exec_peer (k := .release) rfl hf, dispatch_release,
      takeRelease_known (s := counted s) (decodeRelease_fields hk ht) (peerEntry_some_iff.2 hx)]
    rfl
  · refine exec_peer_plain (k := .release) rfl hf
      (takeRelease_unknown (s := counted s) (decodeRelease_fields hk ht) (not_not.1 fun hp => ?_)) rfl
    obtain ⟨x, hm, ho, hst, htag⟩ := peerEntry_some_iff.1 hp
    exact hx x hm ho hst htag
  · exact exec_plain (f := peerSettled n tag) rfl hs rfl
  · rw [exec_settled (f := claimLapsed n tag) rfl hs, claimLapsed_known (peerEntry_some_iff.2 hx)]
    rfl
  · refine exec_nothing (f := claimLapsed n tag) rfl hs ?_
    have hp : peerEntry n tag s = none := not_not.1 fun hp => by
      obtain ⟨x, hm, ho, hst, htag⟩ := peerEntry_some_iff.1 hp
      exact hx x hm ho hst htag
    rw [claimLapsed, hp]
  · rw [exec_settled (f := tableFullExpired) rfl hs, tableFullExpired, if_pos (Option.isSome_iff_ne_none.2 ht)]
    rfl
  · exact exec_nothing (f := tableFullExpired) rfl hs (by rw [tableFullExpired, ht]; rfl)

end

section
/-! PROOFS. The timers of the channel drivers, the compared current, backoff and retry, travel and limits (O36 to
O41). -/

namespace Sys2Proof.Machine

theorem setDriver_setDriver (c : Channel) (d d' : Driver) (s : State) :
    setDriver c d (setDriver c d' s) = setDriver c d s := by
  have h : (s.drivers.set c d').set c d = s.drivers.set c d := Eight.ext_get fun x => by
    rw [Eight.get_set, Eight.get_set, Eight.get_set]
    split <;> rfl
  show { s with drivers := (s.drivers.set c d').set c d } = _
  rw [h]
  rfl

/-! ### Drives, sounder and lamps (R111, R133, R181) -/

theorem isWarning_iff {d : Driver} : isWarning d = true ↔ ∃ p m t, d = .warning p m t := by
  cases d <;> simp [isWarning]

theorem isOpening_iff {d : Driver} : isOpening d = true ↔ ∃ m t b, d = .opening m t b := by
  cases d <;> simp [isOpening]

theorem isFaulted_iff {d : Driver} : isFaulted d = true ↔ ∃ p k, d = .faulted p k := by
  cases d <;> simp [isFaulted]

theorem openDrive_iff {d : Driver} :
    openDrive d = true ↔ (∃ m t b, d = .opening m t b) ∨ ∃ m t, d = .backoff m true t := by
  cases d <;> simp [openDrive]

theorem closeDrive_iff {d : Driver} : closeDrive d = true ↔ ∃ m t b, d = .closing m t b := by
  cases d <;> simp [closeDrive]

theorem any_toList {α : Type} {p : α → Bool} {v : Eight α} : v.toList.any p = true ↔ ∃ c, p (v.get c) = true := by
  rw [List.any_eq_true]
  refine ⟨fun ⟨x, hm, hp⟩ => ?_, fun ⟨c, hp⟩ => ⟨_, mem_toList.2 ⟨c, rfl⟩, hp⟩⟩
  obtain ⟨c, rfl⟩ := mem_toList.1 hm
  exact ⟨c, hp⟩

theorem sounder_iff {s : State} :
    sounder s = true ↔ (∃ c p m t, s.drivers.get c = .warning p m t) ∨ s.chirp ≠ none := by
  rw [sounder, Bool.or_eq_true, any_toList, Option.isSome_iff_ne_none]
  simp only [isWarning_iff]

theorem lampFault_iff {s : State} : lampFault s = true ↔ (∃ c p k, s.drivers.get c = .faulted p k)
    ∨ s.link.state = .mute ∨ s.loader.result = some .defaulted := by
  rw [lampFault, Bool.or_eq_true, Bool.or_eq_true, any_toList, beq_iff_eq, beq_iff_eq, or_assoc]
  simp only [isFaulted_iff]

theorem lampHold_iff {s : State} : lampHold s = true ↔
    s.eval.storm = true ∨ (∃ c, (s.eval.chans.get c).demand ≠ none) ∨ s.requests.hold ≠ none := by
  rw [lampHold, Bool.or_eq_true, Bool.or_eq_true, any_toList, Option.isSome_iff_ne_none, or_assoc]
  simp only [Option.isSome_iff_ne_none]

/-! ### The compared current (R116, R117, R120) -/

theorem takeOvercurrent_closing {c : Channel} {m : Motion} {t : Nat} {b : Option Nat} {s : State}
    (h : s.drivers.get c = .closing m t b) : takeOvercurrent c s =
      raiseEvent .obstruction
        (setDriver c (.backoff { m with attempt := some (m.retry + 1) } true Config.backoffMs) s) := by
  rw [takeOvercurrent, h]

theorem takeOvercurrent_opening {c : Channel} {m : Motion} {t : Nat} {b : Option Nat} {s : State}
    (h : s.drivers.get c = .opening m t b) :
    takeOvercurrent c s = restore c (raiseEvent .openBlocked (endAtRest c .part s)) := by
  rw [takeOvercurrent, h]

theorem settled_setCurrent (c c' : Channel) (p : Position) (n : Nat) (s : State) :
    settled c p (setCurrent c' n s) = settled c p s := by
  have hget : ∀ f : ChannelPins → Bool, (∀ x : ChannelPins, f { x with current := n } = f x) →
      f ((setCurrent c' n s).pins.chans.get c) = f (s.pins.chans.get c) := fun f hf => by
    show f ((s.pins.chans.set c' _).get c) = _
    rw [Eight.get_set]
    split
    · next h => rw [h]; exact hf _
    · rfl
  have hl : ∀ l, limitOn c l (setCurrent c' n s) = limitOn c l s := fun l => by
    cases l
    · exact congrArg (reads (chanCfg c s)) (hget ChannelPins.closedContact fun _ => rfl)
    · exact congrArg (reads (chanCfg c s)) (hget ChannelPins.openContact fun _ => rfl)
  unfold settled
  rw [hl, hl]
  rfl

theorem overThreshold_setCurrent (c : Channel) (n : Nat) (d : Driver) (s : State) :
    overThreshold c (setDriver c d (setCurrent c n s)) = decide ((chanCfg c s).threshold ≤ n) := by
  unfold overThreshold
  show decide ((chanCfg c s).threshold ≤ ((s.pins.chans.set c _).get c).current) = _
  rw [Eight.get_set_same]

/-- The command that compares the current of a running drive: OVERCURRENT once its blanking has expired, and the expiry
itself before. -/
def Compares (c : Channel) (n : Nat) (b : Option Nat) (i : Instr) : Prop :=
  b = none ∧ i = .overcurrent c n ∨ b ≠ none ∧ i = .blankingExpiry c n

/-- A drive in CLOSING or OPENING, and the same drive with its blanking expired. -/
def Unblanks (d d' : Driver) (b : Option Nat) : Prop :=
  ∃ m t, d = .closing m t b ∧ d' = .closing m t none ∨ d = .opening m t b ∧ d' = .opening m t none

theorem exec_compared {c : Channel} {n : Nat} {b : Option Nat} {d : Driver} {i : Instr} {s : State} (hs : Settled s)
    (hd : Unblanks (s.drivers.get c) d b) (hi : Compares c n b i) :
    exec i s = .next (finish (if (chanCfg c s).threshold ≤ n then takeOvercurrent c (setDriver c d (setCurrent c n s))
      else setDriver c d (setCurrent c n s))) := by
  obtain ⟨m, t, hd⟩ := hd
  have hthr := overThreshold_setCurrent c n d s
  rcases hi with ⟨rfl, rfl⟩ | ⟨hb, rfl⟩
  · have hsame : d = s.drivers.get c := by
      rcases hd with ⟨h, h'⟩ | ⟨h, h'⟩ <;> rw [h, h']
    have hcmp : compares (s.drivers.get c) = true := by
      rcases hd with ⟨h, -⟩ | ⟨h, -⟩ <;> rw [h] <;> rfl
    have hset : setDriver c d (setCurrent c n s) = setCurrent c n s := by
      rw [hsame]; exact setDriver_self (s := setCurrent c n s) c
    rw [exec_settled (f := currentRisen c n) rfl hs, hset]
    rw [hset] at hthr
    refine congrArg (fun t => Host.Outcome.next (finish t)) ?_
    show (if compares (s.drivers.get c) && overThreshold c (setCurrent c n s) then _ else _) = _
    rw [hcmp, hthr, Bool.true_and]
    simp only [decide_eq_true_eq]
  · have hun : unblanked (s.drivers.get c) = some d := by
      obtain ⟨k, rfl⟩ := Option.ne_none_iff_exists'.1 hb
      rcases hd with ⟨h, h'⟩ | ⟨h, h'⟩ <;> rw [h, h'] <;> rfl
    rw [exec_settled (f := blankingExpired c n) rfl hs]
    refine congrArg (fun t => Host.Outcome.next (finish t)) ?_
    have hun' : unblanked ((setCurrent c n s).drivers.get c) = some d := hun
    rw [blankingExpired, hun']
    dsimp only
    rw [hthr]
    simp only [decide_eq_true_eq]

theorem unblanked_eq_none {d : Driver} (h : ∀ m t b, d ≠ .closing m t (some b) ∧ d ≠ .opening m t (some b)) :
    unblanked d = none := by
  unfold unblanked
  split
  · next m t b => exact absurd rfl (h m t b).1
  · next m t b => exact absurd rfl (h m t b).2
  · rfl

theorem compares_eq_false {d : Driver} (h : ∀ m t, d ≠ .closing m t none ∧ d ≠ .opening m t none) :
    compares d = false := by
  cases d with
  | closing m t b => cases b with
    | none => exact absurd rfl (h m t).1
    | some _ => rfl
  | opening m t b => cases b with
    | none => exact absurd rfl (h m t).2
    | some _ => rfl
  | _ => rfl

/-! ### Backoff, retry and travel (R118, R119, R123) -/

theorem endMotion_cfg (c : Channel) (d : Driver) (s : State) : (endMotion c d s).cfg = s.cfg :=
  (removeOwn_step c true (setDriver c d s)).cfg

theorem endBackoff_faults {c : Channel} {m : Motion} {s : State} (h : s.cfg.obstrRetries < attemptOf m) :
    endBackoff c m s = restore c (rejudge c (recordError .obstructedFinal (requesterSource m.requester)
      (endMotion c (.faulted .part .obstructed) s))) := by
  unfold endBackoff backoffError afterBackoff
  rw [endMotion_cfg, if_pos h, if_pos h]
  rfl

theorem endBackoff_ends {c : Channel} {m : Motion} {s : State} (h : attemptOf m ≤ s.cfg.obstrRetries) :
    endBackoff c m s = restore c (rejudge c (endMotion c
      (if m.stopAtEnd then .idle (settled c .part s) else .blocked m (retryDelayMs s.cfg (attemptOf m))) s)) := by
  unfold endBackoff backoffError afterBackoff
  rw [endMotion_cfg, if_neg (Nat.not_lt.2 h), if_neg (Nat.not_lt.2 h)]

theorem retriesAnyway_iff {k : Cause} : retriesAnyway k = true ↔ k = .command ∨ k = .wall ∨ k = .isolation := by
  cases k <;> simp [retriesAnyway]

theorem restore_queueClose (c : Channel) (r : CloseReq) (s : State) :
    restore c (queueClose c r s) = queueClose c r s := by
  refine restore_nothing (.inr (.inl ?_))
  obtain ⟨j, hj, hc, -⟩ := mem_jobSlots.1 (queueClose_has c r s)
  exact jobOf_ne_none_iff.2 (List.mem_map.2 ⟨j, hj, hc⟩)

theorem retryExpired_asks {c : Channel} {m : Motion} {t : Nat} {s : State} (h : s.drivers.get c = .blocked m t)
    (hd : demandSet c s = true ∨ retriesAnyway m.cause = true) : retryExpired c s =
      queueClose c
        { cls := m.cls, cause := m.cause, who := m.requester, retry := attemptOf m, clears := false }
        (setDriver c (.idle (settled c .part s)) s) := by
  have hd' : (demandSet c (setDriver c (.idle (settled c .part s)) s) || retriesAnyway m.cause) = true :=
    Bool.or_eq_true_iff.2 hd
  rw [retryExpired, h]
  dsimp only
  rw [if_pos hd', restore_queueClose]

theorem retryExpired_rests {c : Channel} {m : Motion} {t : Nat} {s : State} (h : s.drivers.get c = .blocked m t)
    (hd : (s.eval.chans.get c).demand = none) (hr : retriesAnyway m.cause = false) :
    retryExpired c s = setDriver c (.idle (settled c .part s)) s := by
  have hd' : ¬ (demandSet c (setDriver c (.idle (settled c .part s)) s) || retriesAnyway m.cause) = true := by
    rw [Bool.or_eq_true, hr]
    rintro (h | h)
    · exact absurd h (by rw [demandSet, setDriver_eval, hd]; exact Bool.false_ne_true)
    · exact absurd h Bool.false_ne_true
  rw [retryExpired, h]
  dsimp only
  rw [if_neg hd']
  exact restore_nothing (s := setDriver c (.idle (settled c .part s)) s) (.inl hd)

theorem becomeFaulted_moving {c : Channel} {k : FaultKind} {m : Motion} {s : State}
    (hm : motionOf (s.drivers.get c) = some m) (h : inMotion (s.drivers.get c) = true) : becomeFaulted c k s =
      rejudge c (faultRaised k (requesterSource m.requester)
        (endMotion c (.faulted (heldPosition (s.drivers.get c)) k) s)) := by
  have hsrc : faultSource (s.drivers.get c) = requesterSource m.requester := by
    rw [faultSource, if_pos h, hm]
  unfold becomeFaulted
  dsimp only
  rw [hsrc, if_pos h]

theorem becomeFaulted_resting {c : Channel} {k : FaultKind} {s : State} (h : inMotion (s.drivers.get c) = false) :
    becomeFaulted c k s =
      rejudge c (faultRaised k 0 (setDriver c (.faulted (heldPosition (s.drivers.get c)) k) s)) := by
  have h' : ¬ inMotion (s.drivers.get c) = true := by rw [h]; exact Bool.false_ne_true
  have hsrc : faultSource (s.drivers.get c) = 0 := if_neg h'
  unfold becomeFaulted
  dsimp only
  rw [hsrc, if_neg h']

/-! ### Limits (R121, R122, R124) -/

theorem limitOn_setLimit_ne {c : Channel} {l l' : Limit} (h : l' ≠ l) (on : Bool) (s : State) :
    limitOn c l' (setLimit c l on s) = limitOn c l' s := by
  cases l <;> cases l'
  · exact absurd rfl h
  · simp only [limitOn, setLimit, Eight.get_set_same]; rfl
  · simp only [limitOn, setLimit, Eight.get_set_same]; rfl
  · exact absurd rfl h

theorem bothLimits_setLimit {c : Channel} {l l' : Limit} (h : l' ≠ l) {s : State}
    (ht : (chanCfg c s).timed = false) : bothLimits c (setLimit c l true s) = limitOn c l' s := by
  have ht' : (chanCfg c (setLimit c l true s)).timed = false := ht
  unfold bothLimits
  rw [ht']
  cases l <;> cases l'
  · exact absurd rfl h
  · rw [limitOn_setLimit, limitOn_setLimit_ne h]; rfl
  · rw [limitOn_setLimit, limitOn_setLimit_ne h, Bool.and_true]; rfl
  · exact absurd rfl h

/-- The end of a limit. -/
def endOf : Limit → Position
  | .closed => .closed
  | .opened => .opened

theorem settled_setLimit {c : Channel} {l l' : Limit} (h : l' ≠ l) {s : State} {p : Position}
    (ht : (chanCfg c s).timed = false) (ho : limitOn c l' s = false) :
    settled c p (setLimit c l true s) = endOf l := by
  rw [settled_switches (s := setLimit c l true s) ht]
  have hl := limitOn_setLimit c l true s
  have ho' := (limitOn_setLimit_ne (c := c) h true s).trans ho
  cases l <;> cases l'
  · exact absurd rfl h
  · rw [hl, ho']; rfl
  · rw [hl, ho']; rfl
  · exact absurd rfl h

theorem exec_limitActive_taken {c : Channel} {l : Limit} {s : State} (hs : Settled s) (h : limitOn c l s = false)
    (hd : s.drivers.get c ≠ .disabled) (ht : (chanCfg c s).timed = false) :
    exec (.limitActive c l) s = .next (finish (limitActivated c l (setLimit c l true s))) := by
  have htake : takesLimits c (setLimit c l true s) = true := by
    show (s.drivers.get c != .disabled && !(chanCfg c s).timed) = true
    rw [ht, bne_iff_ne.2 hd]; rfl
  refine congrArg Host.Outcome.next ?_
  rw [if_neg (by rw [h]; exact Bool.false_ne_true), whileRunning_running (s := setLimit c l true s) hs.1]
  exact congrArg finish (if_pos htake)

theorem exec_limitActive_untaken {c : Channel} {l : Limit} {s : State} (hs : Settled s) (h : limitOn c l s = false)
    (hd : s.drivers.get c = .disabled ∨ (chanCfg c s).timed = true) :
    exec (.limitActive c l) s = .next (setLimit c l true s) := by
  have htake : ¬ takesLimits c (setLimit c l true s) = true := by
    show ¬ (s.drivers.get c != .disabled && !(chanCfg c s).timed) = true
    rcases hd with hd | hd <;> rw [hd]
    · exact Bool.false_ne_true
    · rw [Bool.not_true, Bool.and_false]; exact Bool.false_ne_true
  refine congrArg Host.Outcome.next ?_
  rw [if_neg (by rw [h]; exact Bool.false_ne_true), whileRunning_running (s := setLimit c l true s) hs.1]
  exact (congrArg finish (if_neg htake)).trans (finish_of_work (s := s) hs rfl)

theorem exec_limitActive_both {c : Channel} {l l' : Limit} {s : State} (hs : Settled s) (h : limitOn c l s = false)
    (hd : s.drivers.get c ≠ .disabled) (ht : (chanCfg c s).timed = false) (hne : l' ≠ l) (ho : limitOn c l' s = true) :
    exec (.limitActive c l) s = .next (finish (limitFault c (setLimit c l true s))) := by
  rw [exec_limitActive_taken hs h hd ht]
  exact congrArg (fun t => Host.Outcome.next (finish t)) (if_pos ((bothLimits_setLimit hne ht).trans ho))

theorem exec_limitActive_closed {c : Channel} {s : State} (hs : Settled s) (h : limitOn c .closed s = false)
    (hd : s.drivers.get c ≠ .disabled) (ht : (chanCfg c s).timed = false) (ho : limitOn c .opened s = false) :
    exec (.limitActive c .closed) s = .next (finish (closedLimitActive c (setLimit c .closed true s))) := by
  rw [exec_limitActive_taken hs h hd ht]
  refine congrArg (fun t => Host.Outcome.next (finish t)) (if_neg ?_)
  rw [bothLimits_setLimit (l' := .opened) (by decide) ht, ho]
  exact Bool.false_ne_true

theorem exec_limitActive_opened {c : Channel} {s : State} (hs : Settled s) (h : limitOn c .opened s = false)
    (hd : s.drivers.get c ≠ .disabled) (ht : (chanCfg c s).timed = false) (ho : limitOn c .closed s = false) :
    exec (.limitActive c .opened) s = .next (finish (openLimitActive c (setLimit c .opened true s))) := by
  rw [exec_limitActive_taken hs h hd ht]
  refine congrArg (fun t => Host.Outcome.next (finish t)) (if_neg ?_)
  rw [bothLimits_setLimit (l' := .closed) (by decide) ht, ho]
  exact Bool.false_ne_true

theorem limitFault_again {c : Channel} {p : Position} {s : State} (h : s.drivers.get c = .faulted p .limit) :
    limitFault c s = s := by
  rw [limitFault, h]
  exact if_pos rfl

theorem limitFault_faulted {c : Channel} {p : Position} {k : FaultKind} {s : State}
    (h : s.drivers.get c = .faulted p k) (hk : k ≠ .limit) :
    limitFault c s = faultRaised .limit 0 (setDriver c (.faulted p .limit) s) := by
  rw [limitFault, h]
  exact if_neg hk

theorem limitFault_live {c : Channel} {s : State} (hd : s.drivers.get c ≠ .disabled)
    (hf : isFaulted (s.drivers.get c) = false) : limitFault c s = becomeFaulted c .limit s := by
  unfold limitFault
  split
  · next h => exact absurd h hd
  · next h => rw [h] at hf; cases hf
  all_goals rfl

theorem not_disabled_of_motion {d : Driver} {m : Motion} (h : motionOf d = some m) : d ≠ .disabled := by
  rintro rfl; cases h

theorem inMotion_live {d : Driver} (h : inMotion d = true) : isFaulted d = false := by
  cases d with
  | faulted p k => cases h
  | _ => rfl

/-- The wrong end becomes active in a motion: the channel is FAULTED at PART. -/
theorem becomeFaulted_part {c : Channel} {k : FaultKind} {m : Motion} {s : State}
    (hm : motionOf (s.drivers.get c) = some m)
    (hd : (∃ t b, s.drivers.get c = .closing m t b) ∨ (∃ t b, s.drivers.get c = .opening m t b)
      ∨ ∃ t, s.drivers.get c = .brake m t) :
    becomeFaulted c k s = rejudge c (faultRaised k (requesterSource m.requester)
      (endMotion c (.faulted .part k) s)) := by
  have hin : inMotion (s.drivers.get c) = true := by
    rcases hd with ⟨t, b, h⟩ | ⟨t, b, h⟩ | ⟨t, h⟩ <;> rw [h] <;> rfl
  have hp : heldPosition (s.drivers.get c) = .part := by
    rcases hd with ⟨t, b, h⟩ | ⟨t, b, h⟩ | ⟨t, h⟩ <;> rw [h] <;> rfl
  rw [becomeFaulted_moving hm hin, hp]

theorem closedLimitActive_faults {c : Channel} {s : State}
    (h : (∃ m t b, s.drivers.get c = .opening m t b) ∨ ∃ m t, s.drivers.get c = .brake m t) :
    closedLimitActive c s = becomeFaulted c .limit s := by
  rcases h with ⟨m, t, b, h⟩ | ⟨m, t, h⟩ <;> rw [closedLimitActive, h]

theorem openLimitActive_faults {c : Channel} {m : Motion} {t : Nat} {b : Option Nat} {s : State}
    (h : s.drivers.get c = .closing m t b) : openLimitActive c s = becomeFaulted c .limit s := by
  rw [openLimitActive, h]

theorem limitDeactivated_rest {c : Channel} {l : Limit} {s : State}
    (h : l = .closed ∧ s.drivers.get c = .idle .closed ∨ l = .opened ∧ s.drivers.get c = .idle .opened) :
    limitDeactivated c l s = restore c (setDriver c (.idle .part) s) := by
  rcases h with ⟨rfl, h⟩ | ⟨rfl, h⟩ <;> simp only [limitDeactivated, h]

theorem limitDeactivated_other {c : Channel} {l : Limit} {s : State}
    (h : ¬ (l = .closed ∧ s.drivers.get c = .idle .closed ∨ l = .opened ∧ s.drivers.get c = .idle .opened)) :
    limitDeactivated c l s = s := by
  unfold limitDeactivated
  split
  · next hd => exact absurd (.inl ⟨rfl, hd⟩) h
  · next hd => exact absurd (.inr ⟨rfl, hd⟩) h
  · rfl

end Sys2Proof.Machine

open Sys2Proof Sys2Proof.Machine

/-- Settles O36: the driver's timers by channel state, and drives, sounder and lamps as readings of the state. -/
theorem driverTimersMoveOn : Obligations.DriverTimersMoveOn := by
  refine ⟨fun c s hs => ⟨fun p m l hd => ?_, fun hd => ?_, fun m l hd => ?_, fun hd => ?_, ?_⟩, fun d => ⟨openDrive_iff,
    closeDrive_iff, ?_⟩, fun s => ⟨sounder_iff, lampFault_iff, lampHold_iff⟩⟩
  · have he : warningExpired c s = startClosing c m s := by rw [warningExpired, hd]
    rw [exec_plain (f := warningExpired c) rfl hs (by rw [he]; rfl), he]
    rfl
  · refine exec_nothing (f := warningExpired c) rfl hs ?_
    unfold warningExpired
    split
    · next h => exact absurd h (hd _ _ _)
    all_goals rfl
  · have he : brakeExpired c s =
        if (chanCfg c s).cls = .windowLow then startWarning c .part m s else startClosing c m s := by
      rw [brakeExpired, hd]
    have hw : (brakeExpired c s).work = s.work := by rw [he]; split <;> rfl
    rw [exec_plain (f := brakeExpired c) rfl hs hw, he]
    show _ = Host.Outcome.next (setDriver c (if (chanCfg c s).cls = .windowLow then _ else _) s)
    split <;> rfl
  · refine exec_nothing (f := brakeExpired c) rfl hs ?_
    unfold brakeExpired
    split
    · next h => exact absurd h (hd _ _)
    all_goals rfl
  · exact exec_plain (f := fun s => { s with chirp := none }) rfl hs rfl
  · rintro ⟨ho, hc⟩
    obtain ⟨m, t, b, rfl⟩ := closeDrive_iff.1 hc
    cases ho

/-- Settles O37: the comparison of the current once, for both commands and both directions. -/
theorem overcurrentBacksOffOrBlocks : Obligations.OvercurrentBacksOffOrBlocks := by
  intro c n s u hs hu
  have hu' : u = setCurrent c n s := hu
  refine ⟨fun m t b i hd hi => ⟨fun hle => ?_, fun hlt => ?_⟩, fun m t b i hd hi => ⟨fun hle => ?_, fun hlt => ?_⟩,
    fun hd => ?_, fun hd => ?_⟩
  · rw [exec_compared (d := .closing m t none) hs ⟨m, t, .inl ⟨hd, rfl⟩⟩ hi, if_pos (show (chanCfg c s).threshold ≤ n from hle),
      takeOvercurrent_closing (setDriver_get_same _ _ _), setDriver_setDriver, hu']
    exact congrArg _ (finish_of_work (s := s) hs rfl)
  · rw [exec_compared (d := .closing m t none) hs ⟨m, t, .inl ⟨hd, rfl⟩⟩ hi,
      if_neg (show ¬ (chanCfg c s).threshold ≤ n from Nat.not_le.2 hlt), hu']
    exact congrArg _ (finish_of_work (s := s) hs rfl)
  · rw [exec_compared (d := .opening m t none) hs ⟨m, t, .inr ⟨hd, rfl⟩⟩ hi, if_pos (show (chanCfg c s).threshold ≤ n from hle),
      takeOvercurrent_opening (setDriver_get_same _ _ _), endAtRest, endMotion, setDriver_setDriver,
      settled_congr (s := setCurrent c n s) (t := setDriver c (.opening m t none) (setCurrent c n s)) rfl rfl, settled_setCurrent, hu']
    rfl
  · rw [exec_compared (d := .opening m t none) hs ⟨m, t, .inr ⟨hd, rfl⟩⟩ hi,
      if_neg (show ¬ (chanCfg c s).threshold ≤ n from Nat.not_le.2 hlt), hu']
    exact congrArg _ (finish_of_work (s := s) hs rfl)
  · have he : currentRisen c n s = setCurrent c n s := by
      have hc : ¬ (compares (s.drivers.get c) && overThreshold c (setCurrent c n s)) = true := by
        rw [compares_eq_false hd]; exact Bool.false_ne_true
      exact if_neg hc
    rw [exec_plain (f := currentRisen c n) rfl hs (by rw [he]; rfl), he, hu']
  · have he : blankingExpired c n s = setCurrent c n s := by
      have hn : unblanked ((setCurrent c n s).drivers.get c) = none := unblanked_eq_none hd
      rw [blankingExpired, hn]
    rw [exec_plain (f := blankingExpired c n) rfl hs (by rw [he]; rfl), he, hu']

/-- Settles O38: the end of a backoff by its number, of a retry delay by demand and cause, and the position at rest. -/
theorem backoffAndRetryEnd : Obligations.BackoffAndRetryEnd := by
  refine ⟨fun c s m on l n hs hd hn => ⟨fun hlt => ?_, fun hle => ?_⟩,
    fun c s m l d hs hd hj hdem => ⟨fun h => ?_, fun hnone hk => ?_⟩, fun c s hs => ⟨fun hd => ?_, fun hd => ?_⟩,
    fun c p s closedOn openOn hcl hop => ⟨fun ht => settled_timed ht, fun ht => ⟨fun h1 h2 => ?_, fun h1 h2 => ?_,
      fun h => ?_⟩⟩⟩
  · have he : backoffExpired c s = endBackoff c m s := by rw [backoffExpired, hd]
    have hlt' : s.cfg.obstrRetries < attemptOf m := by rw [attemptOf, ← hn]; exact hlt
    rw [exec_settled (f := backoffExpired c) rfl hs, he, endBackoff_faults hlt']
    rfl
  · have he : backoffExpired c s = endBackoff c m s := by rw [backoffExpired, hd]
    have hle' : attemptOf m ≤ s.cfg.obstrRetries := by rw [attemptOf, ← hn]; exact hle
    rw [exec_settled (f := backoffExpired c) rfl hs, he, endBackoff_ends hle', hn]
    rfl
  · have hask : demandSet c s = true ∨ retriesAnyway m.cause = true := h.imp
      (fun h => Option.isSome_iff_ne_none.2 (hdem ▸ h)) retriesAnyway_iff.2
    rw [exec_settled (f := retryExpired c) rfl hs, retryExpired_asks hd hask,
      queueClose_none (s := setDriver c (.idle (settled c .part s)) s) hj]
    rfl
  · have hr : retriesAnyway m.cause = false := by rcases hk with h | h | h <;> rw [h] <;> rfl
    have he := retryExpired_rests hd (hdem.symm.trans hnone) hr
    rw [exec_plain (f := retryExpired c) rfl hs (by rw [he]; rfl), he]
    rfl
  · refine exec_nothing (f := backoffExpired c) rfl hs ?_
    unfold backoffExpired
    split
    · next h => exact absurd h (hd _ _ _)
    all_goals rfl
  · refine exec_nothing (f := retryExpired c) rfl hs ?_
    unfold retryExpired
    split
    · next h => exact absurd h (hd _ _)
    all_goals rfl
  · rw [settled_switches ht, ← hcl, ← hop, h1, h2]
  · rw [settled_switches ht, ← hcl, ← hop, h1, h2]
  · rw [settled_switches ht, ← hcl, ← hop, h]
    cases openOn <;> rfl

/-- Settles O39: the travel timer in TIMED and in SWITCHES mode. -/
theorem travelTimerEndsOrFaults : Obligations.TravelTimerEndsOrFaults := by
  refine fun c s hs => ⟨fun ht => ⟨fun m t b hd => ?_, fun m t b hd => ?_⟩, fun ht m t b n hd hn => ?_,
    fun ho hc => ?_⟩
  · have he : travelExpired c s = endAtRest c .closed s := by
      rw [travelExpired, hd]
      exact if_pos ht
    rw [exec_settled (f := travelExpired c) rfl hs, he, endAtRest, settled_timed ht]
    rfl
  · have he : travelExpired c s = restore c (endAtRest c .opened s) := by
      rw [travelExpired, hd]
      exact if_pos ht
    rw [exec_settled (f := travelExpired c) rfl hs, he, endAtRest, settled_timed ht]
    rfl
  · have ht' : ¬ (chanCfg c s).timed = true := by
      show ¬ (s.cfg.channels.get c).timed = true
      rw [ht]; exact Bool.false_ne_true
    have he : travelExpired c s = becomeFaulted c .travel s := by
      rcases hd with hd | hd <;> rw [travelExpired, hd] <;> exact if_neg ht'
    have hm : motionOf (s.drivers.get c) = some m := by rcases hd with hd | hd <;> rw [hd] <;> rfl
    have hin : inMotion (s.drivers.get c) = true := by rcases hd with hd | hd <;> rw [hd] <;> rfl
    have hn' : requesterSource m.requester = n := hn.symm
    have hp : heldPosition (s.drivers.get c) = .part := by rcases hd with hd | hd <;> rw [hd] <;> rfl
    rw [exec_settled (f := travelExpired c) rfl hs, he, becomeFaulted_moving hm hin, hp, hn']
    rfl
  · refine exec_nothing (f := travelExpired c) rfl hs ?_
    unfold travelExpired
    split
    · next h => rw [h] at hc; cases hc
    · next h => rw [h] at ho; cases ho
    all_goals rfl

/-- Settles O40: a limit that becomes active, with both active and with it alone, by channel state. -/
theorem limitActiveByChannelState : Obligations.LimitActiveByChannelState := by
  refine ⟨fun c l other s u e hs hl hu => ⟨fun h => congrArg Host.Outcome.next (if_pos h),
      fun h hd => hu ▸ exec_limitActive_untaken hs h (.inl hd), fun h ht => hu ▸ exec_limitActive_untaken hs h (.inr ht),
      fun h ht ho => ?_, fun h ht ho => ?_⟩,
    fun p m t b on k => ⟨rfl, rfl, rfl, rfl, rfl, rfl, fun d => ⟨isWarning_iff, isOpening_iff, isFaulted_iff⟩⟩,
    fun c s r x hr hx => ?_⟩
  · have hne : other ≠ l := by rcases hl with ⟨rfl, rfl, -⟩ | ⟨rfl, rfl, -⟩ <;> decide
    have hboth := fun hd => exec_limitActive_both (c := c) hs h hd ht hne ho
    have hget : (setLimit c l true s).drivers.get c = s.drivers.get c := rfl
    refine ⟨fun p hd => ?_, fun p k hd hk => ?_, fun p hd => ?_, fun m t hd => ?_, fun m p n hm hin hp hn => ?_⟩
    · rw [hboth (by rw [hd]; nofun), limitFault_again (hget.trans hd), hu]
      exact congrArg _ (finish_of_work (s := s) hs rfl)
    · rw [hboth (by rw [hd]; nofun), limitFault_faulted (hget.trans hd) hk, hu]
      exact congrArg _ (finish_of_work (s := s) hs rfl)
    · rw [hboth (by rw [hd]; nofun), limitFault_live (by rw [hget, hd]; nofun) (by rw [hget, hd]; rfl),
        becomeFaulted_resting (by rw [hget, hd]; rfl), hget, hd, hu]
      rfl
    · rw [hboth (by rw [hd]; nofun), limitFault_live (by rw [hget, hd]; nofun) (by rw [hget, hd]; rfl),
        becomeFaulted_resting (by rw [hget, hd]; rfl), hget, hd, hu]
      rfl
    · have hn' : requesterSource m.requester = n := hn.symm
      rw [hboth (not_disabled_of_motion hm), limitFault_live (s := setLimit c l true s) (not_disabled_of_motion hm)
          (inMotion_live hin), becomeFaulted_moving (s := setLimit c l true s) hm hin, hn', hget, ← hp, hu]
      rfl
  · rcases hl with ⟨rfl, rfl, -⟩ | ⟨rfl, rfl, -⟩
    · have halone := fun hd => exec_limitActive_closed (c := c) hs h hd ht ho
      have hget : (setLimit c .closed true s).drivers.get c = s.drivers.get c := rfl
      have hrest : endAtRest c .closed (setLimit c .closed true s) =
          endMotion c (.idle .closed) (setLimit c .closed true s) := by
        rw [endAtRest, settled_setLimit (l' := .opened) (by decide) ht ho, endOf]
      refine ⟨fun p hd => ?_, fun p m t hd => ?_, fun m t b hd _ => ?_, fun m t b hd hl => absurd hl (by decide),
        fun m n hm hd hn => ?_, fun m t hd hl => absurd hl (by decide), fun m o t hd => ?_, fun m t hd => ?_,
        fun p k hd => ?_⟩
      · rw [halone (by rw [hd]; nofun), closedLimitActive, hget, hd, hu, if_pos rfl]
        exact congrArg _ (finish_of_work (s := s) hs rfl)
      · rw [halone (by rw [hd]; nofun), closedLimitActive, hget, hd, hu, if_pos rfl]
        exact congrArg (fun t => Host.Outcome.next (finish t)) hrest
      · rw [halone (by rw [hd]; nofun), closedLimitActive, hget, hd, hu]
        exact congrArg (fun t => Host.Outcome.next (finish t)) hrest
      · have hn' : requesterSource m.requester = n := hn.symm
        have hd' : (∃ t b, s.drivers.get c = .opening m t b) ∨ ∃ t, s.drivers.get c = .brake m t := by
          rcases hd with ⟨-, hl⟩ | ⟨hd, -⟩ | ⟨hd, -⟩
          · exact absurd hl (by decide)
          · exact .inl hd
          · exact .inr hd
        have hact : closedLimitActive c (setLimit c .closed true s) =
            becomeFaulted c .limit (setLimit c .closed true s) :=
          closedLimitActive_faults (hd'.imp (fun ⟨t, b, h⟩ => ⟨m, t, b, h⟩) fun ⟨t, h⟩ => ⟨m, t, h⟩)
        rw [halone (not_disabled_of_motion hm), hact,
          becomeFaulted_part (s := setLimit c .closed true s) hm (.inr hd'), hn', hu]
        rfl
      · rw [halone (by rw [hd]; nofun), closedLimitActive, hget, hd, hu, if_pos rfl]
        exact congrArg _ (finish_of_work (s := s) hs rfl)
      · rw [halone (by rw [hd]; nofun), closedLimitActive, hget, hd, hu, if_pos rfl]
        exact congrArg _ (finish_of_work (s := s) hs rfl)
      · rw [halone (by rw [hd]; nofun), closedLimitActive, hget, hd, hu]
        exact congrArg _ (finish_of_work (s := s) hs rfl)
    · have halone := fun hd => exec_limitActive_opened (c := c) hs h hd ht ho
      have hget : (setLimit c .opened true s).drivers.get c = s.drivers.get c := rfl
      have hrest : endAtRest c .opened (setLimit c .opened true s) =
          endMotion c (.idle .opened) (setLimit c .opened true s) := by
        rw [endAtRest, settled_setLimit (l' := .closed) (by decide) ht ho, endOf]
      have hne : ¬ Limit.opened = .closed := by decide
      refine ⟨fun p hd => ?_, fun p m t hd => ?_, fun m t b hd hl => absurd hl hne, fun m t b hd _ => ?_,
        fun m n hm hd hn => ?_, fun m t hd _ => ?_, fun m o t hd => ?_, fun m t hd => ?_, fun p k hd => ?_⟩
      · rw [halone (by rw [hd]; nofun), openLimitActive, hget, hd, hu, if_neg hne]
        rfl
      · rw [halone (by rw [hd]; nofun), openLimitActive, hget, hd, hu, if_neg hne]
        exact congrArg _ (finish_of_work (s := s) hs rfl)
      · rw [halone (by rw [hd]; nofun), openLimitActive, hget, hd, hu]
        exact congrArg (fun t => Host.Outcome.next (finish (restore c t))) hrest
      · have hn' : requesterSource m.requester = n := hn.symm
        have hd' : ∃ t b, s.drivers.get c = .closing m t b := by
          rcases hd with ⟨hd, -⟩ | ⟨-, hl⟩ | ⟨-, hl⟩
          · exact hd
          · exact absurd hl hne
          · exact absurd hl hne
        have hact : openLimitActive c (setLimit c .opened true s) =
            becomeFaulted c .limit (setLimit c .opened true s) := by
          obtain ⟨t, b, h⟩ := hd'
          exact openLimitActive_faults (hget.trans h)
        rw [halone (not_disabled_of_motion hm), hact,
          becomeFaulted_part (s := setLimit c .opened true s) hm (.inl hd'), hn', hu]
        rfl
      · rw [halone (by rw [hd]; nofun), openLimitActive, hget, hd, hu]
        exact congrArg _ (finish_of_work (s := s) hs rfl)
      · rw [halone (by rw [hd]; nofun), openLimitActive, hget, hd, hu, if_neg hne]
        exact congrArg _ (finish_of_work (s := s) hs rfl)
      · rw [halone (by rw [hd]; nofun), openLimitActive, hget, hd, hu, if_neg hne]
        exact congrArg _ (finish_of_work (s := s) hs rfl)
      · rw [halone (by rw [hd]; nofun), openLimitActive, hget, hd, hu]
        exact congrArg _ (finish_of_work (s := s) hs rfl)
  · rw [hr, hx]
    exact ⟨rfl, rfl, fun on => ⟨rfl, rfl⟩⟩

/-- Settles O41: a limit that becomes inactive, at rest in its end and elsewhere. -/
theorem limitInactiveCreepsOffEnd : Obligations.LimitInactiveCreepsOffEnd := by
  refine fun c l s u hs hu => ⟨fun h => congrArg Host.Outcome.next (if_neg ?_), fun h ht hd => ?_, fun h hd => ?_,
    fun on => limitOn_setLimit c l on s⟩
  · rw [h]; exact Bool.false_ne_true
  · have hdis : s.drivers.get c ≠ .disabled := by rcases hd with ⟨-, h⟩ | ⟨-, h⟩ <;> rw [h] <;> nofun
    have htake : takesLimits c (setLimit c l false s) = true := by
      show (s.drivers.get c != .disabled && !(s.cfg.channels.get c).timed) = true
      rw [ht, bne_iff_ne.2 hdis]; rfl
    rw [hu]
    refine congrArg Host.Outcome.next ?_
    rw [if_pos h, whileRunning_running (s := setLimit c l false s) hs.1]
    exact congrArg finish ((if_pos htake).trans (limitDeactivated_rest (s := setLimit c l false s) hd))
  · rw [hu]
    refine congrArg Host.Outcome.next ?_
    have he : (if takesLimits c (setLimit c l false s) then limitDeactivated c l (setLimit c l false s)
        else setLimit c l false s) = setLimit c l false s := by
      rcases hd with ht | hd
      · refine if_neg ?_
        show ¬ (s.drivers.get c != .disabled && !(s.cfg.channels.get c).timed) = true
        rw [ht, Bool.not_true, Bool.and_false]
        exact Bool.false_ne_true
      · rw [limitDeactivated_other (s := setLimit c l false s) hd, ite_self]
    rw [if_pos h, whileRunning_running (s := setLimit c l false s) hs.1, he]
    exact finish_of_work (s := s) hs rfl

end

section
/-! PROOFS. The transmit queue, valid frames and the deferral slot (O42, O43, O46). -/

namespace Sys2Proof.Machine

/-! ### The transmit queue (R143, R144) -/

theorem placeFrame_eq (f : TxFrame) : ∀ q : List TxFrame, placeFrame f q =
    q.takeWhile (fun g => decide (f.frame.prio ≤ g.frame.prio))
      ++ f :: q.dropWhile (fun g => decide (f.frame.prio ≤ g.frame.prio))
  | [] => rfl
  | g :: gs => by
    unfold placeFrame
    by_cases h : f.frame.prio ≤ g.frame.prio
    · rw [if_pos h, List.takeWhile_cons_of_pos (by simpa using h), List.dropWhile_cons_of_pos (by simpa using h),
        placeFrame_eq f gs]
      rfl
    · rw [if_neg h, List.takeWhile_cons_of_neg (by simpa using h), List.dropWhile_cons_of_neg (by simpa using h)]
      rfl

theorem replacedBy_eq (o : FrameOwner) : replacedBy o = fun g =>
    (decide (o = .obs ∧ g.owner = .obs) || decide (o = .pres ∧ g.owner = .pres)) && !g.sending := by
  funext g
  unfold replacedBy isWaiting
  cases o <;> cases g.owner <;> simp

/-- What the lowest priority is found from: at most the start, at most every waiting frame's, and one of these. -/
theorem lowest_foldl (n : Nat) : ∀ (q : List TxFrame) (a : Nat), n ≤ a →
    (∀ g ∈ q, isWaiting g = true → n ≤ g.frame.prio) →
    (n = a ∨ ∃ g ∈ q, isWaiting g = true ∧ g.frame.prio = n) →
    q.foldl (fun p f => if isWaiting f then min p f.frame.prio else p) a = n
  | [], a, _, _, h => (h.resolve_right (by rintro ⟨g, hg, -⟩; cases hg)).symm
  | g :: gs, a, hle, hall, h => by
    rw [List.foldl_cons]
    refine lowest_foldl n gs _ ?_ (fun x hx => hall x (List.mem_cons_of_mem _ hx)) ?_
    · split
      · next hw => exact Nat.le_min.2 ⟨hle, hall g List.mem_cons_self hw⟩
      · exact hle
    · rcases h with rfl | ⟨x, hx, hw, hp⟩
      · refine .inl ?_
        split
        · next hw => exact (Nat.min_eq_left (hall g List.mem_cons_self hw)).symm
        · rfl
      · rcases List.mem_cons.1 hx with rfl | hx
        · refine .inl ?_
          rw [if_pos hw, hp, Nat.min_eq_right hle]
        · exact .inr ⟨x, hx, hw, hp⟩

theorem lowestPriority_eq {q : List TxFrame} {v : TxFrame} (hv : v ∈ q) (hw : v.sending = false) (h4 : v.frame.prio ≤ 3)
    (hall : ∀ g ∈ q, g.sending = false → v.frame.prio ≤ g.frame.prio) : lowestPriority q = v.frame.prio :=
  lowest_foldl _ q 4 (by omega) (fun g hg hgw => hall g hg (by simpa [isWaiting] using hgw))
    (.inr ⟨v, hv, by rw [isWaiting, hw]; rfl, rfl⟩)

theorem victim_none {p : Nat} {q : List TxFrame} (h : ∀ g ∈ q, g.sending = false → p ≤ g.frame.prio) :
    victim p q = none := by
  cases hv : victim p q with
  | none => rfl
  | some v =>
    obtain ⟨hm, hw, hp⟩ := victim_mem hv
    have hlt : lowestPriority q < p := by
      by_contra hn
      rw [victim, if_neg hn] at hv
      cases hv
    have hle := h v hm (by simpa [isWaiting] using hw)
    omega

/-- The frame a full queue drops stands where the oldest of the lowest priority stands. -/
theorem victim_split {p : Nat} {q1 q2 : List TxFrame} {v : TxFrame} (hw : v.sending = false) (hlt : v.frame.prio < p)
    (h3 : v.frame.prio ≤ 3) (h1 : ∀ g ∈ q1, g.sending = false → v.frame.prio < g.frame.prio)
    (h2 : ∀ g ∈ q2, g.sending = false → v.frame.prio ≤ g.frame.prio) :
    victim p (q1 ++ v :: q2) = some v ∧ withoutVictim (q1 ++ v :: q2) = q1 ++ q2 := by
  have hlow : lowestPriority (q1 ++ v :: q2) = v.frame.prio := by
    refine lowestPriority_eq (by simp) hw h3 fun g hg hgw => ?_
    rcases List.mem_append.1 hg with hg | hg
    · exact (h1 g hg hgw).le
    · rcases List.mem_cons.1 hg with rfl | hg
      · exact le_rfl
      · exact h2 g hg hgw
  have hpv : (isWaiting v && decide (v.frame.prio = lowestPriority (q1 ++ v :: q2))) = true := by
    rw [hlow, isWaiting, hw]; simp
  have hp1 : ∀ g ∈ q1, ¬ (isWaiting g && decide (g.frame.prio = lowestPriority (q1 ++ v :: q2))) = true := by
    intro g hg hc
    rw [hlow] at hc
    simp only [isWaiting, Bool.and_eq_true, Bool.not_eq_true', decide_eq_true_eq] at hc
    have := h1 g hg hc.1
    omega
  refine ⟨?_, ?_⟩
  · rw [victim, if_pos (by rw [hlow]; exact hlt)]
    rw [List.find?_append, List.find?_eq_none.2 hp1, Option.none_or]
    exact List.find?_cons_of_pos hpv
  · unfold withoutVictim
    rw [List.eraseP_append_right _ hp1]
    exact congrArg _ (List.eraseP_cons_of_pos hpv)

theorem enqueue_replaces {f : TxFrame} {s : State} (h : s.line.queue.any (replacedBy f.owner) = true) :
    enqueue f s = frameLeft (setQueue (placeFrame f (s.line.queue.filter (fun g => !replacedBy f.owner g))) s) :=
  if_pos h

theorem enqueue_places {f : TxFrame} {s : State} (h : s.line.queue.any (replacedBy f.owner) = false)
    (hr : s.line.queue.length < Config.txSize) : enqueue f s = setQueue (placeFrame f s.line.queue) s := by
  unfold enqueue
  dsimp only
  rw [if_neg (by rw [h]; exact Bool.false_ne_true), if_pos hr]

theorem enqueue_drops_victim {f v : TxFrame} {s : State} (h : s.line.queue.any (replacedBy f.owner) = false)
    (hr : Config.txSize ≤ s.line.queue.length) (hv : victim f.frame.prio s.line.queue = some v) :
    enqueue f s = tellDropped v.owner true (raiseError .txOverflow .txOverflow 0
      (frameLeft (setQueue (placeFrame f (withoutVictim s.line.queue)) s))) := by
  unfold enqueue
  dsimp only
  rw [if_neg (by rw [h]; exact Bool.false_ne_true), if_neg (Nat.not_lt.2 hr), hv]

theorem enqueue_drops_arrival {f : TxFrame} {s : State} (h : s.line.queue.any (replacedBy f.owner) = false)
    (hr : Config.txSize ≤ s.line.queue.length) (hv : victim f.frame.prio s.line.queue = none) :
    enqueue f s = tellDropped f.owner true (raiseError .txOverflow .txOverflow 0 s) := by
  unfold enqueue
  dsimp only
  rw [if_neg (by rw [h]; exact Bool.false_ne_true), if_neg (Nat.not_lt.2 hr), hv]

theorem wantRestart_eq (s : State) : wantRestart s =
    { s with work := { s.work with restart := s.work.restart || s.requests.pendingRestart } } := by
  unfold wantRestart
  split
  · next h => rw [h, Bool.or_true]
  · next h => rw [Bool.eq_false_iff.2 h, Bool.or_false]

theorem claimDropped_none {tag : Nat} {full : Bool} {s : State} (h : ownTagged tag s = none) :
    claimDropped tag full s = s := by
  rw [claimDropped, h]

theorem claimDropped_announcing {tag : Nat} {full : Bool} {s : State} {e : Entry} (h : ownTagged tag s = some e)
    (he : e.state = .announcing) : claimDropped tag full s = withdrawOwn e full s := by
  rw [claimDropped, h]
  dsimp only
  rw [he]

theorem claimDropped_full {tag : Nat} {s : State} {e : Entry} (h : ownTagged tag s = some e)
    (he : e.state = .held ∨ ∃ left, e.state = .settling left) :
    claimDropped tag true s = changeEntries (isOwnOf e.chan) (fun x => { x with refreshBarred := true }) s := by
  rw [claimDropped, h]
  dsimp only
  rcases he with he | ⟨n, he⟩ <;> rw [he] <;> rfl

theorem withdrawOwn_eq {e : Entry} {tag : Nat} (ht : e.tag = tag) (full : Bool) {s w : State}
    (hw : w = cancelClaim tag
      { s with
        supply := { s.supply with
          entries := s.supply.entries.filter (fun x => !(x.own && decide (x.chan = e.chan))) } }) :
    withdrawOwn e full s =
      { w with
        jobs := w.jobs.map (fun j => if j.chan = e.chan then { j with state := .waiting, heldBack := full } else j)
        work := { w.work with scan := true } } := by
  rw [withdrawOwn, ht]
  have hw' : cancelClaim tag (removeEntries (isOwnOf e.chan) s) = w := hw.symm
  rw [hw']
  rfl

/-! ### Valid frames (R141, R142, R153, R154) -/

theorem addressed_heard (k : FrameKind) (h : Header) (p : List Byte) (s : State) :
    addressed (heard k h p) s = decide (ToStation h s) := by
  rw [Bool.eq_iff_iff]
  simp only [addressed, validStation, Bool.and_eq_true, decide_eq_true_eq, and_assoc]
  exact Iff.rfl

theorem sharesGroup_heard (k : FrameKind) (h : Header) (p : List Byte) (s : State) :
    sharesGroup (heard k h p) s = decide (ToGroup h s) := by
  rw [Bool.eq_iff_iff]
  simp [sharesGroup, heard, ToGroup]

/-- A frame of a peer that is no duplicate, in a state that receives. -/
theorem frameHeard_other {k : FrameKind} {h : Header} {p : List Byte} {s : State} (hoff : s.link.state ≠ .offline)
    (h1 : 1 ≤ h.source.toNat) (h63 : h.source.toNat ≤ 63) (hown : h.source.toNat ≠ s.cfg.station) (hlen : p.length ≤ 24) :
    frameHeard (heard k h p) s = dispatch (heard k h p) (heardPeer (countReceived (setRx .idle s))) := by
  have hdup : ¬ isDuplicate (heard k h p).source (countReceived (setRx .idle s)) = true := by
    simp only [isDuplicate, Bool.and_eq_true, decide_eq_true_eq]
    exact fun hc => hown hc.2
  have hsrc : ¬ (!goodSource (heard k h p).source) = true := by
    rw [show goodSource (heard k h p).source = true from goodSource_iff.2 ⟨h1, h63⟩]
    exact Bool.false_ne_true
  unfold frameHeard
  rw [if_neg hoff, if_neg hsrc, if_neg (show ¬ 24 < (heard k h p).payload.length from Nat.not_lt.2 hlen)]
  exact if_neg hdup

theorem heardPeer_isolated {s : State} (h : s.link.state = .isolated) :
    heardPeer (countReceived (setRx .idle s)) = enterLink .listen (counted s) := by
  have hl : (countReceived (setRx .idle s)).link.state = .isolated := h
  have hc : counted s = countReceived (setRx .idle s) := by
    unfold counted
    rw [h]
    rfl
  unfold heardPeer
  rw [hl, hc]

/-- The link at the end of a command that enters a link state, where no restart is pending. -/
theorem finish_enterLink_link (new : LinkState) {s : State} (hp : s.requests.pendingRestart = false)
    (hw : s.work.restart = false) : (finish (enterLink new s)).link = linkEntered s.cfg new s.link := by
  have he := enterLink_channel new s
  have hq := finish_step (s := enterLink new s) (by rw [he.requests]; exact hp) ((he.restart hp).trans hw)
  rw [hq.link, he.link]

/-! ### The deferral slot (R146, R147) -/

theorem transmitting_eq_false {s : State} : transmitting s = false ↔ ∀ g ∈ s.line.queue, g.sending = false := by
  simp [transmitting]

theorem transmits_iff {l : LinkState} : transmits l = true ↔ l = .active ∨ l = .isolated := by
  cases l <;> simp [transmits]

theorem slotReached_starts {s : State} {slot : Nat} {f : TxFrame} {q : List TxFrame} (hq : s.line.queue = f :: q)
    (hg : transmits s.link.state = true) (ht : transmitting s = false)
    (hs : slot = (3 - f.frame.prio) * 64 + s.cfg.station) :
    slotReached slot s =
      { s with
        line :=
          { rx := if s.line.rx = .passingOver then .passingOver else .idle
            queue := { f with sending := true } :: q } } := by
  have hgate : (transmits s.link.state && !transmitting s
      && decide (slot = deferralIndex f.frame.prio s.cfg.station)) = true := by
    rw [hg, ht, decide_eq_true (show slot = deferralIndex f.frame.prio s.cfg.station from hs)]
    rfl
  unfold slotReached
  rw [hq]
  dsimp only
  rw [if_pos hgate]
  split
  · next h =>
    rw [if_neg (by rw [show s.line.rx = _ from h]; nofun)]
    rfl
  · next h =>
    rw [if_neg (by rw [show s.line.rx = _ from h]; nofun)]
    exact congrArg (fun r => { s with line := { rx := r, queue := { f with sending := true } :: q } }) h
  · next h =>
    rw [if_pos (show s.line.rx = _ from h)]
    exact congrArg (fun r => { s with line := { rx := r, queue := { f with sending := true } :: q } }) h

theorem slotReached_nothing {s : State} {slot : Nat}
    (h : s.line.queue = [] ∨ transmits s.link.state = false ∨ transmitting s = true
      ∨ ∃ f q, s.line.queue = f :: q ∧ slot ≠ (3 - f.frame.prio) * 64 + s.cfg.station) :
    slotReached slot s = s := by
  unfold slotReached
  split
  · rfl
  · next f q hq =>
    refine if_neg fun hc => ?_
    simp only [Bool.and_eq_true, Bool.not_eq_true', decide_eq_true_eq] at hc
    obtain ⟨⟨hg, ht⟩, hs⟩ := hc
    rcases h with h | h | h | ⟨f', q', h, hne⟩
    · rw [hq] at h; cases h
    · rw [hg] at h; cases h
    · rw [ht] at h; cases h
    · rw [hq] at h
      obtain ⟨rfl, -⟩ := List.cons.inj h
      exact hne hs

end Sys2Proof.Machine

open Sys2Proof Sys2Proof.Machine

/-- Settles O42: the place of a frame, the branches of its entry, and the owner of a dropped frame told. -/
theorem queueKeepsPriorityAndDropsLowest : Obligations.QueueKeepsPriorityAndDropsLowest := by
  refine ⟨placeFrame_eq, fun f s left old hleft hold => ?_, fun o s => ⟨fun h => ?_, fun h => ?_,
    fun tag n ho => ⟨fun h => ?_, fun e w h hw => ⟨fun he => ?_, fun he => ?_⟩⟩⟩⟩
  · have hold' : old = replacedBy f.owner := hold.trans (replacedBy_eq f.owner).symm
    rw [hold', hleft]
    have hnone : ∀ q : List TxFrame, (∀ g ∈ q, replacedBy f.owner g = false) → q.any (replacedBy f.owner) = false :=
      fun q h => List.any_eq_false.2 fun g hg => by rw [h g hg]; exact Bool.false_ne_true
    refine ⟨fun ⟨g, hg, ho⟩ => ?_, fun h hr => enqueue_places (hnone _ h) hr, fun h hr => ⟨fun hall => ?_,
      fun q1 v q2 hq hw hlt h3 h1 h2 => ?_⟩⟩
    · rw [enqueue_replaces (List.any_eq_true.2 ⟨g, hg, ho⟩), frameLeft_eq]
      rfl
    · exact enqueue_drops_arrival (hnone _ h) hr (victim_none hall)
    · obtain ⟨hv, hwo⟩ := victim_split hw hlt h3 h1 h2
      rw [enqueue_drops_victim (hnone _ h) hr (v := v) (by rw [hq]; exact hv), hq, hwo, frameLeft_eq]
      rfl
  · rcases h with rfl | rfl | rfl | rfl <;> rfl
  · rw [h]
    exact wantRestart_eq s
  · rw [ho]
    exact claimDropped_none h
  · rw [ho]
    exact (claimDropped_announcing h he).trans (withdrawOwn_eq (ownTagged_spec h).2.2 true hw)
  · rw [ho]
    exact claimDropped_full h he

/-- Settles O43: the receipt of a valid frame by the link state, and of one with the own number. -/
theorem validFrameCountedAndJudged : Obligations.ValidFrameCountedAndJudged := by
  refine ⟨fun h p s hf => ⟨exec_peer_plain (k := .pres) rfl hf rfl rfl, exec_peer_plain (k := .reply) rfl hf rfl rfl,
      fun k hst hgr => ?_⟩,
    fun k h p s i hs h1 h63 hown hlen hi => ?_, fun k h p => rfl, rfl,
    fun h p s hr hiso h1 h63 hown hlen i hi => ?_, fun s hr h1 h63 => ⟨fun hm => ?_, fun hl => ?_⟩⟩
  · have hadd : ∀ k, addressed (heard k h p) (counted s) = false := fun k => by
      rw [addressed_heard]
      exact decide_eq_false hst
    have hgrp : k = .cmd → sharesGroup (heard .cmd h p) (counted s) = false := fun hk => by
      rw [sharesGroup_heard]
      exact decide_eq_false (hgr hk)
    refine exec_peer_plain (k := requestFrameKind k) rfl hf ?_ rfl
    have hno : ∀ {b : Bool}, b = false → ¬ b = true := fun h h' => by rw [h] at h'; cases h'
    cases k with
    | cmd => exact if_neg (hno (by rw [show requestFrameKind .cmd = .cmd from rfl, hadd, hgrp rfl]; rfl))
    | read => exact if_neg (hno (hadd .read))
    | take => exact if_neg (hno (hadd .take))
    | clear => exact if_neg (hno (hadd .clear))
    | restart => exact if_neg (hno (hadd .restart))
  · have hexec : exec i s = .next (whileRunning (frameHeard (heard k h p)) s) := by
      rcases hi with ⟨rfl, rfl⟩ | ⟨rfl, rfl⟩ | ⟨rfl, rfl⟩ | ⟨rfl, rfl⟩
        | ⟨rfl, rfl | rfl | rfl | rfl | rfl | rfl⟩ | ⟨rfl, rfl⟩ | ⟨rfl, rfl⟩ | ⟨rfl, rfl⟩ | ⟨rfl, rfl⟩ | ⟨rfl, rfl⟩
        | ⟨r, rfl, rfl⟩ <;> rfl
    refine ⟨fun ht => exec_peer hexec ⟨hs, ht, h1, h63, hown, hlen⟩, fun hiso => ?_, fun hoff => ?_⟩
    · rw [exec_settled hexec hs, frameHeard_other (by rw [hiso]; decide) h1 h63 hown hlen, heardPeer_isolated hiso]
    · exact exec_nothing hexec hs (if_pos hoff)
  · have hexec : ∃ k, (k = .pres ∨ k = .reply) ∧ exec i s = .next (whileRunning (frameHeard (heard k h p)) s) := by
      rcases hi with rfl | rfl
      · exact ⟨.pres, .inl rfl, rfl⟩
      · exact ⟨.reply, .inr rfl, rfl⟩
    obtain ⟨k, hk, hexec⟩ := hexec
    have hd : ∀ t, dispatch (heard k h p) t = t := fun t => by rcases hk with rfl | rfl <;> rfl
    refine ⟨_, exec_settled hexec hr.1, ?_⟩
    rw [frameHeard_other (by rw [hiso]; decide) h1 h63 hown hlen, heardPeer_isolated hiso, hd,
      finish_enterLink_link .listen (s := counted s) hr.2 hr.1.2.2]
    rfl
  · have hv : validStation s.cfg = true := by simp [validStation, h1, h63]
    have he : duplicateFrame s = countReceived (setRx .idle s) := by
      unfold duplicateFrame
      rw [if_neg (by rw [hm, hv]; decide)]
      unfold duplicateHeard
      rw [show (countReceived (setRx .idle s)).link.state = .mute from hm]
    rw [exec_plain (f := duplicateFrame) rfl hr.1 (by rw [he]; rfl), he]
    rfl
  · have hv : validStation s.cfg = true := by simp [validStation, h1, h63]
    have he : duplicateFrame s = enterLink .mute
        { s with
          line := { s.line with rx := .idle }
          status := withError .duplicateStation .duplicate s.cfg.station
            { s.status with
              received := if s.status.received < 65535 then s.status.received + 1 else s.status.received } } := by
      unfold duplicateFrame
      rw [if_neg (by rw [hv]; rcases hl with h | h | h <;> rw [h] <;> decide)]
      unfold duplicateHeard
      rcases hl with h | h | h <;> rw [show (countReceived (setRx .idle s)).link.state = _ from h] <;> rfl
    refine ⟨by rw [exec_settled (f := duplicateFrame) rfl hr.1, he], _, exec_settled (f := duplicateFrame) rfl hr.1, ?_⟩
    rw [he]
    exact finish_enterLink_link .mute hr.2 hr.1.2.2

/-- Settles O46: the head frame at its slot, and every bar to its start. -/
theorem headFrameStartsAtItsSlot : Obligations.HeadFrameStartsAtItsSlot := by
  refine fun s slot hs => ⟨fun f q hq hn hl hslot => ?_, fun h => exec_nothing (f := slotReached slot) rfl hs
    (slotReached_nothing ?_)⟩
  · have he := slotReached_starts hq (transmits_iff.2 hl) (transmitting_eq_false.2 hn) hslot
    rw [exec_plain (f := slotReached slot) rfl hs (by rw [he]), he]
  · rcases h with h | h | h | h | ⟨g, hg, hgs⟩ | h
    · exact .inl h
    · exact .inr (.inl (by rw [h]; rfl))
    · exact .inr (.inl (by rw [h]; rfl))
    · exact .inr (.inl (by rw [h]; rfl))
    · exact .inr (.inr (.inl (List.any_eq_true.2 ⟨g, hg, hgs⟩)))
    · exact .inr (.inr (.inr h))

end

section
/-! PROOFS. Bytes assembled into frames, and faulty frames (O44, O45). -/

namespace Sys2Proof.Machine

/-! ### What the newest byte shows (R137 to R140) -/

theorem kindOfCode_isSome {n : Nat} : (kindOfCode n).isSome = true ↔ 1 ≤ n ∧ n ≤ 10 := by
  by_cases h : 1 ≤ n ∧ n ≤ 10
  · obtain ⟨h1, h10⟩ := h
    interval_cases n <;> decide
  · have hnone : kindOfCode n = none := by
      unfold kindOfCode
      split
      case h_11 => rfl
      all_goals exact absurd (by decide) h
    rw [hnone]
    exact iff_of_false Bool.false_ne_true h

theorem goodByte0_iff {b : Byte} :
    goodByte0 b = true ↔ (1 ≤ b.toNat / 16 ∧ b.toNat / 16 ≤ 10) ∧ b.toNat % 16 ≤ 3 := by
  rw [goodByte0, Bool.and_eq_true, kindOfCode_isSome, decide_eq_true_iff]

theorem kindOfCode_kindCode (k : FrameKind) : kindOfCode (kindCode k) = some k := by cases k <;> rfl

theorem kindCode_range (k : FrameKind) : 1 ≤ kindCode k ∧ kindCode k ≤ 10 := by cases k <;> decide

theorem getD_snoc {α : Type} {bs : List α} {b d : α} {i : Nat} (h : i < bs.length) :
    (bs ++ [b]).getD i d = bs.getD i d := by
  rw [List.getD_eq_getElem?_getD, List.getD_eq_getElem?_getD, List.getElem?_append_left h]

theorem getD_snoc_last {α : Type} {bs : List α} {b d : α} : (bs ++ [b]).getD bs.length d = b := by
  rw [List.getD_eq_getElem?_getD, List.getElem?_concat_length]
  rfl

/-- The judgement of the newest byte by its place in the frame. -/
theorem judgeBytes_snoc (bs : List Byte) (b : Byte) : judgeBytes (bs ++ [b]) =
    if bs.length = 0 then if goodByte0 b then .more else .early .rxLength
    else if bs.length = 1 then if goodSource b then .more else .early .rxLength
    else if bs.length ≤ 3 then .more
    else if bs.length = 4 then if b.toNat ≤ 24 then .more else .early .rxLength
    else if bs.length < 5 + (bs.getD 4 0).toNat then .more
    else if b = checkByte bs then
      (kindOfCode ((bs.getD 0 0).toNat / 16)).elim (.early .rxLength) fun k => .whole (parseFrame k (bs ++ [b]))
    else .badCheck := by
  have hlen : (bs ++ [b]).length = bs.length + 1 := List.length_append
  have hlast : (bs ++ [b]).getD (bs.length + 1 - 1) 0 = b := getD_snoc_last
  have htake : (bs ++ [b]).take (bs.length + 1 - 1) = bs := List.take_left
  unfold judgeBytes
  dsimp only
  rw [hlen, hlast, htake]
  by_cases h0 : bs.length = 0
  · rw [if_pos (by omega), if_pos h0]
  rw [if_neg (by omega), if_neg h0]
  by_cases h1 : bs.length = 1
  · rw [if_pos (by omega), if_pos h1]
  rw [if_neg (by omega), if_neg h1]
  by_cases h3 : bs.length ≤ 3
  · rw [if_pos (by omega), if_pos h3]
  rw [if_neg (by omega), if_neg h3]
  by_cases h4 : bs.length = 4
  · rw [if_pos (by omega), if_pos h4]
  rw [if_neg (by omega), if_neg h4, getD_snoc (by omega : 4 < bs.length), getD_snoc (by omega : 0 < bs.length)]
  by_cases h5 : bs.length < 5 + (bs.getD 4 0).toNat
  · rw [if_pos (by omega), if_pos h5]
  rw [if_neg (by omega), if_neg h5]
  cases kindOfCode ((bs.getD 0 0).toNat / 16) <;> rfl

/-- The bytes go on where the newest is one that a frame may hold in its place. -/
theorem judgeBytes_more {bs : List Byte} {b : Byte}
    (h : bs = [] ∧ 1 ≤ b.toNat / 16 ∧ b.toNat / 16 ≤ 10 ∧ b.toNat % 16 ≤ 3 ∨ bs.length = 1 ∧ 1 ≤ b.toNat ∧ b.toNat ≤ 63
      ∨ bs.length = 2 ∨ bs.length = 3 ∨ bs.length = 4 ∧ b.toNat ≤ 24
      ∨ 5 ≤ bs.length ∧ bs.length < 5 + (bs.getD 4 0).toNat) : judgeBytes (bs ++ [b]) = .more := by
  rw [judgeBytes_snoc]
  rcases h with ⟨rfl, h1, h2, h3⟩ | ⟨hl, h⟩ | hl | hl | ⟨hl, h⟩ | ⟨hl, h⟩
  · rw [if_pos List.length_nil, if_pos (goodByte0_iff.2 ⟨⟨h1, h2⟩, h3⟩)]
  · rw [if_neg (by omega), if_pos hl, if_pos (goodSource_iff.2 h)]
  · rw [if_neg (by omega), if_neg (by omega), if_pos (by omega)]
  · rw [if_neg (by omega), if_neg (by omega), if_pos (by omega)]
  · rw [if_neg (by omega), if_neg (by omega), if_neg (by omega), if_pos hl, if_pos h]
  · rw [if_neg (by omega), if_neg (by omega), if_neg (by omega), if_neg (by omega), if_pos h]

theorem judgeBytes_early {bs : List Byte} {b : Byte}
    (h : bs = [] ∧ (b.toNat / 16 = 0 ∨ 11 ≤ b.toNat / 16 ∨ 4 ≤ b.toNat % 16)
      ∨ bs.length = 1 ∧ (b.toNat = 0 ∨ 64 ≤ b.toNat) ∨ bs.length = 4 ∧ 25 ≤ b.toNat) :
    judgeBytes (bs ++ [b]) = .early .rxLength := by
  rw [judgeBytes_snoc]
  rcases h with ⟨rfl, h⟩ | ⟨hl, h⟩ | ⟨hl, h⟩
  · rw [if_pos List.length_nil, if_neg (by rw [goodByte0_iff]; omega)]
  · rw [if_neg (by omega), if_pos hl, if_neg (by rw [goodSource_iff]; omega)]
  · rw [if_neg (by omega), if_neg (by omega), if_neg (by omega), if_pos hl, if_neg (by omega)]

theorem judgeBytes_end {bs : List Byte} {b : Byte} (h5 : 5 ≤ bs.length)
    (hl : bs.length = 5 + (bs.getD 4 0).toNat) : judgeBytes (bs ++ [b]) =
      if b = checkByte bs then
        (kindOfCode ((bs.getD 0 0).toNat / 16)).elim (.early .rxLength) fun k => .whole (parseFrame k (bs ++ [b]))
      else .badCheck := by
  rw [judgeBytes_snoc, if_neg (by omega), if_neg (by omega), if_neg (by omega), if_neg (by omega), if_neg (by omega)]

theorem rxSource_eq (bs : List Byte) : rxSource bs =
    if 1 ≤ (bs.getD 1 0).toNat ∧ (bs.getD 1 0).toNat ≤ 63 then (bs.getD 1 0).toNat else 0 := by
  unfold rxSource
  rw [List.getD_eq_getElem?_getD]
  split
  · next b h =>
    rw [h, Option.getD_some]
    by_cases hg : goodSource b = true
    · rw [if_pos hg, if_pos (goodSource_iff.1 hg)]
    · rw [if_neg hg, if_neg (goodSource_iff.not.1 hg)]
  · next h =>
    rw [h, Option.getD_none]
    rfl

/-! ### A frame by its bytes (R137, R138) -/

theorem first_toNat {f : Frame} (hp : f.prio ≤ 3) :
    (toByte (kindCode f.kind * 16 + f.prio)).toNat = kindCode f.kind * 16 + f.prio := by
  have := kindCode_range f.kind
  rw [toByte, BitVec.toNat_ofNat, Nat.mod_eq_of_lt (by omega)]

theorem length_toNat {n : Nat} (h : n ≤ 24) : (toByte n).toNat = n := by
  rw [toByte, BitVec.toNat_ofNat, Nat.mod_eq_of_lt (by omega)]

theorem frameBody_length (f : Frame) : (frameBody f).length = 5 + f.payload.length := by
  rw [frameBody, List.length_append, List.length_cons, List.length_cons, List.length_cons, List.length_cons,
    List.length_cons, List.length_nil]

theorem parseFrame_frameBody {f : Frame} (hp : f.prio ≤ 3) (b : Byte) :
    parseFrame f.kind (frameBody f ++ [b]) = f := by
  have hlen : (frameBody f ++ [b]).length - 6 = f.payload.length := by
    rw [List.length_append, frameBody_length]
    show 5 + f.payload.length + 1 - 6 = _
    omega
  have hprio : (toByte (kindCode f.kind * 16 + f.prio)).toNat % 16 = f.prio := by
    rw [first_toNat hp]
    omega
  have hpay : ((frameBody f ++ [b]).drop 5).take f.payload.length = f.payload := List.take_left
  unfold parseFrame
  rw [hlen, hpay]
  show { kind := f.kind, prio := (toByte (kindCode f.kind * 16 + f.prio)).toNat % 16, source := f.source,
         target := f.target, groups := f.groups, payload := f.payload : Frame } = f
  rw [hprio]

/-- The check byte of a whole frame shows that frame. -/
theorem judgeBytes_frame {f : Frame} (hp : f.prio ≤ 3) (hl : f.payload.length ≤ 24) :
    judgeBytes (frameBody f ++ [checkByte (frameBody f)]) = .whole f := by
  have h4 : ((frameBody f).getD 4 0).toNat = f.payload.length := length_toNat hl
  have h0 : ((frameBody f).getD 0 0).toNat / 16 = kindCode f.kind := by
    rw [show (frameBody f).getD 0 0 = toByte (kindCode f.kind * 16 + f.prio) from rfl, first_toNat hp]
    omega
  rw [judgeBytes_end (by rw [frameBody_length]; omega) (by rw [frameBody_length, h4]), if_pos rfl, h0,
    kindOfCode_kindCode, Option.elim_some, parseFrame_frameBody hp]

/-- The priority of a valid frame is not looked at. -/
theorem validFrame_heard (f : Frame) (s : State) :
    validFrame f s =
      validFrame (heard f.kind { source := f.source, target := f.target, groups := f.groups } f.payload) s := by
  have hd : ∀ t, dispatch f t =
      dispatch (heard f.kind { source := f.source, target := f.target, groups := f.groups } f.payload) t := by
    intro t
    obtain ⟨kind, prio, source, target, groups, payload⟩ := f
    cases kind <;> rfl
  unfold validFrame
  dsimp only
  rw [hd]
  rfl

theorem frameHeard_valid {f : Frame} {s : State} (hoff : s.link.state ≠ .offline) (hs : goodSource f.source = true)
    (hl : f.payload.length ≤ 24) : frameHeard f s = validFrame f (setRx .idle s) := by
  unfold frameHeard
  rw [if_neg hoff, if_neg (by rw [hs]; exact Bool.false_ne_true), if_neg (Nat.not_lt.2 hl)]

/-! ### A byte on the line (R139) -/

theorem byteHeard_ignored {b : Byte} {s : State}
    (h : s.link.state = .offline ∨ s.line.rx = .passingOver ∨ ∃ f ∈ s.line.queue, f.sending = true) :
    byteHeard b s = s := by
  refine if_pos ?_
  rcases h with h | h | ⟨f, hf, hs⟩
  · exact .inl h
  · exact .inr (.inr h)
  · exact .inr (.inl (List.any_eq_true.2 ⟨f, hf, hs⟩))

theorem byteHeard_judged {b : Byte} {bs : List Byte} {s : State} (hoff : s.link.state ≠ .offline)
    (hq : ∀ f ∈ s.line.queue, f.sending = false) (hrx : bs = [] ∧ s.line.rx = .idle ∨ s.line.rx = .assembling bs) :
    byteHeard b s = byteJudged (bs ++ [b]) s := by
  have hrx' : s.line.rx ≠ .passingOver ∧ assembled s.line.rx = bs := by
    rcases hrx with ⟨rfl, h⟩ | h <;> rw [h] <;> exact ⟨nofun, rfl⟩
  unfold byteHeard
  rw [if_neg (by rw [transmitting_eq_false.2 hq]; rintro (h | h | h); exacts [hoff h, Bool.false_ne_true h, hrx'.1 h]),
    hrx'.2]

theorem byteJudged_more {bytes : List Byte} (h : judgeBytes bytes = .more) (s : State) :
    byteJudged bytes s = setRx (.assembling bytes) s := by
  rw [byteJudged, h]

theorem byteJudged_early {bytes : List Byte} {code : ErrorCode} (h : judgeBytes bytes = .early code) (s : State) :
    byteJudged bytes s = setRx .passingOver (rejectFrame code (rxSource bytes) s) := by
  rw [byteJudged, h]

theorem byteJudged_badCheck {bytes : List Byte} (h : judgeBytes bytes = .badCheck) (s : State) :
    byteJudged bytes s = setRx .idle (rejectFrame .rxCheck (rxSource bytes) s) := by
  rw [byteJudged, h]

theorem byteJudged_whole {bytes : List Byte} {f : Frame} (h : judgeBytes bytes = .whole f) (s : State) :
    byteJudged bytes s = validFrame f (setRx .idle s) := by
  rw [byteJudged, h]

theorem discarded_eq (rx : Receiver) (code : ErrorCode) (n : Nat) (s : State) :
    setRx rx (rejectFrame code n s) =
      { s with
        line := { s.line with rx := rx }
        status := withError .rxError code n
          { s.status with
            rejected := if s.status.rejected < 65535 then s.status.rejected + 1 else s.status.rejected } } := rfl

/-- A byte that a frame being assembled, or one that begins, goes on with. -/
theorem exec_byte_more {b : Byte} {bs : List Byte} {s : State} (hs : Settled s) (hoff : s.link.state ≠ .offline)
    (hq : ∀ f ∈ s.line.queue, f.sending = false) (hrx : bs = [] ∧ s.line.rx = .idle ∨ s.line.rx = .assembling bs)
    (hm : judgeBytes (bs ++ [b]) = .more) :
    exec (.lineByteArrival b) s = .next { s with line := { s.line with rx := .assembling (bs ++ [b]) } } := by
  have he : byteHeard b s = setRx (.assembling (bs ++ [b])) s := by
    rw [byteHeard_judged hoff hq hrx, byteJudged_more hm]
  rw [exec_plain (f := byteHeard b) rfl hs (by rw [he]; rfl), he]
  rfl

/-- The byte that shows a fault before the frame's end. -/
theorem exec_fault_early {b : Byte} {bs : List Byte} {n : Nat} {s : State} (hs : Settled s)
    (hoff : s.link.state ≠ .offline) (hq : ∀ f ∈ s.line.queue, f.sending = false)
    (hrx : bs = [] ∧ s.line.rx = .idle ∨ s.line.rx = .assembling bs)
    (hm : judgeBytes (bs ++ [b]) = .early .rxLength) (hn : rxSource (bs ++ [b]) = n) :
    exec (.rxFrameFault b) s = .next
      { s with
        line := { s.line with rx := .passingOver }
        status := withError .rxError .rxLength n
          { s.status with
            rejected := if s.status.rejected < 65535 then s.status.rejected + 1 else s.status.rejected } } := by
  have he : byteHeard b s = setRx .passingOver (rejectFrame .rxLength n s) := by
    rw [byteHeard_judged hoff hq hrx, byteJudged_early hm, hn]
  rw [exec_plain (f := byteHeard b) rfl hs (by rw [he]; rfl), he, discarded_eq]

end Sys2Proof.Machine

open Sys2Proof Sys2Proof.Machine

/-- Settles O44: each byte by its place, and the check byte as the receipt of the frame. -/
theorem bytesAssembleIntoFrames : Obligations.BytesAssembleIntoFrames := by
  refine ⟨fun s b hs => ⟨fun h => exec_nothing (f := byteHeard b) rfl hs (byteHeard_ignored h),
      fun hoff hq => ⟨fun hrx h1 h2 h3 => ?_, fun bs hrx h => ?_⟩⟩,
    fun f s h hs hoff hq hp h1 h63 hl hh hrx i hi => ?_, fun f => rfl, fun bs b => ⟨rfl, List.foldl_append⟩⟩
  · exact exec_byte_more hs hoff hq (.inl ⟨rfl, hrx⟩) (judgeBytes_more (.inl ⟨rfl, h1, h2, h3⟩))
  · exact exec_byte_more hs hoff hq (.inr hrx) (judgeBytes_more (.inr h))
  · have hexec : exec i s = .next (whileRunning (frameHeard (heard f.kind h f.payload)) s) := by
      rcases hi with ⟨hk, rfl⟩ | ⟨hk, rfl⟩ | ⟨hk, rfl⟩ | ⟨hk, rfl⟩ | ⟨hk, rfl | rfl | rfl | rfl | rfl | rfl⟩
        | ⟨hk, rfl⟩ | ⟨hk, rfl⟩ | ⟨hk, rfl⟩ | ⟨hk, rfl⟩ | ⟨hk, rfl⟩ <;> rw [hk] <;> rfl
    rw [exec_settled hexec hs, exec_settled (f := byteHeard (checkByte (frameBody f))) rfl hs,
      byteHeard_judged hoff hq (.inr hrx), byteJudged_whole (judgeBytes_frame hp hl), validFrame_heard, hh,
      frameHeard_valid
        (f := heard f.kind { source := f.source, target := f.target, groups := f.groups } f.payload) hoff
        (goodSource_iff.2 (And.intro h1 h63 : 1 ≤ f.source.toNat ∧ f.source.toNat ≤ 63)) hl]

/-- Settles O45: the fault each byte or gap shows, and the quiet line. -/
theorem faultyFrameDiscarded : Obligations.FaultyFrameDiscarded := by
  refine ⟨fun s b hs hoff hq bs rx code source h => ?_, fun s hs => ⟨fun bs hrx => ?_, fun h => ?_, ?_⟩⟩
  · rcases h with ⟨rfl, hrx, hb, rfl, rfl, rfl⟩ | ⟨hrx, hl, hb, rfl, rfl, rfl⟩ | ⟨hrx, hl, hb, rfl, rfl, hn⟩
      | ⟨hrx, h5, hl, hb, rfl, rfl, hn⟩
    · exact exec_fault_early hs hoff hq (.inl ⟨rfl, hrx⟩) (judgeBytes_early (.inl ⟨rfl, hb⟩)) rfl
    · refine exec_fault_early hs hoff hq (.inr hrx) (judgeBytes_early (.inr (.inl ⟨hl, hb⟩))) ?_
      rw [rxSource_eq, show (bs ++ [b]).getD 1 0 = b from hl ▸ getD_snoc_last]
      exact if_neg (by omega)
    · refine exec_fault_early hs hoff hq (.inr hrx) (judgeBytes_early (.inr (.inr ⟨hl, hb⟩))) ?_
      rw [rxSource_eq, getD_snoc (by omega), hn]
    · have he : byteHeard b s = setRx .idle (rejectFrame .rxCheck source s) := by
        rw [byteHeard_judged hoff hq (.inr hrx), byteJudged_badCheck ((judgeBytes_end h5 hl).trans (if_neg hb)),
          rxSource_eq, getD_snoc (by omega), hn]
      rw [exec_plain (f := byteHeard b) rfl hs (by rw [he]; rfl), he, discarded_eq]
  · have he : gapExpired s = setRx .idle (rejectFrame .rxGap (rxSource bs) s) := by rw [gapExpired, hrx]
    rw [exec_plain (f := gapExpired) rfl hs (by rw [he]; rfl), he, rxSource_eq, discarded_eq]
  · refine exec_nothing (f := gapExpired) rfl hs ?_
    unfold gapExpired
    split
    · next hrx => exact absurd hrx (h _)
    all_goals rfl
  · have he : quietResync s =
        { s with line := { s.line with rx := if s.line.rx = .passingOver then .idle else s.line.rx } } := by
      unfold quietResync
      split
      · next hrx => rw [if_pos hrx]; rfl
      · next hrx => rw [if_neg (by rw [hrx]; nofun)]
      · next hrx => rw [if_neg (by rw [hrx]; nofun)]
    rw [exec_plain (f := quietResync) rfl hs (by rw [he]), he]

end

section
/-! PROOFS. The claim table through the operations on claims, frames and motions: none of them adds an entry or changes
what an entry is and counts for. Link timers and entries into the link states (O48). -/

namespace Sys2Proof.Machine

/-! ### What an entry is and counts for -/

/-- What an entry is and counts for: its key, owner, channel, draw and state. -/
def entryCore (e : Entry) : Entry :=
  { e with cls := 0, lifetimeS := 0, ageMs := 0, reasserted := false, refreshBarred := false }

/-- A claim table that has lost entries at the most. -/
def Shrinks (s t : State) : Prop := (t.supply.entries.map entryCore).Sublist (s.supply.entries.map entryCore)

theorem Shrinks.of_entries {s t : State} (h : t.supply.entries = s.supply.entries) : Shrinks s t := by
  unfold Shrinks
  rw [h]

theorem Shrinks.refl (s : State) : Shrinks s s := .of_entries rfl

theorem Shrinks.trans {a b c : State} (h : Shrinks a b) (k : Shrinks b c) : Shrinks a c := List.Sublist.trans k h

theorem Shrinks.mem {s t : State} (h : Shrinks s t) {x : Entry} (hx : x ∈ t.supply.entries) :
    ∃ y ∈ s.supply.entries, entryCore y = entryCore x :=
  List.mem_map.1 (h.subset (List.mem_map_of_mem hx))

theorem entryCore_eq {x y : Entry} (h : entryCore y = entryCore x) :
    y.own = x.own ∧ y.chan = x.chan ∧ y.state = x.state ∧ y.station = x.station ∧ y.tag = x.tag :=
  ⟨(congrArg Entry.own h : (entryCore y).own = (entryCore x).own),
    (congrArg Entry.chan h : (entryCore y).chan = (entryCore x).chan),
    (congrArg Entry.state h : (entryCore y).state = (entryCore x).state),
    (congrArg Entry.station h : (entryCore y).station = (entryCore x).station),
    (congrArg Entry.tag h : (entryCore y).tag = (entryCore x).tag)⟩

theorem Shrinks.removeEntries (p : Entry → Bool) (s : State) : Shrinks s (removeEntries p s) :=
  List.filter_sublist.map _

theorem Shrinks.changeEntries (p : Entry → Bool) {f : Entry → Entry} (hf : ∀ e, entryCore (f e) = entryCore e)
    (s : State) : Shrinks s (changeEntries p f s) := by
  have h : (Machine.changeEntries p f s).supply.entries.map entryCore = s.supply.entries.map entryCore := by
    rw [changeEntries_entries, List.map_map]
    refine List.map_congr_left fun e _ => ?_
    show entryCore (if p e then f e else e) = _
    split
    · exact hf e
    · rfl
  unfold Shrinks
  rw [h]

theorem Shrinks.drawSum {s t : State} (h : Shrinks s t) {p : Entry → Bool} (hp : ∀ e, p (entryCore e) = p e) :
    drawSum p t.supply.entries ≤ drawSum p s.supply.entries := by
  have hcore : ∀ es : List Entry, Machine.drawSum p (es.map entryCore) = Machine.drawSum p es := fun es =>
    drawSum_map es fun e _ => ⟨hp e, fun _ => rfl⟩
  rw [← hcore, ← hcore s.supply.entries]
  exact drawSum_sublist h

theorem Shrinks.totalT {s t : State} (h : Shrinks s t) : totalT t ≤ totalT s := h.drawSum fun _ => rfl

theorem Shrinks.ownEntry_none {s t : State} (h : Shrinks s t) {c : Channel} (hs : ownEntry c s = none) :
    ownEntry c t = none := by
  rw [ownEntry_eq_none_iff] at *
  intro x hx ho hc
  obtain ⟨y, hy, hcore⟩ := h.mem hx
  obtain ⟨h1, h2, -⟩ := entryCore_eq hcore
  exact hs y hy (h1.trans ho) (h2.trans hc)

/-! ### Frames and claims -/

theorem frameLeft_shrinks (s : State) : Shrinks s (frameLeft s) := by
  unfold frameLeft
  dsimp only
  have h : Shrinks s (changeEntries Entry.refreshBarred (fun e => { e with refreshBarred := false }) s) :=
    .changeEntries _ (fun _ => by rfl) s
  split <;> exact h

theorem cancelClaim_shrinks (tag : Nat) (s : State) : Shrinks s (cancelClaim tag s) := by
  unfold cancelClaim
  split
  · exact frameLeft_shrinks _
  · exact .refl s

theorem withdrawOwn_shrinks (e : Entry) (b : Bool) (s : State) : Shrinks s (withdrawOwn e b s) :=
  (Shrinks.removeEntries _ s).trans (cancelClaim_shrinks ..)

theorem claimDropped_shrinks (tag : Nat) (b : Bool) (s : State) : Shrinks s (claimDropped tag b s) := by
  unfold claimDropped
  split
  · exact .refl s
  · split
    · exact withdrawOwn_shrinks ..
    · split
      · exact .changeEntries _ (fun _ => by rfl) s
      · exact .refl s
    · split
      · exact .changeEntries _ (fun _ => by rfl) s
      · exact .refl s
    · exact .refl s

theorem tellDropped_shrinks (o : FrameOwner) (b : Bool) (s : State) : Shrinks s (tellDropped o b s) := by
  unfold tellDropped
  split
  · exact claimDropped_shrinks ..
  · rw [wantRestart_eq]
    exact .refl s
  all_goals exact .refl s

theorem enqueue_shrinks (f : TxFrame) (s : State) : Shrinks s (enqueue f s) := by
  unfold enqueue
  dsimp only
  split
  · exact frameLeft_shrinks (setQueue _ s)
  · split
    · exact .refl s
    · split
      · next v _ =>
        have hleft : Shrinks s (raiseError .txOverflow .txOverflow 0
            (frameLeft (setQueue (placeFrame f (withoutVictim s.line.queue)) s))) := frameLeft_shrinks (setQueue _ s)
        exact hleft.trans (tellDropped_shrinks ..)
      · exact tellDropped_shrinks f.owner true (raiseError .txOverflow .txOverflow 0 s)

theorem queueClaim_shrinks (e : Entry) (n : Bool) (s : State) : Shrinks s (queueClaim e n s) :=
  (cancelClaim_shrinks e.tag s).trans (enqueue_shrinks ..)

theorem queueRelease_shrinks (tag : Nat) (s : State) : Shrinks s (queueRelease tag s) := by
  unfold queueRelease
  split
  · exact .refl s
  · exact enqueue_shrinks ..

/-- An own entry given up: the table without the own entries of the channel. -/
theorem removeOwn_removes (c : Channel) (r : Bool) (s : State) :
    Shrinks (removeEntries (isOwnOf c) s) (removeOwn c r s) := by
  cases h : ownEntry c s with
  | none =>
    rw [removeOwn_none h]
    refine .of_entries ?_
    rw [removeEntries_entries]
    refine (List.filter_eq_self.2 fun e he => ?_).symm
    rw [Bool.not_eq_true', isOwnOf, Bool.and_eq_false_iff, decide_eq_false_iff_not]
    exact (Bool.eq_false_or_eq_true e.own).symm.imp id (ownEntry_eq_none_iff.1 h e he)
  | some e =>
    rw [removeOwn, h]
    dsimp only
    have hc : Shrinks (removeEntries (isOwnOf c) s) (wantScan (cancelClaim e.tag (removeEntries (isOwnOf c) s))) :=
      cancelClaim_shrinks ..
    split
    · exact hc.trans (queueRelease_shrinks ..)
    · exact hc

theorem removeOwn_shrinks (c : Channel) (r : Bool) (s : State) : Shrinks s (removeOwn c r s) :=
  (Shrinks.removeEntries _ s).trans (removeOwn_removes c r s)

theorem ownEntry_removeOwn (c : Channel) (r : Bool) (s : State) : ownEntry c (removeOwn c r s) = none := by
  refine (removeOwn_removes c r s).ownEntry_none (ownEntry_eq_none_iff.2 fun e he ho hc => ?_)
  rw [removeEntries_entries, List.mem_filter] at he
  simp [isOwnOf, ho, hc] at he

theorem giveUpClaim_shrinks (j : Job) (s : State) : Shrinks s (giveUpClaim j s) := by
  unfold giveUpClaim
  split
  · exact .refl s
  all_goals exact removeOwn_shrinks ..

theorem raiseEntry_shrinks (c : Channel) (n : Nat) (b : Bool) (s : State) : Shrinks s (raiseEntry c n b s) := by
  unfold raiseEntry
  split
  · exact .refl s
  · split
    · exact .refl s
    · have hc : Shrinks s (changeEntries (isOwnOf c) (fun x => { x with cls := n }) s) :=
        .changeEntries _ (fun _ => by rfl) s
      dsimp only
      split
      · exact hc
      · exact hc.trans (queueClaim_shrinks ..)

theorem withdrawClaim_shrinks (c : Channel) (r : Bool) (s : State) : Shrinks s (withdrawClaim c r s) :=
  removeOwn_shrinks c r s

/-! ### Motions and requests -/

theorem halt_shrinks (c : Channel) (s : State) : Shrinks s (halt c s) := by
  unfold halt
  split
  · exact removeOwn_shrinks c true (setDriver c _ s)
  · exact .refl s

theorem reverse_shrinks (c : Channel) (n : Nat) (k : Cause) (w : Requester) (s : State) :
    Shrinks s (reverse c n k w s) := by
  unfold reverse
  split
  · exact raiseEntry_shrinks c n true (setDriver c _ s)
  all_goals exact .refl s

theorem removeOpenJob_shrinks (c : Channel) (s : State) : Shrinks s (removeOpenJob c s) := by
  unfold removeOpenJob
  split
  · exact .refl s
  · split
    · exact giveUpClaim_shrinks ..
    · exact .refl s

theorem rejudge_shrinks (c : Channel) (s : State) : Shrinks s (rejudge c s) := by
  unfold rejudge
  split
  · exact .refl s
  · dsimp only
    split
    · exact (removeOpenJob_shrinks c s).trans (reverse_shrinks ..)
    · exact (removeOpenJob_shrinks c s).trans (halt_shrinks ..)

theorem queueClose_shrinks (c : Channel) (r : CloseReq) (s : State) : Shrinks s (queueClose c r s) := by
  unfold queueClose
  split
  · exact .refl s
  · next j _ =>
    split
    · exact giveUpClaim_shrinks j s
    · dsimp only
      split
      · exact raiseEntry_shrinks c _ true (changeJob c _ s)
      · exact .refl s

theorem openRequest_shrinks (c : Channel) (k : Cause) (w : Requester) (n : Nat) (s : State) :
    Shrinks s (openRequest c k w n s) := by
  unfold openRequest
  split <;> exact .refl s

/-! ### ANNOUNCING jobs withdrawn (R73) -/

theorem withdrawAnnouncing_none {s : State} {c : Channel} (h : ∀ j, jobOf c s = some j → j.state ≠ .announcing) :
    withdrawAnnouncing s c = s := by
  unfold withdrawAnnouncing
  split
  · rfl
  · next j hj => exact if_neg (h j hj)

theorem withdrawAnnouncing_some {s : State} {c : Channel} {j : Job} (hj : jobOf c s = some j)
    (h : j.state = .announcing) : withdrawAnnouncing s c = withdrawClaim c false s := by
  rw [withdrawAnnouncing, hj]
  exact if_pos h

theorem withdrawAnnouncing_shrinks (s : State) (c : Channel) : Shrinks s (withdrawAnnouncing s c) := by
  unfold withdrawAnnouncing
  split
  · exact .refl s
  · split
    · exact withdrawClaim_shrinks ..
    · exact .refl s

theorem removeOwn_silent_jobs (c : Channel) (s : State) : (removeOwn c false s).jobs = s.jobs := by
  unfold removeOwn
  split
  · rfl
  · exact cancelClaim_jobs ..

/-- A map that keeps the channels is found through. -/
theorem find_chan_map {f : Job → Job} (hf : ∀ j, (f j).chan = j.chan) (c : Channel) (js : List Job) :
    (js.map f).find? (fun j => decide (j.chan = c)) = (js.find? (fun j => decide (j.chan = c))).map f := by
  rw [List.find?_map]
  congr 2
  funext j
  show decide ((f j).chan = c) = _
  rw [hf]

theorem withdrawClaim_jobOf (c x : Channel) (s : State) : jobOf c (withdrawClaim x false s) =
    (jobOf c s).map (fun j => if j.chan = x then { j with state := .waiting, heldBack := false } else j) := by
  unfold jobOf
  rw [← find_chan_map (fun j => by split <;> rfl)]
  show ((removeOwn x false s).jobs.map _).find? _ = _
  rw [removeOwn_silent_jobs]

theorem withdrawAnnouncing_jobOf_ne {c x : Channel} (h : x ≠ c) (s : State) :
    jobOf c (withdrawAnnouncing s x) = jobOf c s := by
  unfold withdrawAnnouncing
  split
  · rfl
  · split
    · rw [withdrawClaim_jobOf]
      cases hj : jobOf c s with
      | none => rfl
      | some j =>
        refine congrArg some (if_neg ?_)
        rw [(jobOf_some hj).2]
        exact fun hc => h hc.symm
    · rfl

theorem withdrawAnnouncing_jobOf (c : Channel) (s : State) :
    ∀ j, jobOf c (withdrawAnnouncing s c) = some j → j.state ≠ .announcing := by
  intro j hj ha
  by_cases h : ∀ k, jobOf c s = some k → k.state ≠ .announcing
  · rw [withdrawAnnouncing_none h] at hj
    exact h j hj ha
  · push Not at h
    obtain ⟨k, hk, hka⟩ := h
    rw [withdrawAnnouncing_some hk hka, withdrawClaim_jobOf, hk, Option.map_some, if_pos (jobOf_some hk).2] at hj
    rw [← Option.some.inj hj] at ha
    cases ha

theorem foldl_withdraw_jobOf {c : Channel} : ∀ (l : List Channel) (s : State), c ∉ l →
    jobOf c (l.foldl withdrawAnnouncing s) = jobOf c s
  | [], _, _ => rfl
  | x :: l, s, h => by
    rw [List.mem_cons, not_or] at h
    obtain ⟨hx, hl⟩ := h
    rw [List.foldl_cons, foldl_withdraw_jobOf l _ hl, withdrawAnnouncing_jobOf_ne (Ne.symm hx)]

theorem foldl_withdraw_shrinks : ∀ (l : List Channel) (s : State), Shrinks s (l.foldl withdrawAnnouncing s)
  | [], s => .refl s
  | x :: l, s => (withdrawAnnouncing_shrinks s x).trans (foldl_withdraw_shrinks l _)

/-- The withdrawal of every channel, seen from one: the channels before it, its own, and those after it. -/
theorem withdrawAll_split (c : Channel) (s : State) : ∃ before after : List Channel, c ∉ before ∧ c ∉ after
    ∧ withdrawAll s = after.foldl withdrawAnnouncing (withdrawAnnouncing (before.foldl withdrawAnnouncing s) c) := by
  refine ⟨allChannels.filter (fun x => decide (x < c)), allChannels.filter (fun x => decide (c < x)), by simp, by simp, ?_⟩
  unfold withdrawAll
  conv_lhs => rw [allChannels_split c]
  rw [List.foldl_append, List.foldl_cons]

theorem withdrawAll_jobOf (c : Channel) (s : State) :
    ∀ j, jobOf c (withdrawAll s) = some j → j.state ≠ .announcing := by
  obtain ⟨before, after, -, ha, h⟩ := withdrawAll_split c s
  rw [h, foldl_withdraw_jobOf _ _ ha]
  exact withdrawAnnouncing_jobOf c _

theorem withdrawAll_ownEntry {c : Channel} {s : State} {j : Job} (hj : jobOf c s = some j) (hs : j.state = .announcing) :
    ownEntry c (withdrawAll s) = none := by
  obtain ⟨before, after, hb, -, h⟩ := withdrawAll_split c s
  rw [h]
  refine (foldl_withdraw_shrinks after _).ownEntry_none ?_
  rw [withdrawAnnouncing_some ((foldl_withdraw_jobOf before s hb).trans hj) hs]
  exact ownEntry_removeOwn c false _

/-! ### Masks and the PRES payload (R137, R157) -/

theorem mask_sum (p : Channel → Bool) :
    (allChannels.map (fun c => if p c then 2 ^ c.val else 0)).sum = Nat.ofBits p := by
  have hbit : ∀ c : Channel, (if p c then 2 ^ c.val else 0) = (p c).toNat * 2 ^ c.val := fun c => by
    cases p c <;> simp
  simp only [hbit]
  simp [allChannels, Nat.ofBits, Fin.foldr_succ]
  omega

theorem inMask_maskOf (p : Channel → Bool) (c : Channel) : inMask (maskOf p) c = p c := by
  have h8 : c.val < 8 := c.isLt
  rw [inMask, maskOf, mask_sum, toByte, BitVec.getLsbD_ofNat, Nat.testBit_ofBits_lt p c.val h8, decide_eq_true h8,
    Bool.true_and]

/-- The bits of the PRES status byte. -/
theorem presStatus_bits : ∀ (n : Fin 5) (storm hold lamp : Bool),
    (toByte (n.val + storm.toNat * 16 + hold.toNat * 32 + lamp.toNat * 64)).toNat % 8 = n.val
      ∧ (toByte (n.val + storm.toNat * 16 + hold.toNat * 32 + lamp.toNat * 64)).getLsbD 3 = false
      ∧ (toByte (n.val + storm.toNat * 16 + hold.toNat * 32 + lamp.toNat * 64)).getLsbD 4 = storm
      ∧ (toByte (n.val + storm.toNat * 16 + hold.toNat * 32 + lamp.toNat * 64)).getLsbD 5 = hold
      ∧ (toByte (n.val + storm.toNat * 16 + hold.toNat * 32 + lamp.toNat * 64)).getLsbD 6 = lamp
      ∧ (toByte (n.val + storm.toNat * 16 + hold.toNat * 32 + lamp.toNat * 64)).getLsbD 7 = false := by
  intro n storm hold lamp
  cases storm <;> cases hold <;> cases lamp <;> revert n <;> decide

theorem linkCode_lt (l : LinkState) : linkCode l < 5 := by cases l <;> decide

end Sys2Proof.Machine

open Sys2Proof Sys2Proof.Machine

/-- Settles O48: the link's timers, the stages of an entry by link state, and the PRES payload. -/
theorem linkTimersChangeLinkState : Obligations.LinkTimersChangeLinkState := by
  refine ⟨fun s hr => ⟨fun h => ?_, fun h => ?_, fun h => ?_, fun h => ?_, fun h => ?_, fun h => ?_⟩,
    fun s hs => ⟨fun h => ?_, fun h => ?_⟩, fun s u l hl hu => ?_, fun s u l hl hu => ?_, fun s u l hl hu => ?_,
    fun s u l hl hu => ?_, fun s => ⟨rfl, rfl, fun ho => ⟨fun j hj => ?_, fun c j hj hs => withdrawAll_ownEntry hj hs⟩,
      fun c => ⟨withdrawAnnouncing_none, fun j u hj hs hu => ?_⟩⟩, fun s => ?_⟩
  · have he : joined s = enterLink .active s := if_pos (Option.isSome_iff_ne_none.2 h)
    refine ⟨_, exec_settled (f := joined) rfl hr.1, ?_⟩
    rw [he, finish_enterLink_link .active hr.2 hr.1.2.2]
    rfl
  · exact exec_nothing (f := joined) rfl hr.1 (by rw [joined, h]; rfl)
  · have he : isolationExpired s = enterLink .isolated s := if_pos (Option.isSome_iff_ne_none.2 h)
    refine ⟨_, exec_settled (f := isolationExpired) rfl hr.1, ?_⟩
    rw [he, finish_enterLink_link .isolated hr.2 hr.1.2.2]
    rfl
  · exact exec_nothing (f := isolationExpired) rfl hr.1 (by rw [isolationExpired, h]; rfl)
  · have he : presenceExpired s =
        queuePres { s with link := { s.link with presence := some (s.cfg.presenceS * 1000) } } :=
      if_pos (Option.isSome_iff_ne_none.2 h)
    rw [exec_settled (f := presenceExpired) rfl hr.1, he]
    rfl
  · exact exec_nothing (f := presenceExpired) rfl hr.1 (by rw [presenceExpired, h]; rfl)
  · have he : joined s = enterLink .active s := if_pos (Option.isSome_iff_ne_none.2 h)
    rw [exec_settled (f := joined) rfl hs, he]
  · have he : isolationExpired s = enterLink .isolated s := if_pos (Option.isSome_iff_ne_none.2 h)
    rw [exec_settled (f := isolationExpired) rfl hs, he]
  · rw [hu, hl]
    rfl
  · rw [hu, hl]
    rfl
  · rw [hu, hl]
    rfl
  · have h : wantRestart { s with link := linkEntered s.cfg .mute s.link } = u := by
      rw [wantRestart_eq, hu, hl]
      rfl
    unfold enterLink scanOnEntry handOn entryEffect
    dsimp only
    rw [h]
  · exact withdrawAll_jobOf j.chan s j (jobOf_of_mem ((withdrawAll_step s).jobs ho) hj rfl)
  · rw [withdrawAnnouncing_some hj hs, withdrawClaim, hu]
    rfl
  · obtain ⟨h0, h3, h4, h5, h6, h7⟩ :=
      presStatus_bits ⟨linkCode s.link.state, linkCode_lt _⟩ s.eval.storm s.requests.hold.isSome (lampFault s)
    have hrest : ∀ c, inMask (maskOf (fun c => restsClosed (s.drivers.get c))) c
        = decide (s.drivers.get c = .idle .closed) := fun c => by
      rw [inMask_maskOf, Bool.eq_iff_iff, restsClosed_iff, decide_eq_true_iff]
    exact ⟨presStatus s, maskOf (fun c => demandSet c s), maskOf (fun c => restsClosed (s.drivers.get c)),
      maskOf (fun c => isFaulted (s.drivers.get c)), rfl, h0, h3, h4, h5, h6, h7, rfl,
      fun c => ⟨inMask_maskOf _ c, hrest c, inMask_maskOf _ c⟩⟩

end

section
/-! PROOFS. The end of a transmission (O47): what leaves the queue, who is told, and the count of drops. -/

namespace Sys2Proof.Machine

/-! ### The frame under transmission -/

theorem sendingFrame_eq {s : State} {q1 q2 : List TxFrame} {f : TxFrame} (hq : s.line.queue = q1 ++ f :: q2)
    (hf : f.sending = true) (hn : ∀ g ∈ q1 ++ q2, g.sending = false) : sendingFrame s = some f := by
  have h1 : ∀ g ∈ q1, ¬ g.sending = true := fun g hg => by
    rw [hn g (List.mem_append_left _ hg)]
    exact Bool.false_ne_true
  rw [sendingFrame, hq, List.find?_append, List.find?_eq_none.2 h1, Option.none_or]
  exact List.find?_cons_of_pos hf

theorem filter_sending {q1 q2 : List TxFrame} {f : TxFrame} (hf : f.sending = true)
    (hn : ∀ g ∈ q1 ++ q2, g.sending = false) : (q1 ++ f :: q2).filter (fun g => !g.sending) = q1 ++ q2 := by
  have hkeep : ∀ q : List TxFrame, (∀ g ∈ q, g.sending = false) → q.filter (fun g => !g.sending) = q := fun q h =>
    List.filter_eq_self.2 fun g hg => by rw [h g hg]; rfl
  have hdrop : (f :: q2).filter (fun g => !g.sending) = q2.filter (fun g => !g.sending) :=
    List.filter_cons_of_neg (by rw [hf]; exact Bool.false_ne_true)
  rw [List.filter_append, hdrop, hkeep q1 fun g hg => hn g (List.mem_append_left _ hg),
    hkeep q2 fun g hg => hn g (List.mem_append_right _ hg)]

theorem leaveQueue_eq {s : State} {q1 q2 : List TxFrame} {f : TxFrame} (hs : s.work.scan = false)
    (hq : s.line.queue = q1 ++ f :: q2) (hf : f.sending = true) (hn : ∀ g ∈ q1 ++ q2, g.sending = false) :
    leaveQueue s =
      { s with
        line := { s.line with queue := q1 ++ q2 }
        supply := { s.supply with
          entries := s.supply.entries.map (fun e =>
            if e.refreshBarred then { e with refreshBarred := false } else e) }
        work := { s.work with scan := s.jobs.any Job.heldBack } } := by
  have hmark : (s.work.scan || s.jobs.any Job.heldBack) = s.jobs.any Job.heldBack := by rw [hs, Bool.false_or]
  rw [leaveQueue, frameLeft_eq, hq, filter_sending hf hn, ← hmark]
  rfl

theorem map_backToWaiting {q1 q2 : List TxFrame} {f : TxFrame} (hf : f.sending = true)
    (hn : ∀ g ∈ q1 ++ q2, g.sending = false) :
    (q1 ++ f :: q2).map (fun g => if g.sending then { g with sending := false, attempts := g.attempts + 1 } else g)
      = q1 ++ { f with sending := false, attempts := f.attempts + 1 } :: q2 := by
  have hkeep : ∀ q : List TxFrame, (∀ g ∈ q, g.sending = false) →
      q.map (fun g => if g.sending then { g with sending := false, attempts := g.attempts + 1 } else g) = q := by
    intro q h
    refine (List.map_congr_left fun g hg => ?_).trans (List.map_id' q)
    exact if_neg (by rw [h g hg]; exact Bool.false_ne_true)
  rw [List.map_append, List.map_cons, if_pos hf, hkeep q1 fun g hg => hn g (List.mem_append_left _ hg),
    hkeep q2 fun g hg => hn g (List.mem_append_right _ hg)]

theorem resetDrops_eq (s : State) : resetDrops s =
    { s with link := { s.link with drops := if s.link.drops < 8 then 0 else s.link.drops } } := by
  unfold resetDrops Config.dropLimit
  split
  · rfl
  · rfl

/-! ### A newer frame (R148) -/

theorem replacedBy_iff {o : FrameOwner} {g : TxFrame} : replacedBy o g = true ↔
    (o = .obs ∧ g.owner = .obs ∨ o = .pres ∧ g.owner = .pres) ∧ g.sending = false := by
  rw [replacedBy_eq, Bool.and_eq_true, Bool.or_eq_true, decide_eq_true_iff, decide_eq_true_iff, Bool.not_eq_true']

theorem hasNewer_iff {f : TxFrame} {q : List TxFrame} (hn : ∀ g ∈ q, g.sending = false) : hasNewer f q = true ↔
    (f.owner = .obs ∨ f.owner = .pres) ∧ (∃ g ∈ q, g.owner = f.owner)
      ∨ ∃ tag n, f.owner = .claim tag n ∧ ∃ g ∈ q, ∃ m, g.owner = .claim tag m := by
  cases ho : f.owner with
  | claim tag n =>
    have h : hasNewer f q = q.any (isWaitingClaim tag) := by rw [hasNewer, ho]
    rw [h, List.any_eq_true]
    refine ⟨fun ⟨g, hg, hw⟩ => .inr ⟨tag, n, rfl, g, hg, (isWaitingClaim_iff.1 hw).1⟩, ?_⟩
    rintro (⟨hc | hc, -⟩ | ⟨t, m, hc, g, hg, hw⟩)
    · cases hc
    · cases hc
    · cases hc
      exact ⟨g, hg, isWaitingClaim_iff.2 ⟨hw, hn g hg⟩⟩
  | obs =>
    have h : hasNewer f q = q.any (replacedBy .obs) := by rw [hasNewer, ho]
    rw [h, List.any_eq_true]
    refine ⟨fun ⟨g, hg, hw⟩ => .inl ⟨.inl rfl, g, hg, ?_⟩, ?_⟩
    · obtain ⟨⟨-, hw⟩ | ⟨hc, -⟩, -⟩ := replacedBy_iff.1 hw
      · exact hw
      · cases hc
    · rintro (⟨-, g, hg, hw⟩ | ⟨t, m, hc, -⟩)
      · exact ⟨g, hg, replacedBy_iff.2 ⟨.inl ⟨rfl, hw⟩, hn g hg⟩⟩
      · cases hc
  | pres =>
    have h : hasNewer f q = q.any (replacedBy .pres) := by rw [hasNewer, ho]
    rw [h, List.any_eq_true]
    refine ⟨fun ⟨g, hg, hw⟩ => .inl ⟨.inr rfl, g, hg, ?_⟩, ?_⟩
    · obtain ⟨⟨hc, -⟩ | ⟨-, hw⟩, -⟩ := replacedBy_iff.1 hw
      · cases hc
      · exact hw
    · rintro (⟨-, g, hg, hw⟩ | ⟨t, m, hc, -⟩)
      · exact ⟨g, hg, replacedBy_iff.2 ⟨.inr ⟨rfl, hw⟩, hn g hg⟩⟩
      · cases hc
  | release =>
    have h : hasNewer f q = false := by rw [hasNewer, ho]
    rw [h]
    refine iff_of_false Bool.false_ne_true ?_
    rintro (⟨hc | hc, -⟩ | ⟨t, m, hc, -⟩) <;> cases hc
  | reply r =>
    have h : hasNewer f q = false := by rw [hasNewer, ho]
    rw [h]
    refine iff_of_false Bool.false_ne_true ?_
    rintro (⟨hc | hc, -⟩ | ⟨t, m, hc, -⟩) <;> cases hc

/-- The frame under transmission is no newer frame itself. -/
theorem hasNewer_split {q1 q2 : List TxFrame} {f : TxFrame} (hf : f.sending = true) :
    hasNewer f (q1 ++ f :: q2) = hasNewer f (q1 ++ q2) := by
  have hany : ∀ p : TxFrame → Bool, p f = false → (q1 ++ f :: q2).any p = (q1 ++ q2).any p := fun p hp => by
    rw [List.any_append, List.any_cons, hp, Bool.false_or, List.any_append]
  have hrep : ∀ o, replacedBy o f = false := fun o =>
    Bool.eq_false_iff.2 fun h => by rw [(replacedBy_iff.1 h).2] at hf; cases hf
  have hclaim : ∀ tag, isWaitingClaim tag f = false := fun tag =>
    Bool.eq_false_iff.2 fun h => by rw [(isWaitingClaim_iff.1 h).2] at hf; cases hf
  unfold hasNewer
  split
  · exact hany _ (hclaim _)
  · exact hany _ (hrep _)
  · exact hany _ (hrep _)
  all_goals rfl

/-! ### Who is told (R72, R85, R86, R149) -/

theorem claimSent_none {tag : Nat} {s : State} (h : ownTagged tag s = none) : claimSent tag s = s := by
  rw [claimSent, h]

theorem claimSent_announcing {tag : Nat} {s : State} {e : Entry} (h : ownTagged tag s = some e)
    (he : e.state = .announcing) : claimSent tag s =
      setJobs (s.jobs.map (fun j => if j.chan = e.chan then { j with state := .settling } else j))
        (changeEntries (isOwnOf e.chan) (fun x => { x with state := .settling s.cfg.settleMs, ageMs := 0 }) s) := by
  rw [claimSent, h]
  dsimp only
  rw [he]
  rfl

theorem claimSent_other {tag : Nat} {s : State} {e : Entry} (h : ownTagged tag s = some e)
    (he : e.state ≠ .announcing) :
    claimSent tag s = changeEntries (isOwnOf e.chan) (fun x => { x with ageMs := 0 }) s := by
  rw [claimSent, h]
  dsimp only
  split
  · next hc => exact absurd hc he
  all_goals rfl

/-- A CLAIM dropped after its retries leaves an entry that is not ANNOUNCING. -/
theorem claimDropped_other {tag : Nat} {s : State} {e : Entry} (h : ownTagged tag s = some e)
    (he : e.state ≠ .announcing) : claimDropped tag false s = s := by
  rw [claimDropped, h]
  dsimp only
  split
  · next hc => exact absurd hc he
  all_goals rfl

theorem tellDropped_nothing {o : FrameOwner} (full : Bool) (s : State)
    (h : o = .obs ∨ o = .pres ∨ o = .release ∨ o = .reply false) : tellDropped o full s = s := by
  rcases h with rfl | rfl | rfl | rfl <;> rfl

/-! ### The count of drops (R155) -/

theorem countDrop_few {s : State} {l : Link} (hl : s.link = l) (h : l.drops + 1 < 8) :
    countDrop s = { s with link := { l with drops := l.drops + 1 } } := by
  have hn : satSucc Config.dropLimit l.drops = l.drops + 1 := if_pos (by show l.drops < 8; omega)
  unfold countDrop
  dsimp only
  rw [hl, hn, if_neg (by show ¬ l.drops + 1 = 8; omega)]

theorem satSucc_drops {n : Nat} (h : n = 7 ∨ n = 8) : satSucc Config.dropLimit n = Config.dropLimit := by
  rcases h with rfl | rfl <;> rfl

theorem countDrop_last {s : State} {l : Link} (hs : s.link = l) (h : l.drops = 7 ∨ l.drops = 8)
    (hl : l.state = .listen ∨ l.state = .active ∨ l.state = .isolated) :
    countDrop s = enterLink .mute { s with link := { l with drops := 8 } } := by
  unfold countDrop
  dsimp only
  rw [hs, satSucc_drops h, if_pos rfl]
  rcases hl with hl | hl | hl <;> rw [hl] <;> rfl

theorem countDrop_muted {s : State} {l : Link} (hs : s.link = l) (h : l.drops = 7 ∨ l.drops = 8)
    (hl : l.state = .offline ∨ l.state = .mute) : countDrop s = { s with link := { l with drops := 8 } } := by
  unfold countDrop
  dsimp only
  rw [hs, satSucc_drops h, if_pos rfl]
  rcases hl with hl | hl <;> rw [hl] <;> rfl

theorem countDrop_stands (s : State) : RestartStands s (countDrop s) := by
  unfold countDrop
  dsimp only
  have h : ∀ n, RestartStands s { s with link := { s.link with drops := n } } := fun n => .of_work rfl
  split
  · split
    · exact (h _).trans (enterLink_stands ..)
    · exact (h _).trans (enterLink_stands ..)
    · exact (h _).trans (enterLink_stands ..)
    · exact h _
    · exact h _
  · exact h _

/-! ### The two ends of a transmission (R148) -/

/-- The frame under transmission, found in a settled part. -/
structure Sending (s : State) (q1 q2 : List TxFrame) (f : TxFrame) : Prop where
  scan : s.work.scan = false
  queue : s.line.queue = q1 ++ f :: q2
  sending : f.sending = true
  others : ∀ g ∈ q1 ++ q2, g.sending = false

theorem transmitted_eq {s u v : State} {q1 q2 : List TxFrame} {f : TxFrame} (h : Sending s q1 q2 f)
    (hu : u = { s with
          line := { s.line with queue := q1 ++ q2 }
          supply := { s.supply with
            entries := s.supply.entries.map (fun e =>
              if e.refreshBarred then { e with refreshBarred := false } else e) }
          work := { s.work with scan := s.jobs.any Job.heldBack } })
    (hv : v = { u with
          status := { s.status with sent := if s.status.sent < 65535 then s.status.sent + 1 else s.status.sent }
          link := { s.link with drops := if s.link.drops < 8 then 0 else s.link.drops } }) :
    transmitted s = tellSent f.owner v := by
  have hleft : resetDrops (countSent (leaveQueue s)) = v := by
    rw [leaveQueue_eq h.scan h.queue h.sending h.others, ← hu, resetDrops_eq, hv, hu]
    rfl
  rw [transmitted, sendingFrame_eq h.queue h.sending h.others]
  exact congrArg (tellSent f.owner) hleft

theorem leaveQueue_counted {s u : State} {q1 q2 : List TxFrame} {f : TxFrame} (h : Sending s q1 q2 f)
    (hu : u = { s with
          line := { s.line with queue := q1 ++ q2 }
          supply := { s.supply with
            entries := s.supply.entries.map (fun e =>
              if e.refreshBarred then { e with refreshBarred := false } else e) }
          work := { s.work with scan := s.jobs.any Job.heldBack } }) :
    leaveQueue (countRetry s) =
      { u with
        status := { s.status with
          retries := if s.status.retries < 65535 then s.status.retries + 1 else s.status.retries } } := by
  rw [leaveQueue_eq (s := countRetry s) h.scan h.queue h.sending h.others, hu]
  rfl

theorem mismatched_eq {s : State} {q1 q2 : List TxFrame} {f : TxFrame} (h : Sending s q1 q2 f) :
    mismatched s =
      if s.cfg.txRetries < f.attempts + 1 then dropSending f (countRetry s)
      else if hasNewer f (q1 ++ q2) then mergeClaim f (leaveQueue (countRetry s))
      else backToWaiting (countRetry s) := by
  have hq : (countRetry s).line.queue = q1 ++ f :: q2 := h.queue
  rw [mismatched, sendingFrame_eq h.queue h.sending h.others]
  dsimp only
  rw [hq, hasNewer_split h.sending]
  rfl

theorem dropSending_eq {s u v : State} {q1 q2 : List TxFrame} {f : TxFrame} (h : Sending s q1 q2 f)
    (hu : u = { s with
          line := { s.line with queue := q1 ++ q2 }
          supply := { s.supply with
            entries := s.supply.entries.map (fun e =>
              if e.refreshBarred then { e with refreshBarred := false } else e) }
          work := { s.work with scan := s.jobs.any Job.heldBack } })
    (hv : v = { u with
          status := withError .txDropped .txDropped 0
            { s.status with
              retries := if s.status.retries < 65535 then s.status.retries + 1 else s.status.retries } }) :
    dropSending f (countRetry s) = countDrop (tellDropped f.owner false v) := by
  rw [dropSending, leaveQueue_counted h hu, hv]
  rfl

theorem mergeClaim_none {f : TxFrame} {tag : Nat} {n : Bool} {s : State} (ho : f.owner = .claim tag n)
    (h : ownTagged tag s = none) : mergeClaim f s = s := by
  rw [mergeClaim, ho]
  dsimp only
  rw [h]

theorem mergeClaim_some {f : TxFrame} {tag : Nat} {n : Bool} {e : Entry} {s : State} (ho : f.owner = .claim tag n)
    (h : ownTagged tag s = some e) : mergeClaim f s = queueClaim e n s := by
  rw [mergeClaim, ho]
  dsimp only
  rw [h]

theorem mergeClaim_nothing {f : TxFrame} {s : State} (h : f.owner = .obs ∨ f.owner = .pres) : mergeClaim f s = s := by
  rcases h with h | h <;> rw [mergeClaim, h]

end Sys2Proof.Machine

open Sys2Proof Sys2Proof.Machine

/-- Settles O47: the two ends of a transmission, by owner, attempts and drops. -/
theorem transmissionEndsByEchoCheck : Obligations.TransmissionEndsByEchoCheck := by
  intro s u q1 q2 f hs hq hf hn hu
  have hsend : Sending s q1 q2 f := ⟨hs.2.1, hq, hf, hn⟩
  have hcfg : u.cfg = s.cfg := by rw [hu]
  have hjobs : u.jobs = s.jobs := by rw [hu]
  have hreq : u.requests = s.requests := by rw [hu]
  have hlink : u.link = s.link := by rw [hu]
  have hrestart : u.work.restart = false := by rw [hu]; exact hs.2.2
  have hmis := mismatched_eq hsend
  have hfew : ¬ s.cfg.txRetries < f.attempts + 1 → hasNewer f (q1 ++ q2) = true →
      mismatched s = mergeClaim f (leaveQueue (countRetry s)) := fun h hw => by rw [hmis, if_neg h, if_pos hw]
  have hdropped : s.cfg.txRetries < f.attempts + 1 → mismatched s = dropSending f (countRetry s) := fun h => by
    rw [hmis, if_pos h]
  refine ⟨fun v hv => ?_, fun ha hw => ?_, fun v hv ha => ?_, fun v hv ha => ?_, fun ha hd ho => ?_,
    fun ha hd hp hl => ?_, hasNewer_iff hn⟩
  · have he : exec .transmitComplete s = .next (finish (tellSent f.owner v)) := by
      rw [exec_settled (f := transmitted) rfl hs, transmitted_eq hsend hu hv]
    have hvcfg : v.cfg = s.cfg := by rw [hv]; exact hcfg
    have hvjobs : v.jobs = s.jobs := by rw [hv]; exact hjobs
    have hvreq : v.requests = s.requests := by rw [hv]; exact hreq
    have hvrestart : v.work.restart = false := by rw [hv]; exact hrestart
    refine ⟨fun ho => ?_, fun ho => ⟨fun hp => ?_, fun hp => ?_⟩, fun tag n e ho hx ha => ?_, fun tag n e ho hx ha => ?_,
      fun tag n ho hx => ?_⟩
    · rw [he]
      rcases ho with ho | ho | ho | ho <;> rw [ho] <;> rfl
    · have hw : tellSent f.owner v = { v with work := { v.work with restart := true } } := by
        rw [ho]
        exact if_pos (by rw [hvreq]; exact hp)
      rw [he, hw]
      exact ⟨rfl, _, rfl, by rw [finish_of_restart rfl]; rfl⟩
    · have hw : tellSent f.owner v = v := by
        rw [ho]
        exact if_neg (by rw [hvreq, hp]; exact Bool.false_ne_true)
      rw [he, hw]
    · have hw : tellSent f.owner v = claimSent tag v := by rw [ho]; rfl
      have hsent := claimSent_announcing hx ha
      rw [hvcfg, hvjobs] at hsent
      rw [he, hw, hsent]
      rfl
    · have hw : tellSent f.owner v = claimSent tag v := by rw [ho]; rfl
      rw [he, hw, claimSent_other hx ha]
      rfl
    · have hw : tellSent f.owner v = claimSent tag v := by rw [ho]; rfl
      rw [he, hw, claimSent_none hx]
  · have hb : mismatched s = backToWaiting (countRetry s) := by
      rw [hmis, if_neg (Nat.not_lt.2 ha), if_neg (by rw [hw]; exact Bool.false_ne_true)]
    rw [exec_plain (f := mismatched) rfl hs (by rw [hb]; rfl), hb, ← map_backToWaiting hf hn, ← hq]
    rfl
  · have hleave : leaveQueue (countRetry s) = v := (leaveQueue_counted hsend hu).trans hv.symm
    refine ⟨fun ho hg => ?_, fun tag n ho hg => ⟨fun hx => ?_, fun e hx => ?_⟩⟩
    · rw [exec_settled (f := mismatched) rfl hs, hfew (Nat.not_lt.2 ha) ((hasNewer_iff hn).2 (.inl ⟨ho, hg⟩)), hleave,
        mergeClaim_nothing ho]
    · rw [exec_settled (f := mismatched) rfl hs, hfew (Nat.not_lt.2 ha) ((hasNewer_iff hn).2 (.inr ⟨tag, n, ho, hg⟩)),
        hleave, mergeClaim_none ho hx]
    · rw [exec_settled (f := mismatched) rfl hs, hfew (Nat.not_lt.2 ha) ((hasNewer_iff hn).2 (.inr ⟨tag, n, ho, hg⟩)),
        hleave, mergeClaim_some ho hx]
  · have he : exec .echoMismatch s = .next (finish (countDrop (tellDropped f.owner false v))) := by
      rw [exec_settled (f := mismatched) rfl hs, hdropped ha, dropSending_eq hsend hu hv]
    have hvlink : v.link = s.link := by rw [hv]; exact hlink
    have hvreq : v.requests = s.requests := by rw [hv]; exact hreq
    have hvrestart : v.work.restart = false := by rw [hv]; exact hrestart
    have hreply : f.owner = .reply true → tellDropped f.owner false v =
        { v with work := { v.work with restart := s.requests.pendingRestart } } := fun ho => by
      rw [ho]
      refine (wantRestart_eq v).trans ?_
      rw [hvrestart, Bool.false_or, hvreq]
    refine ⟨fun tag n e ho hd hx => ⟨fun hx' => ?_, fun hx' w hw => ?_⟩, fun tag n ho hd hx => ?_, fun ho hp => ?_,
      fun w hw => ⟨fun ho => hw.trans (hreply ho), fun hd => ?_, fun hd => ⟨fun hl => ?_, fun hl => ?_⟩⟩, fun hd hl ho => ?_⟩
    · have hw : tellDropped f.owner false v = v := by rw [ho]; exact claimDropped_other hx hx'
      rw [he, hw, countDrop_few hvlink hd]
    · have ht : tellDropped f.owner false v =
          { w with
            jobs := w.jobs.map (fun j => if j.chan = e.chan then { j with state := .waiting, heldBack := false } else j)
            work := { w.work with scan := true } } := by
        rw [ho]
        exact (claimDropped_announcing hx hx').trans (withdrawOwn_eq (ownTagged_spec hx).2.2 false hw)
      have hwlink : w.link = s.link := by
        rw [hw]
        exact (cancelClaim_step tag _).link.trans hvlink
      rw [he, ht]
      exact congrArg (fun t => Host.Outcome.next (finish t)) (countDrop_few (l := s.link) hwlink hd)
    · have hw : tellDropped f.owner false v = v := by rw [ho]; exact claimDropped_none hx
      rw [he, hw, countDrop_few hvlink hd]
    · refine ⟨_, he, ?_⟩
      rw [finish_of_restart ((countDrop_stands _).stands (by rw [hreply ho]; exact hp))]
      rfl
    · rw [he, ← hw, countDrop_few (by rw [hw, (tellDropped_step ..).link, hvlink]) hd]
    · rw [he, ← hw, countDrop_last (by rw [hw, (tellDropped_step ..).link, hvlink]) hd hl]
    · rw [he, ← hw, countDrop_muted (by rw [hw, (tellDropped_step ..).link, hvlink]) hd hl]
    · rw [he, tellDropped_nothing false v ho, countDrop_last hvlink (.inl hd) hl]
  · rw [exec_settled (f := mismatched) rfl hs, hdropped ha, dropSending_eq hsend hu rfl, tellDropped_nothing false _ ho]
    exact congrArg (fun t => Host.Outcome.next (finish t)) (countDrop_few (l := s.link) hlink hd)
  · have he := dropSending_eq hsend hu rfl
    generalize hw : tellDropped f.owner false _ = w at he
    have hstep := tellDropped_step f.owner false
      { u with
        status := withError .txDropped .txDropped 0
          { s.status with
            retries := if s.status.retries < 65535 then s.status.retries + 1 else s.status.retries } }
    rw [hw] at hstep
    have hwlink : w.link = s.link := hstep.link.trans hlink
    have hwreq : w.requests.pendingRestart = false := by rw [hstep.requests, hreq]; exact hp
    have hwrestart : w.work.restart = false := (hstep.restart (by rw [hreq]; exact hp)).trans hrestart
    refine ⟨_, exec_settled (f := mismatched) rfl hs, ?_⟩
    have hfin := finish_enterLink_link .mute (s := { w with link := { s.link with drops := 8 } }) hwreq hwrestart
    rw [hdropped ha, he, countDrop_last hwlink (.inl hd) hl, hfin]
    exact ⟨rfl, rfl⟩

end

section
/-! PROOFS. Requests (O49, O51, O53): who is asked, by whose authority, how a request is refused and answered, the station
hold, TAKE, CLEAR and RESTART. -/

namespace Sys2Proof.Machine

/-! ### Authority and address (R160, R161, R163) -/

theorem hasAuthority_iff {n : Nat} (h : 1 ≤ n) (k : Settings) :
    hasAuthority n k = true ↔ (∀ a ∈ k.authority, a = 0) ∨ n ∈ k.authority := by
  have hn : (n != 0) = true := bne_iff_ne.2 (by omega)
  rw [hasAuthority, hn, Bool.true_and, Bool.or_eq_true, List.all_eq_true, List.any_eq_true]
  simp

theorem askedBy_counted (k : FrameKind) (h : Header) (p : List Byte) (s : State) :
    askedBy (heard k h p) (counted s) = askedOf h s :=
  congrArg (fun b => ({ source := h.source, single := b } : Asked)) (addressed_heard k h p (counted s))

/-- A CMD that names the station or one of its groups is handed to the Request Handler. -/
theorem exec_cmd {i : Instr} {h : Header} {p : List Byte} {s : State}
    (hi : exec i s = .next (whileRunning (frameHeard (heard .cmd h p)) s)) (hf : PeerFrame h p s)
    (hto : ToStation h s ∨ ToGroup h s) :
    exec i s = .next (finish (takeCmd (askedOf h s) p (counted s))) := by
  have hadd : (addressed (heard .cmd h p) (counted s) || sharesGroup (heard .cmd h p) (counted s)) = true := by
    rw [addressed_heard, sharesGroup_heard, Bool.or_eq_true, decide_eq_true_iff, decide_eq_true_iff]
    exact hto
  rw [exec_peer hi hf, ← askedBy_counted .cmd h p]
  exact congrArg (fun t => Host.Outcome.next (finish t)) (if_pos hadd)

theorem addressed_counted {k : FrameKind} {h : Header} {p : List Byte} {s : State} (hto : ToStation h s) :
    addressed (heard k h p) (counted s) = true := by
  rw [addressed_heard]
  exact decide_eq_true hto

theorem exec_read {h : Header} {p : List Byte} {s : State} (hf : PeerFrame h p s) (hto : ToStation h s) :
    exec (.read h p) s = .next (finish (takeRead (askedOf h s) p (counted s))) := by
  rw [exec_peer (k := .read) rfl hf, ← askedBy_counted .read h p]
  exact congrArg (fun t => Host.Outcome.next (finish t)) (if_pos (addressed_counted hto))

theorem exec_take {h : Header} {p : List Byte} {s : State} (hf : PeerFrame h p s) (hto : ToStation h s) :
    exec (.take h p) s = .next (finish (takeTake (askedOf h s) p (counted s))) := by
  rw [exec_peer (k := .take) rfl hf, ← askedBy_counted .take h p]
  exact congrArg (fun t => Host.Outcome.next (finish t)) (if_pos (addressed_counted hto))

theorem exec_clear {h : Header} {p : List Byte} {s : State} (hf : PeerFrame h p s) (hto : ToStation h s) :
    exec (.clear h p) s = .next (finish (takeClear (askedOf h s) p (counted s))) := by
  rw [exec_peer (k := .clear) rfl hf, ← askedBy_counted .clear h p]
  exact congrArg (fun t => Host.Outcome.next (finish t)) (if_pos (addressed_counted hto))

theorem exec_restart {h : Header} {p : List Byte} {s : State} (hf : PeerFrame h p s) (hto : ToStation h s) :
    exec (.restart h p) s = .next (finish (takeRestart (askedOf h s) p (counted s))) := by
  rw [exec_peer (k := .restart) rfl hf, ← askedBy_counted .restart h p]
  exact congrArg (fun t => Host.Outcome.next (finish t)) (if_pos (addressed_counted hto))

/-! ### Requests of a wrong form (R160) -/

theorem takeCmd_badVerb {q : Asked} {n verb mask minutes : Byte} (h : verb = 0 ∨ 5 < verb.toNat) (s : State) :
    takeCmd q [n, verb, mask, minutes] s = refuseWhole q n 0 .badRequest s := by
  have hne : ∀ k, 1 ≤ k → k ≤ 5 → verb.toNat ≠ k := fun k h1 h5 hk => by
    rcases h with rfl | h
    · rw [← hk] at h1
      exact absurd h1 (by decide)
    · omega
  unfold takeCmd
  dsimp only
  split
  · next hk => exact absurd hk (hne 1 (by decide) (by decide))
  · next hk => exact absurd hk (hne 2 (by decide) (by decide))
  · next hk => exact absurd hk (hne 3 (by decide) (by decide))
  · next hk => exact absurd hk (hne 4 (by decide) (by decide))
  · next hk => exact absurd hk (hne 5 (by decide) (by decide))
  · rfl

theorem shownVerb_cons (n : Byte) (rest : List Byte) : shownVerb (n :: rest) =
    if 1 ≤ (rest.getD 0 0).toNat ∧ (rest.getD 0 0).toNat ≤ 5 then (rest.getD 0 0).toNat else 0 := by
  cases rest <;> rfl

theorem takeCmd_length {q : Asked} {n : Byte} {rest : List Byte} (h : rest.length ≠ 3) (s : State) :
    takeCmd q (n :: rest) s = refuseWhole q n (shownVerb (n :: rest)) .badRequest s := by
  unfold takeCmd
  split
  · next hp => cases hp
  · next hp =>
    rw [(List.cons.inj hp).2] at h
    exact absurd rfl h
  · next hp => rw [(List.cons.inj hp).1]

theorem takeRead_length {q : Asked} {n : Byte} {rest : List Byte} (h : rest.length ≠ 2) (s : State) :
    takeRead q (n :: rest) s = refuseWhole q n 6 .badRequest s := by
  unfold takeRead
  split
  · next hp => cases hp
  · next hp =>
    rw [(List.cons.inj hp).2] at h
    exact absurd rfl h
  · next hp => rw [(List.cons.inj hp).1]

theorem takeTake_length {q : Asked} {n : Byte} {rest : List Byte} (h : rest.length ≠ 0) (s : State) :
    takeTake q (n :: rest) s = refuseWhole q n 7 .badRequest s := by
  cases rest with
  | nil => exact absurd rfl h
  | cons x xs => rfl

theorem takeClear_length {q : Asked} {n : Byte} {rest : List Byte} (h : rest.length ≠ 0) (s : State) :
    takeClear q (n :: rest) s = refuseWhole q n 8 .badRequest s := by
  cases rest with
  | nil => exact absurd rfl h
  | cons x xs => rfl

theorem takeRestart_length {q : Asked} {n : Byte} {rest : List Byte} (h : rest.length ≠ 0) (s : State) :
    takeRestart q (n :: rest) s = refuseWhole q n 9 .badRequest s := by
  cases rest with
  | nil => exact absurd rfl h
  | cons x xs => rfl

/-! ### Channels judged and answered (R160, R161) -/

theorem mem_listMask {cs : List Channel} {c : Channel} : inMask (listMask cs) c = true ↔ c ∈ cs := by
  rw [listMask, inMask_maskOf, decide_eq_true_iff]

theorem judgeEach_accepted {f : Channel → State → Verdict × State} {c : Channel} {s u : State}
    (h : f c s = (.accepted, u)) (cs : List Channel) (t : Tally) :
    judgeEach f (c :: cs) t s = judgeEach f cs { t with accepted := t.accepted ++ [c] } u := by
  rw [judgeEach, h]
  rfl

theorem judgeEach_refused {f : Channel → State → Verdict × State} {c : Channel} {s u : State} {e : ErrorCode}
    (h : f c s = (.refused e, u)) (cs : List Channel) (t : Tally) :
    judgeEach f (c :: cs) t s = judgeEach f cs
      { t with refused := t.refused ++ [c], code := if t.code = none then some e else t.code } u := by
  have ht : tallied c (.refused e) t =
      { t with refused := t.refused ++ [c], code := if t.code = none then some e else t.code } := by
    obtain ⟨a, r, code⟩ := t
    cases code <;> rfl
  rw [judgeEach, h, ht]

theorem enabledChannels_eq (s : State) : enabledChannels s =
    allChannels.filter (fun c => decide ((s.cfg.channels.get c).cls ≠ .unused)) := by
  refine List.filter_congr fun c _ => ?_
  rw [Bool.eq_iff_iff, decide_eq_true_iff]
  exact ChannelCfg.enabled_iff

/-- A verb that needs authority, from a requester without it. -/
theorem verb_refused {h : Header} {s : State} (h1 : 1 ≤ h.source.toNat)
    (hno : ¬ ((∀ a ∈ s.cfg.authority, a = 0) ∨ h.source.toNat ∈ s.cfg.authority)) :
    ¬ hasAuthority h.source.toNat (counted s).cfg = true := (hasAuthority_iff h1 s.cfg).not.2 hno

/-! ### The station hold (R167, R168) -/

theorem holdMs_eq (b : Byte) :
    holdMs b = (if b = 0 then 1 else if 240 < b.toNat then 240 else b.toNat) * 60000 := by
  refine congrArg (· * 60000) ?_
  unfold clampTo
  by_cases h0 : b = 0
  · rw [if_pos h0, h0]
    rfl
  · have hb : b.toNat ≠ 0 := fun h => h0 (byte_eq_zero_iff.2 h)
    rw [if_neg h0]
    split <;> omega

theorem setHold_none {ms : Nat} {s : State} (h : s.requests.hold = none) :
    setHold ms s = rejudgeAll { s with requests := { s.requests with hold := some ms } } := by
  rw [setHold, h]

theorem setHold_some {ms left : Nat} {s : State} (h : s.requests.hold = some left) :
    setHold ms s = { s with requests := { s.requests with hold := some (max left ms) } } := by
  rw [setHold, h]

theorem endHold_none {s : State} (h : s.requests.hold = none) : endHold s = s := by rw [endHold, h]

theorem endHold_some {s : State} (h : s.requests.hold ≠ none) :
    endHold s = rejudgeAll { s with requests := { s.requests with hold := none } } := by
  obtain ⟨ms, hms⟩ := Option.ne_none_iff_exists'.1 h
  rw [endHold, hms]

theorem enabledMask_congr {s t : State} (h : t.cfg = s.cfg) : enabledMask t = enabledMask s := by
  simp only [enabledMask, enabledChannels, chanCfg, h]

/-! ### TAKE, CLEAR and RESTART (R170 to R172) -/

/-- The REPLY of an accepted RESTART. -/
def restartReply (h : Header) (n : Byte) (k : Settings) : TxFrame :=
  { frame :=
      { kind := .reply, prio := 1, source := BitVec.ofNat 8 k.station
        target := h.source, groups := 0, payload := [n, 9, 0, 0, 0] }
    owner := .reply true, attempts := 0, sending := false }

/-- A part that has taken a RESTART, its REPLY queued. -/
def restartQueued (h : Header) (n : Byte) (s : State) : State :=
  enqueue (restartReply h n s.cfg) { counted s with requests := { s.requests with pendingRestart := true } }

theorem takeRestart_accepted {h : Header} {n : Byte} {s : State} (hto : ToStation h s)
    (ha : hasAuthority h.source.toNat s.cfg = true) (hr : s.cfg.remoteRestart = true) :
    takeRestart (askedOf h s) [n] (counted s) =
      if s.link.state = .mute then
        { restartQueued h n s with work := { (restartQueued h n s).work with restart := true } }
      else restartQueued h n s := by
  have hno : ∀ {b : Bool}, b = true → ¬ (!b) = true := fun h => by rw [h]; exact Bool.false_ne_true
  have hsingle : (askedOf h s).single = true := decide_eq_true hto
  have hstep := enqueue_step (f := restartReply h n s.cfg) rfl
    { counted s with requests := { s.requests with pendingRestart := true } }
  have hreply : reply (askedOf h s)
      { number := n, what := 9, code := none, accepted := 0, refused := 0, data := [] } true
      { counted s with requests := { s.requests with pendingRestart := true } } = restartQueued h n s :=
    if_pos hsingle
  have hlink : (restartQueued h n s).link.state = s.link.state := by
    rw [restartQueued, hstep.link]
    rfl
  have hpend : (restartQueued h n s).requests.pendingRestart = true := by
    rw [restartQueued, hstep.requests]
  have htake : takeRestart (askedOf h s) [n] (counted s) = acceptRestart (askedOf h s) n (counted s) :=
    (if_neg (hno ha)).trans (if_neg (hno hr))
  have haccept : acceptRestart (askedOf h s) n (counted s) =
      if (restartQueued h n s).link.state = .mute then wantRestart (restartQueued h n s)
      else restartQueued h n s := by
    rw [← hreply]
    rfl
  rw [htake, haccept, hlink]
  split
  · exact if_pos hpend
  · rfl

end Sys2Proof.Machine

open Sys2Proof Sys2Proof.Machine

/-- Settles O49: channels judged in order, and requests answered or refused as a whole. -/
theorem commandsJudgedChannelByChannel : Obligations.CommandsJudgedChannelByChannel := by
  refine ⟨fun f c cs t s u => ⟨rfl, fun h => judgeEach_accepted h cs t, fun e h => judgeEach_refused h cs t⟩, rfl,
    fun cs c => mem_listMask, fun c m => rfl, by decide, enabledChannels_eq,
    fun q a s u hu => ⟨fun h => ?_, fun e h => ?_⟩,
    fun h n verb mask minutes s q names authority hf hto hq hnames hauth =>
      ⟨fun hv r hr => ?_, fun hv ha r hr => ?_, fun hv ha r hr => ?_, fun i ha hi => ?_, fun hv => ?_⟩,
    fun h s i hf hi => ?_, fun h n rest s i what hf hi => ?_⟩
  · rw [answer, h, hu]
    rfl
  · rw [answer, h, hu]
    rfl
  · rw [exec_cmd rfl hf hto, hv, hr, hq, hnames]
    rfl
  · have ha' : hasAuthority h.source.toNat (counted s).cfg = true :=
      (hasAuthority_iff hf.2.2.1 s.cfg).2 (hauth.1 ha)
    rw [exec_cmd rfl hf hto, hv, hr, hq, hnames]
    exact congrArg (fun t => Host.Outcome.next (finish t)) (if_pos ha')
  · have ha' : hasAuthority h.source.toNat (counted s).cfg = true :=
      (hasAuthority_iff hf.2.2.1 s.cfg).2 (hauth.1 ha)
    rw [exec_cmd rfl hf hto, hv, hr, hq, hnames]
    exact congrArg (fun t => Host.Outcome.next (finish t)) (if_pos ha')
  · have ha' := verb_refused hf.2.2.1 (hauth.not.1 ha)
    rcases hi with ⟨hv, rfl⟩ | ⟨hv, rfl⟩
    · rw [exec_cmd rfl hf hto, hv, hq, hnames]
      exact congrArg (fun t => Host.Outcome.next (finish t)) (if_neg ha')
    · rw [exec_cmd rfl hf hto, hv, hq, hnames]
      exact congrArg (fun t => Host.Outcome.next (finish t)) (if_neg ha')
  · rw [exec_cmd rfl hf hto, takeCmd_badVerb hv, hq]
    rfl
  · have hdone : exec i s = .next (finish (emptyRequest (askedOf h s) (counted s))) := by
      rcases hi with ⟨hto, rfl | rfl | rfl | rfl | rfl | rfl⟩ | ⟨hto, rfl | rfl | rfl | rfl⟩
      · exact exec_cmd rfl hf hto
      · exact exec_cmd rfl hf hto
      · exact exec_cmd rfl hf hto
      · exact exec_cmd rfl hf hto
      · exact exec_cmd rfl hf hto
      · exact exec_cmd rfl hf hto
      · exact exec_read hf hto
      · exact exec_take hf hto
      · exact exec_clear hf hto
      · exact exec_restart hf hto
    exact hdone.trans (congrArg Host.Outcome.next (finish_of_work (s := s) hf.1 rfl))
  · rcases hi with ⟨hto, hl, hi, hw⟩ | ⟨hto, hl, rfl, rfl⟩ | ⟨hto, hl, ⟨rfl, rfl⟩ | ⟨rfl, rfl⟩ | ⟨rfl, rfl⟩⟩
    · have hdone : exec i s = .next (finish (takeCmd (askedOf h s) (n :: rest) (counted s))) := by
        rcases hi with rfl | rfl | rfl | rfl | rfl | rfl <;> exact exec_cmd rfl hf hto
      rw [hdone, takeCmd_length hl, shownVerb_cons, ← hw]
      rfl
    · rw [exec_read hf hto, takeRead_length hl]
      rfl
    · rw [exec_take hf hto, takeTake_length hl]
      rfl
    · rw [exec_clear hf hto, takeClear_length hl]
      rfl
    · rw [exec_restart hf hto, takeRestart_length hl]
      rfl

/-- Settles O51: the hold set, lengthened and ended. -/
theorem holdSetLengthenedAndEnded : Obligations.HoldSetLengthenedAndEnded := by
  refine ⟨fun h n mask minutes s q ms a hf hto hq hms ha => ⟨fun hh => ?_, fun left hh => ?_⟩,
    fun h n mask minutes s q a hf hto hq ha => ⟨fun hau => ?_, fun hau => ?_⟩,
    fun s hs => ⟨fun hh => ?_, fun hh => ?_⟩⟩
  · have hset := setHold_none (ms := ms) (s := counted s) hh
    have hmask : enabledMask (rejudgeAll { counted s with requests := { s.requests with hold := some ms } })
        = enabledMask s := enabledMask_congr (rejudgeAll_step _).cfg
    rw [exec_cmd rfl hf hto, hq, ha, show listMask (enabledChannels s) = enabledMask s from rfl, ← hmask]
    refine congrArg (fun t => Host.Outcome.next (finish t)) ?_
    show verbHold _ n minutes (counted s) = _
    unfold verbHold
    rw [holdMs_eq, ← hms, hset]
    rfl
  · have hset := setHold_some (ms := ms) (s := counted s) hh
    rw [exec_cmd rfl hf hto, hq, ha]
    refine congrArg (fun t => Host.Outcome.next (finish t)) ?_
    show verbHold _ n minutes (counted s) = _
    unfold verbHold
    rw [holdMs_eq, ← hms, hset]
    rfl
  · have hau' : hasAuthority h.source.toNat (counted s).cfg = true := (hasAuthority_iff hf.2.2.1 s.cfg).2 hau
    have hmask : ∀ t : State, t.cfg = s.cfg → enabledMask t = listMask (enabledChannels s) := fun t ht =>
      enabledMask_congr ht
    have hend : endHold (counted s) = (if s.requests.hold = none then counted s
        else rejudgeAll { counted s with requests := { s.requests with hold := none } }) := by
      split
      · next hh => exact endHold_none (s := counted s) hh
      · next hh => exact endHold_some (s := counted s) hh
    have hcfg : (endHold (counted s)).cfg = s.cfg := by
      rw [hend]
      split
      · rfl
      · exact (rejudgeAll_step _).cfg
    rw [exec_cmd rfl hf hto, hq, ha, ← hend, ← hmask _ hcfg]
    exact congrArg (fun t => Host.Outcome.next (finish t)) (if_pos hau')
  · rw [exec_cmd rfl hf hto, hq]
    exact congrArg (fun t => Host.Outcome.next (finish t)) (if_neg (verb_refused hf.2.2.1 hau))
  · rw [exec_settled (f := endHold) rfl hs, endHold_some hh]
  · exact exec_nothing (f := endHold) rfl hs (endHold_none hh)

/-- Settles O53: TAKE by the link state, CLEAR by authority, and RESTART by authority, configuration and link state. -/
theorem takeClearAndRestart : Obligations.TakeClearAndRestart := by
  intro h n s q authority hf hto hq hauth
  have hiff := hauth.trans (hasAuthority_iff hf.2.2.1 s.cfg).symm
  have hno : ∀ {b : Bool}, b = true → ¬ (!b) = true := fun h => by rw [h]; exact Bool.false_ne_true
  refine ⟨fun hm => ?_, fun hm => ?_, fun ha => ?_, fun ha i k hi => ?_, fun ha hr => ?_, fun ha hr =>
    ⟨fun hm => ?_, fun u hu => ⟨fun hm => ?_, fun hm => ?_⟩, fun hm hroom => ?_⟩⟩
  · rw [exec_take hf hto, hq]
    exact congrArg (fun t => Host.Outcome.next (finish t)) (if_pos hm)
  · rw [exec_take hf hto, hq]
    exact congrArg (fun t => Host.Outcome.next (finish t)) (if_neg hm)
  · rw [exec_clear hf hto, hq]
    exact congrArg (fun t => Host.Outcome.next (finish t)) (if_pos (hiff.1 ha))
  · rcases hi with ⟨rfl, rfl⟩ | ⟨rfl, rfl⟩
    · rw [exec_clear hf hto, hq]
      exact congrArg (fun t => Host.Outcome.next (finish t)) (if_neg (hiff.not.1 ha))
    · rw [exec_restart hf hto, hq]
      refine congrArg (fun t => Host.Outcome.next (finish t)) (if_pos ?_)
      show (!hasAuthority h.source.toNat s.cfg) = true
      rw [Bool.eq_false_iff.2 (hiff.not.1 ha)]
      rfl
  · rw [exec_restart hf hto, hq]
    refine congrArg (fun t => Host.Outcome.next (finish t)) ((if_neg (hno (hiff.1 ha))).trans (if_pos ?_))
    show (!s.cfg.remoteRestart) = true
    rw [hr]
    rfl
  · refine ⟨_, exec_restart hf hto, ?_⟩
    rw [takeRestart_accepted hto (hiff.1 ha) hr, if_pos hm, finish_of_restart rfl]
    rfl
  · rw [exec_restart hf hto, takeRestart_accepted hto (hiff.1 ha) hr, if_pos hm, hu]
    rfl
  · rw [exec_restart hf hto, takeRestart_accepted hto (hiff.1 ha) hr, if_neg hm, hu]
    rfl
  · have hnone : s.line.queue.any (replacedBy (.reply true)) = false := List.any_eq_false.2 fun g _ => by
      rw [replacedBy_eq]
      simp
    rw [exec_restart hf hto, takeRestart_accepted hto (hiff.1 ha) hr, if_neg hm, restartQueued,
      enqueue_places (f := restartReply h n s.cfg) (s := { counted s with requests := { s.requests with pendingRestart := true } }) hnone hroom]
    exact congrArg Host.Outcome.next (finish_of_work (s := s) hf.1 rfl)

end

section
/-! PROOFS. CLOSE, OPEN and STOP judged for one channel (O50), and the wall switches (O54, O55). -/

namespace Sys2Proof.Machine

/-! ### The one job of a channel -/

theorem jobOf_unique {c : Channel} {j : Job} {s : State} (hj : j ∈ s.jobs) (hc : j.chan = c)
    (hu : ∀ k ∈ s.jobs, k.chan = c → k = j) : jobOf c s = some j := by
  obtain ⟨k, hk⟩ := Option.ne_none_iff_exists'.1 (jobOf_ne_none_iff.2 (List.mem_map.2 ⟨j, hj, hc⟩))
  obtain ⟨hm, hkc⟩ := jobOf_some hk
  rw [hk, hu k hm hkc]

theorem jobs_of_enterJob {j : Job} {s : State} (h : jobOf j.chan s = none) :
    ∀ k ∈ (enterJob j s).jobs, k.chan = j.chan → k = j := by
  intro k hk hc
  exact (mem_placeJob.1 hk).resolve_right fun hm => jobOf_none h k hm hc

theorem jobOf_enterJob {j : Job} {s : State} (h : jobOf j.chan s = none) : jobOf j.chan (enterJob j s) = some j :=
  jobOf_unique (mem_placeJob.2 (.inl rfl)) rfl (jobs_of_enterJob h)

theorem jobOf_changeJob {c : Channel} {f : Job → Job} {j : Job} {s : State} (hj : j ∈ s.jobs) (hc : j.chan = c)
    (hu : ∀ k ∈ s.jobs, k.chan = c → k = j) (hf : ∀ k, (f k).chan = k.chan) :
    jobOf c (changeJob c f s) = some (f j) := by
  have hmem : ∀ k, k ∈ (changeJob c f s).jobs ↔ ∃ x ∈ s.jobs, (if x.chan = c then f x else x) = k := fun k =>
    (sortJobs_perm _).mem_iff.trans List.mem_map
  refine jobOf_unique ((hmem _).2 ⟨j, hj, if_pos hc⟩) ((hf j).trans hc) fun k hk hkc => ?_
  obtain ⟨x, hx, rfl⟩ := (hmem k).1 hk
  by_cases hxc : x.chan = c
  · rw [if_pos hxc, hu x hx hxc]
  · rw [if_neg hxc] at hkc
    exact absurd hkc hxc

/-! ### Causes (R66, R128) -/

theorem personal_iff {k : Cause} :
    personal k = true ↔ k = .command ∨ k = .wall ∨ k = .openCommand ∨ k = .openWall := by
  cases k <;> simp [personal]

theorem personal_eq_false {k : Cause} (h : k = .storm ∨ k = .rain ∨ k = .wind ∨ k = .isolation) :
    personal k = false := by
  rcases h with rfl | rfl | rfl | rfl <;> rfl

/-! ### CLOSE (R132, R164) -/

theorem closeChannel_faulted {cause : Cause} {who : Requester} {c : Channel} {s : State} {p : Position} {k : FaultKind}
    (h : s.drivers.get c = .faulted p k) : closeChannel cause who c s =
      if bothLimits c s then (.refused .fault, s) else (.accepted, clearFault c cause who s) := by
  rw [closeChannel, h]

theorem closeChannel_idle {cause : Cause} {who : Requester} {c : Channel} {s : State} {p : Position}
    (h : s.drivers.get c = .idle p) : closeChannel cause who c s =
      if p = .closed ∧ hasOpenJob c s = false then (.accepted, s)
      else (.accepted, closeRequest c { cls := 1, cause := cause, who := who, retry := 0, clears := false } s) := by
  rw [closeChannel, h]

theorem hasOpenJob_iff {c : Channel} {s : State} :
    hasOpenJob c s = true ↔ ∃ j, jobOf c s = some j ∧ j.dir = .opening := by
  unfold hasOpenJob
  cases jobOf c s <;> simp

theorem hasCloseJob_iff {c : Channel} {s : State} :
    hasCloseJob c s = true ↔ ∃ j, jobOf c s = some j ∧ j.dir = .close := by
  unfold hasCloseJob
  cases jobOf c s <;> simp

theorem hasOpenJob_eq_false {c : Channel} {s : State} :
    hasOpenJob c s = false ↔ ∀ j, jobOf c s = some j → j.dir = .close := by
  rw [← Bool.not_eq_true, hasOpenJob_iff]
  refine ⟨fun h j hj => ?_, fun h ⟨j, hj, hd⟩ => ?_⟩
  · cases hd : j.dir with
    | close => rfl
    | opening => exact absurd ⟨j, hj, hd⟩ h
  · rw [h j hj] at hd
    cases hd

theorem clearFault_none {c : Channel} {cause : Cause} {who : Requester} {s : State}
    (h : (s.eval.chans.get c).demand = none) : clearFault c cause who s =
      queueClose c { cls := 1, cause := cause, who := who, retry := 0, clears := true }
        (setDriver c (.idle (freshPosition c s)) s) := by
  have heval := (queueClose_step c { cls := 1, cause := cause, who := who, retry := 0, clears := true }
    (setDriver c (.idle (freshPosition c s)) s)).eval
  unfold clearFault
  dsimp only
  rw [heval, setDriver_eval, h]

theorem clearFault_some {c : Channel} {cause : Cause} {who : Requester} {s : State} {d : Demand}
    (h : (s.eval.chans.get c).demand = some d) : clearFault c cause who s =
      queueClose c { cls := d.cls, cause := d.cause, who := .absent, retry := 0, clears := true }
        (queueClose c { cls := 1, cause := cause, who := who, retry := 0, clears := true }
          (setDriver c (.idle (freshPosition c s)) s)) := by
  have heval := (queueClose_step c { cls := 1, cause := cause, who := who, retry := 0, clears := true }
    (setDriver c (.idle (freshPosition c s)) s)).eval
  unfold clearFault
  dsimp only
  rw [heval, setDriver_eval, h]
  rfl

/-- A request that merges into the new job of another. -/
theorem queueClose_twice {c : Channel} {r r' : CloseReq} {s : State} (h : jobOf c s = none) :
    jobOf c (queueClose c r' (queueClose c r s)) =
      some (mergedJob r' (newJob c .close r.cls r.cause r.who r.retry s)) := by
  have hv : jobOf c (enterJob (newJob c .close r.cls r.cause r.who r.retry s) s) =
      some (newJob c .close r.cls r.cause r.who r.retry s) :=
    jobOf_enterJob (j := newJob c .close r.cls r.cause r.who r.retry s) h
  rw [queueClose_none h, queueClose_merge hv rfl]
  exact (congrArg (jobOf c) (if_neg (not_not.2 rfl))).trans <| jobOf_changeJob (jobOf_some hv).1 rfl (jobs_of_enterJob h) fun _ => rfl

/-! ### STOP (R66, R128, R166) -/

theorem stopChannel_moving {c : Channel} {s : State} {m : Motion} (h : motionOf (s.drivers.get c) = some m) :
    stopChannel c s = if personal m.cause then (.accepted, stopMotion c s) else (.refused .held, s) := by
  unfold stopChannel
  rw [if_neg (not_disabled_of_motion h), h]

theorem stopChannel_rest {c : Channel} {s : State} (hd : s.drivers.get c ≠ .disabled)
    (hm : motionOf (s.drivers.get c) = none) (hj : jobOf c s = none) : stopChannel c s = (.accepted, s) := by
  unfold stopChannel
  rw [if_neg hd, hm]
  dsimp only
  rw [hj]

theorem stopChannel_job {c : Channel} {s : State} {j : Job} (hd : s.drivers.get c ≠ .disabled)
    (hm : motionOf (s.drivers.get c) = none) (hj : jobOf c s = some j) :
    stopChannel c s = if personal j.cause then (.accepted, restore c (dropJob c (giveUpClaim j s)))
      else (.refused .held, s) := by
  unfold stopChannel stopJob
  rw [if_neg hd, hm]
  dsimp only
  rw [hj]

/-- A STOP on a channel that holds no motion, by its job. -/
theorem stopChannel_held {c : Channel} {s : State} {j : Job} (hd : s.drivers.get c ≠ .disabled)
    (hm : motionOf (s.drivers.get c) = none) (hj : jobOf c s = some j)
    (hk : j.cause = .storm ∨ j.cause = .rain ∨ j.cause = .wind ∨ j.cause = .isolation) :
    stopChannel c s = (.refused .held, s) := by
  rw [stopChannel_job hd hm hj, personal_eq_false hk]
  rfl

/-! ### OPEN (R165) -/

/-- A channel that closes, or has closing pending, by its driver. -/
theorem busyClosing_iff {c : Channel} {s : State} : busyClosing c s = true ↔
    (∃ j, jobOf c s = some j ∧ j.dir = .close) ∨ isWarning (s.drivers.get c) = true
      ∨ closeDrive (s.drivers.get c) = true ∨ (∃ m t, s.drivers.get c = .brake m t)
      ∨ (∃ m o t, s.drivers.get c = .backoff m o t) ∨ ∃ m t, s.drivers.get c = .blocked m t := by
  rw [busyClosing, Bool.or_eq_true, hasCloseJob_iff]
  refine or_congr Iff.rfl ?_
  cases s.drivers.get c <;> simp [isWarning, closeDrive]

theorem opensAlready_iff {c : Channel} {s : State} : opensAlready c s = true ↔
    (s.drivers.get c = .idle .opened ∨ isOpening (s.drivers.get c) = true)
      ∨ ∃ j, jobOf c s = some j ∧ j.dir = .opening := by
  rw [opensAlready, Bool.or_eq_true, Bool.or_eq_true, restsOpen_iff, hasOpenJob_iff]

/-- The checks of an OPEN before those of the channel's own state are passed. -/
def Opening (c : Channel) (s : State) : Prop :=
  s.drivers.get c ≠ .disabled ∧ isFaulted (s.drivers.get c) = false ∧ s.link.state = .active ∧ s.requests.hold = none
    ∧ (s.eval.chans.get c).demand = none ∧ s.eval.storm = false ∧ s.picture.fused.g ≠ none
    ∧ s.picture.fused.r ≠ .unknown

theorem openChannel_passed {cause : Cause} {who : Requester} {c : Channel} {s : State} (h : Opening c s) :
    openChannel cause who c s =
      if busyClosing c s then (.refused .busy, s)
      else if opensAlready c s then (.accepted, s)
      else (.accepted, openRequest c cause who 0 s) := by
  obtain ⟨h1, h2, h3, h4, h5, h6, h7, h8⟩ := h
  have hheld : ¬ (demandSet c s = true ∨ s.eval.storm = true ∨ s.picture.fused.g = none
      ∨ s.picture.fused.r = .unknown) := by
    rintro (h | h | h | h)
    · rw [demandSet, h5] at h
      cases h
    · rw [h6] at h
      cases h
    · exact h7 h
    · exact h8 h
  unfold openChannel
  rw [if_neg h1, if_neg (by rw [h2]; exact Bool.false_ne_true), if_neg (not_not.2 h3),
    if_neg (by rw [h4]; exact Bool.false_ne_true), if_neg hheld]

theorem openChannel_link {cause : Cause} {who : Requester} {c : Channel} {s : State} (h1 : s.drivers.get c ≠ .disabled)
    (h2 : isFaulted (s.drivers.get c) = false) (h3 : s.link.state ≠ .active) :
    openChannel cause who c s = (.refused .link, s) := by
  unfold openChannel
  rw [if_neg h1, if_neg (by rw [h2]; exact Bool.false_ne_true), if_pos h3]

theorem openChannel_hold {cause : Cause} {who : Requester} {c : Channel} {s : State} (h1 : s.drivers.get c ≠ .disabled)
    (h2 : isFaulted (s.drivers.get c) = false) (h3 : s.link.state = .active) (h4 : s.requests.hold ≠ none) :
    openChannel cause who c s = (.refused .stationHold, s) := by
  unfold openChannel
  rw [if_neg h1, if_neg (by rw [h2]; exact Bool.false_ne_true), if_neg (not_not.2 h3),
    if_pos (Option.isSome_iff_ne_none.2 h4)]

theorem openChannel_held {cause : Cause} {who : Requester} {c : Channel} {s : State} (h1 : s.drivers.get c ≠ .disabled)
    (h2 : isFaulted (s.drivers.get c) = false) (h3 : s.link.state = .active) (h4 : s.requests.hold = none)
    (h5 : (s.eval.chans.get c).demand ≠ none ∨ s.eval.storm = true ∨ s.picture.fused.g = none
      ∨ s.picture.fused.r = .unknown) : openChannel cause who c s = (.refused .held, s) := by
  have hheld : demandSet c s = true ∨ s.eval.storm = true ∨ s.picture.fused.g = none ∨ s.picture.fused.r = .unknown :=
    h5.imp_left Option.isSome_iff_ne_none.2
  unfold openChannel
  rw [if_neg h1, if_neg (by rw [h2]; exact Bool.false_ne_true), if_neg (not_not.2 h3),
    if_neg (by rw [h4]; exact Bool.false_ne_true), if_pos hheld]

theorem openRequest_none {c : Channel} {cause : Cause} {who : Requester} {n : Nat} {s : State} (h : jobOf c s = none) :
    openRequest c cause who n s = enterJob (newJob c .opening 0 cause who n s) s := by
  rw [openRequest, h]

/-! ### Switches (R173, R174) -/

theorem exec_switchInput_changed (w : SwitchId) {s : State} (hs : Settled s) :
    exec (.switchInputChange w (!(switchOf w s).input)) s = .next
      (setSwitch w (debounced { switchOf w s with input := !(switchOf w s).input }) s) := by
  have hne : ¬ (switchOf w s).input = !(switchOf w s).input := by cases (switchOf w s).input <;> decide
  refine congrArg Host.Outcome.next ((if_neg hne).trans ?_)
  have hrun : (setSwitch w { switchOf w s with input := !(switchOf w s).input } s).phase = .running := by
    cases w <;> exact hs.1
  rw [whileRunning_running hrun]
  cases w <;> exact finish_of_work (s := s) hs rfl

theorem debounced_eq (x : Switch) : debounced x =
    { x with
      debounce :=
        if x.input = true ∧ x.pressed = false ∧ x.mustRelease = false
            ∨ x.input = false ∧ (x.pressed = true ∨ x.mustRelease = true) then some 50
        else none } := by
  obtain ⟨input, pressed, mustRelease, debounce⟩ := x
  cases input <;> cases pressed <;> cases mustRelease <;> rfl

theorem released_due {w : SwitchId} {s : State} (hi : (switchOf w s).input = false)
    (hd : (switchOf w s).debounce ≠ none) : released w s =
      setSwitch w { switchOf w s with pressed := false, mustRelease := false, debounce := none } s := by
  refine if_pos ?_
  rw [hi, Option.isSome_iff_ne_none.2 hd]
  rfl

theorem released_nothing {w : SwitchId} {s : State}
    (h : (switchOf w s).input = true ∨ (switchOf w s).debounce = none) : released w s = s := by
  refine if_neg ?_
  rcases h with h | h <;> rw [h]
  · rw [Bool.not_true, Bool.and_false]
    exact Bool.false_ne_true
  · exact Bool.false_ne_true

theorem press_nothing {w : SwitchId} {s : State}
    (h : (switchOf w s).input = false ∨ (switchOf w s).debounce = none) : press w s = s := by
  refine if_neg ?_
  rcases h with h | h <;> rw [h]
  · rw [Bool.and_false]
    exact Bool.false_ne_true
  · exact Bool.false_ne_true

/-- A press taken: the switch stands pressed. -/
def pressed (w : SwitchId) (s : State) : State :=
  setSwitch w { switchOf w s with pressed := true, debounce := none } s

theorem press_taken {w : SwitchId} {s : State} (hi : (switchOf w s).input = true)
    (hd : (switchOf w s).debounce ≠ none) : press w s = pressEffect w (pressed w s) := by
  refine if_pos ?_
  rw [hi, Option.isSome_iff_ne_none.2 hd]
  rfl

theorem localChannels_congr {s t : State} (h : t.cfg = s.cfg) : localChannels t = localChannels s := by
  simp only [localChannels, chanCfg, h]

theorem begunByPerson_congr {c : Channel} {s t : State} (h1 : t.drivers = s.drivers) (h2 : t.jobs = s.jobs) :
    begunByPerson c t = begunByPerson c s := by
  simp only [begunByPerson, jobOf, h1, h2]

theorem begunByPerson_moving {c : Channel} {s : State} {m : Motion} (h : motionOf (s.drivers.get c) = some m) :
    begunByPerson c s = personal m.cause := by
  rw [begunByPerson, h]

theorem begunByPerson_rest {c : Channel} {s : State} (h : motionOf (s.drivers.get c) = none) :
    begunByPerson c s = true ↔ ∃ j, jobOf c s = some j ∧ personal j.cause = true := by
  rw [begunByPerson, h]
  dsimp only
  cases hj : jobOf c s with
  | none => exact iff_of_false Bool.false_ne_true (by rintro ⟨j, hc, -⟩; cases hc)
  | some j => exact ⟨fun hp => ⟨j, rfl, hp⟩, fun ⟨k, hk, hp⟩ => by rw [Option.some.inj hk]; exact hp⟩

theorem pressEffect_stops {w : SwitchId} {s : State} (h : ∃ c ∈ localChannels s, begunByPerson c s = true) :
    pressEffect w s = stopPress s := if_pos (List.any_eq_true.2 h)

theorem pressEffect_own {w : SwitchId} {s : State} (h : ∀ c ∈ localChannels s, begunByPerson c s = false) :
    pressEffect w s = (match w with | .swClose => pressClose s | .swOpen => pressOpen s) := by
  have hn : ¬ (localChannels s).any (fun c => begunByPerson c s) = true := by
    rw [List.any_eq_true]
    rintro ⟨c, hc, hb⟩
    rw [h c hc] at hb
    cases hb
  refine (if_neg hn).trans ?_
  cases w <;> rfl

/-- A judgement that keeps the settings judges as another does wherever these stand. -/
theorem judgeEach_congr {f g : Channel → State → Verdict × State} {k : Settings}
    (h : ∀ c s, s.cfg = k → f c s = g c s) (hk : ∀ c s, s.cfg = k → (f c s).2.cfg = k) :
    ∀ (cs : List Channel) (t : Tally) (s : State), s.cfg = k → judgeEach f cs t s = judgeEach g cs t s
  | [], _, _, _ => rfl
  | c :: cs, t, s, hs => by
    rw [judgeEach, judgeEach, ← h c s hs]
    exact judgeEach_congr h hk cs _ _ (hk c s hs)

theorem judgeEach_allRefused {e : ErrorCode} {f : Channel → State → Verdict × State} {s : State}
    (h : ∀ c, f c s = (.refused e, s)) : ∀ (cs : List Channel) (t : Tally), (judgeEach f cs t s).2 = s
      ∧ (judgeEach f cs t s).1.code = if cs = [] ∨ t.code ≠ none then t.code else some e
  | [], t => ⟨rfl, (if_pos (.inl rfl)).symm⟩
  | c :: cs, t => by
    obtain ⟨h1, h2⟩ := judgeEach_allRefused h cs
      { t with refused := t.refused ++ [c], code := if t.code = none then some e else t.code }
    rw [judgeEach_refused (h c)]
    refine ⟨h1, h2.trans ?_⟩
    cases ht : t.code <;> simp

theorem openChannel_cfg (k : Cause) (w : Requester) (c : Channel) (s : State) :
    (openChannel k w c s).2.cfg = s.cfg := by
  have hreq : (openRequest c k w 0 s).cfg = s.cfg := by
    unfold openRequest
    split <;> rfl
  unfold openChannel
  repeat' split
  case isFalse.isFalse.isFalse.isFalse.isFalse.isFalse.isFalse => exact hreq
  all_goals rfl

end Sys2Proof.Machine

open Sys2Proof Sys2Proof.Machine

/-- Settles O50: each verb by channel state. -/
theorem closeOpenStopByChannelState : Obligations.CloseOpenStopByChannelState := by
  refine ⟨fun c cause who s r d hr hd => ⟨fun h => ?_, fun p k h => ?_, fun p h => ?_, fun m t b h => ?_, fun h => ?_,
    fun h => ?_, fun m hm => ⟨fun hk => ?_, fun hk => ?_⟩, fun hdis hf => ⟨fun hl => ?_, fun hl => ⟨fun hh => ?_,
      fun hh => ⟨fun hx => ?_, fun hx => ?_⟩⟩⟩⟩, fun c s rest hrest => ?_⟩
  · have h' := hd.symm.trans h
    refine ⟨?_, if_pos h', if_pos h'⟩
    rw [closeChannel, h']
  · have h' := hd.symm.trans h
    have hdis : s.drivers.get c ≠ .disabled := by rw [h']; nofun
    have hm : motionOf (s.drivers.get c) = none := by rw [h']; rfl
    refine ⟨fun hb => ?_, fun hb hj hdem => ?_, fun hb u v hu hv => ⟨fun hdem => ?_, fun x hdem w hw => ⟨?_, fun hj => ?_⟩⟩,
      ?_, stopChannel_rest hdis hm, fun j hj => ⟨stopChannel_held hdis hm hj, fun hk u hu => ?_⟩⟩
    · rw [closeChannel_faulted h', if_pos hb]
    · rw [closeChannel_faulted h', if_neg (by rw [hb]; exact Bool.false_ne_true), clearFault_none hdem,
        queueClose_none (s := setDriver c (.idle (freshPosition c s)) s) hj, freshPosition_eq hb]
      rfl
    · rw [closeChannel_faulted h', if_neg (by rw [hb]; exact Bool.false_ne_true), clearFault_none hdem, hv, hr, hu,
        freshPosition_eq hb]
      rfl
    · rw [closeChannel_faulted h', if_neg (by rw [hb]; exact Bool.false_ne_true), clearFault_some hdem, hw, hv, hr, hu,
        freshPosition_eq hb]
      rfl
    · have hju : jobOf c u = none := by rw [hu]; exact hj
      have hwho : (if who = .absent then .absent else who) = who := by
        split
        · next h => exact h.symm
        · rfl
      rw [hw, hv, queueClose_twice hju, hr, hu]
      exact congrArg (fun w => some
        { chan := c, dir := .close, cls := max 1 x.cls, zone := (s.cfg.channels.get c).zone
          exposure := (s.eval.chans.get c).exposure
          cause := if 1 < x.cls then x.cause else cause, requester := w
          retry := 0, state := .waiting, heldBack := false : Job }) hwho
    · unfold openChannel
      rw [if_neg hdis, if_pos (by rw [h']; rfl)]
    · have hdrv : (dropJob c (giveUpClaim j s)).drivers = s.drivers := (giveUpClaim_step j s).drivers
      rw [stopChannel_job hdis hm hj, if_pos (personal_iff.2 hk),
        restore_nothing (.inr (.inr fun p => by rw [hdrv, h']; nofun)), hu]
      rfl
  · have h' := hd.symm.trans h
    have hdis : s.drivers.get c ≠ .disabled := by rw [h']; nofun
    have hm : motionOf (s.drivers.get c) = none := by rw [h']; rfl
    refine ⟨fun hp hj => ?_, fun hp => ?_, stopChannel_rest hdis hm,
      fun j hj => ⟨stopChannel_held hdis hm hj, fun hk u hu => ?_⟩⟩
    · rw [closeChannel_idle h', if_pos ⟨hp, hasOpenJob_eq_false.2 hj⟩]
    · have hn : ¬ (p = .closed ∧ hasOpenJob c s = false) := by
        rintro ⟨hc, hj⟩
        rcases hp with hp | hp
        · exact hp hc
        · rw [hasOpenJob_iff.2 hp] at hj
          cases hj
      rw [closeChannel_idle h', if_neg hn, closeRequest_rest (.inl ⟨p, h'⟩), hr]
    · rw [stopChannel_job hdis hm hj, if_pos (personal_iff.2 hk), hu]
      rfl
  · rw [closeChannel, hd.symm.trans h, hr]
  · have h' : isWarning (s.drivers.get c) = true ∨ closeDrive (s.drivers.get c) = true := hd ▸ h
    rcases h' with h' | h'
    · obtain ⟨p, m, t, h'⟩ := isWarning_iff.1 h'
      rw [closeChannel, h']
    · obtain ⟨m, t, b, h'⟩ := closeDrive_iff.1 h'
      rw [closeChannel, h']
  · rcases h with ⟨m, t, h⟩ | ⟨m, o, t, h⟩ | ⟨m, t, h⟩ <;> rw [closeChannel, hd.symm.trans h, hr]
  · rw [stopChannel_moving (hd ▸ hm), personal_eq_false hk]
    rfl
  · rw [stopChannel_moving (hd ▸ hm), if_pos (personal_iff.2 hk)]
  · exact openChannel_link (hd ▸ hdis) (hd ▸ hf) hl
  · exact openChannel_hold (hd ▸ hdis) (hd ▸ hf) hl hh
  · exact openChannel_held (hd ▸ hdis) (hd ▸ hf) hl hh hx
  · have hpass : Opening c s := ⟨hd ▸ hdis, hd ▸ hf, hl, hh, hx⟩
    refine ⟨fun hb => ?_, fun ho => ?_, fun p hp hne hj => ?_⟩
    · rw [openChannel_passed hpass, if_pos (busyClosing_iff.2 (hd ▸ hb))]
    · have hfree : ¬ busyClosing c s = true := by
        rw [busyClosing_iff, ← hd]
        rcases ho with ⟨rfl, hj⟩ | ⟨hop, hj⟩ | ⟨⟨p, rfl⟩, j, hj, hdir⟩
        · simp [hj, isWarning, closeDrive]
        · obtain ⟨m, t, b, rfl⟩ := isOpening_iff.1 hop
          simp [hj, isWarning, closeDrive]
        · simp [hj, hdir, isWarning, closeDrive]
      have hop : opensAlready c s = true := by
        rw [opensAlready_iff, ← hd]
        rcases ho with ⟨ho, -⟩ | ⟨ho, -⟩ | ⟨-, ho⟩
        · exact .inl (.inl ho)
        · exact .inl (.inr ho)
        · exact .inr ho
      rw [openChannel_passed hpass, if_neg hfree, if_pos hop]
    · have hp' := hd.symm.trans hp
      have hfree : ¬ busyClosing c s = true := by
        rw [busyClosing_iff, hp']
        simp [hj, isWarning, closeDrive]
      have hnot : ¬ opensAlready c s = true := by
        rw [opensAlready_iff, hp']
        simp [hj, hne, isOpening]
      rw [openChannel_passed hpass, if_neg hfree, if_neg hnot, openRequest_none hj]
      rfl
  · rw [hrest]
    refine ⟨fun p m t h => ?_, fun h => ?_, fun m on t h => ?_, fun m t h => ?_, fun h => ?_, ?_⟩
    · rw [stopMotion, h]
      rfl
    · rcases h with ⟨m, t, b, h⟩ | ⟨m, t, b, h⟩ | ⟨m, t, h⟩ <;> rw [stopMotion, h] <;> rfl
    · rw [stopMotion, h]
      rfl
    · rw [stopMotion, h]
      rfl
    · rcases h with h | ⟨p, h⟩ | ⟨p, k, h⟩ <;> rw [stopMotion, h]
    · rw [bothLimits, Bool.and_eq_true, Bool.and_eq_true, Bool.not_eq_true', and_assoc]
      rfl

/-- Settles O54: the debounce of an input by what it stood at, and the release. -/
theorem switchDebouncedFor50Ms : Obligations.SwitchDebouncedFor50Ms := by
  intro w s x hs hx
  rw [hx]
  refine ⟨congrArg Host.Outcome.next (if_pos rfl), ?_, fun hi hd => ?_,
    fun h => exec_nothing (f := released w) rfl hs (released_nothing h), rfl, rfl, fun y => ⟨rfl, rfl⟩⟩
  · rw [exec_switchInput_changed w hs, debounced_eq]
    simp only [Bool.not_eq_true', Bool.not_eq_false']
  · have he := released_due hi hd
    rw [exec_plain (f := released w) rfl hs (by rw [he]; cases w <;> rfl), he]

/-- Settles O55: a press by what the local channels do, and what a person has begun. -/
theorem pressStopsClosesOrOpens : Obligations.PressStopsClosesOrOpens := by
  refine ⟨fun w i s u x locals hs hi hx hlocals hu => ?_, fun c s person hp => ⟨fun m hm => ?_, fun hd => ?_⟩,
    fun what who e s => ?_⟩
  · have hexec : exec i s = .next (whileRunning (press w) s) := by
      rcases hi with ⟨rfl, rfl⟩ | ⟨rfl, rfl⟩ <;> rfl
    have hu' : u = pressed w s := by rw [hu, hx]; rfl
    have hcfg : u.cfg = s.cfg := by rw [hu']; cases w <;> rfl
    have hwork : u.work = s.work := by rw [hu']; cases w <;> rfl
    have hloc : localChannels u = locals := (localChannels_congr hcfg).trans hlocals.symm
    have hbegun : ∀ c, begunByPerson c u = begunByPerson c s := fun c =>
      begunByPerson_congr (by rw [hu']; cases w <;> rfl) (by rw [hu']; cases w <;> rfl)
    refine ⟨fun h => exec_nothing hexec hs (press_nothing (hx ▸ h)), fun hin hde => ?_⟩
    have htaken : exec i s = .next (finish (pressEffect w u)) := by
      rw [exec_settled hexec hs, press_taken (hx ▸ hin) (hx ▸ hde), hu']
    refine ⟨fun ⟨c, hc, hb⟩ => ?_, fun hb => ?_⟩
    · rw [htaken, pressEffect_stops ⟨c, hloc ▸ hc, (hbegun c).trans hb⟩, ← hloc]
      rfl
    · have hown := pressEffect_own (w := w) (s := u) fun c hc => (hbegun c).trans (hb c (hloc ▸ hc))
      refine ⟨fun hw r hr => ?_, fun hw hlo r hr => ?_, fun hw hlo => ?_⟩
      · have he : pressEffect w u = recordPress 1 r.1 r.2 := by
          rw [hown, hw, hr, ← hloc]
          rfl
        rw [htaken, he]
        unfold recordPress
        cases r.1.code <;> rfl
      · have hjudge : judgeEach pressOpenChannel locals Tally.none u = r := by
          rw [hr]
          have hsame : ∀ c t, t.cfg = u.cfg → pressOpenChannel c t = openChannel .openWall .wall c t := fun c t ht =>
            if_pos (by rw [ht, hcfg]; exact hlo)
          exact judgeEach_congr hsame (fun c t ht => by rw [hsame c t ht, openChannel_cfg, ht]) _ _ _ rfl
        have he : pressEffect w u = chirpIf r.1 (recordPress 2 r.1 r.2) := by
          rw [hown, hw, ← hjudge, ← hloc]
          rfl
        rw [htaken, he]
        unfold recordPress chirpIf
        cases r.1.code <;> rfl
      · obtain ⟨h1, h2⟩ := judgeEach_allRefused (e := .authority) (f := pressOpenChannel) (s := u)
          (fun c => if_neg (by rw [hcfg, hlo]; exact Bool.false_ne_true)) locals Tally.none
        have he : pressEffect w u = chirpIf (judgeEach pressOpenChannel locals Tally.none u).1
            (recordPress 2 (judgeEach pressOpenChannel locals Tally.none u).1 u) := by
          rw [hown, hw, ← congrArg (recordPress 2 (judgeEach pressOpenChannel locals Tally.none u).1) h1, ← hloc]
          rfl
        rw [htaken, he]
        refine congrArg Host.Outcome.next ?_
        by_cases hl : locals = []
        · rw [if_pos (.inl hl)] at h2
          unfold recordPress chirpIf
          rw [h2, if_pos hl]
          exact finish_of_work hs hwork
        · rw [if_neg (show ¬ (locals = [] ∨ Tally.none.code ≠ none) from not_or.2 ⟨hl, not_not.2 rfl⟩)] at h2
          unfold recordPress chirpIf
          rw [h2, if_neg hl]
          exact finish_of_work hs hwork
  · have hmo : motionOf (s.drivers.get c) = some m := by
      rcases hm with ⟨p, t, h⟩ | ⟨t, b, h⟩ | ⟨t, b, h⟩ | ⟨t, h⟩ | ⟨on, t, h⟩ | ⟨t, h⟩ <;> rw [h] <;> rfl
    rw [begunByPerson_moving hmo, hp, personal_iff]
  · have hmo : motionOf (s.drivers.get c) = none := by
      rcases hd with h | ⟨p, h⟩ | ⟨p, k, h⟩ <;> rw [h] <;> rfl
    rw [begunByPerson_rest hmo]
    simp only [hp, personal_iff]
  · cases who <;> rfl

end

section
/-! PROOFS. The status words (O52): how a READ is answered, what each word shows, and what an event makes of the records. -/

namespace Sys2Proof.Machine

/-! ### Words and their bytes (R137, R169) -/

theorem twoBytes_getD (w : Word) :
    ((twoBytes w.toNat).getD 0 0).toNat * 256 + ((twoBytes w.toNat).getD 1 0).toNat = w.toNat := by
  have hw := w.isLt
  show (BitVec.ofNat 8 (w.toNat / 256)).toNat * 256 + (BitVec.ofNat 8 w.toNat).toNat = w.toNat
  rw [BitVec.toNat_ofNat, BitVec.toNat_ofNat]
  omega

theorem statusBytes_length (s : State) : ∀ n i : Nat, (statusBytes s i n).length = 2 * n
  | 0, _ => rfl
  | n + 1, i => by
    rw [statusBytes, List.length_append, statusBytes_length s n (i + 1)]
    show 2 + 2 * n = 2 * (n + 1)
    omega

theorem statusBytes_getD (s : State) : ∀ n start i : Nat, i < n →
    ((statusBytes s start n).getD (2 * i) 0).toNat * 256 + ((statusBytes s start n).getD (2 * i + 1) 0).toNat
      = (statusWord s (start + i)).toNat
  | 0, _, _, h => absurd h (Nat.not_lt_zero _)
  | n + 1, start, 0, _ => twoBytes_getD (statusWord s start)
  | n + 1, start, i + 1, h => by
    have ih := statusBytes_getD s n (start + 1) i (Nat.lt_of_succ_lt_succ h)
    rw [show start + 1 + i = start + (i + 1) by omega] at ih
    exact ih

theorem pairWord_eq (hi lo : Nat) : pairWord hi lo = BitVec.ofNat 8 hi ++ BitVec.ofNat 8 lo := by
  refine BitVec.eq_of_toNat_eq ?_
  have hl : lo % 2 ^ 8 < 2 ^ 8 := Nat.mod_lt _ (by decide)
  rw [BitVec.toNat_append, BitVec.toNat_ofNat, BitVec.toNat_ofNat, ← Nat.shiftLeft_add_eq_or_of_lt hl, Nat.shiftLeft_eq]
  show (BitVec.ofNat 16 (hi % 256 * 256 + lo % 256)).toNat = _
  rw [BitVec.toNat_ofNat]
  omega

/-! ### Words that stand for a channel, an event or a slot (R176, R177) -/

theorem statusWord_channel (s : State) (c : Channel) : statusWord s (11 + c.val) = channelWord c s := by
  fin_cases c <;> rfl

theorem statusWord_exposure (s : State) (c : Channel) :
    statusWord s (19 + c.val) = knownWord (s.eval.chans.get c).exposure := by
  fin_cases c <;> rfl

theorem statusWord_slot (s : State) (k : SlotId) : statusWord s (42 + k.val) = slotWord (s.picture.slots.get k) := by
  fin_cases k <;> rfl

theorem eventNumber_inj {a b : Event} (h : eventNumber a = eventNumber b) : a = b := by
  have hlist : ∀ x : Event, [Event.obstruction, .travelFault, .limitFault, .openBlocked, .rainLineFault, .sourceLost,
      .isolated, .duplicateStation, .txDropped, .txOverflow, .rxError, .claimExpired, .overBudget, .configClamped,
      .requestRefused, .storm][eventNumber x]? = some x := fun x => by cases x <;> rfl
  exact Option.some.inj ((hlist a).symm.trans (h ▸ hlist b))

/-- An even event and the next one share a word. -/
theorem statusWord_counters (s : State) {a b : Event} (ha : eventNumber a % 2 = 0)
    (hb : eventNumber b = eventNumber a + 1) : statusWord s (28 + eventNumber a / 2) =
      pairWord (counterOf s.status.counters a) (counterOf s.status.counters b) := by
  cases a
  case obstruction => rw [eventNumber_inj (b := .travelFault) hb]; rfl
  case limitFault => rw [eventNumber_inj (b := .openBlocked) hb]; rfl
  case rainLineFault => rw [eventNumber_inj (b := .sourceLost) hb]; rfl
  case isolated => rw [eventNumber_inj (b := .duplicateStation) hb]; rfl
  case txDropped => rw [eventNumber_inj (b := .txOverflow) hb]; rfl
  case rxError => rw [eventNumber_inj (b := .claimExpired) hb]; rfl
  case overBudget => rw [eventNumber_inj (b := .configClamped) hb]; rfl
  case requestRefused => rw [eventNumber_inj (b := .storm) hb]; rfl
  all_goals exact absurd ha (by decide)

theorem holdMinutes_eq {s : State} {ms minutes : Nat} (h : s.requests.hold = some ms) (h1 : ms ≤ minutes * 60000)
    (h2 : minutes * 60000 < ms + 60000) : holdMinutes s = minutes := by
  rw [holdMinutes, h]
  show (ms + 59999) / 60000 = minutes
  omega

/-! ### READ (R169) -/

theorem takeRead_words {q : Asked} {n start count : Byte} (h1 : 1 ≤ count.toNat) (h9 : count.toNat ≤ 9)
    (h : start.toNat + count.toNat - 1 ≤ 49) (s : State) : takeRead q [n, start, count] s =
      answer q
        { number := n, what := 6, code := none, accepted := 0, refused := 0
          data := statusBytes s start.toNat count.toNat } s :=
  (if_neg (by omega)).trans (if_neg (by omega))

/-! ### Events (R178, R179) -/

theorem raiseEvent_bit (e : Event) (s : State) {n : Nat} (hn : n < 16) :
    (raiseEvent e s).status.flags.getLsbD n = (s.status.flags.getLsbD n || decide (n = eventNumber e)) := by
  rw [raiseEvent_flags, BitVec.getLsbD_or, eventFlag_bit e hn]

theorem raiseEvent_counter (e a : Event) (s : State) : counterOf (raiseEvent e s).status.counters a =
    if a = e then satSucc Config.counterMax (counterOf s.status.counters e) else counterOf s.status.counters a := by
  rw [raiseEvent_counters, counterOf_bump]

end Sys2Proof.Machine

open Sys2Proof Sys2Proof.Machine

/-- Settles O52: READ by its range, each word by its number, and an event by its flag and counter. -/
theorem readAnswersStatusWords : Obligations.ReadAnswersStatusWords := by
  refine ⟨fun h n start count s hf hto => ⟨fun hc => ?_, fun h1 h9 hr => ?_, fun h1 h9 hr => ?_⟩,
    fun two s htwo => ?_, by decide, by decide, fun e s t ht => ?_⟩
  · have hc' : count.toNat = 0 ∨ 9 < count.toNat := hc.imp_left byte_eq_zero_iff.1
    rw [exec_read hf hto]
    exact congrArg (fun t => Host.Outcome.next (finish t)) (if_pos hc')
  · rw [exec_read hf hto]
    exact congrArg (fun t => Host.Outcome.next (finish t)) ((if_neg (by omega)).trans (if_pos hr))
  · refine ⟨statusBytes (counted s) start.toNat count.toNat, ?_, statusBytes_length _ _ _,
      fun i hi => statusBytes_getD _ _ _ i hi⟩
    rw [exec_read hf hto, takeRead_words h1 h9 hr]
  · have hpair : ∀ hi lo, pairWord hi lo = two hi lo := fun hi lo => by rw [htwo]; exact pairWord_eq hi lo
    have hstorm : s.eval.storm.toNat = if s.eval.storm then 1 else 0 := by cases s.eval.storm <;> rfl
    refine ⟨rfl, hpair _ _, fun r hr => ?_, rfl, rfl, ?_, ?_, fun hj => ?_, fun j js hj => ?_, fun hg => ?_, fun g hg => ?_,
      ?_, fun hh => ?_, fun ms minutes hh h1 h2 => ?_, fun c position cause hpos hcause => ?_,
      fun c => ⟨fun he => ?_, fun e he => ?_⟩, rfl,
      fun a b ha hb => (statusWord_counters s ha hb).trans (hpair _ _), fun he => ?_, fun e he => ?_, ?_, rfl, rfl, rfl, rfl,
      fun k => ?_⟩
    · rw [← hpair]
      show pairWord (linkCode s.link.state) (loadCode s.loader.result) = pairWord _ _
      rw [hr]
      cases s.link.state <;> cases r <;> rfl
    · show toWord (drawSum counts s.supply.entries) = _
      rw [counts_eq]
      rfl
    · rw [← hpair, List.countP_eq_length_filter]
      rfl
    · show pairWord s.jobs.length (headChannel s) = 0
      rw [headChannel, hj]
      decide
    · rw [← hpair]
      show pairWord s.jobs.length (headChannel s) = _
      rw [headChannel, hj]
      rfl
    · show knownWord s.picture.fused.g = _
      rw [hg]
      rfl
    · show knownWord s.picture.fused.g = _
      rw [hg]
      rfl
    · rw [← hpair]
      show pairWord _ (rainPictureCode s.picture.fused.r) = pairWord _ _
      cases s.picture.fused.r <;> rfl
    · have hz : holdMinutes s = 0 := by rw [holdMinutes, hh]
      rw [← hpair, ← hstorm, ← hz]
      rfl
    · rw [← hpair, ← hstorm, ← holdMinutes_eq hh h1 h2]
      rfl
    · have hposition : ∀ p, positionCode p = position p := fun p => by rw [hpos]; cases p <;> rfl
      have hcauses : ∀ k, causeCode k = cause k := fun k => by rw [hcause]; cases k <;> rfl
      rw [statusWord_channel, channelWord, hpair]
      cases s.drivers.get c with
      | disabled => rfl
      | idle p =>
        refine congrArg₂ two (congrArg _ (hposition p)) ?_
        cases (s.eval.chans.get c).demand with
        | none => rfl
        | some d => exact hcauses d.cause
      | warning p m l => exact congrArg₂ two (congrArg _ (hposition p)) (hcauses m.cause)
      | closing m l b => exact congrArg (two 0x32) (hcauses m.cause)
      | opening m l b => exact congrArg (two 0x42) (hcauses m.cause)
      | brake m l => exact congrArg (two 0x52) (hcauses m.cause)
      | backoff m o l => exact congrArg (two 0x62) (hcauses m.cause)
      | blocked m l => exact congrArg (two 0x72) (hcauses m.cause)
      | faulted p k =>
        refine congrArg₂ two (congrArg _ (hposition p)) ?_
        cases k <;> rfl
    · rw [statusWord_exposure, he]
      rfl
    · rw [statusWord_exposure, he]
      rfl
    · rw [← hpair]
      show pairWord ((s.status.errorCode.map errorNumber).getD 0) s.status.errorSource = _
      rw [he]
      rfl
    · rw [← hpair]
      show pairWord ((s.status.errorCode.map errorNumber).getD 0) s.status.errorSource = _
      rw [he]
      rfl
    · rw [← hpair]
      show pairWord s.status.refusedWhat (requesterCode s.status.refusedBy) = pairWord _ _
      cases s.status.refusedBy <;> rfl
    · rw [← hpair, statusWord_slot, slotWord]
      cases (s.picture.slots.get k).entry <;> rfl
  · rw [ht]
    refine ⟨rfl, fun n hn => raiseEvent_bit e s hn, fun a ha => ?_, fun hlt => ?_, fun hge => ?_,
      fun code source => ⟨rfl, rfl, rfl⟩⟩
    · rw [raiseEvent_counter, if_neg ha]
    · rw [raiseEvent_counter, if_pos rfl]
      exact if_pos hlt
    · rw [raiseEvent_counter, if_pos rfl]
      exact if_neg (Nat.not_lt.2 hge)

end

section
/-! PROOFS. The contention check (O35): the order of its stages, who gives way in each, and what it leaves of the table. -/

namespace Sys2Proof.Machine

/-! ### Ascending precedence (R99, R102) -/

theorem outranks_asymm {a b : Entry} (h : outranks a b = true) : outranks b a = false := by
  rw [Bool.eq_false_iff]
  intro h'
  rw [outranks_iff] at h h'
  omega

theorem placeEntry_sorted (e : Entry) : ∀ es : List Entry, es.Pairwise (fun a b => outranks a b = false) →
    (placeEntry e es).Pairwise (fun a b => outranks a b = false)
  | [], _ => List.pairwise_singleton _ _
  | x :: xs, h => by
    obtain ⟨hx, hxs⟩ := List.pairwise_cons.1 h
    unfold placeEntry
    split
    · next hxe =>
      refine List.pairwise_cons.2 ⟨fun y hy => ?_, h⟩
      rcases List.mem_cons.1 hy with rfl | hy
      · exact outranks_asymm hxe
      · refine Bool.eq_false_iff.2 fun hey => ?_
        exact Bool.false_ne_true ((hx y hy).symm.trans (outranks_trans hxe hey))
    · next hxe =>
      refine List.pairwise_cons.2 ⟨fun y hy => ?_, placeEntry_sorted e xs hxs⟩
      rcases List.mem_cons.1 ((placeEntry_perm e xs).mem_iff.1 hy) with rfl | hy
      · exact Bool.eq_false_iff.2 hxe
      · exact hx y hy

theorem ascending_sorted : ∀ es : List Entry, (ascending es).Pairwise (fun a b => outranks a b = false)
  | [] => .nil
  | e :: es => placeEntry_sorted e _ (ascending_sorted es)

/-! ### Who is still to give way -/

/-- Two entries of one owner and key: of the same channel where they are own, of the same key where they are not. -/
def Matches (e x : Entry) : Prop :=
  e.own = x.own ∧ (x.own = true → e.chan = x.chan) ∧ (x.own = false → e.station = x.station ∧ e.tag = x.tag)

/-- Every entry of a kind stands in the list that is still to be taken. -/
def Remains (p : Entry → Bool) (es : List Entry) (s : State) : Prop :=
  ∀ x ∈ s.supply.entries, p x = true → ∃ e ∈ es, Matches e x

theorem Remains.start (p : Entry → Bool) (s : State) : Remains p (ascending (s.supply.entries.filter p)) s :=
  fun x hx hp => ⟨x, (ascending_perm _).mem_iff.2 (List.mem_filter.2 ⟨hx, hp⟩), rfl, fun _ => rfl, fun _ => ⟨rfl, rfl⟩⟩

/-- An own entry taken leaves the table. -/
theorem Remains.removed {p : Entry → Bool} (hp : ∀ e, p (entryCore e) = p e) {e : Entry} {es : List Entry} {s t : State}
    (h : Remains p (e :: es) s) (ho : e.own = true) (ht : Shrinks (removeEntries (isOwnOf e.chan) s) t) :
    Remains p es t := by
  intro x hx hpx
  obtain ⟨y, hy, hcore⟩ := ht.mem hx
  obtain ⟨hown, hchan, -, hstation, htag⟩ := entryCore_eq hcore
  rw [removeEntries_entries, List.mem_filter] at hy
  obtain ⟨hys, hyk⟩ := hy
  obtain ⟨e', he', hm⟩ := h y hys (by rw [← hp, hcore, hp]; exact hpx)
  rcases List.mem_cons.1 he' with rfl | he'
  · have hyo : y.own = true := hm.1.symm.trans ho
    rw [isOwnOf, hyo, ← hm.2.1 hyo] at hyk
    simp at hyk
  · obtain ⟨h1, h2, h3⟩ := hm
    rw [hown, hchan] at *
    rw [hstation, htag] at h3
    exact ⟨e', he', h1, h2, h3⟩

/-- The peer entry taken is YIELDING. -/
theorem Remains.yielded {e : Entry} {es : List Entry} {s : State} (h : Remains isSettling (e :: es) s)
    (ho : e.own = false) : Remains isSettling es
      (changeEntries (isPeerKey e.station e.tag) (fun x => { x with state := .yielding }) s) := by
  intro x hx hpx
  rw [changeEntries_entries, List.mem_map] at hx
  obtain ⟨y, hy, rfl⟩ := hx
  by_cases hk : isPeerKey e.station e.tag y = true
  · rw [if_pos hk] at hpx
    cases hpx
  · rw [if_neg hk] at hpx ⊢
    obtain ⟨e', he', hm⟩ := h y hy hpx
    rcases List.mem_cons.1 he' with rfl | he'
    · have hyo : y.own = false := hm.1.symm.trans ho
      obtain ⟨hst, htag⟩ := hm.2.2 hyo
      exact absurd (by simp [isPeerKey, hyo, hst, htag]) hk
    · exact ⟨e', he', hm⟩

theorem drawSum_map_le {p : Entry → Bool} {f : Entry → Entry} (hf : ∀ e, p (f e) = true → p e = true ∧ (f e).draw = e.draw) :
    ∀ es : List Entry, drawSum p (es.map f) ≤ drawSum p es
  | [] => le_rfl
  | e :: es => by
    have ih := drawSum_map_le hf es
    rw [List.map_cons, drawSum_cons, drawSum_cons]
    by_cases h : p (f e) = true
    · rw [if_pos h, if_pos (hf e h).1, (hf e h).2]
      omega
    · rw [if_neg h]
      omega

/-! ### The second stage (R102) -/

theorem secondStage_own {s : State} {e : Entry} (h : s.cfg.budget < totalT s) (ho : e.own = true) :
    secondStage s e = withdrawClaim e.chan true s := by
  rw [secondStage, if_pos h, if_pos ho]

theorem secondStage_peer {s : State} {e : Entry} (h : s.cfg.budget < totalT s) (ho : e.own = false) :
    secondStage s e =
      wantScan (changeEntries (isPeerKey e.station e.tag) (fun x => { x with state := .yielding }) s) := by
  rw [secondStage, if_pos h, if_neg (by rw [ho]; exact Bool.false_ne_true)]

theorem secondStage_totalT_le (s : State) (e : Entry) : totalT (secondStage s e) ≤ totalT s := by
  by_cases h : s.cfg.budget < totalT s
  · cases ho : e.own with
    | true =>
      rw [secondStage_own h ho]
      exact (withdrawClaim_shrinks ..).totalT
    | false =>
      rw [secondStage_peer h ho]
      refine drawSum_map_le (fun x hx => ?_) s.supply.entries
      by_cases hk : isPeerKey e.station e.tag x = true
      · rw [if_pos hk] at hx
        cases hx
      · rw [if_neg hk] at hx ⊢
        exact ⟨hx, rfl⟩
  · rw [secondStage_within (Nat.not_lt.1 h)]

theorem secondStage_remains {s : State} {e : Entry} {es : List Entry} (h : s.cfg.budget < totalT s)
    (hr : Remains isSettling (e :: es) s) : Remains isSettling es (secondStage s e) := by
  cases ho : e.own with
  | true =>
    rw [secondStage_own h ho]
    exact hr.removed (fun _ => rfl) ho (removeOwn_removes e.chan true s)
  | false =>
    rw [secondStage_peer h ho]
    exact hr.yielded ho

theorem secondStages_totalT_le : ∀ (es : List Entry) (s : State), totalT (es.foldl secondStage s) ≤ totalT s
  | [], _ => le_rfl
  | e :: es, s => (secondStages_totalT_le es _).trans (secondStage_totalT_le s e)

/-- Where T stays over B, every SETTLING entry has given way. -/
theorem secondStages_settle : ∀ (es : List Entry) (s : State), Remains isSettling es s →
    s.cfg.budget < totalT (es.foldl secondStage s) →
    ∀ x ∈ (es.foldl secondStage s).supply.entries, isSettling x = false
  | [], s, hr, _, x, hx => by
    refine Bool.eq_false_iff.2 fun hp => ?_
    obtain ⟨e, he, -⟩ := hr x hx hp
    cases he
  | e :: es, s, hr, h, x, hx => by
    have hT : s.cfg.budget < totalT s := h.trans_le (secondStages_totalT_le (e :: es) s)
    refine secondStages_settle es (secondStage s e) (secondStage_remains hT hr) ?_ x hx
    rw [(secondStage_step s e).cfg]
    exact h

/-! ### The reassertion (R103) -/

theorem reassertOne_shrinks (s : State) (e : Entry) : Shrinks s (reassertOne s e) := by
  unfold reassertOne
  have hc : Shrinks s (changeEntries (isOwnOf e.chan) (fun x => { x with reasserted := true }) s) :=
    .changeEntries _ (fun _ => by rfl) s
  split
  · dsimp only
    split
    · exact hc
    · exact hc.trans (queueClaim_shrinks ..)
  · exact .refl s

theorem foldl_shrinks {α : Type} {f : State → α → State} (hf : ∀ s a, Shrinks s (f s a)) :
    ∀ (l : List α) (s : State), Shrinks s (l.foldl f s)
  | [], s => .refl s
  | a :: l, s => (hf s a).trans (foldl_shrinks hf l _)

/-! ### The pause of a motion (R76, R105, R130) -/

/-- A channel whose motion has ended in a pause, its entry given up and the record made. -/
def paused (c : Channel) (source : Nat) (d : Driver) (s : State) : State :=
  raiseError .overBudget .overBudget source (removeOwn c true (setDriver c d s))

theorem requeue_shrinks (c : Channel) (d : Driver) (s : State) : Shrinks s (requeue c d s) := by
  cases d with
  | warning p m t => exact queueClose_shrinks ..
  | closing m t b => exact queueClose_shrinks ..
  | brake m t => exact queueClose_shrinks ..
  | opening m t b =>
    show Shrinks s (if openingAllowed c s then openRequest c m.cause m.requester m.retry s else s)
    split
    · exact openRequest_shrinks ..
    · exact .refl s
  | backoff m o t => exact rejudge_shrinks ..
  | disabled => exact .refl s
  | idle p => exact .refl s
  | blocked m t => exact .refl s
  | faulted p k => exact .refl s

theorem backoffError_eq (m : Motion) (s : State) : backoffError m s =
    { s with status := (backoffError m s).status } := by
  unfold backoffError
  split <;> rfl

/-- What a pause makes of the state before the motion is put back: records and the channel's driver alone. -/
theorem pauseMotion_eq (c : Channel) (source : Nat) (s : State) : ∃ (r : Status) (d : Driver),
    pauseMotion c source s = requeue c (s.drivers.get c) (paused c source d { s with status := r }) := by
  unfold pauseMotion
  dsimp only
  split
  · next m o t hd =>
    rw [backoffError_eq]
    exact ⟨_, _, rfl⟩
  all_goals exact ⟨s.status, _, rfl⟩

theorem pauseMotion_removes (c : Channel) (source : Nat) (s : State) :
    Shrinks (removeEntries (isOwnOf c) s) (pauseMotion c source s) := by
  obtain ⟨r, d, h⟩ := pauseMotion_eq c source s
  rw [h]
  have hp : Shrinks (removeEntries (isOwnOf c) s) (paused c source d { s with status := r }) :=
    removeOwn_removes c true (setDriver c d { s with status := r })
  exact hp.trans (requeue_shrinks ..)

theorem pauseMotion_warning {c : Channel} {source : Nat} {s : State} {p : Position} {m : Motion} {t : Nat}
    (h : s.drivers.get c = .warning p m t) : pauseMotion c source s =
      queueClose c { cls := m.cls, cause := m.cause, who := m.requester, retry := m.retry, clears := false }
        (paused c source (.idle (settled c p s)) s) := by
  rw [pauseMotion, h]
  rfl

theorem pauseMotion_close {c : Channel} {source : Nat} {s : State} {m : Motion}
    (h : (∃ t b, s.drivers.get c = .closing m t b) ∨ ∃ t, s.drivers.get c = .brake m t) : pauseMotion c source s =
      queueClose c { cls := m.cls, cause := m.cause, who := m.requester, retry := m.retry, clears := false }
        (paused c source (.idle (settled c .part s)) s) := by
  rcases h with ⟨t, b, h⟩ | ⟨t, h⟩ <;> rw [pauseMotion, h] <;> rfl

theorem pauseMotion_opening {c : Channel} {source : Nat} {s : State} {m : Motion} {t : Nat} {b : Option Nat}
    (h : s.drivers.get c = .opening m t b) : pauseMotion c source s =
      if openingAllowed c (paused c source (.idle (settled c .part s)) s) then
        openRequest c m.cause m.requester m.retry (paused c source (.idle (settled c .part s)) s)
      else paused c source (.idle (settled c .part s)) s := by
  rw [pauseMotion, h]
  rfl

theorem pauseMotion_backoff {c : Channel} {source : Nat} {s : State} {m : Motion} {on : Bool} {t : Nat}
    (h : s.drivers.get c = .backoff m on t) : pauseMotion c source s =
      rejudge c (paused c source (afterBackoff c m (backoffError m s)) (backoffError m s)) := by
  rw [pauseMotion, h]
  rfl

/-! ### The third stage (R104) -/

theorem thirdStage_own {n : Nat} {e : Entry} {es : List Entry} {s : State} (h : s.cfg.budget < heldTotal s)
    (ho : e.own = true) : thirdStage n (e :: es) s = thirdStage n es (pauseMotion e.chan n s) := by
  rw [thirdStage, if_pos h, if_pos ho]

theorem thirdStage_peer {n : Nat} {e : Entry} {es : List Entry} {s : State} (h : s.cfg.budget < heldTotal s)
    (ho : e.own = false) : thirdStage n (e :: es) s =
      if s.supply.heldExcess then s
      else raiseEvent .overBudget { s with supply := { s.supply with heldExcess := true } } := by
  rw [thirdStage, if_pos h, if_neg (by rw [ho]; exact Bool.false_ne_true)]

theorem thirdStage_shrinks (n : Nat) : ∀ (es : List Entry) (s : State), Shrinks s (thirdStage n es s)
  | [], s => .refl s
  | e :: es, s => by
    by_cases h : s.cfg.budget < heldTotal s
    · cases ho : e.own with
      | true =>
        rw [thirdStage_own h ho]
        exact ((Shrinks.removeEntries _ s).trans (pauseMotion_removes ..)).trans (thirdStage_shrinks n es _)
      | false =>
        rw [thirdStage_peer h ho]
        split
        · exact .refl s
        · exact .of_entries rfl
    · rw [thirdStage_within (Nat.not_lt.1 h)]
      exact .refl s

theorem heldTotal_of_none {s : State} (h : ∀ x ∈ s.supply.entries, ¬ isHeld x = true) : heldTotal s = 0 := by
  unfold heldTotal drawSum
  rw [List.filter_eq_nil_iff.2 h]
  rfl

/-- Where the HELD total stays over B, the stage has come to a peer's entry. -/
theorem thirdStage_marks (n : Nat) : ∀ (es : List Entry) (s : State), Remains isHeld es s →
    s.cfg.budget < heldTotal (thirdStage n es s) → (thirdStage n es s).supply.heldExcess = true
  | [], s, hr, h => by
    have hnone : heldTotal s = 0 := heldTotal_of_none fun x hx hp => by
      obtain ⟨e, he, -⟩ := hr x hx hp
      cases he
    rw [thirdStage, hnone] at h
    exact absurd h (Nat.not_lt_zero _)
  | e :: es, s, hr, h => by
    by_cases hT : s.cfg.budget < heldTotal s
    · cases ho : e.own with
      | true =>
        rw [thirdStage_own hT ho] at h ⊢
        refine thirdStage_marks n es _ (hr.removed (fun _ => rfl) ho (pauseMotion_removes ..)) ?_
        rw [(pauseMotion_frame e.chan n s).cfg]
        exact h
      | false =>
        rw [thirdStage_peer hT ho]
        split
        · next hm => exact hm
        · rfl
    · rw [thirdStage_within (Nat.not_lt.1 hT)] at h
      exact absurd h hT

/-! ### The check (R100 to R104) -/

/-- The state after the first stage. -/
def afterFirst (s : State) : State := (announcingChannels s).foldl firstStage s

/-- The state after the second stage. -/
def afterSecond (s : State) : State :=
  (ascending ((afterFirst s).supply.entries.filter isSettling)).foldl secondStage (afterFirst s)

/-- The state after the reassertion. -/
def afterReassert (s : State) : State :=
  if yieldingCount (afterFirst s) < yieldingCount (afterSecond s) then reassert (afterSecond s) else afterSecond s

/-- The state after the third stage. -/
def afterThird (n : Nat) (s : State) : State :=
  thirdStage n (ascending ((afterReassert s).supply.entries.filter isHeld)) (afterReassert s)

theorem contention_eq (n : Nat) (s : State) : contention n s = clearExcess (afterThird n s) := rfl

theorem clearExcess_entries (s : State) : (clearExcess s).supply.entries = s.supply.entries := by
  unfold clearExcess
  split <;> rfl

theorem afterFirst_step (s : State) : QueueStep s (afterFirst s) := by
  unfold afterFirst
  generalize announcingChannels s = l
  induction l generalizing s with
  | nil => exact .refl s
  | cons c l ih => exact (firstStage_step s c).trans (ih _)

theorem afterSecond_step (s : State) : QueueStep (afterFirst s) (afterSecond s) := by
  unfold afterSecond
  generalize ascending _ = l
  generalize afterFirst s = t
  induction l generalizing t with
  | nil => exact .refl t
  | cons e l ih => exact (secondStage_step t e).trans (ih _)

theorem afterReassert_step (s : State) : QueueStep (afterSecond s) (afterReassert s) := by
  unfold afterReassert
  split
  · exact reassert_step _
  · exact .refl _

theorem afterReassert_shrinks (s : State) : Shrinks (afterSecond s) (afterReassert s) := by
  unfold afterReassert
  split
  · exact foldl_shrinks reassertOne_shrinks _ _
  · exact .refl _

theorem afterFirst_cfg (s : State) : (afterFirst s).cfg = s.cfg := (afterFirst_step s).cfg

theorem afterReassert_cfg (s : State) : (afterReassert s).cfg = s.cfg := by
  rw [(afterReassert_step s).cfg, (afterSecond_step s).cfg, afterFirst_cfg]

theorem afterThird_cfg (n : Nat) (s : State) : (afterThird n s).cfg = s.cfg := by
  rw [afterThird, (thirdStage_step n _ _).cfg, afterReassert_cfg]

theorem isSettling_congr {x y : Entry} (h : y.state = x.state) : isSettling y = isSettling x := by
  unfold isSettling
  rw [h]

theorem afterThird_shrinks (n : Nat) (s : State) : Shrinks (afterSecond s) (afterThird n s) :=
  (afterReassert_shrinks s).trans (thirdStage_shrinks n _ _)

/-- A check that leaves T over B leaves no entry SETTLING. -/
theorem afterThird_settled {n : Nat} {s : State} (h : s.cfg.budget < totalT (afterThird n s)) :
    ∀ e ∈ (afterThird n s).supply.entries, isSettling e = false := by
  have hsh := afterThird_shrinks n s
  have hover : (afterFirst s).cfg.budget < totalT (afterSecond s) := by
    rw [afterFirst_cfg]
    exact h.trans_le hsh.totalT
  have hnone : ∀ x ∈ (afterSecond s).supply.entries, isSettling x = false :=
    secondStages_settle _ (afterFirst s) (Remains.start isSettling (afterFirst s)) hover
  intro e he
  obtain ⟨y, hy, hcore⟩ := hsh.mem he
  obtain ⟨-, -, hstate, -⟩ := entryCore_eq hcore
  rw [← isSettling_congr hstate]
  exact hnone y hy

theorem afterThird_marked {n : Nat} {s : State} (h : s.cfg.budget < heldTotal (afterThird n s)) :
    (afterThird n s).supply.heldExcess = true := by
  refine thirdStage_marks n _ _ (Remains.start isHeld (afterReassert s)) ?_
  rw [afterReassert_cfg]
  exact h

theorem clearExcess_within {s : State} (h : heldTotal s ≤ s.cfg.budget) :
    clearExcess s = { s with supply := { s.supply with heldExcess := false } } := if_pos h

theorem clearExcess_over {s : State} (h : s.cfg.budget < heldTotal s) : clearExcess s = s := if_neg (Nat.not_le.2 h)

/-- What a check leaves: the entries of its third stage, and the marker by their HELD total. -/
theorem contention_leaves (n : Nat) (s : State) :
    (contention n s).supply.entries = (afterThird n s).supply.entries
      ∧ (heldTotal (contention n s) ≤ s.cfg.budget → (contention n s).supply.heldExcess = false)
      ∧ (s.cfg.budget < heldTotal (contention n s) → (contention n s).supply.heldExcess = true) := by
  have hmark := afterThird_marked (n := n) (s := s)
  have hcfg := afterThird_cfg n s
  rw [contention_eq]
  generalize afterThird n s = t at hmark hcfg ⊢
  by_cases h : heldTotal t ≤ t.cfg.budget
  · rw [clearExcess_within h, ← hcfg]
    exact ⟨rfl, fun _ => rfl, fun hc => absurd hc (Nat.not_lt.2 h)⟩
  · rw [clearExcess_over (Nat.not_le.1 h), ← hcfg]
    rw [← hcfg] at hmark
    exact ⟨rfl, fun hc => absurd hc h, hmark⟩

theorem announcingChannels_eq (s : State) : announcingChannels s =
    ((s.jobs.filter (fun j => decide (j.state = .announcing))).map Job.chan).reverse := by
  refine congrArg (fun l : List Job => (l.map Job.chan).reverse) (List.filter_congr fun j _ => ?_)
  rw [Bool.eq_iff_iff, beq_iff_eq, decide_eq_true_iff]

theorem yieldingCount_eq (s : State) :
    yieldingCount s = s.supply.entries.countP (fun e => decide (e.state = .yielding)) := by
  rw [List.countP_eq_length_filter]
  refine congrArg List.length (List.filter_congr fun e _ => ?_)
  rw [Bool.eq_iff_iff, beq_iff_eq, decide_eq_true_iff]

theorem reassertOne_asks {s : State} {e : Entry} (ho : e.own = true) (hs : isSettling e = true)
    (hr : e.reasserted = false) : reassertOne s e =
      if s.link.state = .mute then
        changeEntries (isOwnOf e.chan) (fun x => { x with reasserted := true }) s
      else queueClaim e true (changeEntries (isOwnOf e.chan) (fun x => { x with reasserted := true }) s) := by
  unfold reassertOne
  rw [if_pos (by rw [ho, hs, hr]; rfl)]
  rfl

theorem reassertOne_nothing {s : State} {e : Entry}
    (h : e.own = false ∨ isSettling e = false ∨ e.reasserted = true) : reassertOne s e = s := by
  refine if_neg ?_
  rw [Bool.and_eq_true, Bool.and_eq_true, Bool.not_eq_true']
  rintro ⟨⟨ho, hs⟩, hr⟩
  rcases h with h | h | h
  · rw [ho] at h
    cases h
  · rw [hs] at h
    cases h
  · rw [hr] at h
    cases h

/-! ### A pause in BACKOFF (R118, R130) -/

theorem pauseMotion_backoff_faults {c : Channel} {source : Nat} {s : State} {m : Motion} {on : Bool} {t : Nat}
    (h : s.drivers.get c = .backoff m on t) (hn : s.cfg.obstrRetries < attemptOf m) : pauseMotion c source s =
      rejudge c (paused c source (.faulted .part .obstructed)
        (recordError .obstructedFinal (requesterSource m.requester) s)) := by
  have he : backoffError m s = recordError .obstructedFinal (requesterSource m.requester) s := if_pos hn
  have hd : afterBackoff c m (recordError .obstructedFinal (requesterSource m.requester) s) =
      .faulted .part .obstructed := if_pos hn
  rw [pauseMotion_backoff h, he, hd]

theorem pauseMotion_backoff_ends {c : Channel} {source : Nat} {s : State} {m : Motion} {on : Bool} {t : Nat}
    (h : s.drivers.get c = .backoff m on t) (hn : attemptOf m ≤ s.cfg.obstrRetries) : pauseMotion c source s =
      rejudge c (paused c source
        (if m.stopAtEnd then .idle (settled c .part s) else .blocked m (retryDelayMs s.cfg (attemptOf m))) s) := by
  have he : backoffError m s = s := if_neg (Nat.not_lt.2 hn)
  have hd : afterBackoff c m s =
      if m.stopAtEnd then .idle (settled c .part s) else .blocked m (retryDelayMs s.cfg (attemptOf m)) :=
    if_neg (Nat.not_lt.2 hn)
  rw [pauseMotion_backoff h, he, hd]

end Sys2Proof.Machine

open Sys2Proof Sys2Proof.Machine

/-- Settles O35: what a check leaves, by the entries still to give way in each stage; its stages; and the pause. -/
theorem contentionSettlesOrMarksExcess : Obligations.ContentionSettlesOrMarksExcess := by
  refine ⟨fun source s t ht => ⟨fun h => ht.trans (contention_within h), fun h e he => ?_, fun h => ?_, fun h => ?_⟩,
    fun es => ⟨ascending_perm es, ascending_sorted es⟩, fun source s s1 s2 s3 s4 h1 h2 h3 h4 => ?_,
    fun c s u hu => ⟨firstStage_within, fun h => ?_⟩,
    fun e s u hu => ⟨secondStage_within, fun h ho => ?_, fun h ho => (secondStage_peer h ho).trans rfl⟩,
    fun e s u hu => ⟨reassertOne_nothing, fun ho hs hr => ?_⟩,
    fun source e es s => ⟨rfl, fun h => thirdStage_within h _, thirdStage_own, thirdStage_peer⟩,
    fun c source s gone hgone => ⟨fun p m t h => ?_, fun m h => ?_, fun m t b u h hu => ?_, fun m on t n h hn => ?_⟩⟩
  · rw [ht] at he h
    obtain ⟨hentries, -⟩ := contention_leaves source s
    rw [hentries] at he
    have hT : totalT (contention source s) = totalT (afterThird source s) := congrArg (drawSum counts) hentries
    rw [hT] at h
    exact afterThird_settled h e he
  · rw [ht] at h ⊢
    exact (contention_leaves source s).2.1 h
  · rw [ht] at h ⊢
    exact (contention_leaves source s).2.2 h
  · have e1 : s1 = afterFirst s := by rw [h1, ← announcingChannels_eq]; rfl
    have e2 : s2 = afterSecond s := by rw [h2, e1]; rfl
    have e3 : s3 = afterReassert s := by
      rw [h3, e1, e2, ← yieldingCount_eq, ← yieldingCount_eq]
      rfl
    have e4 : s4 = afterThird source s := by rw [h4, e3]; rfl
    rw [contention_eq, e4, ← afterThird_cfg source s]
    rfl
  · rw [firstStage, if_pos h, withdrawClaim, hu]
    rfl
  · rw [secondStage_own h ho, withdrawClaim, hu]
    rfl
  · rw [reassertOne_asks ho hs hr, hu]
    rfl
  · rw [pauseMotion_warning h, hgone]
    rfl
  · rw [pauseMotion_close (h.imp_left fun ⟨t, b, h⟩ => ⟨t, b, h⟩), hgone]
    rfl
  · have hu' : u = paused c source (.idle (settled c .part s)) s := by rw [hu, hgone]; rfl
    rw [pauseMotion_opening h, ← hu']
    refine ⟨fun ha => if_neg (by rw [ha]; exact Bool.false_ne_true), fun ha hj => ?_⟩
    rw [if_pos ha, openRequest_none hj]
    rfl
  · refine ⟨fun hlt => ?_, fun hle => ?_⟩
    · rw [pauseMotion_backoff_faults h (by rw [attemptOf, ← hn]; exact hlt), hgone]
      rfl
    · rw [pauseMotion_backoff_ends h (by rw [attemptOf, ← hn]; exact hle), hgone, hn]
      rfl

end
